-- ==== Sys2Proof/Word.lean ====
section
/-! DEFINITION. The word types of the line link (10.4): a byte, a two-byte field and a four-byte field.
Lengths, positions and counts that the part computes with are `Int` or `Nat`; only what the wire carries
as bits is a bit vector. -/

namespace Sys2Proof

/-- One byte of a frame. -/
abbrev Byte := BitVec 8

/-- A two-byte field of a frame. -/
abbrev Half := BitVec 16

/-- A four-byte field of a frame. -/
abbrev Word := BitVec 32

end Sys2Proof
end

