-- ==== Sys2Proof/Config.lean ====
section
/-! DEFINITION. The fixed sizes of the Arzel 2416 and the values its manual leaves open. A free value is an
opaque constant without a body: every statement about the part holds whatever it is. -/

namespace Sys2Proof.Config

/-- Lanes of the part, numbered 0..23 ("The part number states ... 24 lanes and 16 defect classes"). -/
def laneCount : Nat := 24

/-- Knife channels, one for each knife position 0..24. -/
def channelCount : Nat := 25

/-- Entry slots of the Feature Queue (R43). -/
def entrySlots : Nat := 1024

/-- Event slots of the Record Store (R166). -/
def eventSlots : Nat := 2048

/-- Record headers of the Record Store (R166). -/
def recordHeaders : Nat := 96

/-- Events carried by one full fragment of a reel record (R167). -/
def fragmentEvents : Nat := 64

/-- Map blocks outstanding at most (R32). -/
def outstandingMax : Nat := 7

/-- Notices the Notice Queue holds at most (10.6). -/
def noticeMax : Nat := 32

/-- Passing frames waiting for one port at most (R179). -/
def passingMax : Nat := 8

/-- The broadcast station. -/
def broadcast : Nat := 63

/-- The Welzuna Ethertype, 88B5h (10.1). -/
def welzunaEthertype : Half := 0x88B5

/-- FREE VALUE (notes/assumptions/20.md). The target field of a knife order that carries the park mark: 10.4 gives
the field two bytes and the manual states no value for it. -/
opaque knifeOrderParkField : Half

/-- FREE VALUE (notes/assumptions/21.md). The word that shows the Stop Scheduler's aim CUT in the status reply:
R182 shows the aim, 10.4 codes an entry number and an absent value, and no code is given for CUT. -/
opaque statusAimCut : Word

/-- FREE VALUE (notes/assumptions/22.md). The word that shows the target PARK in a KNIFE row of READ_TABLE: R96 shows
the target, and 10.4 gives a code for a position and for an absent value only. -/
opaque rowTargetPark : Word

/-- FREE VALUE (notes/assumptions/23.md). The kind byte of the reply to a request whose body is empty, so that it
carries no kind byte to repeat. -/
opaque replyKindOfEmpty : Byte

end Sys2Proof.Config
end

