-- ==== Sys2Proof/Syntax.lean ====
section
/-! DEFINITION. The commands of the part, one constructor for each row of spec/opcode_table.json, with the operands the
row's frame, request or event carries. Fields of frames are the bit vectors of 10.4. -/

namespace Sys2Proof

/-- The two Ethernet ports (10.1). -/
inductive Port where
  | a
  | b
  deriving DecidableEq, Repr

/-- The port whose link a frame entering on this port is forwarded to. -/
def Port.other : Port → Port
  | .a => .b
  | .b => .a

/-- How a Welzuna frame arrives: the port it came in on and the station and tag fields of its common header
(10.4). The frame kind and the body length follow from the command. -/
structure Rx where
  port : Port
  dst : Byte
  src : Byte
  tag : Half
  deriving DecidableEq, Repr

/-- One press map entry as a map block frame carries it, 14 bytes (10.4). -/
structure MapItem where
  rep : Word
  off : Half
  len : Half
  x0 : Half
  x1 : Half
  cls : Byte
  flags : Byte
  deriving DecidableEq, Repr

/-- A Welzuna line frame as it stands on the wire: the common header, and the bytes that follow the header (10.4).
`len` is the body length the header states; `rest` is what the frame really carries. -/
structure LineFrame where
  dst : Byte
  src : Byte
  kind : Byte
  len : Half
  tag : Half
  rest : List Byte
  deriving DecidableEq, Repr

/-- An Ethernet frame arriving on a port: one of another Ethertype, or a Welzuna line frame (R174). -/
inductive Frame where
  | foreign (ethertype : Half) (payload : List Byte)
  | line (f : LineFrame)
  deriving DecidableEq, Repr

/-- The commands. Of a table request or line command the operand `body` is what follows the request kind byte in the
frame: the fields, in ascending field number, in the sizes of 10.4. -/
inductive Instr where
  /-- POWER_ON (R175): the six strap pins as they are read. -/
  | powerOn (straps : BitVec 6)
  /-- PORT_LINK_CHANGE (R179): the port and whether it now has a link. -/
  | portLinkChange (port : Port) (up : Bool)
  /-- PASSING_FRAME (R174): any frame arriving complete, as its bytes stand. -/
  | passingFrame (port : Port) (f : Frame)
  /-- PORT_IDLE (R179): the port has finished what it was sending. -/
  | portIdle (port : Port)
  /-- COUNT_FRAME (R1): drive count and drive timestamp. -/
  | countFrame (rx : Rx) (c t : Word)
  /-- MARK_FRAME (R10): the latched count. -/
  | markFrame (rx : Rx) (cx : Word)
  /-- SIGHTING_FRAME (R54). -/
  | sightingFrame (rx : Rx) (cDet : Word) (kind cls : Byte) (len x0 x1 : Half)
  /-- KNIFE_REPORT (R86). -/
  | knifeReport (rx : Rx) (knife outcome : Byte) (position : Half) (parked : Byte)
  /-- MAP_BLOCK (R34): parent roll id, block number, flags, entry count, entries. -/
  | mapBlock (rx : Rx) (roll block : Word) (flags count : Byte) (items : List MapItem)
  /-- RECORD_HOLD (R170). -/
  | recordHold (rx : Rx)
  /-- RECORD_RELEASE (R170). -/
  | recordRelease (rx : Rx)
  /-- READ_STATUS (R182). -/
  | readStatus (rx : Rx) (body : List Byte)
  /-- READ_TABLE (R183): selector and index. -/
  | readTable (rx : Rx) (body : List Byte)
  /-- LOAD_MACHINE (R181): 26 fields. -/
  | loadMachine (rx : Rx) (body : List Byte)
  /-- LOAD_PEERS (R176): seven station numbers. -/
  | loadPeers (rx : Rx) (body : List Byte)
  /-- LOAD_BANK with the selector ACTIVE (R71): `body` is the fields after the selector. -/
  | loadBankActive (rx : Rx) (body : List Byte)
  /-- LOAD_BANK with the selector PENDING (R72): `body` is the fields after the selector. -/
  | loadBankPending (rx : Rx) (body : List Byte)
  /-- CANCEL_PENDING (R73). -/
  | cancelPending (rx : Rx) (body : List Byte)
  /-- LOAD_ROLL_HEADER (R23): 8 fields. -/
  | loadRollHeader (rx : Rx) (body : List Byte)
  /-- SET_LATERAL_OFFSET (R24): L. -/
  | setLateralOffset (rx : Rx) (body : List Byte)
  /-- RESET (R184). -/
  | reset (rx : Rx) (body : List Byte)
  /-- UNKNOWN_REQUEST (R180): a table request, or a line command where `line` is set, of the kind `code`. -/
  | unknownRequest (rx : Rx) (line : Bool) (code : Byte) (body : List Byte)
  /-- ROLL_START (R185). -/
  | rollStart (rx : Rx) (body : List Byte)
  /-- ROLL_END (R186). -/
  | rollEnd (rx : Rx) (body : List Byte)
  /-- MARK_RESYNC (R21): press mark m. -/
  | markResync (rx : Rx) (body : List Byte)
  /-- DOFF_NOW (R150). -/
  | doffNow (rx : Rx) (body : List Byte)
  /-- DOFF_COMPLETE (R152). -/
  | doffComplete (rx : Rx) (body : List Byte)
  /-- REMOVAL_REPORT (R134): pair count, pairs of lane and amount. -/
  | removalReport (rx : Rx) (body : List Byte)
  /-- RESUME (R137). -/
  | resume (rx : Rx) (body : List Byte)
  /-- KNIFE_RETRY (R95): knife number. -/
  | knifeRetry (rx : Rx) (body : List Byte)
  /-- SILENCE_TIMER_EXPIRY (R5). -/
  | silenceTimerExpiry
  /-- CONFIRM_TIMER_EXPIRY (R89): the knife number of the channel whose timer expires. -/
  | confirmTimerExpiry (knife : Nat)
  /-- REEL_RECORD_SENT (R169). -/
  | reelRecordSent
  /-- NOTICE_SENT (R189). -/
  | noticeSent
  /-- RESET_TAKES_EFFECT (R184): the strap pins as they are read again. -/
  | resetTakesEffect (straps : BitVec 6)
  deriving DecidableEq, Repr

end Sys2Proof
end

