-- ==== Sys2Proof/Decode.lean ====
section
/-! DEFINITION. The opcode table's bits: spec/opcode_table.json gives no row a fixed bit or a field ("n_rows_with_fixed": 0),
so no word spells a command. How the bytes of a line frame spell a command is 10.4's matter and stands in
Sys2Proof/Machine/Wire.lean. -/

namespace Sys2Proof

/-- The command that a word spells by the opcode table's bits: none, since no row of the table gives any. -/
def decodeTableWord (_nbits _w : Nat) : Option Instr := none

end Sys2Proof
end

