-- ==== Sys2Proof/Machine/Arith.lean ====
section
/-! DEFINITION. The arithmetic the manual names: signed differences of wrapping counts, and the roundings of its
conventions. Every division has a positive divisor. -/

namespace Sys2Proof.Machine

/-- A difference of two wire counts, modulo 2^32 and read as signed (R2). -/
def signedDiff (x y : Word) : Int := (x - y).toInt

/-- x / y rounded toward minus infinity, for y > 0. -/
def floorDiv (x y : Int) : Int := x / y

/-- x / y rounded toward plus infinity, for y > 0. -/
def ceilDiv (x y : Int) : Int := -((-x) / y)

/-- x / y rounded half up: a half goes toward plus infinity, for y > 0. -/
def roundHalfUp (x y : Int) : Int := (2 * x + y) / (2 * y)

/-- x / y rounded half away from zero, for y > 0. -/
def roundHalfAway (x y : Int) : Int := if 0 ≤ x then roundHalfUp x y else -(roundHalfUp (-x) y)

/-- x / y truncated toward zero. -/
def truncDiv (x y : Int) : Int := x.tdiv y

/-- Clamping to lo..hi. -/
def clamp (lo hi x : Int) : Int := max lo (min hi x)

/-- A stretched length or offset: x × (1,000,000 + E) / 1,000,000, half up (R13, R30). -/
def stretched (x e : Int) : Int := roundHalfUp (x * (1000000 + e)) 1000000

/-- The least and greatest of the signed 32-bit values. -/
def int32Min : Int := -2147483648
def int32Max : Int := 2147483647

/-- A non-negative number as a word. -/
def wNat (n : Nat) : Word := BitVec.ofNat 32 n

/-- A signed number as a word in two's complement. A position or distance that the model lets pass the word's range is shown modulo 2^32:
DESIGN CHOICE (notes/assumptions/60.md). -/
def wInt (i : Int) : Word := BitVec.ofInt 32 i

/-- Yes and set are coded 1, no and clear 0 (10.4). -/
def wBool (b : Bool) : Word := if b then 1 else 0

/-- All ones, the code of an absent value (10.4). -/
def wAbsent : Word := 0xFFFFFFFF

def wOptNat : Option Nat → Word
  | some n => wNat n
  | none => wAbsent

def wOptInt : Option Int → Word
  | some i => wInt i
  | none => wAbsent

/-- A list of lanes as one word in which bit i is set for lane i (10.4). -/
def wLanes (lanes : List Nat) : Word := lanes.foldl (fun w i => w ||| (1#32 <<< i)) 0

end Sys2Proof.Machine
end

