-- ==== Sys2Proof/Machine/State.lean ====
section
/-! DEFINITION. The state of the Arzel 2416: every register, counter, list, table, buffer and timer that the chapters
give its blocks, as plain data, with the queue of commands waiting. A count the manual keeps beside the list it counts
(free, tagged and served counts, the uncertain-entries indicator, free slots and headers) is computed from the list. -/

namespace Sys2Proof.Machine

/-! ### Position Unit (1.1) -/

/-- Supervision of the count stream. -/
inductive EncoderState where
  | noBase
  | tracking
  | silent
  deriving DecidableEq, Repr

/-- Direction estimate (R6). -/
inductive Direction where
  | forward
  | reverse
  | standstill
  deriving DecidableEq, Repr

/-- One interval of the history: an advance in dmm and a time in µs. -/
structure Interval where
  adv : Int
  time : Nat
  deriving DecidableEq, Repr

structure PositionUnit where
  enc : EncoderState
  cPrev : Word
  tPrev : Word
  /-- Web position U in dmm. -/
  u : Int
  /-- Length remainder, 0..PPM-1. -/
  acc : Int
  /-- Interval history, oldest first, at most 8. -/
  hist : List Interval
  /-- Speed estimate in mm/s. -/
  v : Nat
  dir : Direction
  /-- Silence timer: stopped, or the S_enc in ms it was started with. -/
  silence : Option Nat
  deriving DecidableEq, Repr

/-! ### Mark Tracker (1.5) -/

inductive TrackState where
  | seeking
  | locked
  | coasting
  | lost
  | relocking
  deriving DecidableEq, Repr

/-- The last counted mark: its index k_last and its position u_last. -/
structure LastMark where
  k : Nat
  u : Int
  deriving DecidableEq, Repr

structure MarkTracker where
  state : TrackState
  last : Option LastMark
  lastReal : Bool
  miss : Nat
  /-- Stretch estimate E in ppm. -/
  e : Int
  /-- Expected repeat R_exp in dmm. -/
  rExp : Int
  deriving DecidableEq, Repr

/-! ### Features (2.2, 3.1) -/

/-- A closed cross-direction extent [x0, x1]. -/
structure Extent where
  x0 : Int
  x1 : Int
  deriving DecidableEq, Repr

/-- What a feature is: a DEFECT of a class, a SPLICE, or a span of kind UNMAPPED or BLIND. -/
inductive FeatKind where
  | defect (cls : Nat)
  | splice
  | unmapped
  | blind
  deriving DecidableEq, Repr

inductive Origin where
  | map
  | inline
  | both
  | span
  deriving DecidableEq, Repr

/-! ### Map Store (2.1, 2.5, 2.6) -/

/-- A roll header (2.1). -/
structure Header where
  rollId : Word
  nT : Nat
  rNom : Nat
  reversed : Bool
  mirror : Bool
  w : Nat
  f : Nat
  l : Int
  deriving DecidableEq, Repr

/-- A press map entry as kept after screening (R26): its kind is DEFECT of a class, or SPLICE. -/
structure PressEntry where
  rep : Nat
  off : Nat
  len : Nat
  ext : Extent
  kind : FeatKind
  deriving DecidableEq, Repr

/-- The content of a VALID slot. -/
structure Block where
  num : Nat
  dense : Bool
  entries : List PressEntry
  clamped : Nat
  dropped : Nat
  deriving DecidableEq, Repr

structure MapStore where
  current : Option Header
  next : Option Header
  /-- 16 slots, numbered set × 2 + way; `none` is INVALID. -/
  slots : List (Option Block)
  /-- The LRU mark of each of the 8 sets: `true` names way 1. -/
  lru : List Bool
  /-- Outstanding block requests, oldest first. -/
  outstanding : List Nat
  /-- The expansion frontier f; none while no roll is current. -/
  frontier : Option Nat
  /-- The expansion state is PAUSED. -/
  paused : Bool
  /-- The unmapped run. -/
  run : Bool
  deriving DecidableEq, Repr

/-! ### Feature Queue (3.1) and station logic (6.4) -/

inductive Action where
  | ignore
  | log
  | flag
  | stop
  | reject
  deriving DecidableEq, Repr

inductive FlagOutcome where
  | none
  | flagged
  | shared
  | notFlagged
  deriving DecidableEq, Repr

/-- One item of an entry's lane actions (R101). -/
structure LaneItem where
  lane : Nat
  action : Action
  notRemoved : Bool
  outcome : FlagOutcome
  deriving DecidableEq, Repr

/-- The fields an entry has in either list (3.1). -/
structure Feature where
  /-- Entry number: the slot the entry occupies. -/
  num : Nat
  origin : Origin
  kind : FeatKind
  len : Nat
  /-- Press cross extent, of MAP and BOTH entries. -/
  press : Option Extent
  /-- Slitter cross extent, of INLINE and BOTH entries. -/
  slit : Option Extent
  /-- Press repeat, of MAP and BOTH entries. -/
  rep : Option Nat
  suspect : Bool
  served : Bool
  deriving DecidableEq, Repr

/-- An entry of the Forecast list: anchored on mark index `k`, `off` behind it. -/
structure Forecast where
  feat : Feature
  k : Nat
  off : Nat
  deriving DecidableEq, Repr

/-- An entry of the Settled list: its position, its lane actions and its four station markers (R64). -/
structure Settled where
  feat : Feature
  p : Int
  items : List LaneItem
  knife : Bool
  table : Bool
  flag : Bool
  nip : Bool
  deriving DecidableEq, Repr

structure FeatureQueue where
  forecast : List Forecast
  settled : List Settled
  /-- Highest camera position reached in the roll (R58). -/
  hCam : Option Int
  /-- Flag history, lanes 0..23 (R106). -/
  flags : List (Option Int)
  deriving DecidableEq, Repr

/-! ### Lane Plan Tables (4.1, 4.2) -/

structure LanePlan where
  /-- The class actions, for classes 0..15. -/
  actions : List Action
  splice : Action
  quota : Nat
  deriving DecidableEq, Repr

structure Bank where
  job : Word
  n : Nat
  nSet : Nat
  nApp : Nat
  cOff : Nat
  /-- The make-up policy is MAKE_UP. -/
  makeUp : Bool
  xMax : Nat
  /-- Knife positions k_0..k_n. -/
  knives : List Nat
  /-- Lanes 0..n-1. -/
  lanes : List LanePlan
  deriving DecidableEq, Repr

/-- The two banks: `none` is EMPTY; `some` is VALID for ACTIVE and ARMED for PENDING (R70). -/
structure LanePlans where
  active : Option Bank
  pending : Option Bank
  deriving DecidableEq, Repr

/-! ### Knife Channels (5.1) -/

inductive KnifeState where
  | idle
  | moving
  | inPosition
  | drifted
  | parked
  | fault
  deriving DecidableEq, Repr

inductive KnifeTarget where
  | pos (n : Nat)
  | park
  deriving DecidableEq, Repr

inductive KnifeCause where
  | none
  | reported
  | misplaced
  | timeout
  deriving DecidableEq, Repr

structure KnifeChannel where
  state : KnifeState
  target : Option KnifeTarget
  reported : Option Nat
  reportedParked : Bool
  retries : Nat
  /-- Confirm timer: stopped, or the T_knife in ms it was started with. -/
  timer : Option Nat
  cause : KnifeCause
  deriving DecidableEq, Repr

/-! ### Stop Scheduler (7.1) -/

inductive StopState where
  | idle
  | requested
  | correcting
  | halted
  deriving DecidableEq, Repr

inductive StopKind where
  | defect
  | cut
  deriving DecidableEq, Repr

inductive Aim where
  | entry (num : Nat)
  | cut
  deriving DecidableEq, Repr

structure StopScheduler where
  state : StopState
  kind : Option StopKind
  aim : Option Aim
  /-- The MODEL's own: the entry named by `aim` has left the queue, so a later holder of its slot is another entry. -/
  aimGone : Bool
  seenOutside : Bool
  uT : Option Int
  pW : Option Int
  late : Bool
  overshoot : Int
  jogs : Nat
  haltError : Option Int
  cutHeld : Bool
  /-- d_s as last formed (R122). -/
  dS : Option Int
  deriving DecidableEq, Repr

/-! ### Set Controller (8.1) -/

inductive SetState where
  | noSet
  | preparing
  | running
  | approach
  | cutStop
  | atCut
  | changing
  deriving DecidableEq, Repr

inductive StartMode where
  | thread
  | continue
  deriving DecidableEq, Repr

inductive HeldReason where
  | knifeFault
  | recordSlots
  | recordHeaders
  deriving DecidableEq, Repr

structure SetController where
  state : SetState
  num : Nat
  mode : Option StartMode
  pStart : Option Int
  kBase : Option Nat
  x : Nat
  xFrozen : Bool
  kCut : Option Nat
  /-- Cut mark position: u_mark(K_cut) once that mark has been counted. -/
  cutMark : Option Int
  /-- P_cut as fixed at the cut; `none` while P_cut is not frozen. -/
  frozenCut : Option Int
  /-- K_cut of the set last cut in this roll (R145 reads it for the next set's K_base). -/
  lastKCut : Option Nat
  /-- The MODEL's own: the marks counted in this roll with their positions, newest first, so that u_mark(K_cut) is known also
  where mark K_cut was counted before its set opened (R146; notes/assumptions/34.md). -/
  counted : List LastMark
  /-- Removal sums removed_0..removed_23. -/
  removed : List Nat
  held : List HeldReason
  deriving DecidableEq, Repr

/-! ### Record Store (9.1, 9.4) -/

inductive EventKind where
  | defect
  | flagged
  | removed
  | splice
  | unmapped
  | blind
  | drift
  deriving DecidableEq, Repr

structure Event where
  kind : EventKind
  cls : Option Nat
  gross : Nat
  len : Nat
  origin : Option Origin
  rep : Option Nat
  suspect : Bool
  confirmed : Bool
  notRemoved : Bool
  flagShared : Bool
  rejectCause : Bool
  deriving DecidableEq, Repr

structure Statuses where
  reject : Bool
  short : Bool
  unverified : Bool
  removalMissed : Bool
  edgeDrift : Bool
  truncated : Bool
  rollEnd : Bool
  deriving DecidableEq, Repr

/-- What a record receives at its closing (R163). -/
structure Totals where
  gross : Nat
  removed : Nat
  net : Nat
  repeats : Nat
  deriving DecidableEq, Repr

/-- A record header with its event list. The record is OPEN while it has no totals and CLOSED once it has them. -/
structure ReelRecord where
  set : Nat
  lane : Nat
  job : Word
  roll : Word
  quota : Nat
  totals : Option Totals
  statuses : Statuses
  events : List Event
  notStored : Nat
  fragments : Nat
  deriving DecidableEq, Repr

/-- The reel-record frame in flight: the header its record has, and what R169 needs of it. -/
structure RecordInFlight where
  header : Nat
  fragment : Nat
  last : Bool
  deriving DecidableEq, Repr

structure RecordStore where
  /-- 96 headers; `none` is free. -/
  headers : List (Option ReelRecord)
  /-- Header numbers of the closed records, in order of closing. -/
  sendList : List Nat
  /-- The flow state is HELD. -/
  held : Bool
  inFlight : Option RecordInFlight
  deriving DecidableEq, Repr

/-! ### Tables (10.2, 10.5) -/

/-- The peer table: a station number for each role (R176). -/
structure PeerTable where
  drive : Nat
  markSensor : Nat
  inspection : Nat
  knifePositioner : Nat
  lineController : Nat
  mapServer : Nat
  recordReceiver : Nat
  deriving DecidableEq, Repr

/-- The machine table (R181), fields 1 to 26 in order. -/
structure MachineTable where
  ppm : Nat
  dMax : Nat
  sEnc : Nat
  dCam : Nat
  dKn : Nat
  dSt : Nat
  dFl : Nat
  dNip : Nat
  wMk : Nat
  aD : Nat
  mSt : Nat
  tPos : Nat
  wTab : Nat
  vApp : Nat
  mMd : Nat
  mCd : Nat
  g : Nat
  fMin : Nat
  h : Nat
  p : Nat
  pLo : Nat
  pHi : Nat
  tKnife : Nat
  rc : Nat
  kTol : Nat
  flagStation : Nat
  deriving DecidableEq, Repr

/-! ### Notice Queue (10.6) -/

inductive NoticeKind where
  | stopLate
  | stopMissed
  | encoderJump
  | encoderSilent
  | trackingLost
  | knifeFault
  | knifeDrift
  | queueFull
  | unmappedBegin
  | blockFault
  | setReady
  | setHeld
  | trackingRestored
  | uncertainOn
  | uncertainOff
  | expansionPaused
  | expansionResumed
  deriving DecidableEq, Repr

/-- A notice: its kind, the U of the moment it was queued, and the three words of its value (R187, R189). -/
structure Notice where
  kind : NoticeKind
  u : Int
  v0 : Word
  v1 : Word
  v2 : Word
  deriving DecidableEq, Repr

structure NoticeQueue where
  /-- Notices waiting, in order of joining; each one's priority is that of its kind. -/
  waiting : List Notice
  inFlight : Option Notice
  /-- The dropped mark. -/
  dropped : Bool
  deriving DecidableEq, Repr

/-! ### Line Link Interface (10.1 to 10.4) -/

/-- Reasons of a refusal (R178), in the order of its table. -/
inductive RefusalReason where
  | ownSource
  | kind
  | length
  | peer
  | backlog
  | range
  | unsolicited
  | late
  deriving DecidableEq, Repr

/-- The last-refusal capture (R178). -/
structure Capture where
  src : Byte
  kind : Byte
  reason : RefusalReason
  deriving DecidableEq, Repr

/-- Reply statuses (R180), in the order of their codes. -/
inductive ReplyStatus where
  | accepted
  | busy
  | invalid
  | notReady
  | notHalted
  | unknown
  deriving DecidableEq, Repr

/-- The body of a reply: none, a status body, or a table row with its selector and index (10.4). -/
inductive ReplyBody where
  | empty
  | status (items : List Word)
  | row (selector index : Nat) (items : List Word)
  deriving DecidableEq, Repr

/-- The five classes of own frames, in the order the arbiter serves them (R179). -/
inductive OwnClass where
  | order
  | reply
  | blockRequest
  | notice
  | record
  deriving DecidableEq, Repr

/-- The content of an own frame (10.4). -/
inductive OwnBody where
  | stop (kind : StopKind) (target : Int) (late : Bool) (overshoot : Int)
  | cancel
  | jog (distance : Int)
  | speed (limit : Nat)
  | cut (set lanes : Nat) (position haltError : Int)
  | flag (set : Nat) (lanes : List Nat) (position lateness : Int)
  | knife (knife : Nat) (target : KnifeTarget)
  | blockRequest (roll : Word) (block : Nat)
  | record (r : ReelRecord) (fragment : Nat) (last : Bool) (events : List Event)
  | notice (n : Notice) (dropped : Bool)
  | reply (kind : Byte) (status : ReplyStatus) (index : Nat) (body : ReplyBody)
  deriving DecidableEq, Repr

/-- Where an own frame stands at one port. -/
inductive Stage where
  | waiting
  | sending
  | gone
  deriving DecidableEq, Repr

/-- An own frame that has not gone out on both ports. -/
structure OwnFrame where
  cls : OwnClass
  dst : Nat
  tag : Half
  body : OwnBody
  a : Stage
  b : Stage
  deriving DecidableEq, Repr

structure PortState where
  link : Bool
  /-- Passing frames waiting for this port, first arrived first. -/
  passing : List Frame
  /-- The passing frame being forwarded on this port. -/
  tx : Option Frame
  drops : Nat
  deriving DecidableEq, Repr

structure LineLink where
  /-- The six strap pins as last read (R175). -/
  straps : BitVec 6
  portA : PortState
  portB : PortState
  /-- Own frames not yet gone out on both ports, in order of queuing. -/
  own : List OwnFrame
  seq : Half
  capture : Option Capture
  refusals : Nat
  ordersDropped : Nat
  /-- A RESET has been taken and has not taken effect. -/
  resetting : Bool
  /-- The RESET discarded the reel-record frame in flight, so its owner takes no sent report (R184). -/
  voidRecord : Bool
  /-- The RESET discarded the notice in flight, so its owner takes no sent report (R184). -/
  voidNotice : Bool
  deriving DecidableEq, Repr

/-! ### The whole part -/

/-- The state of the part. -/
structure State where
  /-- Commands waiting, first in, first out. -/
  pending : List Instr
  /-- The MODEL's own: for each coming position event, whether the Stop Scheduler's look is made before the station
  logic's walk (R105 leaves the order open); when the list has run out, the walk is made first. -/
  lookFirst : List Bool
  machine : Option MachineTable
  peers : Option PeerTable
  pu : PositionUnit
  mt : MarkTracker
  ms : MapStore
  fq : FeatureQueue
  lpt : LanePlans
  /-- Knife channels 0..24. -/
  knives : List KnifeChannel
  ss : StopScheduler
  sc : SetController
  rs : RecordStore
  nq : NoticeQueue
  ll : LineLink
  deriving DecidableEq, Repr

/-- The part never faults: the manual gives every frame, request and event an effect, a refusal that the part itself
records, or a discard. No constructor, so no meaning can answer with a fault; that is safe, since nothing stops. -/
inductive Fault where
  deriving DecidableEq, Repr

/-- Why the model would give no meaning to a command. -/
inductive Refusal where
  /-- Raised by an arm of `exec` for a command that has no meaning in the model; safe, since the machine stops there. No
  arm raises it. -/
  | notModelled (mnemonic : String)
  deriving DecidableEq, Repr

/-! ### Power-on values -/

/-- R9. -/
def PositionUnit.init : PositionUnit :=
  { enc := .noBase, cPrev := 0, tPrev := 0, u := 0, acc := 0, hist := [], v := 0, dir := .standstill, silence := none }

/-- R22. -/
def MarkTracker.init : MarkTracker :=
  { state := .seeking, last := none, lastReal := false, miss := 0, e := 0, rExp := 0 }

/-- R42. -/
def MapStore.init : MapStore :=
  { current := none, next := none, slots := List.replicate 16 none, lru := List.replicate 8 false, outstanding := []
    frontier := none, paused := false, run := false }

/-- R67 and R117. -/
def FeatureQueue.init : FeatureQueue :=
  { forecast := [], settled := [], hCam := none, flags := List.replicate Config.laneCount none }

/-- R77. -/
def LanePlans.init : LanePlans := { active := none, pending := none }

/-- R97. -/
def KnifeChannel.init : KnifeChannel :=
  { state := .idle, target := none, reported := none, reportedParked := false, retries := 0, timer := none, cause := .none }

/-- R139. -/
def StopScheduler.init : StopScheduler :=
  { state := .idle, kind := none, aim := none, aimGone := false, seenOutside := false, uT := none, pW := none, late := false
    overshoot := 0, jogs := 0, haltError := none, cutHeld := false, dS := none }

/-- R156. -/
def SetController.init : SetController :=
  { state := .noSet, num := 1, mode := none, pStart := none, kBase := none, x := 0, xFrozen := false, kCut := none
    cutMark := none, frozenCut := none, lastKCut := none, counted := [], removed := List.replicate Config.laneCount 0, held := [] }

/-- R173. -/
def RecordStore.init : RecordStore :=
  { headers := List.replicate Config.recordHeaders none, sendList := [], held := false, inFlight := none }

/-- R190. -/
def NoticeQueue.init : NoticeQueue := { waiting := [], inFlight := none, dropped := false }

/-- A port after power-on: nothing waiting; DESIGN CHOICE (notes/assumptions/2.md): it has its link. -/
def PortState.init : PortState := { link := true, passing := [], tx := none, drops := 0 }

/-- R190. -/
def LineLink.init (straps : BitVec 6) : LineLink :=
  { straps := straps, portA := PortState.init, portB := PortState.init, own := [], seq := 0, capture := none, refusals := 0
    ordersDropped := 0, resetting := false, voidRecord := false, voidNotice := false }

/-- The machine right after reset: every block at its power-on values. DESIGN CHOICE (notes/assumptions/1.md): the strap
pins read station number 1, since the manual fixes no number; (notes/assumptions/3.md): no order is drawn for R105. -/
def State.reset : State :=
  { pending := [], lookFirst := [], machine := none, peers := none, pu := PositionUnit.init, mt := MarkTracker.init
    ms := MapStore.init, fq := FeatureQueue.init, lpt := LanePlans.init
    knives := List.replicate Config.channelCount KnifeChannel.init, ss := StopScheduler.init, sc := SetController.init
    rs := RecordStore.init, nq := NoticeQueue.init, ll := LineLink.init 1 }

end Sys2Proof.Machine
end

