-- ==== Sys2Proof/Machine/Ops.lean ====
section
/-! DEFINITION. The shared operations of the Line Link Interface and the Notice Queue: queuing own frames and orders,
forwarding passing frames, capturing refusals, queuing and passing notices (R175, R178, R179, R187 to R189). -/

namespace Sys2Proof.Machine

/-! ### Stations -/

/-- The part's station number: a strap value of 1..62; 0 and 63 give it none (R175). -/
def State.station (s : State) : Option Nat :=
  if 1 ≤ s.ll.straps.toNat ∧ s.ll.straps.toNat ≤ 62 then some s.ll.straps.toNat else none

/-- The station of a role of the peer table; broadcast while the table is empty (R176 says so of notices; for the other
frames no table is DESIGN CHOICE, notes/assumptions/13.md). -/
def State.role (s : State) (role : PeerTable → Nat) : Nat :=
  match s.peers with
  | some t => role t
  | none => Config.broadcast

/-! ### Ports -/

def LineLink.port (l : LineLink) : Port → PortState
  | .a => l.portA
  | .b => l.portB

def LineLink.setPort (l : LineLink) (p : Port) (x : PortState) : LineLink :=
  match p with
  | .a => { l with portA := x }
  | .b => { l with portB := x }

def OwnFrame.stage (f : OwnFrame) : Port → Stage
  | .a => f.a
  | .b => f.b

def OwnFrame.setStage (f : OwnFrame) (p : Port) (x : Stage) : OwnFrame :=
  match p with
  | .a => { f with a := x }
  | .b => { f with b := x }

/-- The frame has gone out on both ports. -/
def OwnFrame.out (f : OwnFrame) : Bool := f.a == .gone && f.b == .gone

/-- How many own frames of a class its waiting list holds (R179). -/
def OwnClass.capacity : OwnClass → Nat
  | .order => 64
  | .reply => 16
  | .blockRequest => 7
  | .notice => 1
  | .record => 1

/-- The order in which the arbiter serves the classes (R179). -/
def OwnClass.rank : OwnClass → Nat
  | .order => 0
  | .reply => 1
  | .blockRequest => 2
  | .notice => 3
  | .record => 4

/-- Own frames of a class, counted from their queuing until they have gone out on both ports (R179). -/
def LineLink.count (l : LineLink) (c : OwnClass) : Nat := (l.own.filter (fun f => f.cls == c)).length

/-- The class has room for one more frame. -/
def LineLink.room (l : LineLink) (c : OwnClass) : Bool := l.count c < c.capacity

/-- The part queues own frames: it has a station number (R175), and no RESET waits to take effect (R184). -/
def State.canQueue (s : State) : Bool := s.station.isSome && !s.ll.resetting

/-- Where a frame newly queued stands at a port: a port without link counts it as gone out at once (R179). -/
def PortState.newStage (p : PortState) : Stage := if p.link then .waiting else .gone

/-- Queue an own frame with the Line Link Interface (R179): it joins the waiting list of both ports under the next
sequence number, or, a reply, under the tag of its request. A full class drops the frame; of an order the drop is
counted. -/
def queueOwn (c : OwnClass) (dst : Nat) (tag : Option Half) (body : OwnBody) (s : State) : State :=
  if s.canQueue then
    if s.ll.room c then
      let f : OwnFrame :=
        { cls := c, dst := dst, tag := tag.getD s.ll.seq, body := body, a := s.ll.portA.newStage, b := s.ll.portB.newStage }
      { s with ll := { s.ll with own := if f.out then s.ll.own else s.ll.own ++ [f], seq := s.ll.seq + 1 } }
    else if c = .order then { s with ll := { s.ll with ordersDropped := s.ll.ordersDropped + 1 } }
    else s
  else s

/-- An order to the DRIVE station. -/
def driveOrder (body : OwnBody) (s : State) : State := queueOwn .order (s.role (·.drive)) none body s

/-- A frame forwarded to a port: discarded without link, dropped and counted when 8 wait already (R174, R179). -/
def forward (p : Port) (f : Frame) (s : State) : State :=
  let q := s.ll.port p
  if q.link then
    if q.passing.length < Config.passingMax then
      { s with ll := s.ll.setPort p { q with passing := q.passing ++ [f] } }
    else { s with ll := s.ll.setPort p { q with drops := q.drops + 1 } }
  else s

/-- A refusal of a taken frame (R178): the capture is replaced whole, and the count rises by one and stops at 65,535. -/
def refuse (src kind : Byte) (reason : RefusalReason) (s : State) : State :=
  { s with
    ll := { s.ll with capture := some { src := src, kind := kind, reason := reason }
                      refusals := min 65535 (s.ll.refusals + 1) } }

/-! ### Notices -/

/-- The priority of a notice kind, 0 URGENT to 3 LOW (10.6). -/
def NoticeKind.priority : NoticeKind → Nat
  | .stopLate | .stopMissed | .encoderJump | .encoderSilent => 0
  | .trackingLost | .knifeFault | .knifeDrift | .queueFull => 1
  | .unmappedBegin | .blockFault | .setReady | .setHeld => 2
  | .trackingRestored | .uncertainOn | .uncertainOff | .expansionPaused | .expansionResumed => 3

/-- The notice kind's code (10.4). -/
def NoticeKind.code : NoticeKind → Nat
  | .stopLate => 1
  | .stopMissed => 2
  | .encoderJump => 3
  | .encoderSilent => 4
  | .trackingLost => 5
  | .knifeFault => 6
  | .knifeDrift => 7
  | .queueFull => 8
  | .unmappedBegin => 9
  | .blockFault => 10
  | .setReady => 11
  | .setHeld => 12
  | .trackingRestored => 13
  | .uncertainOn => 14
  | .uncertainOff => 15
  | .expansionPaused => 16
  | .expansionResumed => 17

/-- The lowest priority present among waiting notices, as the greatest priority code. -/
def lowestPriority (l : List Notice) : Nat := l.foldl (fun m n => max m n.kind.priority) 0

/-- The highest priority present among waiting notices, as the least priority code. -/
def highestPriority (l : List Notice) : Nat := l.foldl (fun m n => min m n.kind.priority) 3

/-- Remove the newest notice of a priority. -/
def dropNewest (prio : Nat) (l : List Notice) : List Notice :=
  (l.reverse.eraseP (fun n => n.kind.priority == prio)).reverse

/-- A notice joining a full queue (R188): it displaces the newest notice of the lowest priority present when that priority is
below its own, and is dropped otherwise. -/
def displace (n : Notice) (l : List Notice) : List Notice :=
  if n.kind.priority < lowestPriority l then dropNewest (lowestPriority l) l ++ [n] else l

/-- Queue a notice with its value and the U of the moment (R187, R188). While the part has no station number it
queues none (R189), and none while a RESET waits to take effect (R184). -/
def queueNotice (kind : NoticeKind) (v0 v1 v2 : Word) (s : State) : State :=
  if s.canQueue then
    let n : Notice := { kind := kind, u := s.pu.u, v0 := v0, v1 := v1, v2 := v2 }
    if s.nq.waiting.length < Config.noticeMax then
      { s with nq := { s.nq with waiting := s.nq.waiting ++ [n] } }
    else { s with nq := { s.nq with waiting := displace n s.nq.waiting, dropped := true } }
  else s

/-- The notice that is passed next: the oldest of the highest priority present (R187). -/
def nextNotice (l : List Notice) : Option Notice := l.find? (fun n => n.kind.priority == highestPriority l)

/-- Pass a notice to the Line Link Interface (R189): it leaves the queue, carries the dropped mark, and is in flight. -/
def passNotice (n : Notice) (s : State) : State :=
  let s1 := queueOwn .notice (s.role (·.lineController)) none (.notice n s.nq.dropped) s
  { s1 with nq := { waiting := s.nq.waiting.erase n, inFlight := some n, dropped := false } }

/-- Both ports are without link, so that an own frame goes out as it is queued (R179). -/
def State.noLink (s : State) : Bool := !s.ll.portA.link && !s.ll.portB.link

/-- Pass notices while none is in flight and one waits (R187, R189). Where neither port has link a notice goes out as it is
passed, and the next is passed in turn. -/
def pumpNotices : Nat → State → State
  | 0, s => s
  | fuel + 1, s =>
    if s.canQueue ∧ s.nq.inFlight = none ∧ s.ll.room .notice then
      match nextNotice s.nq.waiting with
      | none => s
      | some n =>
        if s.noLink then
          let s1 := passNotice n s
          pumpNotices fuel { s1 with nq := { s1.nq with inFlight := none } }
        else passNotice n s
    else s

/-- The end of an event: the head of the highest priority is passed when no notice is in flight, once every notice
queued at the event has joined (R187). -/
def endEvent (s : State) : State := pumpNotices (s.nq.waiting.length + 1) s

end Sys2Proof.Machine
end

