-- ==== Sys2Proof/Machine/Queue.lean ====
section
/-! DEFINITION. The Feature Queue's lists and pool (3.1, 3.2, 3.5, 3.6): slots, joining in order, tags, leaving; and the
pacing of expansion against the free count (R39). -/

namespace Sys2Proof.Machine

/-- Free entry slots (R43). -/
def FeatureQueue.free (q : FeatureQueue) : Nat := Config.entrySlots - (q.forecast.length + q.settled.length)

/-- Entries that carry the SUSPECT tag (R63). -/
def FeatureQueue.tagged (q : FeatureQueue) : Nat :=
  (q.forecast.filter (·.feat.suspect)).length + (q.settled.filter (·.feat.suspect)).length

/-- Entries whose served mark is set (7.1). -/
def FeatureQueue.servedCount (q : FeatureQueue) : Nat :=
  (q.forecast.filter (·.feat.served)).length + (q.settled.filter (·.feat.served)).length

/-- The slots occupied. -/
def FeatureQueue.nums (q : FeatureQueue) : List Nat := q.forecast.map (·.feat.num) ++ q.settled.map (·.feat.num)

/-- The first number from `n` on that is not used, looking at most `fuel` numbers further. -/
def firstUnused (used : List Nat) : Nat → Nat → Nat
  | 0, n => n
  | fuel + 1, n => if used.contains n then firstUnused used fuel (n + 1) else n

/-- The lowest-numbered free slot (R43). -/
def FeatureQueue.freeSlot (q : FeatureQueue) : Nat := firstUnused q.nums q.nums.length 0

def FeatureQueue.findSettled (q : FeatureQueue) (num : Nat) : Option Settled := q.settled.find? (fun e => e.feat.num == num)

def FeatureQueue.findForecast (q : FeatureQueue) (num : Nat) : Option Forecast :=
  q.forecast.find? (fun e => e.feat.num == num)

/-- The order of the Forecast list: by mark index, then offset (R45). -/
def Forecast.le (x y : Forecast) : Bool := x.k < y.k || (x.k == y.k && x.off ≤ y.off)

/-- Insert in order, after those of equal key (R45). -/
def insertForecast (e : Forecast) : List Forecast → List Forecast
  | [] => [e]
  | x :: t => if x.le e then x :: insertForecast e t else e :: x :: t

/-- Insert in order, after those of equal position (R45). -/
def insertSettled (e : Settled) : List Settled → List Settled
  | [] => [e]
  | x :: t => if x.p ≤ e.p then x :: insertSettled e t else e :: x :: t

/-- Change the Settled entry of a number; its place in the list stands. -/
def FeatureQueue.modifySettled (num : Nat) (f : Settled → Settled) (q : FeatureQueue) : FeatureQueue :=
  { q with settled := q.settled.map (fun e => if e.feat.num = num then f e else e) }

def FeatureQueue.modifyForecast (num : Nat) (f : Forecast → Forecast) (q : FeatureQueue) : FeatureQueue :=
  { q with forecast := q.forecast.map (fun e => if e.feat.num = num then f e else e) }

def changeSettled (num : Nat) (f : Settled → Settled) (s : State) : State := { s with fq := s.fq.modifySettled num f }

def Feature.tag (f : Feature) : Feature := { f with suspect := true }

def Settled.tag (e : Settled) : Settled := { e with feat := e.feat.tag }

def Forecast.tag (e : Forecast) : Forecast := { e with feat := e.feat.tag }

def Settled.setServed (b : Bool) (e : Settled) : Settled := { e with feat := { e.feat with served := b } }

def Forecast.setServed (b : Bool) (e : Forecast) : Forecast := { e with feat := { e.feat with served := b } }

/-- The notices of R63: UNCERTAIN_ON when the tagged count has risen from 0, UNCERTAIN_OFF when it has fallen to 0. -/
def noticeTags (before : Nat) (s : State) : State :=
  if before = 0 ∧ s.fq.tagged ≠ 0 then queueNotice .uncertainOn (wNat s.fq.tagged) 0 0 s
  else if before ≠ 0 ∧ s.fq.tagged = 0 then queueNotice .uncertainOff 0 0 0 s
  else s

/-- The report of a free count that has changed (R39, R43): EXPANDING becomes PAUSED below P_lo, PAUSED becomes EXPANDING
from P_hi on, each with its notice. -/
def reportFree (s : State) : State :=
  match s.machine with
  | none => s
  | some m =>
    if s.ms.paused = false ∧ s.fq.free < m.pLo then
      queueNotice .expansionPaused (wNat s.fq.free) 0 0 { s with ms := { s.ms with paused := true } }
    else if s.ms.paused = true ∧ m.pHi ≤ s.fq.free then
      queueNotice .expansionResumed (wNat s.fq.free) 0 0 { s with ms := { s.ms with paused := false } }
    else s

/-- Every entry of both lists takes the SUSPECT tag (R4, R5, R62). -/
def tagAll (s : State) : State :=
  noticeTags s.fq.tagged
    { s with fq := { s.fq with forecast := s.fq.forecast.map Forecast.tag, settled := s.fq.settled.map Settled.tag } }

/-- An entry takes the SUSPECT tag. -/
def tagSettled (num : Nat) (s : State) : State := noticeTags s.fq.tagged (changeSettled num Settled.tag s)

/-- A Settled entry joins in order (R45); the caller has found room and numbered it with the free slot. Where the joining both
raises the tagged count from 0 (R63) and takes the free count below P_lo (R39), UNCERTAIN_ON is queued first: DESIGN CHOICE
(notes/assumptions/47.md). -/
def joinSettled (e : Settled) (s : State) : State :=
  reportFree (noticeTags s.fq.tagged { s with fq := { s.fq with settled := insertSettled e s.fq.settled } })

/-- An entry leaves the queue (R65): it is removed from its list and its slot is free, the free count is reported, the tagged
count falls if it was tagged, and an aim at it stands for an entry that is gone. -/
def leave (num : Nat) (s : State) : State :=
  let s1 : State := { s with
    fq := { s.fq with forecast := s.fq.forecast.filter (fun e => e.feat.num != num)
                      settled := s.fq.settled.filter (fun e => e.feat.num != num) }
    ss := if s.ss.aim = some (.entry num) then { s.ss with aimGone := true } else s.ss }
  noticeTags s.fq.tagged (reportFree s1)

/-- Both lists emptied at a reset of the roll, with UNCERTAIN_OFF if the indicator was true (R67). -/
def clearQueue (s : State) : State :=
  noticeTags s.fq.tagged { s with fq := { s.fq with forecast := [], settled := [] } }

end Sys2Proof.Machine
end

