-- ==== Sys2Proof/Machine/MapStore.lean ====
section
/-! DEFINITION. The Map Store (chapter 2): from press repeat to slitter mark, the block store, requests, the expansion
frontier and late handling. -/

namespace Sys2Proof.Machine

/-! ### From press repeat to slitter mark (2.3) -/

/-- The press repeat r_j of slitter mark j as a number, in or outside the roll (R28). -/
def Header.repeatOf (h : Header) (j : Nat) : Int := if h.reversed then (h.f : Int) - j - 1 else (h.f : Int) + j

/-- The press repeat of slitter mark j, none outside the roll (R28). -/
def Header.pressRepeat (h : Header) (j : Nat) : Option Nat :=
  if 0 ≤ h.repeatOf j ∧ h.repeatOf j < h.nT then some (h.repeatOf j).toNat else none

/-- The anchor press mark of an entry of repeat r (R29). -/
def Header.anchorMark (h : Header) (r : Nat) : Int := if h.reversed then (r : Int) + 1 else r

/-- The slitter index of a press mark (R29). -/
def Header.slitterIndex (h : Header) (a : Int) : Int := if h.reversed then (h.f : Int) - a else a - h.f

/-- The anchor offset o' of an entry with offset o and clamped length ℓ (R29). -/
def Header.anchorOffset (h : Header) (o l : Nat) : Nat :=
  if h.reversed then (if o = 0 ∧ l = 0 then h.rNom - 1 else h.rNom - o - l) else o

/-- The block of a press repeat. -/
def blockOfRepeat (r : Nat) : Nat := r / 32

/-- The greatest block number of the roll (2.2). -/
def Header.lastBlock (h : Header) : Nat := (h.nT - 1) / 32

/-- The slitter cross extent of a press extent (R31). -/
def Header.slitterExtent (h : Header) (e : Extent) : Extent :=
  if h.mirror then { x0 := clamp 0 30000 ((h.w : Int) - e.x1 + h.l), x1 := clamp 0 30000 ((h.w : Int) - e.x0 + h.l) }
  else { x0 := clamp 0 30000 (e.x0 + h.l), x1 := clamp 0 30000 (e.x1 + h.l) }

/-! ### Screening (R26, R27) -/

/-- The splice flag of a press map entry. -/
def itemSplice (m : MapItem) : Bool := m.flags.getLsbD 0

/-- An entry that screening drops (R26). -/
def itemBad (h : Header) (b : Nat) (m : MapItem) : Bool :=
  blockOfRepeat m.rep.toNat != b || h.nT ≤ m.rep.toNat || h.rNom ≤ m.off.toNat || m.x1.toNat < m.x0.toNat
    || 30000 < m.x1.toNat || (!itemSplice m && 15 < m.cls.toNat)

/-- An entry that screening clamps (R26). -/
def itemLong (h : Header) (m : MapItem) : Bool := h.rNom < m.off.toNat + m.len.toNat

/-- A kept entry, its length clamped to its own repeat (R26). -/
def itemKept (h : Header) (m : MapItem) : PressEntry :=
  { rep := m.rep.toNat, off := m.off.toNat, len := min m.len.toNat (h.rNom - m.off.toNat)
    ext := { x0 := m.x0.toNat, x1 := m.x1.toNat }, kind := if itemSplice m then .splice else .defect m.cls.toNat }

/-- A block as screening leaves it (R26); a dense block has nothing to drop or clamp (R27). -/
def screenBlock (h : Header) (b : Nat) (dense : Bool) (items : List MapItem) : Block :=
  let keep := items.filter (fun m => !itemBad h b m)
  { num := b, dense := dense, entries := keep.map (itemKept h), clamped := (keep.filter (itemLong h)).length
    dropped := (items.filter (itemBad h b)).length }

/-- The entries of a repeat of a block: its kept entries in block order, or the one entry of a dense repeat (R27, R38). -/
def Block.entriesOf (h : Header) (b : Block) (r : Nat) : List PressEntry :=
  if b.dense then
    [{ rep := r, off := 0, len := h.rNom, ext := { x0 := 0, x1 := h.w }, kind := .defect 15 }]
  else b.entries.filter (fun e => e.rep == r)

/-! ### The block store (2.5) -/

/-- The slot number of a way of a block's set. -/
def slotOf (b : Nat) (way : Bool) : Nat := (b % 8) * 2 + (if way then 1 else 0)

def MapStore.slot (t : MapStore) (b : Nat) (way : Bool) : Option Block := (t.slots[slotOf b way]?).join

/-- The way of set b mod 8 that holds block b, if it is VALID (R32). -/
def MapStore.wayOf (t : MapStore) (b : Nat) : Option Bool :=
  if (t.slot b false).any (fun x => x.num == b) then some false
  else if (t.slot b true).any (fun x => x.num == b) then some true
  else none

/-- A VALID block, looked up by its number (R32). -/
def MapStore.block (t : MapStore) (b : Nat) : Option Block := (t.wayOf b).bind (t.slot b)

/-- Mark the way that holds block b used: the set's LRU mark names the other way (R32). -/
def MapStore.use (b : Nat) (t : MapStore) : MapStore :=
  match t.wayOf b with
  | some way => { t with lru := t.lru.set (b % 8) (!way) }
  | none => t

/-- The frontier's press repeat; none at end of map or with no roll current (R28). -/
def MapStore.frontierRepeat (t : MapStore) : Option Nat :=
  match t.current, t.frontier with
  | some h, some f => h.pressRepeat f
  | _, _ => none

/-- The way that a block arriving for its set is written into (R35). -/
def MapStore.victim (t : MapStore) (b : Nat) : Bool :=
  if (t.slot b false).isNone then false
  else if (t.slot b true).isNone then true
  else
    let lru := (t.lru[b % 8]?).getD false
    match t.frontierRepeat with
    | some r => if (t.slot b lru).any (fun x => x.num == blockOfRepeat r) then !lru else lru
    | none => lru

/-- Write a block into the store and mark its way used; it leaves the outstanding list (R35). -/
def MapStore.store (blk : Block) (t : MapStore) : MapStore :=
  let way := t.victim blk.num
  { t with slots := t.slots.set (slotOf blk.num way) (some blk), lru := t.lru.set (blk.num % 8) (!way)
           outstanding := t.outstanding.erase blk.num }

/-! ### Requests (R33, R37) -/

/-- The blocks wanted: the frontier's and the next P - 1 in the running direction, within the roll (R33). -/
def MapStore.wanted (t : MapStore) (p : Nat) : List Nat :=
  match t.current, t.frontierRepeat with
  | some h, some r =>
    let b := blockOfRepeat r
    (List.range p).filterMap (fun i =>
      if h.reversed then (if i ≤ b then some (b - i) else none)
      else (if b + i ≤ h.lastBlock then some (b + i) else none))
  | _, _ => []

/-- Request one block if it is neither VALID nor outstanding and the list has room; a request that the Line Link Interface
drops does not join the list (R33). -/
def requestBlock (roll : Word) (b : Nat) (s : State) : State :=
  if (s.ms.block b).isSome ∨ b ∈ s.ms.outstanding ∨ Config.outstandingMax ≤ s.ms.outstanding.length then s
  else if s.canQueue ∧ s.ll.room .blockRequest then
    let s1 := queueOwn .blockRequest (s.role (·.mapServer)) none (.blockRequest roll b) s
    { s1 with ms := { s1.ms with outstanding := s1.ms.outstanding ++ [b] } }
  else s

/-- Check what the Map Store wants and request it (R33). -/
def checkRequests (s : State) : State :=
  match s.machine, s.ms.current with
  | some m, some h => (s.ms.wanted m.p).foldl (fun s b => requestBlock h.rollId b s) s
  | _, _ => s

/-- The last repeat of a block in the running direction within the roll (R37). -/
def Header.lastRepeatOf (h : Header) (b : Nat) : Nat := if h.reversed then 32 * b else min (32 * b + 31) (h.nT - 1)

/-- Test 3 of R34: every repeat of the block that lies within the roll and has a slitter index of 0 or more has it below
the frontier. -/
def Header.passed (h : Header) (f b : Nat) : Bool :=
  (List.range 32).all (fun i =>
    let r := 32 * b + i
    let j := h.slitterIndex (h.anchorMark r)
    if r < h.nT ∧ 0 ≤ j then j < f else true)

/-! ### The frontier (2.6) -/

/-- A repeat's entry as a Forecast entry in slot `num` (R29, R38, R48). -/
def Header.forecastOf (h : Header) (num : Nat) (e : PressEntry) : Forecast :=
  { feat := { num := num, origin := .map, kind := e.kind, len := e.len, press := some e.ext, slit := none, rep := some e.rep
              suspect := false, served := false }
    k := (h.slitterIndex (h.anchorMark e.rep)).toNat, off := h.anchorOffset e.off e.len }

/-- One entry of an expanded repeat joins the Forecast list in the lowest free slot (R48). -/
def joinForecast (h : Header) (e : PressEntry) (s : State) : State :=
  { s with fq := { s.fq with forecast := insertForecast (h.forecastOf s.fq.freeSlot e) s.fq.forecast } }

/-- The highest mark index the lookahead allows: k_last + H, or H - 1 when no mark has been counted (R38). -/
def State.lookahead (s : State) (m : MachineTable) : Nat :=
  match s.mt.last with
  | some last => last.k + m.h
  | none => m.h - 1

/-- The block and the entries with which the frontier's mark can expand, when the conditions of R38 hold. -/
def State.expandable (s : State) : Option (Header × Nat × Nat × List PressEntry) :=
  match s.machine, s.ms.current, s.ms.frontier with
  | some m, some h, some f =>
    if s.ms.paused = false ∧ f ≤ s.lookahead m then
      match h.pressRepeat f with
      | none => none
      | some r =>
        match s.ms.block (blockOfRepeat r) with
        | none => none
        | some blk => if (blk.entriesOf h r).length ≤ s.fq.free then some (h, f, blockOfRepeat r, blk.entriesOf h r) else none
    else none
  | _, _, _ => none

/-- Mark f expands into the Forecast list (R38): its entries join, the way is used, the unmapped run becomes no, the frontier
advances, the free count is reported and the requests are checked. -/
def expandOne (h : Header) (f b : Nat) (entries : List PressEntry) (s : State) : State :=
  let s1 := entries.foldl (fun s e => joinForecast h e s) s
  let s2 : State := { s1 with ms := { s1.ms.use b with run := false, frontier := some (f + 1) } }
  checkRequests (reportFree s2)

/-- Expansion repeated until a condition of R38 fails, for at most `fuel` marks. -/
def expandFor : Nat → State → State
  | 0, s => s
  | fuel + 1, s =>
    match s.expandable with
    | none => s
    | some (h, f, b, entries) => expandFor fuel (expandOne h f b entries s)

/-- An expansion attempt (R38). The lookahead bounds how many marks can expand. -/
def expand (s : State) : State :=
  match s.machine with
  | none => s
  | some m => expandFor (s.lookahead m + 1 - s.ms.frontier.getD 0) s

end Sys2Proof.Machine
end

