-- ==== Sys2Proof/Machine/Lanes.lean ====
section
/-! DEFINITION. What one block asks of another without changing anything: predicted marks and positions (R20, R30, R47), the
cut position and the remaining count (R146), the stop distance (R122), and lane resolution (R78 to R82). -/

namespace Sys2Proof.Machine

/-! ### Predictions -/

/-- The predicted position of mark j; none while no mark has been counted (R20). -/
def MarkTracker.predict (t : MarkTracker) (j : Nat) : Option Int :=
  t.last.map (fun l => l.u + ((j : Int) - l.k) * t.rExp)

/-- The predicted position of a Forecast entry (R47). -/
def State.predicted (s : State) (e : Forecast) : Option Int :=
  (s.mt.predict e.k).map (fun u => u + stretched e.off s.mt.e)

/-- The predicted length of a Forecast entry, formed with the same E (R30, R47). -/
def State.predictedLength (s : State) (e : Forecast) : Option Nat :=
  (s.mt.predict e.k).map (fun _ => (stretched e.feat.len s.mt.e).toNat)

/-! ### The set -/

/-- The set is open and running or stopping: RUNNING, APPROACH or CUT_STOP. -/
def SetState.open : SetState → Bool
  | .running | .approach | .cutStop => true
  | _ => false

/-- The cut offset, c_off mod R_nom (R146). -/
def State.cutOffset (s : State) : Int :=
  match s.lpt.active, s.ms.current with
  | some b, some h => ((b.cOff % h.rNom : Nat) : Int)
  | _, _ => 0

/-- The cut position as the Set Controller holds it: frozen, counted or predicted; none while none is held (R146). -/
def State.pCut (s : State) : Option Int :=
  match s.sc.frozenCut with
  | some p => some p
  | none =>
    match s.sc.kCut, s.mt.last with
    | some kc, some l =>
      match s.sc.cutMark with
      | some u => some (u + s.cutOffset)
      | none => some (l.u + ((kc : Int) - l.k) * s.mt.rExp + s.cutOffset)
    | _, _ => none

/-- The remaining count, K_base + N_set + X - k_last, with k_last taken as K_base before the first mark (R146). -/
def State.remaining (s : State) : Option Int :=
  match s.sc.kBase, s.lpt.active with
  | some kb, some b =>
    match s.mt.last with
    | some l => some ((kb : Int) + b.nSet + s.sc.x - l.k)
    | none => some ((b.nSet : Int) + s.sc.x)
  | _, _ => none

/-- The stop distance d_s at the speed now standing (R122). -/
def State.stopDistance (s : State) (m : MachineTable) : Int :=
  ceilDiv ((s.pu.v : Int) * s.pu.v * 10) (2 * m.aD) + m.mSt

/-! ### Lane resolution -/

/-- Edge j (R78): knife j's position in the bank, or, when its channel is DRIFTED, the position last reported for it. -/
def State.edge (s : State) (b : Bank) (j : Nat) : Int :=
  let k : Nat := (b.knives[j]?).getD 0
  match s.knives[j]? with
  | some c => if c.state = .drifted then ((c.reported.getD k : Nat) : Int) else k
  | none => k

/-- The slitter cross extent an entry uses (R31, R79): the one it holds, or the press extent transformed. -/
def State.extentOf (s : State) (f : Feature) : Option Extent :=
  match f.slit with
  | some e => some e
  | none =>
    match f.press, s.ms.current with
    | some e, some h => some (h.slitterExtent e)
    | _, _ => none

/-- Lane i is covered by an extent widened by the guard on each side (R78, R79). -/
def State.covers (s : State) (b : Bank) (g : Nat) (e : Extent) (i : Nat) : Bool :=
  let c := min (s.edge b i) (s.edge b (i + 1))
  let d := max (s.edge b i) (s.edge b (i + 1))
  decide (c < d) && decide (e.x0 - g < d) && decide (c ≤ e.x1 + g)

/-- The action of a lane for a feature (R82). -/
def LanePlan.actionFor (l : LanePlan) : FeatKind → Action
  | .defect c => (l.actions[c]?).getD .ignore
  | .splice => l.splice
  | .unmapped => .log
  | .blind => .log

/-- The feature stands for every lane (R79, R82). -/
def FeatKind.isSpan : FeatKind → Bool
  | .unmapped | .blind => true
  | _ => false

/-- Whether lane i is covered by a feature: every lane by a span, else the lanes its extent covers (R79). -/
def State.coversFeature (s : State) (b : Bank) (m : MachineTable) (f : Feature) (i : Nat) : Bool :=
  f.kind.isSpan || (s.extentOf f).any (fun e => s.covers b m.g e i)

/-- The lanes of the ACTIVE bank a feature touches and their actions, lanes ascending, IGNORE left out (R78 to R82). -/
def State.resolve (s : State) (f : Feature) : List (Nat × Action) :=
  match s.machine, s.lpt.active with
  | some m, some b =>
    (List.range b.n).filterMap (fun i =>
      match b.lanes[i]? with
      | none => none
      | some l =>
        if s.coversFeature b m f i ∧ l.actionFor f.kind ≠ .ignore then some (i, l.actionFor f.kind) else none)
  | _, _ => []

/-- The resolution holds a STOP lane. -/
def State.wantsStop (s : State) (f : Feature) : Bool := (s.resolve f).any (fun x => x.2 == .stop)

/-- An entry's final lane actions hold a STOP item. -/
def Settled.hasStop (e : Settled) : Bool := e.items.any (fun i => i.action == .stop)

end Sys2Proof.Machine
end

