-- ==== Sys2Proof/Machine/Records.lean ====
section
/-! DEFINITION. The Record Store (chapter 9): opening records, storing events under the quota, statuses, closing, and
forming and giving back reel-record frames. -/

namespace Sys2Proof.Machine

def Statuses.none : Statuses :=
  { reject := false, short := false, unverified := false, removalMissed := false, edgeDrift := false, truncated := false
    rollEnd := false }

/-- The record is OPEN (9.1). -/
def ReelRecord.isOpen (r : ReelRecord) : Bool := r.totals.isNone

/-- Slots a record holds: one for each stored event whose fragment has not been sent (R160, R169). -/
def ReelRecord.slots (r : ReelRecord) : Nat := r.events.length - Config.fragmentEvents * r.fragments

/-- Free event slots (R166). -/
def RecordStore.freeSlots (t : RecordStore) : Nat :=
  Config.eventSlots - (t.headers.map (fun h => match h with | some r => r.slots | none => 0)).sum

/-- Free record headers (R166). -/
def RecordStore.freeHeaders (t : RecordStore) : Nat := (t.headers.filter (·.isNone)).length

/-- A lane's open record (R159). -/
def openFor (lane : Nat) : Option ReelRecord → Bool
  | some r => r.isOpen && r.lane == lane
  | none => false

def RecordStore.openRecord (t : RecordStore) (lane : Nat) : Option ReelRecord := (t.headers.find? (openFor lane)).join

/-- The number of open records. -/
def RecordStore.openCount (t : RecordStore) : Nat :=
  (t.headers.filter (fun h => match h with | some r => r.isOpen | none => false)).length

/-- Change every open record. -/
def RecordStore.mapOpen (f : ReelRecord → ReelRecord) (t : RecordStore) : RecordStore :=
  { t with headers := t.headers.map (fun h => h.map (fun r => if r.isOpen then f r else r)) }

/-- Change the first header that satisfies a test. -/
def modifyFirst (p : Option ReelRecord → Bool) (f : ReelRecord → ReelRecord) :
    List (Option ReelRecord) → List (Option ReelRecord)
  | [] => []
  | h :: t => if p h then h.map f :: t else h :: modifyFirst p f t

/-- UNVERIFIED is set on every open record (R162). -/
def markUnverified (s : State) : State :=
  { s with rs := s.rs.mapOpen (fun r => { r with statuses := { r.statuses with unverified := true } }) }

/-- The statuses that follow from an event handed over, stored or not (R161). -/
def Statuses.after (e : Event) (full : Bool) (t : Statuses) : Statuses :=
  { t with reject := t.reject || e.rejectCause
           removalMissed := t.removalMissed || e.notRemoved
           edgeDrift := t.edgeDrift || (e.kind == .drift)
           truncated := t.truncated || full }

/-- An event handed to an open record (R160, R161): stored at the end of its list below the quota, counted as not stored at the
quota. -/
def ReelRecord.take (e : Event) (r : ReelRecord) : ReelRecord :=
  if r.events.length < r.quota then
    { r with events := r.events ++ [e], statuses := r.statuses.after e false }
  else { r with notStored := r.notStored + 1, statuses := r.statuses.after e true }

/-- An event handed to the Record Store for a lane (R159). For a lane without an open record it counts nowhere. -/
def handEvent (lane : Nat) (e : Event) (s : State) : State :=
  { s with rs := { s.rs with headers := modifyFirst (openFor lane) (ReelRecord.take e) s.rs.headers } }

/-- Put a record into the lowest-numbered free header (R158). -/
def takeHeader (r : ReelRecord) : List (Option ReelRecord) → List (Option ReelRecord)
  | [] => []
  | none :: t => some r :: t
  | some x :: t => some x :: takeHeader r t

/-- A record as it opens for lane `lane` of the bank (R158). -/
def newRecord (set : Nat) (roll : Word) (b : Bank) (lane : Nat) (quota : Nat) : ReelRecord :=
  { set := set, lane := lane, job := b.job, roll := roll, quota := quota, totals := none, statuses := Statuses.none, events := []
    notStored := 0, fragments := 0 }

/-- Open the records of a set, lanes ascending (R158). -/
def openRecords (set : Nat) (roll : Word) (b : Bank) (s : State) : State :=
  let headers := ((b.lanes.take b.n).zipIdx).foldl
    (fun hs p => takeHeader (newRecord set roll b p.2 p.1.quota) hs) s.rs.headers
  { s with rs := { s.rs with headers := headers } }

/-- The number of the header that holds a lane's open record. -/
def RecordStore.openIndex (t : RecordStore) (lane : Nat) : Option Nat := t.headers.findIdx? (openFor lane)

/-- Close a lane's open record (R163 to R165): totals, SHORT, ROLL_END where the roll ends; it joins the end of the send
list. -/
def closeLane (gross removed repeats : Nat) (short rollEnd : Bool) (lane : Nat) (t : RecordStore) : RecordStore :=
  match t.openIndex lane with
  | none => t
  | some i =>
    { t with
      headers := modifyFirst (openFor lane)
        (fun r => { r with totals := some { gross := gross, removed := removed, net := gross - removed, repeats := repeats }
                           statuses := { r.statuses with short := r.statuses.short || short
                                                         rollEnd := r.statuses.rollEnd || rollEnd }
                           fragments := 0 }) t.headers
      sendList := t.sendList ++ [i] }

/-- The record at a header number. -/
def RecordStore.record (t : RecordStore) (i : Nat) : Option ReelRecord := (t.headers[i]?).join

/-- The events a fragment carries: numbers 64f to 64f + 63 of the list (R167). -/
def ReelRecord.carried (r : ReelRecord) (f : Nat) : List Event :=
  (r.events.drop (Config.fragmentEvents * f)).take Config.fragmentEvents

/-- The fragment is the record's last: ceil(e / 64) fragments, one for a record without events (R167). -/
def ReelRecord.lastFragment (r : ReelRecord) (f : Nat) : Bool :=
  r.events.length ≤ Config.fragmentEvents * (f + 1)

/-- Pass the next reel-record frame to the Line Link Interface (R167, R168): the fragment of the record at the head of the send
list that comes next becomes the frame in flight. -/
def passRecord (i : Nat) (r : ReelRecord) (s : State) : State :=
  let s1 := queueOwn .record (s.role (·.recordReceiver)) none
    (.record r r.fragments (r.lastFragment r.fragments) (r.carried r.fragments)) s
  { s1 with rs := { s1.rs with
    inFlight := some { header := i, fragment := r.fragments, last := r.lastFragment r.fragments } } }

/-- Give back what the frame in flight held (R169): its slots with the rise of the record's fragments sent, and after the
last fragment its header and its place in the send list. -/
def RecordStore.giveBack (f : RecordInFlight) (t : RecordStore) : RecordStore :=
  { t with
    headers := if f.last then t.headers.set f.header none
      else t.headers.modify f.header (fun h => h.map (fun r => { r with fragments := r.fragments + 1 }))
    sendList := if f.last then t.sendList.erase f.header else t.sendList
    inFlight := none }

/-- The conditions of R168: the flow state SENDING, no frame in flight, a record waiting. -/
def nextRecord (s : State) : Option (Nat × ReelRecord) :=
  if s.canQueue ∧ s.rs.held = false ∧ s.rs.inFlight = none ∧ s.ll.room .record then
    match s.rs.sendList with
    | [] => none
    | i :: _ => (s.rs.record i).map (fun r => (i, r))
  else none

end Sys2Proof.Machine
end

