-- ==== Sys2Proof/Machine/Stations.lean ====
section
/-! DEFINITION. The station logic (chapter 6): when a station is due and in what order, and the work at the knife line, the
splice table, the flag inserter and the rewind nip. -/

namespace Sys2Proof.Machine

/-- The four stations, in their order along the web. -/
inductive Station where
  | knife
  | table
  | flag
  | nip
  deriving DecidableEq, Repr

def Station.rank : Station → Nat
  | .knife => 0
  | .table => 1
  | .flag => 2
  | .nip => 3

def MachineTable.distance (m : MachineTable) : Station → Int
  | .knife => m.dKn
  | .table => m.dSt
  | .flag => m.dFl
  | .nip => m.dNip

/-- The entry's marker for a station (R64). -/
def Settled.taken (e : Settled) : Station → Bool
  | .knife => e.knife
  | .table => e.table
  | .flag => e.flag
  | .nip => e.nip

/-- A station falls due (R98). -/
def Settled.due (u : Int) (m : MachineTable) (e : Settled) (st : Station) : Bool :=
  decide (e.p ≤ u - m.distance st) && !e.taken st

/-- A set's P_start lies at or below a position. -/
def State.atOrAfterStart (s : State) (p : Int) : Bool := s.sc.pStart.any (fun q => decide (q ≤ p))

/-- The entry is one the part will record (R103). -/
def State.recordsAt (s : State) (p : Int) : Bool := s.sc.state.open && s.atOrAfterStart p

/-! ### Knife station -/

/-- A resolved lane as an item of the lane actions (R101). -/
def itemOf (x : Nat × Action) : LaneItem := { lane := x.1, action := x.2, notRemoved := false, outcome := .none }

/-- The knife station (R101, R102): the final lanes are written into the entry, and an entry without lanes is discarded. -/
def takeKnife (e : Settled) (s : State) : State :=
  let items := (s.resolve e.feat).map itemOf
  if items = [] then leave e.feat.num s
  else changeSettled e.feat.num (fun x => { x with items := items, knife := true }) s

/-! ### Splice table -/

/-- A STOP item becomes LOG with not removed set (R103). -/
def LaneItem.downgrade (i : LaneItem) : LaneItem :=
  if i.action = .stop then { i with action := .log, notRemoved := true } else i

/-- The lanes whose action is STOP. -/
def Settled.stopLanes (e : Settled) : List Nat := (e.items.filter (fun i => i.action == .stop)).map (·.lane)

/-- Every STOP item of an entry is downgraded, and STOP_MISSED is queued when there is one and the entry is one the part will
record (R103). -/
def missStops (e : Settled) (s : State) : State :=
  let s1 := changeSettled e.feat.num (fun x => { x with items := x.items.map LaneItem.downgrade }) s
  if e.hasStop ∧ s.recordsAt e.p then
    queueNotice .stopMissed (wNat e.feat.num) (wInt e.p) (wLanes e.stopLanes) s1
  else s1

/-- The table station (R103, R104): a served entry's sets the marker alone. -/
def takeTable (e : Settled) (s : State) : State :=
  let s1 := changeSettled e.feat.num (fun x => { x with table := true }) s
  if e.feat.served then s1 else missStops e s1

/-! ### Flag inserter -/

/-- Two positions lie on the same side of the cut position held, if one is held (R107). -/
def State.sameSide (s : State) (q p : Int) : Bool :=
  match s.pCut with
  | some c => decide (q < c) == decide (p < c)
  | none => true

/-- The lane shares an earlier flag (R107). -/
def State.sharesFlag (s : State) (m : MachineTable) (p : Int) (lane : Nat) : Bool :=
  match (s.fq.flags[lane]?).join with
  | some q => decide (q ≤ p) && decide (p - q ≤ m.fMin) && s.atOrAfterStart q && s.sameSide q p
  | none => false

/-- The flag outcome of an item (R107, R108). -/
def State.flagItem (s : State) (m : MachineTable) (place : Bool) (p : Int) (i : LaneItem) : LaneItem :=
  if i.action = .flag then
    { i with outcome := if place then (if s.sharesFlag m p i.lane then .shared else .flagged) else .notFlagged }
  else i

/-- The lanes carried in a flag order: those whose item is FLAGGED. -/
def flaggedLanes (items : List LaneItem) : List Nat :=
  (items.filter (fun i => i.action == .flag && i.outcome == .flagged)).map (·.lane)

/-- The flag station (R107 to R109); `place` is false where no flag can be placed. -/
def takeFlag (m : MachineTable) (place : Bool) (e : Settled) (s : State) : State :=
  let items := e.items.map (s.flagItem m place e.p)
  let lanes := flaggedLanes items
  let s1 := changeSettled e.feat.num (fun x => { x with items := items, flag := true }) s
  if place ∧ lanes ≠ [] then
    queueOwn .order m.flagStation none (.flag s.sc.num lanes e.p (s.pu.u - (e.p + m.dFl)))
      { s1 with fq := { s1.fq with flags := lanes.foldl (fun l i => l.set i (some e.p)) s1.fq.flags } }
  else s1

/-! ### Rewind nip -/

/-- Where an entry at the nip belongs (R113). -/
inductive NipCase where
  | write
  | hold
  | leave
  deriving DecidableEq, Repr

/-- Where an entry whose nip station falls due belongs, the rows of the table taken from the top (R113). Rows 2 and 3 overlap in
CUT_STOP for P_cut ≤ p < P_start, which a set opened by threading meets when the mark of its K_cut has already been counted; that
such an entry is held is DESIGN CHOICE (notes/assumptions/53.md). -/
def State.nipCase (s : State) (p : Int) : NipCase :=
  let belowCut := s.pCut.any (fun c => decide (p < c))
  let atCut := s.pCut.any (fun c => decide (c ≤ p))
  if s.recordsAt p && (s.sc.state != .cutStop || belowCut) then .write
  else if (s.sc.state == .cutStop || s.sc.state == .atCut || s.sc.state == .changing || s.sc.state == .preparing) && atCut
  then .hold
  else .leave

/-- The event kind of a feature that is logged. -/
def FeatKind.eventKind : FeatKind → EventKind
  | .defect _ => .defect
  | .splice => .splice
  | .unmapped => .unmapped
  | .blind => .blind

def FeatKind.cls : FeatKind → Option Nat
  | .defect c => some c
  | _ => none

/-- The event an item gives at the nip (R114). A gross position beyond the range of 9.1 is kept as it is: DESIGN CHOICE
(notes/assumptions/15.md). -/
def nipEvent (pStart : Int) (e : Settled) (i : LaneItem) : Event :=
  { kind := if i.action = .flag ∧ i.outcome ≠ .notFlagged then .flagged else e.feat.kind.eventKind
    cls := e.feat.kind.cls
    gross := (e.p - pStart).toNat
    len := e.feat.len
    origin := some e.feat.origin
    rep := e.feat.rep
    suspect := e.feat.suspect
    confirmed := e.feat.origin == .both
    notRemoved := i.action == .log && i.notRemoved
    flagShared := i.action == .flag && i.outcome == .shared
    rejectCause := i.action == .reject }

/-- The entry's events are handed over, lanes ascending (R114). -/
def writeEvents (pStart : Int) (e : Settled) (s : State) : State :=
  e.items.foldl (fun s i => handEvent i.lane (nipEvent pStart e i) s) s

/-- The nip station of an entry that is not served (R113, R114, R116). -/
def takeNip (e : Settled) (s : State) : State :=
  match s.nipCase e.p with
  | .write => leave e.feat.num (writeEvents (s.sc.pStart.getD 0) e s)
  | .hold => s
  | .leave => leave e.feat.num s

/-! ### The walk -/

/-- Take one station of an entry; a served entry's flag and nip stations are deferred (R111), and at the clearing of a served
mark (`cleared`) a flag station already due places no flag (R112). -/
def takeStation (cleared : Bool) (st : Station) (num : Nat) (s : State) : State :=
  match s.machine, s.fq.findSettled num with
  | some m, some e =>
    match st with
    | .knife => takeKnife e s
    | .table => takeTable e s
    | .flag => if e.feat.served then s else takeFlag m (!cleared && s.recordsAt e.p) e s
    | .nip => if e.feat.served then s else takeNip e s
  | _, _ => s

/-- A station due in a walk: the value p + D_s at which it fell due, the entry's place in the list, the station and the entry. -/
structure DueStation where
  at_ : Int
  idx : Nat
  st : Station
  num : Nat
  deriving DecidableEq, Repr

/-- The order of a walk (R99). -/
def DueStation.le (x y : DueStation) : Bool :=
  x.at_ < y.at_ || (x.at_ == y.at_ && (x.idx < y.idx || (x.idx == y.idx && x.st.rank ≤ y.st.rank)))

def insertDue (d : DueStation) : List DueStation → List DueStation
  | [] => [d]
  | x :: t => if x.le d then x :: insertDue d t else d :: x :: t

def sortDue (l : List DueStation) : List DueStation := l.foldl (fun acc d => insertDue d acc) []

/-- The stations of one entry that are due. -/
def Settled.dueStations (u : Int) (m : MachineTable) (idx : Nat) (e : Settled) : List DueStation :=
  ([Station.knife, .table, .flag, .nip].filter (e.due u m)).map
    (fun st => { at_ := e.p + m.distance st, idx := idx, st := st, num := e.feat.num })

/-- Every station that is due, in the order of R99. -/
def State.dueList (s : State) (m : MachineTable) : List DueStation :=
  sortDue (s.fq.settled.zipIdx.flatMap (fun x => x.1.dueStations s.pu.u m x.2))

/-- The nip is the one station of the entry that is due: it has come to the nip, or is held or deferred there (R98, R113). -/
def Settled.nipAlone (u : Int) (m : MachineTable) (e : Settled) : Bool :=
  e.due u m .nip && !e.due u m .knife && !e.due u m .table && !e.due u m .flag

/-- The stations that the look at one entry takes, in the order of R99: all that are due of that entry and of those that `also`
admits. -/
def State.dueAt (s : State) (m : MachineTable) (num : Nat) (also : Settled → Bool) : List DueStation :=
  sortDue (s.fq.settled.zipIdx.flatMap (fun x =>
    if x.1.feat.num = num ∨ also x.1 = true then x.1.dueStations s.pu.u m x.2 else []))

/-- The stations of one look, each taken when it is due still; those of the entry whose served mark has been `cleared` as R112 says. No
other block looks before the last of them is taken (R100). -/
def takeAll (m : MachineTable) (cleared : Option Nat) (l : List DueStation) (s : State) : State :=
  l.foldl (fun s d =>
    if (s.fq.findSettled d.num).any (fun e => e.due s.pu.u m d.st) then takeStation (cleared == some d.num) d.st d.num s else s) s

/-- The look as an entry joins with a station due (R98, R99, R100). It takes that entry's due stations, those of the entries at or below
it, so that records receive the events of one frame in ascending position (R116), and the nips due above it, so that a held entry
is judged again (R113). At a position event (`frame`) what lies above waits for the event's own walk, behind the entries that
join after this one; that is DEDUCED (notes/assumptions/55.md, notes/assumptions/56.md). -/
def walkJoined (frame : Bool) (num : Nat) (s : State) : State :=
  match s.machine, s.fq.findSettled num with
  | some m, some e =>
    if e.dueStations s.pu.u m 0 = [] then s
    else takeAll m none (s.dueAt m num (fun x => decide (x.p ≤ e.p) || (!frame && x.nipAlone s.pu.u m))) s
  | _, _ => s

/-- The look as an entry's served mark clears (R98, R112): that entry's due stations, and every nip that is due alone, so that a held
entry is judged again (R113). Other stations newly due within a position event wait for the event's own walk; that is DEDUCED
(notes/assumptions/55.md). -/
def walkCleared (num : Nat) (s : State) : State :=
  match s.machine with
  | some m => takeAll m (some num) (s.dueAt m num (Settled.nipAlone s.pu.u m)) s
  | none => s

/-- Clear a Settled entry's served mark: STOP items left standing past the table are downgraded (R104), then the entry is looked at
(R112). -/
def clearServed (num : Nat) (s : State) : State :=
  match s.fq.findSettled num with
  | none => s
  | some e =>
    let s1 := changeSettled num (Settled.setServed false) s
    walkCleared num (if e.table then missStops (e.setServed false) s1 else s1)

/-- An entry is held at the nip (R113), as the replies count and show it (R182, R183). That this is R113's case as it stands when the reply
is formed, and not what the last look found, is DESIGN CHOICE (notes/assumptions/58.md): they differ where P_cut has moved since. -/
def State.heldAtNip (s : State) (m : MachineTable) (e : Settled) : Bool :=
  e.due s.pu.u m .nip && !e.feat.served && s.nipCase e.p == .hold

/-- A served entry whose flag or nip station is due and deferred (R111). -/
def State.deferred (s : State) (m : MachineTable) (e : Settled) : Bool :=
  e.feat.served && (e.due s.pu.u m .flag || e.due s.pu.u m .nip)

end Sys2Proof.Machine
end

