-- ==== Sys2Proof/Machine/Stops.lean ====
section
/-! DEFINITION. The Stop Scheduler (chapter 7): candidates and targets, looks, the served set, orders, standstill and
correction, and the end of a cut stop (R138, R151); and the station logic's walk, in which it looks. -/

namespace Sys2Proof.Machine

/-! ### Candidates and targets (7.2) -/

/-- A position at which an entry can be a candidate: at or above P_start, and below P_cut when one is held (R119). -/
def State.stopSpan (s : State) (p : Int) : Bool := s.atOrAfterStart p && s.pCut.all (fun c => decide (p < c))

/-- A Settled entry is a defect candidate (R119). -/
def State.settledCandidate (s : State) (e : Settled) : Bool :=
  s.sc.state.open && !e.feat.served && !e.table && (if e.knife then e.hasStop else s.wantsStop e.feat) && s.stopSpan e.p

/-- A Forecast entry is a defect candidate at its prediction (R119). -/
def State.forecastCandidate (s : State) (e : Forecast) (p : Int) : Bool :=
  s.sc.state.open && !e.feat.served && s.wantsStop e.feat && s.stopSpan p

/-- The defect candidates with their positions: Settled entries in list order, then Forecast entries in list order (R120). -/
def State.candidates (s : State) : List (Nat × Int) :=
  (s.fq.settled.filter s.settledCandidate).map (fun e => (e.feat.num, e.p)) ++
    s.fq.forecast.filterMap (fun e =>
      match s.predicted e with
      | some p => if s.forecastCandidate e p then some (e.feat.num, p) else none
      | none => none)

/-- The cut target's web position while the cut target is held (R120, R129). -/
def State.cutTarget (s : State) (m : MachineTable) : Option Int :=
  if s.ss.cutHeld then s.pCut.map (fun p => p + m.dNip) else none

/-- Every candidate with its target, the order of ties first: defect candidates, then the cut (R120). -/
def State.targets (s : State) (m : MachineTable) : List (Aim × Int) :=
  s.candidates.map (fun x => ((Aim.entry x.1, x.2 + (m.dSt : Int)) : Aim × Int)) ++
    (match s.cutTarget m with
      | some t => [(Aim.cut, t)]
      | none => [])

/-- The first of the least targets. -/
def leastTarget : List (Aim × Int) → Option (Aim × Int)
  | [] => none
  | x :: t =>
    match leastTarget t with
    | some y => if y.2 < x.2 then some y else some x
    | none => some x

/-- The aim found at a look (R120). -/
def State.findAim (s : State) (m : MachineTable) : Option (Aim × Int) := leastTarget (s.targets m)

/-! ### The served set (7.4) -/

/-- A position lies in the served window [p_w, p_w + W_tab] (R124). -/
def State.inWindow (s : State) (m : MachineTable) (p : Int) : Bool :=
  s.ss.pW.any (fun w => decide (w ≤ p) && decide (p ≤ w + m.wTab))

/-- Set an entry's served mark. -/
def serve (num : Nat) (s : State) : State :=
  { s with fq := (s.fq.modifySettled num (Settled.setServed true)).modifyForecast num (Forecast.setServed true) }

/-- Take into the served set every defect candidate in the window, in Settled and then in Forecast order (R124). -/
def serveWindow (m : MachineTable) (s : State) : State :=
  (s.candidates.filter (fun x => s.inWindow m x.2)).foldl (fun s x => serve x.1 s) s

/-- Drop from the served set every served entry whose final lanes hold no STOP item (R125). -/
def dropServed (s : State) : State :=
  (s.fq.settled.filter (fun e => e.feat.served && e.knife && !e.hasStop)).foldl (fun s e => clearServed e.feat.num s) s

/-- Clear every served mark: the Forecast entries', then the Settled entries' in list order, each of those looked at
(R112, R127, R136). -/
def releaseAll (s : State) : State :=
  let s1 : State := { s with fq := { s.fq with forecast := s.fq.forecast.map (Forecast.setServed false) } }
  (s.fq.settled.filter (fun e => e.feat.served)).foldl (fun s e => clearServed e.feat.num s) s1

/-! ### Standstill, and the end of a cut stop (7.6, 7.8) -/

/-- d_s as formed at a look (R122). -/
def formDs (m : MachineTable) (s : State) : State := { s with ss := { s.ss with dS := some (s.stopDistance m) } }

/-- The cut stop has come to rest (R138, R151): the set passes AT_CUT, where P_cut is frozen and the cut order is sent, into
CHANGING, and the scheduler is IDLE with the cut target no longer held. The IDLE look that follows finds no candidate in
CHANGING: its aim is none. -/
def cutHalt (m : MachineTable) (s : State) : State :=
  let pCut := s.pCut.getD 0
  let s1 := driveOrder (.cut s.sc.num ((s.lpt.active.map (·.n)).getD 0) pCut (s.ss.haltError.getD 0)) s
  formDs m { s1 with
    sc := { s1.sc with state := .changing, frozenCut := some pCut }
    ss := { s1.ss with state := .idle, kind := none, aim := none, aimGone := false, uT := none, late := false
                       cutHeld := false } }

/-- The web rests at the target: the stop is HALTED (R130, R131), and a cut stop goes on to its cut. -/
def halt (m : MachineTable) (e : Int) (s : State) : State :=
  let s1 : State := { s with ss := { s.ss with state := .halted, haltError := some e } }
  if s.ss.kind = some .cut then cutHalt m s1 else s1

/-- The check of a standstill in REQUESTED or CORRECTING (R130, R131). -/
def standstillCheck (m : MachineTable) (s : State) : State :=
  match s.ss.uT with
  | none => s
  | some t =>
    let e := s.pu.u - t
    let jogs := if s.ss.state = .requested then 0 else s.ss.jogs
    if s.ss.state = .requested ∨ s.ss.state = .correcting then
      if e.natAbs ≤ m.tPos then halt m e s
      else if jogs < 4 then
        driveOrder (.jog (-e)) { s with ss := { s.ss with state := .correcting, jogs := jogs + 1 } }
      else halt m e s
    else s

/-! ### Orders (7.3, 7.5) -/

/-- Send a stop order for an aim (the sending rule of R123): REQUESTED, the served set formed for a defect, STOP_LATE for a LATE
order, and the standstill check at once when the web already stands. -/
def sendStop (m : MachineTable) (aim : Aim) (target : Int) (late : Bool) (s : State) : State :=
  let ds := s.stopDistance m
  let extra := if late then ds - (target - s.pu.u) else 0
  let kind := if aim = .cut then StopKind.cut else .defect
  let s1 := driveOrder (.stop kind target late extra) { s with
    ss := { s.ss with state := .requested, kind := some kind, aim := some aim, aimGone := false, uT := some target
                      pW := if kind = .defect then some (target - m.dSt) else none
                      late := late, overshoot := extra, jogs := 0, haltError := none } }
  let s2 := if kind = .defect then serveWindow m s1 else s1
  let s3 := if late then
      queueNotice .stopLate (match aim with | .entry n => wNat n | .cut => wAbsent) (wInt target) (wInt extra) s2
    else s2
  if s3.pu.dir = .standstill then standstillCheck m s3 else s3

/-- An IDLE look (R123). -/
def idleLook (m : MachineTable) (s : State) : State :=
  match s.findAim m with
  | none => { s with ss := { s.ss with aim := none, aimGone := false } }
  | some (aim, target) =>
    let seen := s.ss.seenOutside && decide (s.ss.aim = some aim) && !s.ss.aimGone
    let ds := s.stopDistance m
    let s1 : State := { s with ss := { s.ss with aim := some aim, aimGone := false
                                                 seenOutside := seen || decide (ds < target - s.pu.u) } }
    if ds < target - s.pu.u then s1
    else sendStop m aim target (!seen && decide (target - s.pu.u < ds)) s1

/-- The stop is cancelled (R128). -/
def cancelStop (s : State) : State :=
  driveOrder .cancel { s with
    ss := { s.ss with state := .idle, kind := none, aim := none, aimGone := false, uT := none, pW := none, late := false } }

/-- The position of an entry, settled or predicted. -/
def State.positionOf (s : State) (num : Nat) : Option Int :=
  match s.fq.findSettled num with
  | some e => some e.p
  | none => (s.fq.findForecast num).bind s.predicted

/-- An entry's served mark is set. -/
def State.isServed (s : State) (num : Nat) : Bool :=
  s.fq.settled.any (fun e => e.feat.num == num && e.feat.served) || s.fq.forecast.any (fun e => e.feat.num == num && e.feat.served)

/-- The served entries with their positions, Settled then Forecast. -/
def State.servedTargets (s : State) : List (Aim × Int) :=
  (s.fq.settled.filter (fun e => e.feat.served)).map (fun e => (Aim.entry e.feat.num, e.p)) ++
    (s.fq.forecast.filter (fun e => e.feat.served)).filterMap (fun e =>
      (s.predicted e).map (fun p => (Aim.entry e.feat.num, p)))

/-- The stop with its aim as it stands at a look in REQUESTED: when the aimed entry has left the served set, the served entry of least
position (R126). -/
def State.standingStop (s : State) : StopScheduler :=
  match s.ss.aim with
  | some (.entry n) =>
    if s.isServed n ∧ s.ss.aimGone = false then s.ss
    else match leastTarget s.servedTargets with
      | some x => { s.ss with aim := some x.1, aimGone := false }
      | none => s.ss
  | _ => s.ss

/-- The current target of an aim (R120); none of an entry that is gone. -/
def State.currentTarget (s : State) (m : MachineTable) : Aim → Option Int
  | .entry n => if s.ss.aimGone then none else (s.positionOf n).map (fun p => p + m.dSt)
  | .cut => s.cutTarget m

/-- The aim is judged, and the order revised when its target differs from the ordered one by more than T_pos (R126). -/
def reviseOrder (m : MachineTable) (s : State) : State :=
  let s1 : State := { s with ss := s.standingStop }
  match s1.ss.aim.bind (s1.currentTarget m), s.ss.uT, s.ss.kind with
  | some t, some u, some k =>
    if m.tPos < (t - u).natAbs then
      driveOrder (.stop k t s.ss.late s.ss.overshoot) { s1 with
        ss := { s1.ss with uT := some t, pW := if k = .defect then some (t - m.dSt) else s1.ss.pW } }
    else s1
  | _, _, _ => s1

/-- The defect candidate of least target (R120). -/
def State.findDefect (s : State) (m : MachineTable) : Option (Aim × Int) :=
  leastTarget (s.candidates.map (fun x => ((Aim.entry x.1, x.2 + (m.dSt : Int)) : Aim × Int)))

/-- The candidate that supersedes a stop ordered for U_t = u (R127): the one of least target, where that lies below u. A defect stop gives
way to the cut too, which DOFF_NOW can bring below it: the nearer target is kept (R127, R150; that R129's "never" does not reach
this case is DEDUCED, notes/assumptions/50.md). The cut does not supersede its own stop, whose order a change of P_cut revises
(R126). -/
def State.nearer (s : State) (m : MachineTable) (u : Option Int) : Option (Aim × Int) :=
  (if s.ss.kind = some .cut then s.findDefect m else s.findAim m).filter (fun x => u.any (fun u => decide (x.2 < u)))

/-- A candidate with a target below the ordered one supersedes the stop (R127). -/
def supersede (m : MachineTable) (aim : Aim) (target : Int) (s : State) : State :=
  let s1 := releaseAll s
  sendStop m aim target (decide (target - s1.pu.u < s1.stopDistance m)) { s1 with ss := { s1.ss with seenOutside := false } }

/-- The served set of a REQUESTED defect stop is empty (R128). -/
def State.emptied (s : State) : Bool := s.ss.kind == some .defect && s.fq.servedCount == 0

/-- A REQUESTED look (R124 to R128). -/
def requestedLook (m : MachineTable) (s : State) : State :=
  let s1 := dropServed s
  if s1.emptied then idleLook m (cancelStop s1)
  else
    let s2 := reviseOrder m s1
    match s2.nearer m s2.ss.uT with
    | some (aim, t) => supersede m aim t s2
    | none => if s2.ss.kind = some .defect then serveWindow m s2 else s2

/-- A look of the Stop Scheduler (R121): what it does depends on the state. -/
def look (s : State) : State :=
  match s.machine with
  | none => s
  | some m =>
    let s0 := formDs m s
    match s.ss.state with
    | .idle => idleLook m s0
    | .requested => requestedLook m s0
    | .correcting =>
      let s1 := dropServed s0
      if s.ss.kind = some .defect then serveWindow m s1 else s1
    | .halted => s0

/-! ### The walk (R98, R99) -/

/-- One station of a walk: it is taken when it is due still, since a look made in the walk may have taken it as it cleared the
entry's served mark (R112). A knife station taken gives the Stop Scheduler its look at once, also where the entry leaves there
(R102, R121; notes/assumptions/26.md). -/
def walkStation (m : MachineTable) (s : State) (d : DueStation) : State :=
  if (s.fq.findSettled d.num).any (fun e => e.due s.pu.u m d.st) then
    let s1 := takeStation false d.st d.num s
    if d.st = .knife then look s1 else s1
  else s

/-- The station logic's look at the whole queue: every station due, in order (R98, R99). -/
def walk (s : State) : State :=
  match s.machine with
  | none => s
  | some m => (s.dueList m).foldl (walkStation m) s

end Sys2Proof.Machine
end

