-- ==== Sys2Proof/Machine/Sets.lean ====
section
/-! DEFINITION. Knife orders and the preparation of the knives (R85, R87), and the Set Controller's cycle up to the cut
(R142 to R149): the gate, the opening of a set, the approach and the hand-over of the cut target. -/

namespace Sys2Proof.Machine

/-! ### Knife channels -/

def changeKnife (j : Nat) (f : KnifeChannel → KnifeChannel) (s : State) : State := { s with knives := s.knives.modify j f }

/-- A report matches a target (R86). -/
def KnifeTarget.matchedBy (kTol : Nat) (parked : Bool) (pos : Option Nat) : KnifeTarget → Bool
  | .pos t => !parked && pos.any (fun p => decide (((p : Int) - t).natAbs ≤ kTol))
  | .park => parked

/-- The channel's last reports match its target. -/
def KnifeChannel.matched (kTol : Nat) (c : KnifeChannel) : Bool :=
  c.target.any (KnifeTarget.matchedBy kTol c.reportedParked c.reported)

/-- A channel as an order is sent (R85): MOVING with its timer running; a fresh order sets retries used to 0 and the fault
cause to none, a re-sent one raises retries used by one. -/
def KnifeChannel.ordered (tKnife : Nat) (fresh : Bool) (c : KnifeChannel) : KnifeChannel :=
  { c with state := .moving, timer := some tKnife, retries := if fresh then 0 else c.retries + 1
           cause := if fresh then .none else c.cause }

/-- Send channel j's order (R85). -/
def sendKnife (m : MachineTable) (fresh : Bool) (j : Nat) (s : State) : State :=
  match (s.knives[j]?).bind (·.target) with
  | none => s
  | some t =>
    queueOwn .order (s.role (·.knifePositioner)) none (.knife j t) (changeKnife j (KnifeChannel.ordered m.tKnife fresh) s)

/-- The wanted target of knife j under a bank (R87). -/
def Bank.wantedTarget (b : Bank) (j : Nat) : KnifeTarget := if j ≤ b.n then .pos ((b.knives[j]?).getD 0) else .park

/-- A channel that R87 leaves as it is. -/
def KnifeChannel.settledAt (kTol : Nat) (t : KnifeTarget) (c : KnifeChannel) : Bool :=
  decide (c.target = some t) &&
    (match c.state with
      | .inPosition => (match t with | .pos _ => c.matched kTol | .park => false)
      | .parked => (match t with | .pos _ => false | .park => c.reportedParked)
      | .moving => true
      | _ => false)

/-- One channel prepared for a set (R87). -/
def prepareKnife (m : MachineTable) (b : Bank) (s : State) (j : Nat) : State :=
  let t := b.wantedTarget j
  match s.knives[j]? with
  | none => s
  | some c =>
    if c.settledAt m.kTol t then s
    else
      let s1 := changeKnife j (fun c => { c with target := some t }) s
      if c.state = .fault then s1 else sendKnife m true j s1

/-- The knife channels take the ACTIVE bank's positions, in ascending knife number (R87). -/
def prepareKnives (s : State) : State :=
  match s.machine, s.lpt.active with
  | some m, some b => (List.range Config.channelCount).foldl (prepareKnife m b) s
  | _, _ => s

/-! ### The gate (R143, R144) -/

/-- The knife part of the gate. -/
def State.gateKnives (s : State) (b : Bank) : Bool :=
  s.knives.zipIdx.all (fun x =>
    if x.2 ≤ b.n then decide (x.1.state = .inPosition) && decide (x.1.target = some (b.wantedTarget x.2))
    else decide (x.1.state = .parked))

def Bank.quotaSum (b : Bank) : Nat := (b.lanes.map (·.quota)).sum

/-- The slot part of the gate. -/
def State.gateSlots (s : State) (b : Bank) : Bool := b.quotaSum ≤ s.rs.freeSlots

/-- The header part of the gate. -/
def State.gateHeaders (s : State) (b : Bank) : Bool := b.n ≤ s.rs.freeHeaders

/-- The lowest-numbered channel in FAULT. -/
def State.faultKnife (s : State) : Option Nat := s.knives.findIdx? (fun c => decide (c.state = .fault))

def HeldReason.code : HeldReason → Nat
  | .knifeFault => 0
  | .recordSlots => 1
  | .recordHeaders => 2

/-- Announce a reason that holds the set, once in a preparation (R144). -/
def announce (r : HeldReason) (applies : Bool) (value : Nat) (s : State) : State :=
  if applies ∧ r ∉ s.sc.held then
    queueNotice .setHeld (wNat s.sc.num) (wNat r.code) (wNat value) { s with sc := { s.sc with held := s.sc.held ++ [r] } }
  else s

/-- The reasons announced at a judgement of the gate that fails (R144). -/
def announceHeld (b : Bank) (s : State) : State :=
  announce .recordHeaders (!s.gateHeaders b) s.rs.freeHeaders
    (announce .recordSlots (!s.gateSlots b) s.rs.freeSlots
      (announce .knifeFault s.faultKnife.isSome (s.faultKnife.getD 0) s))

/-! ### Approach and the hand-over of the cut (R148, R149) -/

/-- The distance condition of R149. -/
def State.cutNear (s : State) (m : MachineTable) : Bool :=
  s.pCut.any (fun p => decide (p + m.dNip - s.pu.u ≤ s.stopDistance m + s.mt.rExp))

/-- The set enters CUT_STOP and hands the cut target to the Stop Scheduler, which looks (R129, R149). -/
def enterCutStop (s : State) : State :=
  look { s with sc := { s.sc with state := .cutStop }, ss := { s.ss with cutHeld := true } }

/-- The test of R149 in APPROACH. -/
def cutTest (m : MachineTable) (s : State) : State :=
  if s.sc.state = .approach ∧ (s.remaining.any (fun r => decide (r ≤ 0)) ∨ s.cutNear m) then enterCutStop s else s

/-- The set enters APPROACH (R148): X is frozen, the speed is limited to v_app, and the test of R149 is made at once; the
change of the set state gives the Stop Scheduler a look. -/
def enterApproach (m : MachineTable) (s : State) : State :=
  let s1 := driveOrder (.speed m.vApp) { s with sc := { s.sc with state := .approach, xFrozen := true } }
  let s2 := cutTest m s1
  if s2.sc.state = .approach then look s2 else s2

/-- The remaining-repeat test of R148 in RUNNING. -/
def approachTest (m : MachineTable) (s : State) : State :=
  let nApp := (s.lpt.active.map (·.nApp)).getD 0
  if s.sc.state = .running ∧ s.remaining.any (fun r => decide (r ≤ nApp)) then enterApproach m s else s

/-- The Set Controller's tests at an applied count frame (R149). -/
def setAtFrame (m : MachineTable) (s : State) : State :=
  if s.sc.state = .running then (if s.cutNear m then enterApproach m s else s)
  else cutTest m s

/-- The Set Controller's record of a counted mark (R146): its position is the cut mark position where it is mark K_cut, in any
set state; a frozen P_cut stands by it (R155). -/
def SetController.mark (k : Nat) (u : Int) (t : SetController) : SetController :=
  { t with counted := { k := k, u := u } :: t.counted, cutMark := if t.kCut = some k then some u else t.cutMark }

/-- The Set Controller at a mark event (R146, R148, R149): the mark is recorded, and the test of its state is made. -/
def setAtMark (k : Nat) (u : Int) (m : MachineTable) (s : State) : State :=
  let s1 : State := { s with sc := s.sc.mark k u }
  if s1.sc.state = .running then approachTest m s1 else cutTest m s1

/-! ### Opening (R145) -/

/-- K_cut takes a value (R146): the cut mark position is u_mark(K_cut) where that mark has been counted already, and none
otherwise. -/
def SetController.aimCut (k : Nat) (t : SetController) : SetController :=
  { t with kCut := some k, cutMark := (t.counted.find? (fun l => l.k == k)).map (·.u) }

/-- Steps 1 and 3: where the set starts and what it counts from. -/
def SetController.opened (t : SetController) (pStart : Int) (nSet : Nat) : SetController :=
  SetController.aimCut (t.lastKCut.getD 0 + nSet)
    { t with state := .running, pStart := some pStart, kBase := some (t.lastKCut.getD 0), x := 0, xFrozen := false
             removed := List.replicate Config.laneCount 0, frozenCut := none }

/-- Step 2: the Settled entries below the start leave as threading waste, in list order. -/
def discardWaste (pStart : Int) (s : State) : State :=
  (s.fq.settled.filter (fun e => decide (e.p < pStart))).foldl (fun s e => leave e.feat.num s) s

/-- Where a set starts (R145, step 1). -/
def State.startAt (s : State) (m : MachineTable) : Int :=
  match s.sc.mode with
  | some .continue => s.sc.frozenCut.getD 0
  | _ => s.pu.u - m.dKn

/-- The set enters RUNNING and is opened, in the order of R145. -/
def openSet (m : MachineTable) (b : Bank) (s : State) : State :=
  let start := s.startAt m
  let s1 := if s.sc.mode = some .continue then s else discardWaste start s
  let s2 : State := { s1 with sc := s1.sc.opened start b.nSet }
  let roll := (s2.ms.current.map (·.rollId)).getD 0
  let s3 := openRecords s2.sc.num roll b s2
  let s4 := driveOrder (.speed 0) s3
  let s5 := queueNotice .setReady (wNat s4.sc.num) (wInt start) 0 s4
  approachTest m (look (walk s5))

/-- A judgement of the gate (R143): the set opens when its three parts hold, and reasons that hold it are announced. -/
def judgeGate (s : State) : State :=
  match s.machine, s.lpt.active with
  | some m, some b =>
    if s.sc.state = .preparing then
      if s.gateKnives b ∧ s.gateSlots b ∧ s.gateHeaders b then openSet m b s else announceHeld b s
    else s
  | _, _ => s

/-- The set enters PREPARING (R142): the held reasons are emptied, the knives take the ACTIVE bank's positions, and the gate
is judged. -/
def enterPreparing (s : State) : State :=
  judgeGate (prepareKnives { s with sc := { s.sc with state := .preparing, held := [] } })

/-! ### Sending records with the gate (R166, R168, R169) -/

/-- The sent report of the reel-record frame in flight (R169): what it held is given back and the gate is judged on the new free
counts. -/
def recordSent (s : State) : State :=
  match s.rs.inFlight with
  | none => s
  | some f => judgeGate { s with rs := s.rs.giveBack f }

/-- Pass reel-record frames while R168 allows it. Where neither port has link a frame goes out as it is passed, so its
report comes at once and the next is passed in turn. -/
def pumpRecords : Nat → State → State
  | 0, s => s
  | fuel + 1, s =>
    match nextRecord s with
    | none => s
    | some (i, r) =>
      let s1 := passRecord i r s
      if s.noLink then pumpRecords fuel (recordSent s1) else s1

/-- Frames that all records of the send list still need: an upper bound on what one event can pass. -/
def RecordStore.framesLeft (t : RecordStore) : Nat :=
  (t.sendList.map (fun i => match t.record i with | some r => r.events.length / Config.fragmentEvents + 1 | none => 1)).sum

/-- Check the conditions of R168. -/
def sendRecords (s : State) : State := pumpRecords (s.rs.framesLeft + 1) s

end Sys2Proof.Machine
end

