-- ==== Sys2Proof/Machine/Marks.lean ====
section
/-! DEFINITION. The Position Unit and the Mark Tracker (chapter 1), and what a counted mark does in the Map Store, the Feature
Queue and the Set Controller (R17, R40, R49 to R53). -/

namespace Sys2Proof.Machine

/-- A tracking state under which positions are doubtful: COASTING, LOST or RELOCKING (R62). -/
def TrackState.doubtful : TrackState → Bool
  | .coasting | .lost | .relocking => true
  | _ => false

/-! ### Joining the Settled list -/

/-- An entry joins the Settled list and is judged at once: its stations already due are taken before any other block looks
at it (R100), then the Stop Scheduler looks (R121). Here and below, `frame` says that the mark is one that a position event
supplies (R14), whose own walk is still to come. -/
def joinJudged (frame : Bool) (e : Settled) (s : State) : State := look (walkJoined frame e.feat.num (joinSettled e s))

/-- A new Settled entry with its markers not taken. -/
def freshSettled (f : Feature) (p : Int) : Settled :=
  { feat := f, p := p, items := [], knife := false, table := false, flag := false, nip := false }

/-- An entry of a repeat placed directly: origin MAP, at u_mark + o_adj with length ℓ_adj (R40, R50). -/
def Header.placedOf (h : Header) (num : Nat) (u e : Int) (suspect : Bool) (x : PressEntry) : Settled :=
  freshSettled
    { num := num, origin := .map, kind := x.kind, len := (stretched x.len e).toNat, press := some x.ext, slit := none
      rep := some x.rep, suspect := suspect, served := false }
    (u + stretched (h.anchorOffset x.off x.len) e)

/-- One entry of a repeat joins the Settled list directly (R50). -/
def placeOne (frame : Bool) (h : Header) (u : Int) (s : State) (x : PressEntry) : State :=
  joinJudged frame (h.placedOf s.fq.freeSlot u s.mt.e s.mt.state.doubtful x) s

/-! ### Spans (R51 to R53) -/

/-- The length a span would have if the new span extended it (R52). -/
def spanLength (e : Settled) (p : Int) (len : Nat) : Nat := max (p + len - e.p).toNat e.feat.len

/-- A span that a new span of the same kind touches and can extend (R52). -/
def extends_ (wMk : Nat) (kind : FeatKind) (p : Int) (len : Nat) (e : Settled) : Bool :=
  decide (e.feat.kind = kind) && decide (e.p < p) && decide (p ≤ e.p + e.feat.len + wMk) && !e.nip
    && decide (spanLength e p len ≤ 65535)

/-- A span handed over by the Map Store: it extends the touching span of greatest position, or joins, or is lost with
UNVERIFIED and QUEUE_FULL (R51 to R53). -/
def handSpan (frame : Bool) (m : MachineTable) (kind : FeatKind) (p : Int) (len : Nat) (s : State) : State :=
  match s.fq.settled.reverse.find? (extends_ m.wMk kind p len) with
  | some e =>
    let s1 := changeSettled e.feat.num (fun x => { x with feat := { x.feat with len := spanLength e p len } }) s
    if s.mt.state.doubtful then tagSettled e.feat.num s1 else s1
  | none =>
    if s.fq.free ≠ 0 then
      joinJudged frame (freshSettled
        { num := s.fq.freeSlot, origin := .span, kind := kind, len := len, press := none, slit := none, rep := none
          suspect := s.mt.state.doubtful, served := false } p) s
    else queueNotice .queueFull (wInt p) 0 0 (markUnverified s)

/-! ### A counted mark in the Map Store (R40) -/

/-- Advance the frontier past mark k with the unmapped run as given. -/
def advanceFrontier (k : Nat) (run : Bool) (s : State) : State :=
  { s with ms := { s.ms with frontier := some (k + 1), run := run } }

/-- The repeat's block is valid and the queue has room: the repeat is placed (R40, case 1). -/
def placeRepeat (frame : Bool) (h : Header) (k : Nat) (u : Int) (b : Nat) (entries : List PressEntry) (s : State) : State :=
  let s1 := advanceFrontier k false { s with ms := s.ms.use b }
  checkRequests (entries.foldl (placeOne frame h u) s1)

/-- The repeat's block is absent: an UNMAPPED span, the notice at the start of a run, and the request abandoned with the block's
last repeat (R37; R40, case 3). -/
def spanUnmapped (frame : Bool) (m : MachineTable) (h : Header) (k r : Nat) (u : Int) (s : State) : State :=
  let s1 := handSpan frame m .unmapped u s.mt.rExp.toNat (advanceFrontier k true s)
  let s2 := if s.ms.run then s1 else queueNotice .unmappedBegin (wNat r) 0 0 s1
  let b := blockOfRepeat r
  let s3 : State :=
    if r = h.lastRepeatOf b then { s2 with ms := { s2.ms with outstanding := s2.ms.outstanding.erase b } } else s2
  checkRequests s3

/-- The Map Store's late handling of a counted mark at or beyond the frontier (R40). -/
def lateHandling (frame : Bool) (m : MachineTable) (h : Header) (k : Nat) (u : Int) (s : State) : State :=
  if s.ms.frontier.any (fun f => decide (f ≤ k)) then
    match h.pressRepeat k with
    | none => s
    | some r =>
      match s.ms.block (blockOfRepeat r) with
      | some blk =>
        let entries := blk.entriesOf h r
        if entries.length ≤ s.fq.free then placeRepeat frame h k u (blockOfRepeat r) entries s
        else checkRequests (handSpan frame m .blind u s.mt.rExp.toNat (advanceFrontier k false s))
      | none => spanUnmapped frame m h k r u s
  else s

/-! ### Settling (R49) -/

/-- A Forecast entry as it settles on its mark (R30, R49). -/
def Forecast.settle (u e : Int) (doubt : Bool) (x : Forecast) : Settled :=
  freshSettled { x.feat with len := (stretched x.feat.len e).toNat, suspect := x.feat.suspect || doubt } (u + stretched x.off e)

/-- One Forecast entry moves to the Settled list and is judged at once (R49, R100). -/
def settleOne (frame : Bool) (u : Int) (s : State) (num : Nat) : State :=
  match s.fq.findForecast num with
  | none => s
  | some x =>
    let e := x.settle u s.mt.e s.mt.state.doubtful
    let s1 : State := { s with
      fq := { s.fq with forecast := s.fq.forecast.filter (fun y => y.feat.num != num), settled := insertSettled e s.fq.settled } }
    look (walkJoined frame num (noticeTags s.fq.tagged s1))

/-- Every Forecast entry anchored on a counted mark settles, in Forecast order (R49). -/
def settleMark (frame : Bool) (k : Nat) (u : Int) (s : State) : State :=
  ((s.fq.forecast.filter (fun e => e.k == k)).map (·.feat.num)).foldl (settleOne frame u) s

/-- A mark event handed on to the blocks that act on it (R17), with the Stop Scheduler's look (R121). -/
def markEvent (frame : Bool) (k : Nat) (u : Int) (s : State) : State :=
  match s.machine, s.ms.current with
  | some m, some h => look (setAtMark k u m (expand (settleMark frame k u (lateHandling frame m h k u s))))
  | _, _ => s

/-! ### The Mark Tracker -/

/-- A stretch sample of a measured repeat (R13). -/
def stretchSample (rNom : Nat) (measured : Int) : Int :=
  clamp (-20000) 20000 (roundHalfAway ((measured - rNom) * 1000000) rNom)

/-- The estimate after a sample (R13). -/
def nextStretch (e sample : Int) : Int := clamp (-20000) 20000 (e + truncDiv (sample - e) 8)

/-- The expected repeat (R13). -/
def expectedRepeat (rNom : Nat) (e : Int) : Int := stretched rNom e

/-- The tracking state after a real mark (R15). -/
def TrackState.afterReal : TrackState → TrackState
  | .seeking | .locked | .coasting | .relocking => .locked
  | .lost => .relocking

/-- A real mark takes a stretch sample: the last counted mark was real and the state is LOCKED or RELOCKING (R12). -/
def MarkTracker.samples (t : MarkTracker) : Bool := t.lastReal && (t.state == .locked || t.state == .relocking)

/-- E after a real mark at u (R12, R13). -/
def MarkTracker.stretchAfter (t : MarkTracker) (rNom : Nat) (u : Int) : Int :=
  match t.last with
  | some l => if t.samples then nextStretch t.e (stretchSample rNom (u - l.u)) else t.e
  | none => t.e

/-- The tracker after counting a real mark at u (R12, R15). -/
def MarkTracker.real (rNom : Nat) (u : Int) (t : MarkTracker) : MarkTracker :=
  let e := t.stretchAfter rNom u
  { state := t.state.afterReal
    last := some { k := match t.last with | some l => l.k + 1 | none => 0, u := u }
    lastReal := true, miss := 0, e := e
    rExp := if e = t.e then t.rExp else expectedRepeat rNom e }

/-- The tracking state and miss count after a synthesized mark (R15). -/
def MarkTracker.afterMiss (t : MarkTracker) : TrackState × Nat :=
  match t.state with
  | .seeking => (.seeking, t.miss)
  | .locked => (.coasting, 1)
  | .coasting => if 3 ≤ t.miss + 1 then (.lost, t.miss + 1) else (.coasting, t.miss + 1)
  | .lost => (.lost, t.miss)
  | .relocking => (.lost, t.miss)

/-- The tracker after synthesizing the mark that follows mark l (R14, R15). -/
def MarkTracker.synth (l : LastMark) (t : MarkTracker) : MarkTracker :=
  { t with state := t.afterMiss.1, miss := t.afterMiss.2, last := some { k := l.k + 1, u := l.u + t.rExp }, lastReal := false }

/-- Count a real mark at u (R12): the tracker's own update with its notice, then the mark event. -/
def countReal (rNom : Nat) (u : Int) (s : State) : State :=
  let k := match s.mt.last with | some l => l.k + 1 | none => 0
  let s1 : State := { s with mt := s.mt.real rNom u }
  let s2 := if s.mt.state = .relocking then queueNotice .trackingRestored (wNat k) 0 0 s1 else s1
  markEvent false k u s2

/-- Synthesize the mark that follows mark l (R14): the tracker's own update with its notice, then the mark event. -/
def synthesize (frame : Bool) (l : LastMark) (s : State) : State :=
  let s1 : State := { s with mt := s.mt.synth l }
  let s2 :=
    if s1.mt.state = .lost ∧ s.mt.state ≠ .lost then queueNotice .trackingLost (wNat (l.k + 1)) 0 0 s1 else s1
  markEvent frame (l.k + 1) (l.u + s.mt.rExp) s2

/-- The upper end of the acceptance window (R11). -/
def MarkTracker.windowHigh (t : MarkTracker) (wMk : Nat) (l : LastMark) : Int := l.u + t.rExp + wMk

/-- The lower end of the acceptance window (R11). -/
def MarkTracker.windowLow (t : MarkTracker) (wMk : Nat) (l : LastMark) : Int :=
  if t.state = .lost then l.u + 1 else max (l.u + t.rExp - wMk) (l.u + 1)

/-- How many marks at most lie between the last counted mark and a position. -/
def MarkTracker.marksTo (t : MarkTracker) (u : Int) : Nat :=
  match t.last with
  | some l => ((u - l.u) / max 1 t.rExp).toNat + 2
  | none => 0

/-- Synthesize the marks whose windows the web position has passed at a position event (R14). -/
def synthesizeTo (wMk : Nat) (u : Int) : Nat → State → State
  | 0, s => s
  | fuel + 1, s =>
    match s.mt.last with
    | none => s
    | some l =>
      if s.mt.state ≠ .seeking ∧ s.mt.windowHigh wMk l < u then synthesizeTo wMk u fuel (synthesize true l s) else s

/-- Judge a mark at u against the acceptance window (R11): below it, discarded; in it, counted; above it, the missing mark is
synthesized first and the mark judged again. -/
def judgeMark (wMk rNom : Nat) (u : Int) : Nat → State → State
  | 0, s => s
  | fuel + 1, s =>
    match s.mt.last with
    | none => s
    | some l =>
      if u < s.mt.windowLow wMk l then s
      else if u ≤ s.mt.windowHigh wMk l then countReal rNom u s
      else judgeMark wMk rNom u fuel (synthesize false l s)

/-- A mark at position u, after the conversion of its latched count (R10). -/
def takeMark (m : MachineTable) (h : Header) (u : Int) (s : State) : State :=
  if s.pu.dir = .reverse then s
  else if s.mt.state = .seeking then (if s.pu.dir = .forward then countReal h.rNom u s else s)
  else judgeMark m.wMk h.rNom u (s.mt.marksTo u) s

/-! ### The Position Unit -/

/-- The position of a latched count; none where it is refused (R7). -/
def State.latched (s : State) (cx : Word) : Option Int :=
  match s.machine with
  | none => none
  | some m =>
    let d := signedDiff cx s.pu.cPrev
    if s.pu.enc = .noBase ∨ m.dMax * 64 < d.natAbs then none
    else some (s.pu.u + floorDiv (s.pu.acc + d * 10000) m.ppm)

/-- The history with one more interval, at most eight (R6). -/
def joinInterval (i : Interval) (l : List Interval) : List Interval := (if 8 ≤ l.length then l.drop 1 else l) ++ [i]

/-- The speed of a history, or the last value where its times sum to 0 (R6). -/
def speedOf (l : List Interval) (v : Nat) : Nat :=
  let a := (l.map (·.adv)).sum
  let t := (l.map (·.time)).sum
  if t = 0 then v else (min 20000 (roundHalfUp ((a.natAbs : Int) * 100000) t)).toNat

/-- The direction of a history (R6). -/
def directionOf (l : List Interval) : Direction :=
  let a := (l.map (·.adv)).sum
  if 0 < a then .forward else if a < 0 then .reverse else .standstill

/-- The Position Unit as any count frame taken in TRACKING or SILENT leaves its baseline (R1). -/
def PositionUnit.rebased (c t : Word) (sEnc : Nat) (p : PositionUnit) : PositionUnit :=
  { p with cPrev := c, tPrev := t, enc := .tracking, silence := some sEnc }

/-- The Position Unit after an applied frame (R3, R6). -/
def PositionUnit.applied (adv acc : Int) (dt : Nat) (p : PositionUnit) : PositionUnit :=
  let hist := joinInterval { adv := adv, time := dt } p.hist
  { p with u := p.u + adv, acc := acc, hist := hist, v := speedOf hist p.v, dir := directionOf hist }

/-- The tracker at a discontinuity (R16). In LOST nothing changes: that the miss count stands there too, where R16 names the
states left and then says that it becomes 0, is DESIGN CHOICE (notes/assumptions/28.md). -/
def trackerJump (s : State) : State :=
  match s.mt.state with
  | .locked | .coasting | .relocking =>
    queueNotice .trackingLost (wOptNat (s.mt.last.map (·.k))) 0 0 { s with mt := { s.mt with state := .lost, miss := 0 } }
  | _ => s

/-- A discontinuity, after the baseline has taken the frame's count and time (R4). -/
def discontinuity (d : Int) (s : State) : State :=
  let s1 := trackerJump { s with pu := { s.pu with hist := [] } }
  queueNotice .encoderJump (wInt d) 0 0 (markUnverified (tagAll s1))

/-- H_cam at a position event (R58). -/
def raiseHCam (m : MachineTable) (s : State) : State :=
  { s with fq := { s.fq with hCam := s.fq.hCam.map (fun x => max x (s.pu.u - m.dCam)) } }


/-- The missing marks that a position event supplies (R14): a web that runs back passes no window (R19). -/
def missingMarks (m : MachineTable) (adv : Int) (s : State) : State :=
  if 0 < adv then synthesizeTo m.wMk s.pu.u (s.mt.marksTo s.pu.u) s else s

/-- A position event (R8) of an advance: H_cam, the missing marks, the station logic's walk and the Stop Scheduler's look, which comes
before any station is taken or after the walk, as drawn (R105; notes/assumptions/3.md). Each knife station of the walk gives a
look of its own (R121). -/
def positionEvent (m : MachineTable) (adv : Int) (s : State) : State :=
  let s1 := raiseHCam m { s with lookFirst := s.lookFirst.tail }
  if s.lookFirst.headD false then walk (missingMarks m adv (look s1)) else look (walk (missingMarks m adv s1))

/-- The standstill check at the end of an applied frame (R130, R131): one check for one standstill, so a jog that an order sent
at this frame has already called for is not checked again (DEDUCED, notes/assumptions/33.md). -/
def standstillAt (m : MachineTable) (before : State) (s : State) : State :=
  if before.pu.dir ≠ .standstill ∧ s.pu.dir = .standstill
      ∧ (s.ss.state = .requested ∨ (s.ss.state = .correcting ∧ before.ss.state = .correcting)) then
    standstillCheck m s
  else s

/-- What follows an applied frame in the blocks that read the web position (R8, R121, R130, R149). -/
def frameApplied (m : MachineTable) (adv : Int) (before s : State) : State :=
  let s1 := if adv = 0 then look s else positionEvent m adv s
  expand (standstillAt m before (setAtFrame m s1))

/-- A count frame taken by the Position Unit (R1 to R4). -/
def takeCount (c t : Word) (s : State) : State :=
  match s.machine with
  | none => s
  | some m =>
    if s.pu.enc = .noBase then
      { s with pu := s.pu.rebased c t m.sEnc }
    else
      let d := signedDiff c s.pu.cPrev
      let limit := if s.pu.enc = .silent then m.dMax * 64 else m.dMax
      let dt := (max 0 (signedDiff t s.pu.tPrev)).toNat
      let acc := s.pu.acc + d * 10000
      let adv := floorDiv acc m.ppm
      let s1 : State := { s with pu := s.pu.rebased c t m.sEnc }
      if limit < d.natAbs then discontinuity d s1
      else if s.pu.u + adv < int32Min ∨ int32Max < s.pu.u + adv then discontinuity 0 s1
      else frameApplied m adv s { s1 with pu := s1.pu.applied adv (acc - adv * m.ppm) dt }

/-- The silence timer expires (R5). -/
def silenceExpires (s : State) : State :=
  let s1 : State := { s with pu := { s.pu with silence := none } }
  if s.pu.v = 0 then s1
  else queueNotice .encoderSilent (wNat s.pu.v) 0 0 (tagAll { s1 with pu := { s1.pu with enc := .silent } })

end Sys2Proof.Machine
end

