-- ==== Sys2Proof/Machine/Reports.lean ====
section
/-! DEFINITION. In-line sightings (3.4), knife reports and confirm timers (5.2 to 5.5), map blocks taken in (R34, R35), record
flow (R170), and the expiry of a channel's timer. -/

namespace Sys2Proof.Machine

/-! ### Sightings -/

/-- A sighting as handled: its position, what it saw, its length and slitter extent, and its taint (R54). -/
structure Sighting where
  p : Int
  kind : FeatKind
  len : Nat
  ext : Extent
  taint : Bool
  deriving DecidableEq, Repr

/-- Two extents overlap when each is widened by M_cd (R56). -/
def overlaps (mCd : Nat) (a b : Extent) : Bool :=
  decide (a.x0 - mCd ≤ b.x1 + mCd) && decide (b.x0 - mCd ≤ a.x1 + mCd)

/-- The first of the entries nearest to a position. -/
def nearest (p : Int) : List Settled → Option Settled
  | [] => none
  | x :: t =>
    match nearest p t with
    | some y => if (p - y.p).natAbs < (p - x.p).natAbs then some y else some x
    | none => some x

/-- A Settled entry that a sighting confirms: a MAP DEFECT whose extent overlaps, or a MAP SPLICE, within M_md and not yet
past its knife station (R56, R59). -/
def State.confirmable (s : State) (m : MachineTable) (g : Sighting) (e : Settled) : Bool :=
  decide (e.feat.origin = .map) && decide ((g.p - e.p).natAbs ≤ m.mMd) && !e.knife &&
    (match g.kind, e.feat.kind with
      | .defect _, .defect _ => (s.extentOf e.feat).any (fun x => overlaps m.mCd g.ext x)
      | .splice, .splice => true
      | _, _ => false)

/-- A confirmed entry: BOTH, with the sighting's slitter extent (R44, R56, R59). -/
def Settled.confirm (g : Sighting) (e : Settled) : Settled :=
  { e with feat := { e.feat with origin := .both, slit := some g.ext } }

/-- The first three tests of streak growth (R57). -/
def streakCandidate (m : MachineTable) (g : Sighting) (e : Settled) : Bool :=
  decide (e.feat.origin = .inline) && decide (e.feat.kind = g.kind) && decide (e.p ≤ g.p)
    && decide (g.p ≤ e.p + e.feat.len + m.mMd) && (e.feat.slit.any (fun x => overlaps m.mCd g.ext x)) && !e.knife

/-- The grown length (R57). -/
def grownLength (g : Sighting) (e : Settled) : Nat := max (g.p + g.len - e.p).toNat e.feat.len

/-- An entry grown by a sighting (R57). -/
def Settled.grow (g : Sighting) (e : Settled) : Settled :=
  { e with feat := { e.feat with
      len := grownLength g e
      slit := e.feat.slit.map (fun x => { x0 := min x.x0 g.ext.x0, x1 := max x.x1 g.ext.x1 }) } }

/-- A sighting merged into an entry: the entry changes, takes the tag of a tainted sighting, and the Stop Scheduler looks
(R55, R121). -/
def merge (g : Sighting) (num : Nat) (f : Settled → Settled) (s : State) : State :=
  let s1 := changeSettled num f s
  look (if g.taint then tagSettled num s1 else s1)

/-- A sighting that has not merged and is not a re-read joins as an INLINE entry, or is lost (R60). -/
def joinInline (g : Sighting) (s : State) : State :=
  if s.fq.free ≠ 0 then
    joinJudged false (freshSettled
      { num := s.fq.freeSlot, origin := .inline, kind := g.kind, len := g.len, press := none, slit := some g.ext, rep := none
        suspect := g.taint, served := false } g.p) s
  else queueNotice .queueFull (wInt g.p) 0 0 (markUnverified s)

/-- The entry that a DEFECT sighting grows, if the nearest that passes the first three tests passes the fourth (R57). -/
def State.streak (s : State) (m : MachineTable) (g : Sighting) : Option Settled :=
  match g.kind with
  | .defect _ => (nearest g.p (s.fq.settled.filter (streakCandidate m g))).filter (fun e => grownLength g e ≤ 65535)
  | _ => none

/-- A sighting is a re-read (R55, R58). -/
def State.reread (s : State) (m : MachineTable) (p : Int) : Bool := s.fq.hCam.any (fun x => decide (p ≤ x - m.mMd))

/-- A sighting handled in the order of R55. -/
def handleSighting (m : MachineTable) (g : Sighting) (s : State) : State :=
  match nearest g.p (s.fq.settled.filter (s.confirmable m g)) with
  | some e => merge g e.feat.num (Settled.confirm g) s
  | none =>
    match s.streak m g with
    | some e => merge g e.feat.num (Settled.grow g) s
    | none => if s.reread m g.p then s else joinInline g s

/-- The content tests of a sighting frame (R54). -/
def sightingInRange (kind cls : Byte) (x0 x1 : Half) : Bool :=
  kind.toNat ≤ 1 && (kind.toNat == 1 || cls.toNat ≤ 15) && x0.toNat ≤ x1.toNat && x1.toNat ≤ 30000

/-- The taint of a sighting (R54). -/
def State.taint (s : State) : Bool := s.mt.state.doubtful || s.pu.enc == .silent

/-- A sighting frame that has passed the checks of the Line Link Interface (R54). -/
def takeSighting (src : Byte) (cDet : Word) (kind cls : Byte) (len x0 x1 : Half) (s : State) : State :=
  if sightingInRange kind cls x0 x1 then
    match s.latched cDet, s.machine with
    | some u, some m =>
      if s.ms.current.isSome then
        expand (handleSighting m
          { p := u - m.dCam, kind := if kind = 1 then .splice else .defect cls.toNat, len := len.toNat
            ext := { x0 := x0.toNat, x1 := x1.toNat }, taint := s.taint } s)
      else s
    | _, _ => refuse src 0x12 .range s
  else refuse src 0x12 .range s

/-- A mark frame that has passed the checks of the Line Link Interface (R7, R10). -/
def takeMarkFrame (src : Byte) (cx : Word) (s : State) : State :=
  match s.latched cx, s.machine with
  | some u, some m =>
    match s.ms.current with
    | some h => expand (takeMark m h u s)
    | none => s
  | _, _ => refuse src 0x11 .range s

/-! ### Knife channels -/

/-- The outcomes of a knife report (10.4). -/
inductive KnifeOutcome where
  | done
  | fault
  | status
  deriving DecidableEq, Repr

def KnifeState.code : KnifeState → Nat
  | .idle => 0
  | .moving => 1
  | .inPosition => 2
  | .drifted => 3
  | .parked => 4
  | .fault => 5

def KnifeCause.code : KnifeCause → Nat
  | .none => 0
  | .reported => 1
  | .misplaced => 2
  | .timeout => 3

/-- What a change of a channel's state gives other blocks: a look where DRIFTED is entered or left (R121), and a judgement of the
gate where the set is PREPARING (R84, R143). -/
def knifeChanged (j : Nat) (before s : State) : State :=
  let old := (before.knives[j]?).map (·.state)
  let new := (s.knives[j]?).map (·.state)
  if old = new then s
  else
    let s1 := if old = some KnifeState.drifted ∨ new = some KnifeState.drifted then look s else s
    judgeGate s1

/-- A channel enters FAULT (R88, R89). -/
def knifeFault (j : Nat) (cause : KnifeCause) (s : State) : State :=
  let reported := (s.knives[j]?).bind (·.reported)
  queueNotice .knifeFault (wNat j) (wNat cause.code) (wOptNat reported)
    (changeKnife j (fun c => { c with state := .fault, timer := none, cause := cause }) s)

/-- A channel is confirmed: IN_POSITION for a position target, PARKED for PARK (R88, R93). -/
def KnifeChannel.confirmed (c : KnifeChannel) : KnifeChannel :=
  { c with state := if c.target = some .park then .parked else .inPosition, timer := none }

/-- The DRIFT event of a lane beside a knife; a gross position below 0 is written as 0 (R92). One beyond the range of 9.1 is kept as it
is: DESIGN CHOICE (notes/assumptions/15.md). -/
def driftEvent (gross : Int) : Event :=
  { kind := .drift, cls := none, gross := gross.toNat, len := 0, origin := none, rep := none, suspect := false
    confirmed := false, notRemoved := false, flagShared := false, rejectCause := false }

/-- The lanes beside knife j of a bank, ascending (R92). -/
def lanesBeside (n j : Nat) : List Nat := (if 0 < j ∧ j - 1 < n then [j - 1] else []) ++ (if j < n then [j] else [])

/-- A channel enters DRIFTED (R92). -/
def knifeDrifts (m : MachineTable) (j : Nat) (s : State) : State :=
  let gross := s.pu.u - m.dKn - s.sc.pStart.getD 0
  let lanes := lanesBeside ((s.lpt.active.map (·.n)).getD 0) j
  let s1 := changeKnife j (fun c => { c with state := .drifted }) s
  let s2 := lanes.foldl (fun s l => handEvent l (driftEvent gross) s) s1
  queueNotice .knifeDrift (wNat j) (wOptNat ((s.knives[j]?).bind (·.reported)))
    (wBool (((s.knives[j]?).map (·.reportedParked)).getD false)) s2

/-- A DONE or STATUS report that does not match, taken in IN_POSITION (R91). -/
def outOfPosition (m : MachineTable) (j : Nat) (s : State) : State :=
  match s.sc.state with
  | .running | .approach => knifeDrifts m j s
  | .preparing => sendKnife m true j s
  | _ => s

/-- A DONE or STATUS report that does not match, taken in PARKED (R91). That the order sent again in PREPARING sets retries used
to 0, as R91 says of IN_POSITION, is DESIGN CHOICE (notes/assumptions/48.md). -/
def outOfPark (m : MachineTable) (j : Nat) (c : KnifeChannel) (s : State) : State :=
  let s1 := queueNotice .knifeDrift (wNat j) (wOptNat c.reported) (wBool c.reportedParked) s
  if s.sc.state = .preparing then sendKnife m true j s1 else s1

/-- A report judged by the state of its channel, whose reported position and parked mark it has already replaced
(R88, R91, R93). -/
def judgeReport (m : MachineTable) (j : Nat) (o : KnifeOutcome) (c : KnifeChannel) (s : State) : State :=
  let ok := c.matched m.kTol
  match c.state, o with
  | .moving, .fault => knifeFault j .reported s
  | .moving, .done => if ok then changeKnife j KnifeChannel.confirmed s else knifeFault j .misplaced s
  | .moving, .status => s
  | _, .fault => queueNotice .knifeFault (wNat j) (wNat KnifeCause.reported.code) (wNat c.state.code) s
  | .idle, _ => s
  | .fault, _ => if ok then changeKnife j (fun c => { c.confirmed with cause := .none }) s else s
  | .inPosition, _ => if ok then s else outOfPosition m j s
  | .drifted, _ => if ok then changeKnife j (fun c => { c with state := .inPosition }) s else s
  | .parked, _ => if ok then s else outOfPark m j c s

/-- What a DONE or STATUS report replaces in its channel (R86). -/
def KnifeChannel.report (pos : Nat) (parked : Bool) (c : KnifeChannel) : KnifeChannel :=
  { c with reportedParked := parked, reported := if parked then c.reported else some pos }

/-- A report handed to the channel of its knife number (R86). -/
def knifeReport (m : MachineTable) (j : Nat) (o : KnifeOutcome) (pos : Nat) (parked : Bool) (s : State) : State :=
  let s1 := if o = .fault then s else changeKnife j (KnifeChannel.report pos parked) s
  match s1.knives[j]? with
  | none => s1
  | some c => knifeChanged j s (judgeReport m j o c s1)

/-- The content tests of a knife report (R86). -/
def knifeReportInRange (knife outcome : Byte) (position : Half) (parked : Byte) : Bool :=
  knife.toNat ≤ 24 && position.toNat ≤ 30000 && outcome.toNat ≤ 2 && parked.toNat ≤ 1

def knifeOutcome (outcome : Byte) : KnifeOutcome :=
  if outcome = 0 then .done else if outcome = 1 then .fault else .status

/-- A knife report that has passed the checks of the Line Link Interface (R86). Without a machine table no channel has a target
and no tolerance is read: the report is kept (R93). -/
def takeKnifeReport (src knife outcome : Byte) (position : Half) (parked : Byte) (s : State) : State :=
  if knifeReportInRange knife outcome position parked then
    let j := knife.toNat
    let o := knifeOutcome outcome
    match s.machine with
    | some m => expand (knifeReport m j o position.toNat (parked = 1) s)
    | none =>
      if o = .fault then
        queueNotice .knifeFault (wNat j) (wNat KnifeCause.reported.code)
          (wNat (((s.knives[j]?).map (·.state.code)).getD 0)) s
      else changeKnife j (KnifeChannel.report position.toNat (parked = 1)) s
  else refuse src 0x13 .range s

/-- A MOVING channel's confirm timer expires (R89). -/
def confirmExpires (m : MachineTable) (j : Nat) (c : KnifeChannel) (s : State) : State :=
  if c.retries < m.rc then sendKnife m false j s else knifeChanged j s (knifeFault j .timeout s)

/-! ### Map blocks -/

/-- The DENSE flag of a map block (10.4). -/
def denseFlag (flags : Byte) : Bool := flags.getLsbD 0

/-- A map block stored (R35): written, its BLOCK_FAULT queued when screening dropped or clamped entries, then an expansion
attempt and the check of requests. -/
def storeBlock (blk : Block) (s : State) : State :=
  let s1 : State := { s with ms := s.ms.store blk }
  let s2 := if blk.clamped ≠ 0 ∨ blk.dropped ≠ 0 then
      queueNotice .blockFault (wNat blk.num) (wNat blk.clamped) (wNat blk.dropped) s1
    else s1
  checkRequests (expand s2)

/-- A map block frame judged in the order of R34. -/
def takeBlock (src : Byte) (roll block : Word) (flags count : Byte) (items : List MapItem) (s : State) : State :=
  match s.ms.current with
  | none => refuse src 0x14 .unsolicited s
  | some h =>
    if h.rollId ≠ roll then refuse src 0x14 .unsolicited s
    else if 96 < count.toNat ∨ (denseFlag flags ∧ count ≠ 0) then refuse src 0x14 .range s
    else if h.passed (s.ms.frontier.getD 0) block.toNat then refuse src 0x14 .late s
    else if block.toNat ∉ s.ms.outstanding then refuse src 0x14 .unsolicited s
    else storeBlock (screenBlock h block.toNat (denseFlag flags) items) s

/-! ### Record flow -/

/-- A record flow frame (R170). -/
def takeFlow (src code : Byte) (s : State) : State :=
  if code = 0 then { s with rs := { s.rs with held := true } }
  else if code = 1 then expand (sendRecords { s with rs := { s.rs with held := false } })
  else refuse src 0x22 .range s

end Sys2Proof.Machine
end

