-- ==== Sys2Proof/Machine/Flags.lean ====
section
/-! DEFINITION. What the part shows of its state as words: the codes of statuses, attributes and enumerated values (10.4), the
status reply (R182) and the rows of READ_TABLE (R183). An enumerated value without a code of its own is coded by its
place in the list of values of the table that owns it, counted from 0; an absent value is all ones. -/

namespace Sys2Proof.Machine

/-! ### Codes -/

def wOpt {α : Type} (f : α → Word) : Option α → Word
  | some a => f a
  | none => wAbsent

/-- Bit i of a mask, when b. -/
def bit (i : Nat) (b : Bool) : Nat := if b then 2 ^ i else 0

/-- Record statuses, one bit each from REJECT, the lowest, to ROLL_END (10.4). -/
def Statuses.bits (t : Statuses) : Nat :=
  bit 0 t.reject + bit 1 t.short + bit 2 t.unverified + bit 3 t.removalMissed + bit 4 t.edgeDrift + bit 5 t.truncated
    + bit 6 t.rollEnd

/-- Event attributes, one bit each from SUSPECT, the lowest, to REJECT_CAUSE (10.4). -/
def Event.attributes (e : Event) : Nat :=
  bit 0 e.suspect + bit 1 e.confirmed + bit 2 e.notRemoved + bit 3 e.flagShared + bit 4 e.rejectCause

def EventKind.code : EventKind → Nat
  | .defect => 0
  | .flagged => 1
  | .removed => 2
  | .splice => 3
  | .unmapped => 4
  | .blind => 5
  | .drift => 6

/-- The origin byte of an event: 0 absent, then MAP, INLINE, BOTH, SPAN (10.4). -/
def originByte : Option Origin → Nat
  | none => 0
  | some .map => 1
  | some .inline => 2
  | some .both => 3
  | some .span => 4

/-- The origin of an entry row, by its place in 3.1's table. -/
def Origin.code : Origin → Nat
  | .map => 0
  | .inline => 1
  | .both => 2
  | .span => 3

def FeatKind.code : FeatKind → Nat
  | .defect _ => 0
  | .splice => 1
  | .unmapped => 2
  | .blind => 3

/-- The codes of the actions (10.4). -/
def Action.code : Action → Nat
  | .ignore => 0
  | .log => 1
  | .flag => 2
  | .stop => 3
  | .reject => 4

def FlagOutcome.code : FlagOutcome → Nat
  | .none => 0
  | .flagged => 1
  | .shared => 2
  | .notFlagged => 3

def EncoderState.code : EncoderState → Nat
  | .noBase => 0
  | .tracking => 1
  | .silent => 2

def Direction.code : Direction → Nat
  | .forward => 0
  | .reverse => 1
  | .standstill => 2

def TrackState.code : TrackState → Nat
  | .seeking => 0
  | .locked => 1
  | .coasting => 2
  | .lost => 3
  | .relocking => 4

def StopState.code : StopState → Nat
  | .idle => 0
  | .requested => 1
  | .correcting => 2
  | .halted => 3

/-- The stop kind as 7.1's table lists it: none, DEFECT, CUT. -/
def stopKindCode : Option StopKind → Nat
  | none => 0
  | some .defect => 1
  | some .cut => 2

/-- The aim: absent, an entry number, or the free code of CUT (notes/assumptions/21.md). -/
def wAim : Option Aim → Word
  | none => wAbsent
  | some (.entry n) => wNat n
  | some .cut => Config.statusAimCut

def SetState.code : SetState → Nat
  | .noSet => 0
  | .preparing => 1
  | .running => 2
  | .approach => 3
  | .cutStop => 4
  | .atCut => 5
  | .changing => 6

def RefusalReason.code : RefusalReason → Nat
  | .ownSource => 0
  | .kind => 1
  | .length => 2
  | .peer => 3
  | .backlog => 4
  | .range => 5
  | .unsolicited => 6
  | .late => 7

def ReplyStatus.code : ReplyStatus → Nat
  | .accepted => 0
  | .busy => 1
  | .invalid => 2
  | .notReady => 3
  | .notHalted => 4
  | .unknown => 5

/-! ### READ_STATUS (R182) -/

/-- The capture as three words: source station, frame kind, reason. -/
def captureWords : Option Capture → List Word
  | none => [wAbsent, wAbsent, wAbsent]
  | some c => [wNat c.src.toNat, wNat c.kind.toNat, wNat c.reason.code]

def linkStatus (s : State) : List Word :=
  [wOptNat s.station, wBool s.ll.portA.link, wBool s.ll.portB.link] ++ captureWords s.ll.capture ++
    [wNat s.ll.refusals, wNat s.ll.ordersDropped, wNat s.ll.portA.drops, wNat s.ll.portB.drops]

def tableStatus (s : State) : List Word := [wBool s.machine.isSome, wBool s.peers.isSome, wBool s.ms.next.isSome]

def positionStatus (s : State) : List Word := [wNat s.pu.enc.code, wInt s.pu.u, wNat s.pu.v, wNat s.pu.dir.code]

def trackerStatus (s : State) : List Word :=
  [wNat s.mt.state.code, wOptNat (s.mt.last.map (·.k)), wInt s.mt.e, wInt s.mt.rExp]

/-- The frontier is at end of map (R28); absent while no roll is current. -/
def MapStore.endOfMap (t : MapStore) : Option Bool :=
  match t.current, t.frontier with
  | some h, some f => some (h.pressRepeat f).isNone
  | _, _ => none

def mapStatus (s : State) : List Word :=
  [wOptInt (s.ms.current.map (·.l)), wOptNat s.ms.frontier, wOpt wBool s.ms.endOfMap, wBool s.ms.paused,
    wNat s.ms.outstanding.length]

/-- Served entries whose flag or nip station is due and deferred (R111). -/
def State.deferredCount (s : State) : Nat :=
  match s.machine with
  | some m => (s.fq.settled.filter (s.deferred m)).length
  | none => 0

/-- Entries held at the nip (R113), as the case stands now (DESIGN CHOICE, notes/assumptions/58.md). -/
def State.heldCount (s : State) : Nat :=
  match s.machine with
  | some m => (s.fq.settled.filter (s.heldAtNip m)).length
  | none => 0

def queueStatus (s : State) : List Word :=
  [wNat s.fq.forecast.length, wNat s.fq.settled.length, wNat s.fq.free, wNat s.fq.tagged, wBool (s.fq.tagged != 0),
    wOptInt s.fq.hCam, wNat s.deferredCount, wNat s.heldCount]

/-- A bank's state, job id and lane count (R70). -/
def bankStatus : Option Bank → List Word
  | none => [0, wAbsent, wAbsent]
  | some b => [1, b.job, wNat b.n]

/-- The channels in a state. -/
def State.knivesIn (s : State) (x : KnifeState) : Nat := (s.knives.filter (fun c => decide (c.state = x))).length

/-- A part of the gate for the ACTIVE bank; absent while the bank is EMPTY. -/
def State.gatePart (s : State) (part : Bank → Bool) : Word := wOpt wBool (s.lpt.active.map part)

def knifeStatus (s : State) : List Word :=
  [wNat (s.knivesIn .fault), wNat (s.knivesIn .drifted), s.gatePart s.gateKnives]

def stopStatus (s : State) : List Word :=
  [wNat s.ss.state.code, wNat (stopKindCode s.ss.kind), wAim s.ss.aim, wOptInt s.ss.uT, wBool s.ss.late, wInt s.ss.overshoot,
    wNat s.fq.servedCount, wNat s.ss.jogs, wOptInt s.ss.haltError, wOptInt s.ss.dS]

/-- How P_cut is held: 0 predicted, 1 counted, 2 frozen; absent while none is held (R146). -/
def State.pCutHow (s : State) : Option Nat :=
  if s.sc.frozenCut.isSome then some 2
  else if s.pCut.isSome then some (if s.sc.cutMark.isSome then 1 else 0) else none

def setStatus (s : State) : List Word :=
  [wNat s.sc.state.code, wNat s.sc.num, wOptInt s.sc.pStart, wOptNat s.sc.kBase, wNat s.sc.x, wBool s.sc.xFrozen,
    wOptNat s.sc.kCut, wOptInt s.pCut, wOptNat s.pCutHow, wOptInt s.remaining, s.gatePart s.gateKnives,
    s.gatePart s.gateSlots, s.gatePart s.gateHeaders]

def recordStatus (s : State) : List Word :=
  [wNat s.rs.freeSlots, wNat s.rs.freeHeaders, wNat s.rs.openCount, wNat s.rs.sendList.length, wBool s.rs.held,
    wBool s.rs.inFlight.isSome]

/-- Notices waiting at a priority. -/
def NoticeQueue.at_ (q : NoticeQueue) (prio : Nat) : Nat := (q.waiting.filter (fun n => n.kind.priority == prio)).length

def noticeStatus (s : State) : List Word :=
  [wNat (s.nq.at_ 0), wNat (s.nq.at_ 1), wNat (s.nq.at_ 2), wNat (s.nq.at_ 3), wBool s.nq.dropped]

/-- The items of one lane: removed_i, last flag position, and the open record's counts and statuses (R172, R182). -/
def laneStatus (s : State) (i : Nat) : List Word :=
  [wNat ((s.sc.removed[i]?).getD 0), wOptInt (s.fq.flags[i]?).join] ++
    (match s.rs.openRecord i with
      | some r => [wNat r.events.length, wNat r.notStored, wNat r.statuses.bits]
      | none => [wAbsent, wAbsent, wAbsent])

/-- The status body: the items of R182's table in its order, the lanes last (10.4). -/
def statusWords (s : State) : List Word :=
  linkStatus s ++ tableStatus s ++ positionStatus s ++ trackerStatus s ++ mapStatus s ++ queueStatus s ++
    (bankStatus s.lpt.active ++ bankStatus s.lpt.pending) ++ knifeStatus s ++ stopStatus s ++ setStatus s ++ recordStatus s ++
    noticeStatus s ++ (List.range Config.laneCount).flatMap (laneStatus s)

/-! ### READ_TABLE (R183) -/

/-- An extent's two words. -/
def extentWords : Option Extent → List Word
  | some e => [wInt e.x0, wInt e.x1]
  | none => [wAbsent, wAbsent]

/-- The lane actions: the item count, then each item's four fields; absent before the knife station (R101). -/
def itemWords (items : List LaneItem) : List Word :=
  wNat items.length ::
    items.flatMap (fun i => [wNat i.lane, wNat i.action.code, wBool i.notRemoved, wNat i.outcome.code])

/-- CONFIRMED, present in MAP and BOTH entries (3.1). -/
def Origin.confirmed : Origin → Option Bool
  | .map => some false
  | .both => some true
  | _ => none

/-- The fields that an entry has in either list, with what its list gives it, in the order of 3.1's table. -/
def entryWords (f : Feature) (list : Nat) (anchor : Option (Nat × Nat)) (p : Option Int) (items markers : List Word) : List Word :=
  [wNat f.num, wNat list, wNat f.origin.code, wNat f.kind.code, wOptNat f.kind.cls, wOptNat (anchor.map (·.1)),
    wOptNat (anchor.map (·.2)), wOptInt p, wNat f.len] ++ extentWords f.press ++ extentWords f.slit ++
    [wOptNat f.rep, wBool f.suspect, wOpt wBool f.origin.confirmed] ++ items ++ markers ++ [wBool f.served]

/-- The row of a Forecast entry: no lane actions and no markers; its prediction formed at the moment (R47), the position and the
length both: R183 has the row given by R47, and R47 names only the position for it (DESIGN CHOICE,
notes/assumptions/24.md). -/
def forecastRow (s : State) (e : Forecast) : List Word :=
  entryWords e.feat 0 (some (e.k, e.off)) none [wAbsent] [wAbsent, wAbsent, wAbsent, wAbsent] ++
    [wOptInt (s.predicted e), wOptNat (s.predictedLength e), wBool false]

/-- The row of a Settled entry, with its held mark (R113) as the case stands now (DESIGN CHOICE, notes/assumptions/58.md). -/
def settledRow (s : State) (e : Settled) : List Word :=
  entryWords e.feat 1 none (some e.p) (if e.knife then itemWords e.items else [wAbsent])
      [wBool e.knife, wBool e.table, wBool e.flag, wBool e.nip] ++
    [wAbsent, wAbsent, wBool (s.machine.any (fun m => s.heldAtNip m e))]

/-- The ENTRY row of a number: FREE, or the entry's row (R43). -/
def entryRow (s : State) (num : Nat) : List Word :=
  match s.fq.findSettled num, s.fq.findForecast num with
  | some e, _ => settledRow s e
  | none, some e => forecastRow s e
  | none, none => [wAbsent]

/-- The SLOT row (R32). -/
def slotRow (s : State) (i : Nat) : List Word :=
  let lru := wBool ((s.ms.lru[i / 2]?).getD false == (i % 2 == 1))
  match (s.ms.slots[i]?).join with
  | some b => [1, wNat b.num, wBool b.dense, wNat b.entries.length, wNat b.clamped, wNat b.dropped, lru]
  | none => [0, wAbsent, wAbsent, wAbsent, 0, 0, lru]

/-- A target: absent, a position, or the free code of PARK (notes/assumptions/22.md). -/
def wTarget : Option KnifeTarget → Word
  | none => wAbsent
  | some (.pos n) => wNat n
  | some .park => Config.rowTargetPark

/-- The KNIFE row (R96). -/
def knifeRow (s : State) (j : Nat) : List Word :=
  match s.knives[j]? with
  | some c => [wNat c.state.code, wTarget c.target, wOptNat c.reported, wBool c.reportedParked, wNat c.retries,
      wBool c.timer.isSome, wNat c.cause.code]
  | none => []

/-- The HEADER row: FREE, or the record's fields with, when CLOSED, its place in the send list and its in-flight mark (R172). -/
def headerRow (s : State) (i : Nat) : List Word :=
  match s.rs.record i with
  | none => [wAbsent]
  | some r =>
    [wBool r.totals.isSome, wNat r.set, wNat r.lane, r.job, r.roll, wNat r.quota, wOptNat (r.totals.map (·.gross)),
      wOptNat (r.totals.map (·.removed)), wOptNat (r.totals.map (·.net)), wOptNat (r.totals.map (·.repeats)),
      wNat r.statuses.bits, wNat r.events.length, wNat r.notStored] ++
      (if r.isOpen then [wAbsent, wAbsent, wAbsent]
        else [wNat r.fragments, wOptNat (s.rs.sendList.idxOf? i), wBool (s.rs.inFlight.any (fun f => f.header == i))])

/-- The row of a table (R183). -/
def rowWords (s : State) (selector index : Nat) : List Word :=
  match selector with
  | 0 => entryRow s index
  | 1 => slotRow s index
  | 2 => knifeRow s index
  | _ => headerRow s index

end Sys2Proof.Machine
end

