-- ==== Sys2Proof/Machine/Wire.lean ====
section
/-! DEFINITION. Inbound frames as bytes (10.4): what a frame's content is, the bytes that spell it, and the judgement of kind
and length of a frame's bytes (R177). Multi-byte fields are big-endian. -/

namespace Sys2Proof.Machine

/-- The content of an inbound frame. A table request or line command (`line`) carries its kind byte, absent only
in an empty body, and the bytes of its fields. -/
inductive Payload where
  | count (c t : Word)
  | mark (cx : Word)
  | sighting (cDet : Word) (kind cls : Byte) (len x0 x1 : Half)
  | knife (knife outcome : Byte) (position : Half) (parked : Byte)
  | block (roll block : Word) (flags count : Byte) (items : List MapItem)
  | flow (code : Byte)
  | request (line : Bool) (code : Option Byte) (body : List Byte)
  deriving DecidableEq, Repr

def halfBytes (h : Half) : List Byte := [h.extractLsb' 8 8, h.extractLsb' 0 8]

def wordBytes (w : Word) : List Byte := [w.extractLsb' 24 8, w.extractLsb' 16 8, w.extractLsb' 8 8, w.extractLsb' 0 8]

/-- A two-byte field from its bytes, most significant first. -/
def halfOf (b1 b0 : Byte) : Half := b1 ++ b0

/-- A four-byte field from its bytes, most significant first. -/
def wordOf (b3 b2 b1 b0 : Byte) : Word := b3 ++ b2 ++ b1 ++ b0

/-- The words of a table request's fields, 4 bytes each; none when the bytes are no whole number of words. -/
def wordsOf : List Byte → Option (List Word)
  | [] => some []
  | b3 :: b2 :: b1 :: b0 :: rest => (wordsOf rest).map (wordOf b3 b2 b1 b0 :: ·)
  | _ => none

def mapItemBytes (m : MapItem) : List Byte :=
  wordBytes m.rep ++ halfBytes m.off ++ halfBytes m.len ++ halfBytes m.x0 ++ halfBytes m.x1 ++ [m.cls, m.flags]

def mapItemsOf : List Byte → Option (List MapItem)
  | [] => some []
  | r3 :: r2 :: r1 :: r0 :: o1 :: o0 :: l1 :: l0 :: p1 :: p0 :: q1 :: q0 :: c :: f :: rest =>
    (mapItemsOf rest).map
      ({ rep := wordOf r3 r2 r1 r0, off := halfOf o1 o0, len := halfOf l1 l0, x0 := halfOf p1 p0, x1 := halfOf q1 q0
         cls := c, flags := f } :: ·)
  | _ => none

/-- The frame kind code of an inbound frame (10.4). -/
def Payload.kindByte : Payload → Byte
  | .count _ _ => 0x10
  | .mark _ => 0x11
  | .sighting _ _ _ _ _ _ => 0x12
  | .knife _ _ _ _ => 0x13
  | .block _ _ _ _ _ => 0x14
  | .request false _ _ => 0x20
  | .request true _ _ => 0x21
  | .flow _ => 0x22

/-- The body of an inbound frame (10.4). -/
def Payload.bytes : Payload → List Byte
  | .count c t => wordBytes c ++ wordBytes t
  | .mark cx => wordBytes cx
  | .sighting cDet kind cls len x0 x1 => wordBytes cDet ++ [kind, cls] ++ halfBytes len ++ halfBytes x0 ++ halfBytes x1
  | .knife k outcome position parked => [k, outcome] ++ halfBytes position ++ [parked]
  | .block roll blk flags cnt items =>
    wordBytes roll ++ wordBytes blk ++ [flags, cnt] ++ items.flatMap mapItemBytes
  | .flow code => [code]
  | .request _ none body => body
  | .request _ (some code) body => code :: body

/-- A frame with this content as it stands on the wire. -/
def frameOf (rx : Rx) (p : Payload) : LineFrame :=
  { dst := rx.dst, src := rx.src, kind := p.kindByte, len := BitVec.ofNat 16 p.bytes.length, tag := rx.tag, rest := p.bytes }

/-- R177's length test on content: only a map block states a length of its own, by its entry count. -/
def Payload.judged (p : Payload) : Except RefusalReason Payload :=
  match p with
  | .block _ _ _ cnt items => if cnt.toNat = items.length then .ok p else .error .length
  | _ => .ok p

def countOf : List Byte → Except RefusalReason Payload
  | [c3, c2, c1, c0, t3, t2, t1, t0] => .ok (.count (wordOf c3 c2 c1 c0) (wordOf t3 t2 t1 t0))
  | _ => .error .length

def markOf : List Byte → Except RefusalReason Payload
  | [c3, c2, c1, c0] => .ok (.mark (wordOf c3 c2 c1 c0))
  | _ => .error .length

def sightingOf : List Byte → Except RefusalReason Payload
  | [c3, c2, c1, c0, kind, cls, l1, l0, p1, p0, q1, q0] =>
    .ok (.sighting (wordOf c3 c2 c1 c0) kind cls (halfOf l1 l0) (halfOf p1 p0) (halfOf q1 q0))
  | _ => .error .length

def knifeOf : List Byte → Except RefusalReason Payload
  | [knife, outcome, p1, p0, parked] => .ok (.knife knife outcome (halfOf p1 p0) parked)
  | _ => .error .length

def blockOf : List Byte → Except RefusalReason Payload
  | r3 :: r2 :: r1 :: r0 :: b3 :: b2 :: b1 :: b0 :: flags :: count :: rest =>
    match mapItemsOf rest with
    | some items => (Payload.block (wordOf r3 r2 r1 r0) (wordOf b3 b2 b1 b0) flags count items).judged
    | none => .error .length
  | _ => .error .length

def flowOf : List Byte → Except RefusalReason Payload
  | [code] => .ok (.flow code)
  | _ => .error .length

def requestOf (line : Bool) : List Byte → Payload
  | [] => .request line none []
  | code :: body => .request line (some code) body

/-- The content of a body of this kind, or the reason of its refusal (R177): an unknown kind, then a wrong length. -/
def bodyOf (kind : Byte) (body : List Byte) : Except RefusalReason Payload :=
  if kind = 0x10 then countOf body
  else if kind = 0x11 then markOf body
  else if kind = 0x12 then sightingOf body
  else if kind = 0x13 then knifeOf body
  else if kind = 0x14 then blockOf body
  else if kind = 0x20 then .ok (requestOf false body)
  else if kind = 0x21 then .ok (requestOf true body)
  else if kind = 0x22 then flowOf body
  else .error .kind

/-- The eight inbound kinds (10.4). -/
def inboundKind (kind : Byte) : Bool := (0x10 ≤ kind.toNat && kind.toNat ≤ 0x14) || (0x20 ≤ kind.toNat && kind.toNat ≤ 0x22)

/-- R177, kind and length: a frame of no inbound kind, then one that carries fewer bytes than its header states, then one
whose body has not the length of its kind. Bytes beyond the stated length are the Ethernet frame's padding
(DEDUCED, notes/assumptions/14.md). -/
def judgeFrame (f : LineFrame) : Except RefusalReason Payload :=
  if inboundKind f.kind then
    if f.rest.length < f.len.toNat then .error .length else bodyOf f.kind (f.rest.take f.len.toNat)
  else .error .kind

/-! ### Request kinds (10.4) -/

def codeReadStatus : Byte := 1
def codeReadTable : Byte := 2
def codeLoadMachine : Byte := 3
def codeLoadPeers : Byte := 4
def codeLoadBank : Byte := 5
def codeCancelPending : Byte := 6
def codeLoadRollHeader : Byte := 7
def codeSetLateralOffset : Byte := 8
def codeReset : Byte := 9
def codeRollStart : Byte := 1
def codeRollEnd : Byte := 2
def codeMarkResync : Byte := 3
def codeDoffNow : Byte := 4
def codeDoffComplete : Byte := 5
def codeRemovalReport : Byte := 6
def codeResume : Byte := 7
def codeKnifeRetry : Byte := 8

end Sys2Proof.Machine
end

