-- ==== Sys2Proof/Machine/Operands.lean ====
section
/-! DEFINITION. The fields of requests and line commands read and checked: LOAD_PEERS (R176), LOAD_MACHINE (R181), LOAD_BANK
(R68, R69), LOAD_ROLL_HEADER (R23), READ_TABLE (R183) and REMOVAL_REPORT (R134). A check answers the number of the first
failing field. -/

namespace Sys2Proof.Machine

/-- The number of the first field whose test fails. -/
def firstFailing : List (Nat × Bool) → Option Nat
  | [] => none
  | (n, ok) :: t => if ok then firstFailing t else some n

/-- lo ≤ x ≤ hi. -/
def within (lo hi x : Nat) : Bool := lo ≤ x && x ≤ hi

/-- The number is not the part's own station number. -/
def State.notOwn (s : State) (n : Nat) : Bool := s.station != some n

/-! ### LOAD_PEERS -/

/-- A field of LOAD_PEERS passes (R176). -/
def State.peerOk (s : State) (w : Word) : Bool := within 1 62 w.toNat && s.notOwn w.toNat

/-- The peer table of seven words, or the failing field; field 0 for a body of another length (R176, R180). -/
def State.peersOf (s : State) (body : List Byte) : Except Nat PeerTable :=
  match wordsOf body with
  | some [d, m, i, k, l, p, r] =>
    match firstFailing
      [(1, s.peerOk d), (2, s.peerOk m), (3, s.peerOk i), (4, s.peerOk k), (5, s.peerOk l), (6, s.peerOk p), (7, s.peerOk r)] with
    | some n => .error n
    | none => .ok { drive := d.toNat, markSensor := m.toNat, inspection := i.toNat, knifePositioner := k.toNat
                    lineController := l.toNat, mapServer := p.toNat, recordReceiver := r.toNat }
  | _ => .error 0

/-! ### LOAD_MACHINE -/

/-- A field that may be sent as absent takes its default (R181). -/
def orDefault (d : Nat) (w : Word) : Nat := if w = wAbsent then d else w.toNat

/-- The machine table that 26 words spell, its six defaults filled in (R181). -/
def machineOf : List Word → Option MachineTable
  | [w1, w2, w3, w4, w5, w6, w7, w8, w9, w10, w11, w12, w13, w14, w15, w16, w17, w18, w19, w20, w21, w22, w23, w24, w25,
      w26] =>
    some { ppm := w1.toNat, dMax := w2.toNat, sEnc := orDefault 10 w3, dCam := w4.toNat, dKn := w5.toNat, dSt := w6.toNat
           dFl := w7.toNat, dNip := w8.toNat, wMk := orDefault 50 w9, aD := w10.toNat, mSt := w11.toNat, tPos := w12.toNat
           wTab := w13.toNat, vApp := w14.toNat, mMd := w15.toNat, mCd := w16.toNat, g := w17.toNat, fMin := w18.toNat
           h := orDefault 256 w19, p := orDefault 3 w20, pLo := orDefault 64 w21, pHi := orDefault 192 w22
           tKnife := w23.toNat, rc := w24.toNat, kTol := w25.toNat, flagStation := w26.toNat }
  | _ => none

/-- The tests of the fields of LOAD_MACHINE, in ascending field number (R181). -/
def State.machineTests (s : State) (m : MachineTable) : List (Nat × Bool) :=
  [(1, within 2000 200000 m.ppm), (2, within 1 65535 m.dMax), (3, within 1 100 m.sEnc), (4, within 100 200000 m.dCam),
    (5, within 100 200000 m.dKn && m.dCam < m.dKn), (6, within 100 200000 m.dSt && m.dKn < m.dSt),
    (7, within 100 200000 m.dFl && m.dSt < m.dFl), (8, within 100 200000 m.dNip && m.dFl ≤ m.dNip),
    (9, within 10 2000 m.wMk), (10, within 100 10000 m.aD), (11, within 0 50000 m.mSt), (12, within 5 500 m.tPos),
    (13, within 100 20000 m.wTab), (14, within 100 20000 m.vApp), (15, within 0 2000 m.mMd), (16, within 0 500 m.mCd),
    (17, within 0 200 m.g), (18, within 0 50000 m.fMin), (19, within 1 4096 m.h), (20, within 1 7 m.p),
    (21, within 16 512 m.pLo), (22, within 17 1008 m.pHi && m.pLo < m.pHi), (23, within 100 30000 m.tKnife),
    (24, within 0 7 m.rc), (25, within 5 200 m.kTol), (26, within 1 62 m.flagStation && s.notOwn m.flagStation)]

/-- The machine table of a LOAD_MACHINE body, or the failing field; field 0 for a body of another length (R180, R181). -/
def State.machineIn (s : State) (body : List Byte) : Except Nat MachineTable :=
  match (wordsOf body).bind machineOf with
  | none => .error 0
  | some m =>
    match firstFailing (s.machineTests m) with
    | some n => .error n
    | none => .ok m

/-! ### LOAD_BANK -/

/-- The codes of the actions (10.4). -/
def actionOf (w : Word) : Option Action :=
  match w.toNat with
  | 0 => some .ignore
  | 1 => some .log
  | 2 => some .flag
  | 3 => some .stop
  | 4 => some .reject
  | _ => none

/-- The tests of the knife positions k_0..k_n, numbered from field `f` on (4.1, R69). -/
def knifeTests : Nat → Option Nat → List Nat → List (Nat × Bool)
  | _, _, [] => []
  | f, prev, k :: t => (f, within 0 30000 k && prev.all (fun p => p + 150 ≤ k)) :: knifeTests (f + 1) (some k) t

/-- The words of n lanes, 18 for each. -/
def laneWords : Nat → List Word → List (List Word)
  | 0, _ => []
  | n + 1, ws => ws.take 18 :: laneWords n (ws.drop 18)

/-- The number of a word of a lane as a quota: the last of its 18. -/
def laneQuota (ws : List Word) : Nat := (ws[17]?.getD 0).toNat

/-- The tests of the lanes' fields, numbered from field `f` on, after lanes whose quotas sum to `sum` (4.1, R69). -/
def laneTests : Nat → Nat → List (List Word) → List (Nat × Bool)
  | _, _, [] => []
  | f, sum, ws :: t =>
    ((ws.take 17).zipIdx.map (fun x => (f + x.2, (actionOf x.1).isSome))) ++
      (f + 17, within 0 1024 (laneQuota ws) && decide (sum + laneQuota ws ≤ 1024)) :: laneTests (f + 18) (sum + laneQuota ws) t

/-- A lane as its 18 words spell it. -/
def lanePlanOf (ws : List Word) : LanePlan :=
  { actions := (ws.take 16).map (fun w => (actionOf w).getD .ignore), splice := (actionOf (ws[16]?.getD 0)).getD .ignore
    quota := laneQuota ws }

/-- The bank that the words after the lane count spell, or the failing field (R68, R69). -/
def bankOf (job : Word) (n : Nat) : List Word → Except Nat Bank
  | wSet :: wApp :: wOff :: wPol :: wMax :: rest =>
    let knives := (rest.take (n + 1)).map (·.toNat)
    let lanes := laneWords n (rest.drop (n + 1))
    match firstFailing
      ([(4, within 1 65535 wSet.toNat), (5, decide (wApp.toNat ≤ wSet.toNat)), (6, within 0 65535 wOff.toNat),
        (7, within 0 1 wPol.toNat), (8, within 0 64 wMax.toNat)] ++ knifeTests 9 none knives ++ laneTests (10 + n) 0 lanes) with
    | some f => .error f
    | none => .ok { job := job, n := n, nSet := wSet.toNat, nApp := wApp.toNat, cOff := wOff.toNat, makeUp := wPol = 1
                    xMax := wMax.toNat, knives := knives, lanes := lanes.map lanePlanOf }
  | _ => .error 3

/-- The bank of the fields after the selector, or the failing field: the lane count, then the number of fields it calls for
(both field 3), then every further field (R68). -/
def bankIn (body : List Byte) : Except Nat Bank :=
  match wordsOf body with
  | some (job :: wn :: rest) =>
    let n := wn.toNat
    if within 1 24 n ∧ rest.length = 5 + (n + 1) + 18 * n then bankOf job n rest else .error 3
  | _ => .error 3

/-! ### LOAD_ROLL_HEADER and SET_LATERAL_OFFSET -/

/-- A lateral offset as it is stored (R23, R24). -/
def lateral (w : Word) : Int := clamp (-2000) 2000 w.toInt

/-- The roll header of eight words, or the failing field; field 0 for a body of another length (R23, R180). -/
def headerIn (body : List Byte) : Except Nat Header :=
  match wordsOf body with
  | some [roll, wT, wNom, wDir, wMir, wW, wF, wL] =>
    match firstFailing
      [(2, within 1 2000000 wT.toNat), (3, within 500 20000 wNom.toNat), (4, within 0 1 wDir.toNat), (5, within 0 1 wMir.toNat),
        (6, within 1000 30000 wW.toNat), (7, decide (wF.toNat < wT.toNat))] with
    | some f => .error f
    | none => .ok { rollId := roll, nT := wT.toNat, rNom := wNom.toNat, reversed := wDir = 1, mirror := wMir = 1
                    w := wW.toNat, f := wF.toNat, l := lateral wL }
  | _ => .error 0

/-! ### READ_TABLE -/

/-- How many rows a selector's table has (R183). -/
def rowsOf : Nat → Nat
  | 0 => Config.entrySlots
  | 1 => 16
  | 2 => Config.channelCount
  | 3 => Config.recordHeaders
  | _ => 0

/-- Selector and index, or the failing field; field 0 for a body of another length (R180, R183). -/
def selectorIn (body : List Byte) : Except Nat (Nat × Nat) :=
  match wordsOf body with
  | some [sel, idx] =>
    if 3 < sel.toNat then .error 1 else if idx.toNat < rowsOf sel.toNat then .ok (sel.toNat, idx.toNat) else .error 2
  | _ => .error 0

/-! ### REMOVAL_REPORT -/

/-- The pairs of lane and amount that a report's bytes carry. -/
def pairsOf : List Byte → Option (List (Nat × Nat))
  | [] => some []
  | l :: a3 :: a2 :: a1 :: a0 :: rest => (pairsOf rest).map ((l.toNat, (wordOf a3 a2 a1 a0).toNat) :: ·)
  | _ => none

/-- The tests of pair number i on, lanes already named in `seen` (R134). -/
def pairTests (n : Nat) : Nat → List Nat → List (Nat × Nat) → List (Nat × Bool)
  | _, _, [] => []
  | i, seen, (lane, amount) :: t =>
    (2 * i, decide (lane < n) && !seen.contains lane) :: (2 * i + 1, decide (amount ≤ 100000)) :: pairTests n (i + 1) (lane :: seen) t

/-- The pairs of a REMOVAL_REPORT body under a bank of n lanes, or the failing field (R134). -/
def removalIn (n : Nat) : List Byte → Except Nat (List (Nat × Nat))
  | [] => .error 1
  | count :: rest =>
    match pairsOf rest with
    | some pairs =>
      if count.toNat ≤ 24 ∧ pairs.length = count.toNat then
        match firstFailing (pairTests n 1 [] pairs) with
        | some f => .error f
        | none => .ok pairs
      else .error 1
    | none => .error 1

end Sys2Proof.Machine
end

