-- ==== Sys2Proof/Machine/Requests.lean ====
section
/-! DEFINITION. The Request Handler (10.5): what each table request and line command does and answers (R21, R23, R24, R68 to R75,
R95, R134 to R137, R150, R152 to R154, R176, R180 to R186). -/

namespace Sys2Proof.Machine

/-- What executing a request leaves: the reply's status, field index and body, the state, and whether it is an accepted
RESET. -/
structure Answer where
  status : ReplyStatus
  index : Nat
  body : ReplyBody
  state : State
  resets : Bool
  deriving DecidableEq, Repr

/-- ACCEPTED, with the state the request leaves. -/
def accept (s : State) : Answer := { status := .accepted, index := 0, body := .empty, state := s, resets := false }

/-- A refusal: the state is unchanged (R180). -/
def deny (status : ReplyStatus) (index : Nat) (s : State) : Answer :=
  { status := status, index := index, body := .empty, state := s, resets := false }

/-- A request without fields; a body of another length is INVALID with field 0 (R180). -/
def bare (body : List Byte) (s : State) (go : State → State) : Answer :=
  if body = [] then accept (go s) else deny .invalid 0 s

/-! ### Table requests -/

/-- READ_STATUS (R182). -/
def readStatus (body : List Byte) (s : State) : Answer :=
  if body = [] then { accept s with body := .status (statusWords s) } else deny .invalid 0 s

/-- READ_TABLE (R183). -/
def readTable (body : List Byte) (s : State) : Answer :=
  match selectorIn body with
  | .ok (sel, idx) => { accept s with body := .row sel idx (rowWords s sel idx) }
  | .error n => deny .invalid n s

/-- LOAD_MACHINE (R181); acc becomes 0 where PPM changes (R8). -/
def loadMachine (body : List Byte) (s : State) : Answer :=
  if s.sc.state = .noSet then
    match s.machineIn body with
    | .ok m =>
      accept { s with
        machine := some m
        pu := if s.machine.any (fun o => o.ppm == m.ppm) then s.pu else { s.pu with acc := 0 } }
    | .error n => deny .invalid n s
  else deny .busy 0 s

/-- LOAD_PEERS (R176). -/
def loadPeers (body : List Byte) (s : State) : Answer :=
  if s.sc.state = .noSet then
    match s.peersOf body with
    | .ok t => accept { s with peers := some t }
    | .error n => deny .invalid n s
  else deny .busy 0 s

/-- LOAD_BANK (R68, R71, R72). A body without a whole selector is short, field 3. -/
def loadBank (body : List Byte) (s : State) : Answer :=
  match body with
  | b3 :: b2 :: b1 :: b0 :: rest =>
    if wordOf b3 b2 b1 b0 = 0 then
      if s.sc.state = .noSet then
        match bankIn rest with
        | .ok b => accept { s with lpt := { s.lpt with active := some b } }
        | .error n => deny .invalid n s
      else deny .busy 0 s
    else if wordOf b3 b2 b1 b0 = 1 then
      match bankIn rest with
      | .ok b => accept { s with lpt := { s.lpt with pending := some b } }
      | .error n => deny .invalid n s
    else deny .invalid 1 s
  | _ => deny .invalid 3 s

/-- CANCEL_PENDING (R73). -/
def cancelPending (body : List Byte) (s : State) : Answer :=
  bare body s (fun s => { s with lpt := { s.lpt with pending := none } })

/-- LOAD_ROLL_HEADER (R23). -/
def loadRollHeader (body : List Byte) (s : State) : Answer :=
  match headerIn body with
  | .ok h => accept { s with ms := { s.ms with next := some h } }
  | .error n => deny .invalid n s

/-- The one word of SET_LATERAL_OFFSET. -/
def oneWord (body : List Byte) : Option Word :=
  match wordsOf body with
  | some [w] => some w
  | _ => none

/-- SET_LATERAL_OFFSET (R24): the current header's L, or the next-roll header's; the Stop Scheduler looks at either (R121). -/
def setLateralOffset (body : List Byte) (s : State) : Answer :=
  match s.ms.current, s.ms.next with
  | none, none => deny .notReady 0 s
  | cur, next =>
    match oneWord body with
    | none => deny .invalid 0 s
    | some w =>
      match cur with
      | some h => accept (expand (look { s with ms := { s.ms with current := some { h with l := lateral w } } }))
      | none => accept (look { s with ms := { s.ms with next := next.map (fun h => { h with l := lateral w }) } })

/-- A frame taken from the waiting list of both ports (R184): what is being sent goes on, what waits is gone. -/
def OwnFrame.discardWaiting (f : OwnFrame) : OwnFrame :=
  { f with a := if f.a = .waiting then .gone else f.a, b := if f.b = .waiting then .gone else f.b }

/-- The frame waits at a port. -/
def OwnFrame.waits (f : OwnFrame) : Bool := f.a == .waiting || f.b == .waiting

/-- A frame of a class waits at a port. -/
def LineLink.waitsIn (l : LineLink) (c : OwnClass) : Bool := l.own.any (fun f => f.cls == c && f.waits)

/-- Every own frame waiting in either port's list is discarded (R184); the owner of a frame so discarded takes no report. -/
def discardWaiting (s : State) : State :=
  { s with ll := { s.ll with
      own := (s.ll.own.map OwnFrame.discardWaiting).filter (fun f => !f.out)
      voidRecord := s.ll.waitsIn .record
      voidNotice := s.ll.waitsIn .notice } }

/-- RESET (R184): the waiting own frames are discarded; the reply is queued alone and the part takes no frame until it has gone
out. -/
def resetRequest (body : List Byte) (s : State) : Answer :=
  if body = [] then { accept (discardWaiting s) with resets := true } else deny .invalid 0 s

/-! ### ROLL_START and ROLL_END -/

/-- The Position Unit at ROLL_START (R9). -/
def PositionUnit.rollStart (p : PositionUnit) : PositionUnit := { p with u := 0, acc := 0 }

/-- The Mark Tracker at ROLL_START (R22). -/
def MarkTracker.rollStart (rNom : Nat) (t : MarkTracker) : MarkTracker :=
  { state := .seeking, last := none, lastReal := false, miss := 0, e := t.e, rExp := expectedRepeat rNom t.e }

/-- The Map Store at ROLL_START (R42), before its first requests. -/
def MapStore.rollStart (h : Header) : MapStore := { MapStore.init with current := some h, frontier := some 0 }

/-- The Stop Scheduler at ROLL_START and ROLL_END (R139). -/
def StopScheduler.cleared (t : StopScheduler) : StopScheduler := { StopScheduler.init with dS := t.dS }

/-- The Set Controller at ROLL_START (R153, R156), before its entry into PREPARING. -/
def SetController.rollStart (t : SetController) : SetController :=
  { SetController.init with num := t.num, mode := some .thread }

/-- Every block takes its ROLL_START values (R185); the Feature Queue is empty already, and only H_cam and the flag history are
set (R67, R117). R185 has the blocks act in no order; that the first block requests are queued before the knife orders and the
notices of the gate, as their sequence numbers show, is DESIGN CHOICE (notes/assumptions/59.md). -/
def startRoll (m : MachineTable) (h : Header) (s : State) : State :=
  let s1 := clearQueue s
  let s2 : State := { s1 with
    pu := s1.pu.rollStart
    mt := s1.mt.rollStart h.rNom
    ms := MapStore.rollStart h
    fq := { s1.fq with hCam := some (-(m.dCam : Int)), flags := List.replicate Config.laneCount none }
    ss := s1.ss.cleared
    sc := s1.sc.rollStart }
  expand (enterPreparing (expand (checkRequests s2)))

/-- The first item that ROLL_START needs and does not find (R185). -/
def State.missing (s : State) : Option Nat :=
  if s.machine.isNone then some 1
  else if s.peers.isNone then some 2
  else if s.lpt.active.isNone then some 3
  else if s.ms.next.isNone then some 4
  else none

/-- ROLL_START (R185). -/
def rollStart (body : List Byte) (s : State) : Answer :=
  if s.sc.state = .noSet then
    match s.missing with
    | some n => deny .notReady n s
    | none =>
      match s.machine, s.ms.next with
      | some m, some h => bare body s (startRoll m h)
      | _, _ => deny .notReady 0 s
  else deny .busy 0 s

/-- The greatest removal sum of the set (R152). -/
def SetController.maxRemoved (t : SetController) : Nat := t.removed.foldl max 0

/-- A gross length as it is closed: raised to the greatest removal sum, and not below 0 (R152, R154). One beyond
the range of 9.1 is kept as it is: DESIGN CHOICE (notes/assumptions/15.md). -/
def SetController.grossOf (t : SetController) (g : Int) : Nat := max g.toNat t.maxRemoved

/-- A lane's reel is SHORT (R152). -/
def State.short (s : State) (lane : Nat) : Bool :=
  decide (s.sc.x * ((s.ms.current.map (·.rNom)).getD 0) < (s.sc.removed[lane]?).getD 0)

/-- The set's records close, lanes ascending, and join the send list; sending starts where R168 allows it (R163 to R165). -/
def closeSet (gross repeats : Nat) (rollEnd : Bool) (s : State) : State :=
  let n := (s.lpt.active.map (·.n)).getD 0
  let rs := (List.range n).foldl
    (fun t i => closeLane gross ((s.sc.removed[i]?).getD 0) repeats (s.short i) rollEnd i t) s.rs
  sendRecords { s with rs := rs }

/-- The next set number (R141). -/
def nextSetNumber (n : Nat) : Nat := if 65535 ≤ n then 1 else n + 1

/-- K_cut - K_base (R152). -/
def SetController.cutRepeats (t : SetController) : Nat := t.kCut.getD 0 - t.kBase.getD 0

/-- The repeat count of a set that the roll's end closes (R154). -/
def State.endRepeats (s : State) : Nat :=
  if s.sc.state = .changing then s.sc.cutRepeats
  else match s.mt.last with
    | some l => l.k - s.sc.kBase.getD 0
    | none => 0

/-- The gross length of a set that the roll's end closes, before it is raised (R154). -/
def State.endGross (s : State) : Int :=
  let start := s.sc.pStart.getD 0
  if s.sc.state = .changing then s.sc.frozenCut.getD 0 - start
  else s.pu.u - ((s.machine.map (·.dNip)).getD 0 : Nat) - start

/-- The set's records at ROLL_END: none in PREPARING (R154). -/
def closeAtEnd (s : State) : State :=
  match s.sc.state with
  | .noSet | .preparing => s
  | _ =>
    let s1 := closeSet (s.sc.grossOf s.endGross) s.endRepeats true s
    { s1 with sc := { s1.sc with num := nextSetNumber s1.sc.num } }

/-- A stop or jog outstanding is abandoned at ROLL_END (R139). -/
def cancelAtEnd (s : State) : State :=
  match s.ss.state with
  | .requested | .correcting => driveOrder .cancel s
  | _ => s

/-- The Mark Tracker at ROLL_END (R22). -/
def MarkTracker.rollEnd (t : MarkTracker) : MarkTracker :=
  { state := .seeking, last := none, lastReal := false, miss := 0, e := t.e, rExp := t.rExp }

/-- Every block takes its ROLL_END values (R186). That the records close before the stop cancel is queued, as R186 names them, is DESIGN
CHOICE (notes/assumptions/59.md). -/
def endRoll (s : State) : State :=
  let s1 := clearQueue (cancelAtEnd (closeAtEnd s))
  { s1 with
    mt := s1.mt.rollEnd
    ms := { MapStore.init with next := s1.ms.next }
    fq := { s1.fq with hCam := none, flags := List.replicate Config.laneCount none }
    ss := s1.ss.cleared
    sc := { SetController.init with num := s1.sc.num } }

/-- ROLL_END (R186). -/
def rollEnd (body : List Byte) (s : State) : Answer :=
  if s.sc.state = .noSet then deny .busy 0 s else bare body s endRoll

/-! ### MARK_RESYNC -/

/-- The new F, if m and it lie in the roll (R21). -/
def Header.resynced (h : Header) (k m : Nat) : Option Header :=
  let f : Int := if h.reversed then (m : Int) + k else (m : Int) - k
  if m < h.nT ∧ 0 ≤ f ∧ f < h.nT then some { h with f := f.toNat } else none

/-- One Forecast entry leaves (R65, R66), and the Stop Scheduler looks when it was served (R121). -/
def discardOne (s : State) (n : Nat) : State :=
  if (s.fq.findForecast n).any (·.feat.served) then look (leave n s) else leave n s

/-- Every Forecast entry leaves, one by one, in Forecast order (R66). -/
def discardForecast (s : State) : State := (s.fq.forecast.map (·.feat.num)).foldl discardOne s

/-- The Map Store after a resync (R41): the frontier and the run are set again, requests passed by are abandoned, and requests and
expansion go on from the new F. -/
def resetFrontier (h : Header) (k : Nat) (s : State) : State :=
  expand (checkRequests { s with ms := { s.ms with
    frontier := some (k + 1), run := false, outstanding := s.ms.outstanding.filter (fun b => !h.passed (k + 1) b) } })

/-- The press mark number of a MARK_RESYNC body. -/
def pressMarkIn : List Byte → Option Nat
  | [b3, b2, b1, b0] => some (wordOf b3 b2 b1 b0).toNat
  | _ => none

/-- MARK_RESYNC (R21, R41, R66). -/
def markResync (body : List Byte) (s : State) : Answer :=
  match s.mt.state, s.mt.last, s.ms.current with
  | .locked, some l, some h =>
    match pressMarkIn body with
    | none => deny .invalid 0 s
    | some m =>
      match h.resynced l.k m with
      | none => deny .invalid 1 s
      | some h' => accept (resetFrontier h' l.k (discardForecast { s with ms := { s.ms with current := some h' } }))
  | _, _, _ => deny .busy 0 s

/-! ### DOFF_NOW and DOFF_COMPLETE -/

/-- The smallest mark index above k_last on which the machine can still stop (R150). -/
def State.doffMark (s : State) (m : MachineTable) (l : LastMark) : Nat :=
  let need := s.stopDistance m - (l.u + s.cutOffset + m.dNip - s.pu.u)
  l.k + max 1 (ceilDiv need (max 1 s.mt.rExp)).toNat

/-- DOFF_NOW taken (R150). -/
def doffAt (k : Nat) (s : State) : State :=
  expand (enterCutStop { s with sc := SetController.aimCut k { s.sc with xFrozen := true } })

/-- DOFF_NOW (R150). -/
def doffNow (body : List Byte) (s : State) : Answer :=
  if s.sc.state = .running ∨ s.sc.state = .approach then
    match s.mt.last, s.machine with
    | some l, some m => bare body s (doffAt (s.doffMark m l))
    | _, _ => deny .notReady 0 s
  else deny .busy 0 s

/-- Activation (R74), with the start mode and the flag history it sets (R152, step 5; R106). -/
def activate (s : State) : State :=
  match s.lpt.pending with
  | some b =>
    { s with lpt := { active := some b, pending := none }
             sc := { s.sc with mode := some .thread }
             fq := { s.fq with flags := List.replicate Config.laneCount none } }
  | none => { s with sc := { s.sc with mode := some .continue } }

/-- The Set Controller once the set is closed (R142, R152): the number advances and the closed set's counts are gone; P_cut stays
frozen, and K_cut is kept as the K_base of the set to come (R145). -/
def SetController.doffed (t : SetController) : SetController :=
  { t with num := nextSetNumber t.num, lastKCut := t.kCut, pStart := none, kBase := none, kCut := none, cutMark := none
           x := 0, xFrozen := false }

/-- The look that the change into PREPARING gives the Stop Scheduler (R121); a set opened at once has given its own. -/
def lookPreparing (s : State) : State := if s.sc.state = .preparing then look s else s

/-- DOFF_COMPLETE taken (R152). -/
def completeDoff (s : State) : State :=
  let gross := s.sc.grossOf (s.sc.frozenCut.getD 0 - s.sc.pStart.getD 0)
  let s1 := closeSet gross s.sc.cutRepeats false s
  expand (lookPreparing (enterPreparing (activate { s1 with sc := s1.sc.doffed })))

/-- DOFF_COMPLETE (R152). -/
def doffComplete (body : List Byte) (s : State) : Answer :=
  if s.sc.state = .changing then bare body s completeDoff else deny .busy 0 s

/-! ### The end of a defect stop -/

/-- X and K_cut recomputed after a removal (R147). -/
def SetController.madeUp (t : SetController) (b : Bank) (rNom : Nat) : SetController :=
  let most := (t.removed.take b.n).foldl max 0
  let x := min b.xMax (ceilDiv most (max 1 rNom)).toNat
  SetController.aimCut (t.kBase.getD 0 + b.nSet + x) { t with x := x }

/-- A clamped amount handed to the Set Controller (R147). -/
def addRemoval (lane amount : Nat) (s : State) : State :=
  if s.sc.state.open then
    let sc : SetController := { s.sc with removed := s.sc.removed.modify lane (· + amount) }
    match s.lpt.active, s.ms.current with
    | some b, some h => { s with sc := if b.makeUp ∧ sc.xFrozen = false then sc.madeUp b h.rNom else sc }
    | _, _ => { s with sc := sc }
  else s

/-- The removal bound (R135). -/
def State.removalBound (s : State) (m : MachineTable) : Int :=
  let start := s.sc.pStart.getD 0
  let b := s.pu.u - m.dSt - start
  match s.pCut with
  | some c => min b (c - start)
  | none => b

/-- The amount as clamped (R135). -/
def State.clampedAmount (s : State) (m : MachineTable) (lane amount : Nat) : Nat :=
  (min (amount : Int) (s.removalBound m - ((s.sc.removed[lane]?).getD 0 : Nat))).toNat

/-- A served entry that holds an item for the lane carries SUSPECT (R135). -/
def State.servedSuspect (s : State) (lane : Nat) : Bool :=
  s.fq.settled.any (fun e => e.feat.served && e.feat.suspect && e.items.any (fun i => i.lane == lane))

/-- The REMOVED event of a lane (R135); a gross position below 0 is stored as 0 (R159). One beyond the range of 9.1 is kept as it is:
DESIGN CHOICE (notes/assumptions/15.md). -/
def removedEvent (gross : Int) (len : Nat) (suspect : Bool) : Event :=
  { kind := .removed, cls := none, gross := gross.toNat, len := len, origin := none, rep := none, suspect := suspect
    confirmed := false, notRemoved := false, flagShared := false, rejectCause := false }

/-- One listed lane: the amount clamped and recorded, and its REMOVED event (R135). The bound's P_cut is asked afresh for each lane, so
that it has moved with K_cut where an earlier lane of the report has raised X: DESIGN CHOICE (notes/assumptions/57.md). -/
def takeRemoval (m : MachineTable) (s : State) (x : Nat × Nat) : State :=
  let amount := s.clampedAmount m x.1 x.2
  let gross := s.ss.pW.getD 0 - s.sc.pStart.getD 0
  handEvent x.1 (removedEvent gross amount (s.servedSuspect x.1)) (addRemoval x.1 amount s)

/-- The pairs in ascending lane number. -/
def insertPair (x : Nat × Nat) : List (Nat × Nat) → List (Nat × Nat)
  | [] => [x]
  | y :: t => if y.1 ≤ x.1 then y :: insertPair x t else x :: y :: t

def sortPairs (l : List (Nat × Nat)) : List (Nat × Nat) := l.foldr insertPair []

/-- A served Settled entry dealt with after a removal report (R136): the listed lanes' items are gone, a STOP item left is LOG with
not removed set, and an entry left without items leaves. -/
def settleServed (lanes : List Nat) (s : State) (e : Settled) : State :=
  if e.feat.served ∧ e.knife then
    let items := (e.items.filter (fun i => !lanes.contains i.lane)).map LaneItem.downgrade
    if items = [] then leave e.feat.num s else changeSettled e.feat.num (fun x => { x with items := items }) s
  else s

/-- The Stop Scheduler as a defect stop ends (R136). -/
def StopScheduler.ended (t : StopScheduler) : StopScheduler :=
  { t with state := .idle, kind := none, aim := none, aimGone := false, uT := none, pW := none, late := false, overshoot := 0 }

/-- A removal report taken (R135, R136); RESUME is one without pairs (R137). -/
def endDefectStop (m : MachineTable) (pairs : List (Nat × Nat)) (s : State) : State :=
  let s1 := (sortPairs pairs).foldl (takeRemoval m) s
  let s2 := s1.fq.settled.foldl (settleServed (pairs.map (·.1))) s1
  let s3 := releaseAll s2
  expand (look { s3 with ss := s3.ss.ended })

/-- A DEFECT stop is HALTED (R134). -/
def State.defectHalted (s : State) : Bool := s.ss.state == .halted && s.ss.kind == some .defect

/-- REMOVAL_REPORT (R134 to R136). -/
def removalReport (body : List Byte) (s : State) : Answer :=
  match s.defectHalted, s.machine with
  | true, some m =>
    match removalIn ((s.lpt.active.map (·.n)).getD 0) body with
    | .ok pairs => accept (endDefectStop m pairs s)
    | .error n => deny .invalid n s
  | _, _ => deny .notHalted 0 s

/-- RESUME (R137). -/
def resume (body : List Byte) (s : State) : Answer :=
  match s.defectHalted, s.machine with
  | true, some m => bare body s (endDefectStop m [])
  | _, _ => deny .notHalted 0 s

/-! ### KNIFE_RETRY -/

/-- The order of a FAULT channel sent again by command, and what the change of state gives the gate (R95, R143). -/
def retryKnife (j : Nat) (s : State) : State :=
  match s.machine with
  | some m => knifeChanged j s (sendKnife m true j s)
  | none => s

/-- KNIFE_RETRY (R95). -/
def knifeRetry (body : List Byte) (s : State) : Answer :=
  match body with
  | [b] =>
    match s.knives[b.toNat]? with
    | none => deny .invalid 1 s
    | some c => if c.state = .fault then accept (retryKnife b.toNat s) else deny .busy 0 s
  | _ => deny .invalid 0 s

/-! ### The handler -/

/-- A table request executed, by its kind (10.4, R180). -/
def tableRequest (code : Byte) (body : List Byte) (s : State) : Answer :=
  if code = codeReadStatus then readStatus body s
  else if code = codeReadTable then readTable body s
  else if code = codeLoadMachine then loadMachine body s
  else if code = codeLoadPeers then loadPeers body s
  else if code = codeLoadBank then loadBank body s
  else if code = codeCancelPending then cancelPending body s
  else if code = codeLoadRollHeader then loadRollHeader body s
  else if code = codeSetLateralOffset then setLateralOffset body s
  else if code = codeReset then resetRequest body s
  else deny .unknown 0 s

/-- A line command executed, by its kind (10.4, R180). -/
def lineCommand (code : Byte) (body : List Byte) (s : State) : Answer :=
  if code = codeRollStart then rollStart body s
  else if code = codeRollEnd then rollEnd body s
  else if code = codeMarkResync then markResync body s
  else if code = codeDoffNow then doffNow body s
  else if code = codeDoffComplete then doffComplete body s
  else if code = codeRemovalReport then removalReport body s
  else if code = codeResume then resume body s
  else if code = codeKnifeRetry then knifeRetry body s
  else deny .unknown 0 s

/-- A request executed; one whose body carries no kind byte is of no kind the part knows. -/
def execute (line : Bool) (code : Option Byte) (body : List Byte) (s : State) : Answer :=
  match code with
  | none => deny .unknown 0 s
  | some c => if line then lineCommand c body s else tableRequest c body s

/-- The frame kind of a table request or a line command (10.4). -/
def requestKind (line : Bool) : Byte := if line then 0x21 else 0x20

/-- The reply to a request, queued to its source under its tag (R176, R180). -/
def reply (src : Byte) (tag : Half) (code : Option Byte) (a : Answer) : State :=
  queueOwn .reply src.toNat (some tag) (.reply (code.getD Config.replyKindOfEmpty) a.status a.index a.body) a.state

/-- The reply of an accepted RESET is queued alone, and the reset then waits for it to go out (R184). -/
def markResetting (resets : Bool) (s : State) : State :=
  if resets then { s with ll := { s.ll with resetting := true } } else s

/-- A table request or line command taken (R180): refused BACKLOG without a reply when 16 replies wait, and otherwise executed
whole and answered once. -/
def request (src : Byte) (tag : Half) (line : Bool) (code : Option Byte) (body : List Byte) (s : State) : State :=
  if s.ll.room .reply then
    let a := execute line code body s
    markResetting a.resets (reply src tag code a)
  else refuse src (requestKind line) .backlog s

end Sys2Proof.Machine
end

