-- ==== Sys2Proof/Machine/Link.lean ====
section
/-! DEFINITION. The Line Link Interface's own steps: arriving frames (R174, R177), the output arbiter and the links of the ports
(R179), the sent reports (R169, R189), the timers' expiries (R5, R89), power-on and the effect of a RESET (R175, R184, R190). -/

namespace Sys2Proof.Machine

/-! ### Arriving frames -/

/-- The role to which a kind is reserved (10.2). -/
def Payload.role (p : Payload) (t : PeerTable) : Nat :=
  match p with
  | .count _ _ => t.drive
  | .mark _ => t.markSensor
  | .sighting _ _ _ _ _ _ => t.inspection
  | .knife _ _ _ _ => t.knifePositioner
  | .request _ _ _ => t.lineController
  | .block _ _ _ _ _ => t.mapServer
  | .flow _ => t.recordReceiver

/-- A table request or line command, which is taken from any station while the peer table is empty (R177). -/
def Payload.isRequest : Payload → Bool
  | .request _ _ _ => true
  | _ => false

/-- A frame that passes is handed to its owner (R177). -/
def handOver (src : Byte) (tag : Half) (p : Payload) (s : State) : State :=
  match p with
  | .count c t => takeCount c t s
  | .mark cx => takeMarkFrame src cx s
  | .sighting cDet kind cls len x0 x1 => takeSighting src cDet kind cls len x0 x1 s
  | .knife k outcome position parked => takeKnifeReport src k outcome position parked s
  | .block roll blk flags cnt items => takeBlock src roll blk flags cnt items s
  | .flow code => takeFlow src code s
  | .request line code body => request src tag line code body s

/-- A taken frame judged by source, and handed over or refused or discarded (R177). -/
def judgeSource (f : LineFrame) (p : Payload) (s : State) : State :=
  match s.peers with
  | some t => if f.src.toNat = p.role t then handOver f.src f.tag p s else refuse f.src f.kind .peer s
  | none => if p.isRequest then handOver f.src f.tag p s else s

/-- A taken frame, whose kind and length have been judged (R177); while a RESET waits to take effect it is discarded
(R184). -/
def takeFrame (f : LineFrame) (r : Except RefusalReason Payload) (s : State) : State :=
  if s.ll.resetting then s
  else match r with
    | .error reason => refuse f.src f.kind reason s
    | .ok p => judgeSource f p s

/-- A Welzuna frame arriving on a port (R174, R175), its kind and length judged as `r` says. That a broadcast is sent on before its
content is executed, where R174 gives no order, is DESIGN CHOICE (notes/assumptions/51.md). The arrival port's link is not asked: that
"A port without link takes no frames" (R179) is read of sending only is DESIGN CHOICE (notes/assumptions/54.md). -/
def receive (p : Port) (f : LineFrame) (r : Except RefusalReason Payload) (s : State) : State :=
  match s.station with
  | none => forward p.other (.line f) s
  | some own =>
    if f.src.toNat = own then refuse f.src f.kind .ownSource s
    else if f.dst.toNat = own then takeFrame f r s
    else if f.dst.toNat = Config.broadcast then takeFrame f r (forward p.other (.line f) s)
    else forward p.other (.line f) s

/-- A frame of this content arriving as `rx` says. -/
def arrive (rx : Rx) (p : Payload) (s : State) : State := receive rx.port (frameOf rx p) p.judged s

/-- Any frame arriving on a port as its bytes stand (R174), whatever that port's link: DESIGN CHOICE (notes/assumptions/54.md). -/
def arriveRaw (p : Port) (f : Frame) (s : State) : State :=
  match f with
  | .foreign _ _ => forward p.other f s
  | .line l => receive p l (judgeFrame l) s

/-! ### The output arbiter (R179) -/

/-- What a port was sending has gone out on it. -/
def finishSending (p : Port) (s : State) : State :=
  let own := s.ll.own.map (fun f => if f.stage p = .sending then f.setStage p .gone else f)
  { s with ll := ({ s.ll with own := own.filter (fun f => !f.out) }).setPort p { s.ll.port p with tx := none } }

/-- The classes in the order in which they are served. -/
def OwnClass.inOrder : List OwnClass := [.order, .reply, .blockRequest, .notice, .record]

/-- The place of the frame of a class that waits first at a port. -/
def LineLink.firstWaiting (l : LineLink) (p : Port) (c : OwnClass) : Option Nat :=
  l.own.findIdx? (fun f => f.cls == c && f.stage p == .waiting)

/-- The place of the own frame that a port sends next: of the best class waiting, the one queued first. -/
def LineLink.nextOwn (l : LineLink) (p : Port) : Option Nat := OwnClass.inOrder.findSome? (l.firstWaiting p)

/-- An idle port with link begins its next frame: own frames by class, then passing frames. -/
def beginSending (p : Port) (s : State) : State :=
  let q := s.ll.port p
  if q.link then
    match s.ll.nextOwn p with
    | some i => { s with ll := { s.ll with own := s.ll.own.modify i (fun f => f.setStage p .sending) } }
    | none =>
      match q.passing with
      | f :: rest => { s with ll := s.ll.setPort p { q with passing := rest, tx := some f } }
      | [] => s
  else s

/-- A port falls idle (R179). -/
def idlePort (p : Port) (s : State) : State := beginSending p (finishSending p s)

/-! ### Sent reports -/

/-- The own frames of a class are gone from both ports. -/
def dropClass (c : OwnClass) (s : State) : State :=
  { s with ll := { s.ll with own := s.ll.own.filter (fun f => f.cls != c) } }

/-- The reel-record frame in flight has gone out on both ports (R169): what it held is given back and the next is passed. A frame
that a RESET discarded gives no report (R184). That the report of any other frame has its whole effect also while a RESET waits,
where R184 says that the blocks keep their state, is DESIGN CHOICE (notes/assumptions/52.md). -/
def reportRecord (s : State) : State :=
  if s.rs.inFlight.isSome ∧ s.ll.voidRecord = false then expand (sendRecords (recordSent (dropClass .record s))) else s

/-- The notice in flight has gone out on both ports (R189); the next is passed at the end of the event. A notice that a RESET
discarded gives no report (R184); one of any other notice has its effect also while a RESET waits (DESIGN CHOICE,
notes/assumptions/52.md). -/
def reportNotice (s : State) : State :=
  if s.nq.inFlight.isSome ∧ s.ll.voidNotice = false then
    let s1 := dropClass .notice s
    { s1 with nq := { s1.nq with inFlight := none } }
  else s

/-! ### Links -/

/-- A port has lost its link (R179): its own frames count as gone out on it and its passing frames are discarded. That this
takes in the frame whose sending has begun, own or passing, is DESIGN CHOICE (notes/assumptions/49.md). -/
def unlink (p : Port) (s : State) : State :=
  let own := s.ll.own.map (fun f => f.setStage p .gone)
  let q : PortState := { s.ll.port p with link := false, passing := [], tx := none }
  { s with ll := ({ s.ll with own := own.filter (fun f => !f.out) }).setPort p q }

/-- A frame of a class that was own before has gone out. -/
def wentOut (c : OwnClass) (before s : State) : Bool := before.ll.count c != 0 && s.ll.count c == 0

/-- A port loses its link, and the owners of the frames that go out by it learn of this (R169, R179, R189). -/
def linkLost (p : Port) (s : State) : State :=
  let s1 := unlink p s
  let s2 := if wentOut .notice s s1 then reportNotice s1 else s1
  if wentOut .record s s1 then reportRecord s2 else s2

/-- A port gains or loses its link (R179). -/
def changeLink (p : Port) (up : Bool) (s : State) : State :=
  if (s.ll.port p).link = up then s
  else if up then { s with ll := s.ll.setPort p { s.ll.port p with link := true } }
  else linkLost p s

/-! ### Timers -/

/-- The silence timer's expiry: it must run, and no timer expires while a RESET waits to take effect (R5, R184). -/
def expireSilence (s : State) : State :=
  if s.pu.silence.isSome ∧ s.ll.resetting = false then silenceExpires s else s

/-- A confirm timer's expiry: the channel is MOVING and its timer runs (R89, R184). -/
def expireConfirm (j : Nat) (s : State) : State :=
  match s.machine, s.knives[j]? with
  | some m, some c =>
    if c.timer.isSome ∧ c.state = .moving ∧ s.ll.resetting = false then confirmExpires m j c s else s
  | _, _ => s

/-! ### Power-on and RESET -/

/-- The power-on values of every block, with the straps read (R175, R190). The queue of commands and the order drawn for R105
are the model's and stand; the links are those the ports have (notes/assumptions/2.md). -/
def powerOnState (straps : BitVec 6) (s : State) : State :=
  let l := LineLink.init straps
  { State.reset with
    pending := s.pending
    lookFirst := s.lookFirst
    ll := { l with portA := { l.portA with link := s.ll.portA.link }, portB := { l.portB with link := s.ll.portB.link } } }

/-- The power-on values, a passing frame in transmission being sent to its end (R179, R184). -/
def resetState (straps : BitVec 6) (s : State) : State :=
  let t := powerOnState straps s
  { t with ll := { t.ll with portA := { t.ll.portA with tx := s.ll.portA.tx }, portB := { t.ll.portB with tx := s.ll.portB.tx } } }

/-- The RESET takes effect (R184); nothing happens when none has been taken. -/
def takeReset (straps : BitVec 6) (s : State) : State := if s.ll.resetting then resetState straps s else s

end Sys2Proof.Machine
end

