-- ==== Sys2Proof/Machine/FrameCommands.lean ====
section
/-! DEFINITION. The commands that are frames of the other stations (R174, R177): count, mark and sighting frames, knife reports,
map blocks, record flow, and any frame as its bytes stand. -/

namespace Sys2Proof.Machine

/-- A command has run: the event ends with the passing of a notice (R187). -/
def done (s : State) : Host.Outcome State Fault Refusal := .next (endEvent s)

/-- PASSING_FRAME (R174, R177): forwarded, refused, or taken, as the frame's bytes say. -/
def execPassingFrame (port : Port) (f : Frame) (s : State) : Host.Outcome State Fault Refusal := done (arriveRaw port f s)

/-- COUNT_FRAME (R1). -/
def execCountFrame (rx : Rx) (c t : Word) (s : State) : Host.Outcome State Fault Refusal := done (arrive rx (.count c t) s)

/-- MARK_FRAME (R10). -/
def execMarkFrame (rx : Rx) (cx : Word) (s : State) : Host.Outcome State Fault Refusal := done (arrive rx (.mark cx) s)

/-- SIGHTING_FRAME (R54). -/
def execSightingFrame (rx : Rx) (cDet : Word) (kind cls : Byte) (len x0 x1 : Half) (s : State) :
    Host.Outcome State Fault Refusal :=
  done (arrive rx (.sighting cDet kind cls len x0 x1) s)

/-- KNIFE_REPORT (R86). -/
def execKnifeReport (rx : Rx) (knife outcome : Byte) (position : Half) (parked : Byte) (s : State) :
    Host.Outcome State Fault Refusal :=
  done (arrive rx (.knife knife outcome position parked) s)

/-- MAP_BLOCK (R34). -/
def execMapBlock (rx : Rx) (roll block : Word) (flags count : Byte) (items : List MapItem) (s : State) :
    Host.Outcome State Fault Refusal :=
  done (arrive rx (.block roll block flags count items) s)

/-- RECORD_HOLD (R170): a record flow frame of byte 0. -/
def execRecordHold (rx : Rx) (s : State) : Host.Outcome State Fault Refusal := done (arrive rx (.flow 0) s)

/-- RECORD_RELEASE (R170): a record flow frame of byte 1. -/
def execRecordRelease (rx : Rx) (s : State) : Host.Outcome State Fault Refusal := done (arrive rx (.flow 1) s)

end Sys2Proof.Machine
end

