-- ==== Sys2Proof/Machine/EventCommands.lean ====
section
/-! DEFINITION. The commands that are events of the part's own: power-on, links and ports, timers, sent reports, and the effect of
a RESET. -/

namespace Sys2Proof.Machine

/-- POWER_ON (R175, R190): the straps are read and every block takes its power-on values. -/
def execPowerOn (straps : BitVec 6) (s : State) : Host.Outcome State Fault Refusal := done (powerOnState straps s)

/-- PORT_LINK_CHANGE (R179). -/
def execPortLinkChange (port : Port) (up : Bool) (s : State) : Host.Outcome State Fault Refusal :=
  done (changeLink port up s)

/-- PORT_IDLE (R179). -/
def execPortIdle (port : Port) (s : State) : Host.Outcome State Fault Refusal := done (idlePort port s)

/-- SILENCE_TIMER_EXPIRY (R5). -/
def execSilenceTimerExpiry (s : State) : Host.Outcome State Fault Refusal := done (expireSilence s)

/-- CONFIRM_TIMER_EXPIRY (R89). -/
def execConfirmTimerExpiry (knife : Nat) (s : State) : Host.Outcome State Fault Refusal := done (expireConfirm knife s)

/-- REEL_RECORD_SENT (R169). -/
def execReelRecordSent (s : State) : Host.Outcome State Fault Refusal := done (reportRecord s)

/-- NOTICE_SENT (R189). -/
def execNoticeSent (s : State) : Host.Outcome State Fault Refusal := done (reportNotice s)

/-- RESET_TAKES_EFFECT (R184). -/
def execResetTakesEffect (straps : BitVec 6) (s : State) : Host.Outcome State Fault Refusal := done (takeReset straps s)

end Sys2Proof.Machine
end

