-- ==== Sys2Proof/Machine/LineCommands.lean ====
section
/-! DEFINITION. The commands that are line commands (10.5). -/

namespace Sys2Proof.Machine

/-- ROLL_START (R185). -/
def execRollStart (rx : Rx) (body : List Byte) (s : State) : Host.Outcome State Fault Refusal :=
  done (arrive rx (.request true (some codeRollStart) body) s)

/-- ROLL_END (R186). -/
def execRollEnd (rx : Rx) (body : List Byte) (s : State) : Host.Outcome State Fault Refusal :=
  done (arrive rx (.request true (some codeRollEnd) body) s)

/-- MARK_RESYNC (R21). -/
def execMarkResync (rx : Rx) (body : List Byte) (s : State) : Host.Outcome State Fault Refusal :=
  done (arrive rx (.request true (some codeMarkResync) body) s)

/-- DOFF_NOW (R150). -/
def execDoffNow (rx : Rx) (body : List Byte) (s : State) : Host.Outcome State Fault Refusal :=
  done (arrive rx (.request true (some codeDoffNow) body) s)

/-- DOFF_COMPLETE (R152). -/
def execDoffComplete (rx : Rx) (body : List Byte) (s : State) : Host.Outcome State Fault Refusal :=
  done (arrive rx (.request true (some codeDoffComplete) body) s)

/-- REMOVAL_REPORT (R134). -/
def execRemovalReport (rx : Rx) (body : List Byte) (s : State) : Host.Outcome State Fault Refusal :=
  done (arrive rx (.request true (some codeRemovalReport) body) s)

/-- RESUME (R137). -/
def execResume (rx : Rx) (body : List Byte) (s : State) : Host.Outcome State Fault Refusal :=
  done (arrive rx (.request true (some codeResume) body) s)

/-- KNIFE_RETRY (R95). -/
def execKnifeRetry (rx : Rx) (body : List Byte) (s : State) : Host.Outcome State Fault Refusal :=
  done (arrive rx (.request true (some codeKnifeRetry) body) s)

end Sys2Proof.Machine
end

