-- ==== Sys2Proof/Machine/TableRequests.lean ====
section
/-! DEFINITION. The commands that are table requests (10.5). -/

namespace Sys2Proof.Machine

/-- READ_STATUS (R182). -/
def execReadStatus (rx : Rx) (body : List Byte) (s : State) : Host.Outcome State Fault Refusal :=
  done (arrive rx (.request false (some codeReadStatus) body) s)

/-- READ_TABLE (R183). -/
def execReadTable (rx : Rx) (body : List Byte) (s : State) : Host.Outcome State Fault Refusal :=
  done (arrive rx (.request false (some codeReadTable) body) s)

/-- LOAD_MACHINE (R181). -/
def execLoadMachine (rx : Rx) (body : List Byte) (s : State) : Host.Outcome State Fault Refusal :=
  done (arrive rx (.request false (some codeLoadMachine) body) s)

/-- LOAD_PEERS (R176). -/
def execLoadPeers (rx : Rx) (body : List Byte) (s : State) : Host.Outcome State Fault Refusal :=
  done (arrive rx (.request false (some codeLoadPeers) body) s)

/-- LOAD_BANK with the selector ACTIVE, word 0 (R71). -/
def execLoadBankActive (rx : Rx) (body : List Byte) (s : State) : Host.Outcome State Fault Refusal :=
  done (arrive rx (.request false (some codeLoadBank) (wordBytes 0 ++ body)) s)

/-- LOAD_BANK with the selector PENDING, word 1 (R72). -/
def execLoadBankPending (rx : Rx) (body : List Byte) (s : State) : Host.Outcome State Fault Refusal :=
  done (arrive rx (.request false (some codeLoadBank) (wordBytes 1 ++ body)) s)

/-- CANCEL_PENDING (R73). -/
def execCancelPending (rx : Rx) (body : List Byte) (s : State) : Host.Outcome State Fault Refusal :=
  done (arrive rx (.request false (some codeCancelPending) body) s)

/-- LOAD_ROLL_HEADER (R23). -/
def execLoadRollHeader (rx : Rx) (body : List Byte) (s : State) : Host.Outcome State Fault Refusal :=
  done (arrive rx (.request false (some codeLoadRollHeader) body) s)

/-- SET_LATERAL_OFFSET (R24). -/
def execSetLateralOffset (rx : Rx) (body : List Byte) (s : State) : Host.Outcome State Fault Refusal :=
  done (arrive rx (.request false (some codeSetLateralOffset) body) s)

/-- RESET (R184). -/
def execReset (rx : Rx) (body : List Byte) (s : State) : Host.Outcome State Fault Refusal :=
  done (arrive rx (.request false (some codeReset) body) s)

/-- UNKNOWN_REQUEST (R180): a table request, or a line command where `line` is set. A kind that is known after all is handled as
that request. -/
def execUnknownRequest (rx : Rx) (line : Bool) (code : Byte) (body : List Byte) (s : State) :
    Host.Outcome State Fault Refusal :=
  done (arrive rx (.request line (some code) body) s)

end Sys2Proof.Machine
end

