-- ==== Sys2Proof/Machine/Dispatch.lean ====
section
/-! DEFINITION. One arm for each command. -/

namespace Sys2Proof.Machine

def exec (i : Instr) (s : State) : Host.Outcome State Fault Refusal :=
  match i with
  | .powerOn straps => Sys2Proof.Machine.execPowerOn straps s
  | .portLinkChange port up => Sys2Proof.Machine.execPortLinkChange port up s
  | .passingFrame port f => Sys2Proof.Machine.execPassingFrame port f s
  | .portIdle port => Sys2Proof.Machine.execPortIdle port s
  | .countFrame rx c t => Sys2Proof.Machine.execCountFrame rx c t s
  | .markFrame rx cx => Sys2Proof.Machine.execMarkFrame rx cx s
  | .sightingFrame rx cDet kind cls len x0 x1 => Sys2Proof.Machine.execSightingFrame rx cDet kind cls len x0 x1 s
  | .knifeReport rx knife outcome position parked => Sys2Proof.Machine.execKnifeReport rx knife outcome position parked s
  | .mapBlock rx roll block flags count items => Sys2Proof.Machine.execMapBlock rx roll block flags count items s
  | .recordHold rx => Sys2Proof.Machine.execRecordHold rx s
  | .recordRelease rx => Sys2Proof.Machine.execRecordRelease rx s
  | .readStatus rx body => Sys2Proof.Machine.execReadStatus rx body s
  | .readTable rx body => Sys2Proof.Machine.execReadTable rx body s
  | .loadMachine rx body => Sys2Proof.Machine.execLoadMachine rx body s
  | .loadPeers rx body => Sys2Proof.Machine.execLoadPeers rx body s
  | .loadBankActive rx body => Sys2Proof.Machine.execLoadBankActive rx body s
  | .loadBankPending rx body => Sys2Proof.Machine.execLoadBankPending rx body s
  | .cancelPending rx body => Sys2Proof.Machine.execCancelPending rx body s
  | .loadRollHeader rx body => Sys2Proof.Machine.execLoadRollHeader rx body s
  | .setLateralOffset rx body => Sys2Proof.Machine.execSetLateralOffset rx body s
  | .reset rx body => Sys2Proof.Machine.execReset rx body s
  | .unknownRequest rx line code body => Sys2Proof.Machine.execUnknownRequest rx line code body s
  | .rollStart rx body => Sys2Proof.Machine.execRollStart rx body s
  | .rollEnd rx body => Sys2Proof.Machine.execRollEnd rx body s
  | .markResync rx body => Sys2Proof.Machine.execMarkResync rx body s
  | .doffNow rx body => Sys2Proof.Machine.execDoffNow rx body s
  | .doffComplete rx body => Sys2Proof.Machine.execDoffComplete rx body s
  | .removalReport rx body => Sys2Proof.Machine.execRemovalReport rx body s
  | .resume rx body => Sys2Proof.Machine.execResume rx body s
  | .knifeRetry rx body => Sys2Proof.Machine.execKnifeRetry rx body s
  | .silenceTimerExpiry => Sys2Proof.Machine.execSilenceTimerExpiry s
  | .confirmTimerExpiry knife => Sys2Proof.Machine.execConfirmTimerExpiry knife s
  | .reelRecordSent => Sys2Proof.Machine.execReelRecordSent s
  | .noticeSent => Sys2Proof.Machine.execNoticeSent s
  | .resetTakesEffect straps => Sys2Proof.Machine.execResetTakesEffect straps s

end Sys2Proof.Machine
end

