-- ==== Sys2Proof/Safety.lean ====
section
/-! DEFINITION. What a safe run is: steps none of which stops; and the laws that the manual states of the part's state, block by
block, as properties of plain data. -/

namespace Sys2Proof.Machine

/-- The state after n steps, if none of them stops. -/
def run : Nat → State → Option State
  | 0, s => some s
  | n + 1, s =>
    match step s with
    | .next t => run n t
    | _ => none

/-- A run of n steps is safe: no step of it stops. -/
def safe (n : Nat) (s : State) : Prop := (run n s).isSome

/-- The Position Unit's ranges (1.1): U, v, the history, and acc below PPM once a machine table is loaded. -/
def PositionUnit.lawful (machine : Option MachineTable) (p : PositionUnit) : Prop :=
  int32Min ≤ p.u ∧ p.u ≤ int32Max ∧ p.v ≤ 20000 ∧ p.hist.length ≤ 8 ∧
    ∀ m, machine = some m → 0 < m.ppm ∧ 0 ≤ p.acc ∧ p.acc < m.ppm

/-- The Mark Tracker's ranges (1.5): E and the miss count, which reaches 3 only as COASTING is left. -/
def MarkTracker.lawful (t : MarkTracker) : Prop :=
  -20000 ≤ t.e ∧ t.e ≤ 20000 ∧ t.miss ≤ 3 ∧ (t.state = .coasting → t.miss ≤ 2)

/-- The Feature Queue's laws (R43, R45): every entry has a slot of its own among the 1,024, and both lists stand in order. -/
def FeatureQueue.lawful (q : FeatureQueue) : Prop :=
  q.nums.Nodup ∧ (∀ n ∈ q.nums, n < Config.entrySlots) ∧ q.settled.Pairwise (fun x y => x.p ≤ y.p) ∧
    q.forecast.Pairwise (fun x y => x.le y = true) ∧ q.flags.length = Config.laneCount

/-- The Map Store's law (R32): a block lies in its own set, no block number is valid in more than one way or both valid and
outstanding, and at most 7 requests are outstanding, without duplicates. -/
def MapStore.lawful (t : MapStore) : Prop :=
  t.slots.length = 16 ∧ t.lru.length = 8 ∧ t.outstanding.Nodup ∧ t.outstanding.length ≤ Config.outstandingMax ∧
    (∀ (i : Nat) (x : Block), t.slots[i]? = some (some x) → x.num % 8 = i / 2) ∧
    (∀ (i j : Nat) (x y : Block), t.slots[i]? = some (some x) → t.slots[j]? = some (some y) → x.num = y.num → i = j) ∧
    (∀ (i : Nat) (x : Block), t.slots[i]? = some (some x) → x.num ∉ t.outstanding)

/-- The Notice Queue holds at most 32 notices (10.6). -/
def NoticeQueue.lawful (q : NoticeQueue) : Prop := q.waiting.length ≤ Config.noticeMax

/-- No class of own frames exceeds its capacity (R179). -/
def LineLink.ownLawful (l : LineLink) : Prop := ∀ c, l.count c ≤ c.capacity

/-- At most 8 passing frames wait for a port (R179), and the refusal count stops at 65,535 (R178). -/
def LineLink.portsLawful (l : LineLink) : Prop :=
  (∀ p, (l.port p).passing.length ≤ Config.passingMax) ∧ l.refusals ≤ 65535

/-- No record holds more events than its quota (R160), and there are 96 headers (R166). -/
def RecordStore.lawful (t : RecordStore) : Prop :=
  t.headers.length = Config.recordHeaders ∧ ∀ r, some r ∈ t.headers → r.events.length ≤ r.quota

/-- The set number is 1..65,535 and there is a removal sum for every lane (8.1). -/
def SetController.lawful (t : SetController) : Prop :=
  1 ≤ t.num ∧ t.num ≤ 65535 ∧ t.removed.length = Config.laneCount

/-- A bank's law (4.1, R69): 1..24 lanes, a knife more than lanes, knives strictly increasing by at least 150, quotas of at most
1,024 in all. -/
def Bank.lawful (b : Bank) : Prop :=
  1 ≤ b.n ∧ b.n ≤ Config.laneCount ∧ b.knives.length = b.n + 1 ∧ b.lanes.length = b.n ∧
    b.knives.Pairwise (fun x y => x + 150 ≤ y) ∧ (∀ k ∈ b.knives, k ≤ 30000) ∧ b.quotaSum ≤ 1024 ∧ b.nApp ≤ b.nSet ∧
    b.xMax ≤ 64

/-- The ACTIVE and the PENDING bank are lawful where they hold a plan (R69). -/
def LanePlans.lawful (t : LanePlans) : Prop := (∀ b, t.active = some b → b.lawful) ∧ ∀ b, t.pending = some b → b.lawful

end Sys2Proof.Machine
end

