-- ==== Sys2Proof/WellFormed.lean ====
section
/-! DEFINITION. Which commands can arise: station fields in the ranges of 10.4, a map block whose count is that of its
entries, bodies that a two-byte length can state, request kinds the part does not know, knife numbers that exist.
The meanings are total; a command that is not well formed is one that no frame or event of the manual is. -/

namespace Sys2Proof

/-- The station fields of a common header: destination 1..63, source 1..62 (10.4). -/
def Rx.wf (rx : Rx) : Bool :=
  1 ≤ rx.dst.toNat && rx.dst.toNat ≤ 63 && 1 ≤ rx.src.toNat && rx.src.toNat ≤ 62

/-- A body with its kind byte is at most what the two-byte length of the header can state. -/
def bodyFits (n : Nat) : Bool := n < 65536

/-- The table request kinds the part knows, 1..9 (10.4). -/
def knownTable (code : Byte) : Bool := 1 ≤ code.toNat && code.toNat ≤ 9

/-- The line command kinds the part knows, 1..8 (10.4). -/
def knownLine (code : Byte) : Bool := 1 ≤ code.toNat && code.toNat ≤ 8

/-- A request or command kind is known in its own list. -/
def knownKind (line : Bool) (code : Byte) : Bool := if line then knownLine code else knownTable code

def Frame.wf : Frame → Bool
  | .foreign ethertype _ => ethertype != Config.welzunaEthertype
  | .line f => 1 ≤ f.dst.toNat && f.dst.toNat ≤ 63 && 1 ≤ f.src.toNat && f.src.toNat ≤ 62

/-- The well-formed commands. -/
def Instr.wf : Instr → Bool
  | .powerOn _ => true
  | .portLinkChange _ _ => true
  | .passingFrame _ f => f.wf
  | .portIdle _ => true
  | .countFrame rx _ _ => rx.wf
  | .markFrame rx _ => rx.wf
  | .sightingFrame rx _ _ _ _ _ _ => rx.wf
  | .knifeReport rx _ _ _ _ => rx.wf
  | .mapBlock rx _ _ _ count items => rx.wf && count.toNat == items.length
  | .recordHold rx => rx.wf
  | .recordRelease rx => rx.wf
  | .readStatus rx body => rx.wf && bodyFits (1 + body.length)
  | .readTable rx body => rx.wf && bodyFits (1 + body.length)
  | .loadMachine rx body => rx.wf && bodyFits (1 + body.length)
  | .loadPeers rx body => rx.wf && bodyFits (1 + body.length)
  | .loadBankActive rx body => rx.wf && bodyFits (5 + body.length)
  | .loadBankPending rx body => rx.wf && bodyFits (5 + body.length)
  | .cancelPending rx body => rx.wf && bodyFits (1 + body.length)
  | .loadRollHeader rx body => rx.wf && bodyFits (1 + body.length)
  | .setLateralOffset rx body => rx.wf && bodyFits (1 + body.length)
  | .reset rx body => rx.wf && bodyFits (1 + body.length)
  | .unknownRequest rx line code body => rx.wf && bodyFits (1 + body.length) && !knownKind line code
  | .rollStart rx body => rx.wf && bodyFits (1 + body.length)
  | .rollEnd rx body => rx.wf && bodyFits (1 + body.length)
  | .markResync rx body => rx.wf && bodyFits (1 + body.length)
  | .doffNow rx body => rx.wf && bodyFits (1 + body.length)
  | .doffComplete rx body => rx.wf && bodyFits (1 + body.length)
  | .removalReport rx body => rx.wf && bodyFits (1 + body.length)
  | .resume rx body => rx.wf && bodyFits (1 + body.length)
  | .knifeRetry rx body => rx.wf && bodyFits (1 + body.length)
  | .silenceTimerExpiry => true
  | .confirmTimerExpiry knife => knife < Config.channelCount
  | .reelRecordSent => true
  | .noticeSent => true
  | .resetTakesEffect _ => true

end Sys2Proof
end

