-- ==== Sys2Proof/Certificates/Slice0/Obligations.lean ====
section
/-! DEFINITION. The statements for the provers: what the manual's rules say of the commands and of the whole part. The words
they share come first. -/

namespace Sys2Proof.Claims

open Sys2Proof.Machine

/-! ### How a frame reaches its block -/

/-- A frame with this header is taken by the part (R174): it has a station number, which is not the frame's source, the
destination is that number or 63, and no RESET waits to take effect (R184). The link of the arrival port is not asked, which is the
model's choice (notes/assumptions/54.md). -/
def Addressed (s : State) (rx : Rx) : Prop :=
  ∃ own, s.station = some own ∧ rx.src.toNat ≠ own ∧ (rx.dst.toNat = own ∨ rx.dst.toNat = 63) ∧ s.ll.resetting = false

/-- The frame is taken and comes from the station of the role to which its kind is reserved (R177). -/
def From (role : PeerTable → Nat) (s : State) (rx : Rx) : Prop :=
  Addressed s rx ∧ ∃ t, s.peers = some t ∧ rx.src.toNat = role t

/-- A request or line command is taken and executed (R177, R180): it comes from the LINE_CONTROLLER, or from anyone while the
peer table is empty, and the reply list has room. -/
def Asked (s : State) (rx : Rx) : Prop :=
  Addressed s rx ∧ (∀ t, s.peers = some t → rx.src.toNat = t.lineController) ∧ s.ll.count .reply < 16

/-- The state once a broadcast has been sent on to the other port (R174). -/
def passedOn (rx : Rx) (p : Payload) (s : State) : State :=
  if rx.dst.toNat = 63 then forward rx.port.other (.line (frameOf rx p)) s else s

/-! ### Own frames -/

/-- The own frames of a class, in order of queuing. -/
def ownOf (c : OwnClass) (s : State) : List OwnFrame := s.ll.own.filter (fun f => f.cls == c)

/-- An own frame as it is queued (R179): it waits at every port that has link. -/
def queued (c : OwnClass) (dst : Nat) (tag : Half) (body : OwnBody) (s : State) : OwnFrame :=
  { cls := c, dst := dst, tag := tag, body := body, a := if s.ll.portA.link then .waiting else .gone
    b := if s.ll.portB.link then .waiting else .gone }

/-- A port of the part has link. -/
def linked (s : State) : Bool := s.ll.portA.link || s.ll.portB.link

/-- The reply to a request (R180): to its source, under its tag. -/
def replyTo (rx : Rx) (code : Byte) (status : ReplyStatus) (index : Nat) (body : ReplyBody) (s : State) : OwnFrame :=
  queued .reply rx.src.toNat rx.tag (.reply code status index body) s

/-- The state with the reply queued last; a part without any link has sent it at once (R179). -/
def answered (rx : Rx) (code : Byte) (status : ReplyStatus) (index : Nat) (body : ReplyBody) (s : State) : State :=
  { s with ll := { s.ll with
      own := if linked s then s.ll.own ++ [replyTo rx code status index body s] else s.ll.own, seq := s.ll.seq + 1 } }

/-- From `s` to `t` exactly one reply has been queued, this one. -/
def RepliedOnce (rx : Rx) (code : Byte) (status : ReplyStatus) (index : Nat) (body : ReplyBody) (s t : State) : Prop :=
  ownOf .reply t = ownOf .reply s ++ (if linked s then [replyTo rx code status index body s] else [])

/-! ### Frames of the statements: what stands -/

/-- The tables, the banks, the roll headers and the commands waiting stand. -/
def SameTables (s t : State) : Prop :=
  t.pending = s.pending ∧ t.machine = s.machine ∧ t.peers = s.peers ∧ t.lpt = s.lpt ∧ t.ms.current = s.ms.current ∧
    t.ms.next = s.ms.next

/-- The ports, the straps, the refusals and the marks of a RESET stand. -/
def SameLink (s t : State) : Prop :=
  t.ll.straps = s.ll.straps ∧ t.ll.portA = s.ll.portA ∧ t.ll.portB = s.ll.portB ∧ t.ll.capture = s.ll.capture ∧
    t.ll.refusals = s.ll.refusals ∧ t.ll.resetting = s.ll.resetting ∧ t.ll.voidRecord = s.ll.voidRecord ∧
    t.ll.voidNotice = s.ll.voidNotice

/-- Every block below the position stands: the Map Store but for its requests, the lane plans, knives, stops, sets and records. -/
def SameLine (s t : State) : Prop :=
  t.ms = s.ms ∧ t.knives = s.knives ∧ t.ss = s.ss ∧ t.sc = s.sc

/-! ### Words of the chapters -/

/-- The pulses between two counts, modulo 2^32 and read as signed (R2). -/
def pulses (c cPrev : Word) : Int := (c - cPrev).toInt

/-- The jump limit (R2). -/
def jumpLimit (m : MachineTable) (e : EncoderState) : Nat := if e = .silent then m.dMax * 64 else m.dMax

/-- Every entry of both lists tagged SUSPECT. -/
def suspected (q : FeatureQueue) : FeatureQueue :=
  { q with
    forecast := q.forecast.map (fun e => { e with feat := { e.feat with suspect := true } })
    settled := q.settled.map (fun e => { e with feat := { e.feat with suspect := true } }) }

/-- UNCERTAIN_ON, queued when tagging makes the tagged count rise from 0 (R63). -/
def uncertainOn (s : State) : List Notice :=
  if s.fq.tagged = 0 ∧ (suspected s.fq).tagged ≠ 0 then
    [{ kind := .uncertainOn, u := s.pu.u, v0 := wNat (suspected s.fq).tagged, v1 := 0, v2 := 0 }]
  else []

/-- Every open record marked UNVERIFIED (R162). -/
def unverified (t : RecordStore) : RecordStore :=
  { t with headers := t.headers.map (fun h => h.map (fun r =>
      if r.totals = none then { r with statuses := { r.statuses with unverified := true } } else r)) }

/-- A length or an offset as the stretch estimate makes it, half up (R13, R30). -/
def stretchBy (x : Nat) (e : Int) : Int := (2 * ((x : Int) * (1000000 + e)) + 1000000) / 2000000

/-- The tracking states under which positions are doubtful (R62). -/
def Doubtful (t : TrackState) : Prop := t = .coasting ∨ t = .lost ∨ t = .relocking

/-- No station of an entry at p is due at the web position u (R98). -/
def Ahead (m : MachineTable) (u p : Int) : Prop := u - m.dKn < p ∧ u - m.dSt < p ∧ u - m.dFl < p ∧ u - m.dNip < p

/-- An entry of this number, at this place and with these fields but for its served mark, stands in the Settled list with no
station taken. -/
def Stands (f : Feature) (p : Int) (s : State) : Prop :=
  ∃ e ∈ s.fq.settled, e.feat = { f with served := e.feat.served } ∧ e.p = p ∧ e.knife = false ∧ e.table = false ∧ e.flag = false ∧
    e.nip = false

/-- The part can queue an order and its frame waits to be sent (R175, R179, R184). -/
def OrdersGo (s : State) : Prop := s.canQueue = true ∧ s.ll.count .order < 64 ∧ linked s = true

/-- An order with this body is among the own frames. -/
def Ordered (dst : Nat) (body : OwnBody) (s : State) : Prop := ∃ f ∈ s.ll.own, f.cls = .order ∧ f.dst = dst ∧ f.body = body

/-- Where an order for the drive goes: to the DRIVE station, or to 63 without a peer table (R176; notes/assumptions/13.md). -/
def driveOf (s : State) : Nat := match s.peers with | some t => t.drive | none => 63

/-- Every station of the entry has been taken or is not due at the web position (R98). -/
def NoneDue (m : MachineTable) (u : Int) (e : Settled) : Prop :=
  (e.knife = true ∨ u - m.dKn < e.p) ∧ (e.table = true ∨ u - m.dSt < e.p) ∧ (e.flag = true ∨ u - m.dFl < e.p) ∧
    (e.nip = true ∨ u - m.dNip < e.p)

/-- The entry stands in the Settled list as it was, but for its served mark. -/
def StandsAs (e : Settled) (s : State) : Prop := ∃ x ∈ s.fq.settled, x = { e with feat := { e.feat with served := x.feat.served } }

/-- Field n is the first of a request's fields that fails (R180). -/
def FirstFails (passes : Nat → Prop) (n : Nat) : Prop := ¬ passes n ∧ ∀ i, i < n → passes i

/-- The value of the i-th of a request's words, counted from 0. -/
def wordAt (ws : List Word) (i : Nat) : Nat := ((ws[i]?).getD 0).toNat

/-- A notice can join the end of the queue and waits there, since another is in flight (R187). -/
def NoticesWait (s : State) : Prop := s.canQueue = true ∧ s.nq.inFlight ≠ none ∧ s.nq.waiting.length ≤ 24

end Sys2Proof.Claims

section Statements

open Sys2Proof Sys2Proof.Machine Sys2Proof.Claims

/-! ## The step -/

/-- A step takes the command at the front of the queue and runs it on the state with the queue's rest. On an empty queue
the part idles: the model's choice (notes/assumptions/4.md). -/
def Obligations.StepRunsTheFrontCommand : Prop :=
  (∀ (c : Instr) (rest : List Instr) (s : State), s.pending = c :: rest → step s = exec c { s with pending := rest }) ∧
    ∀ s : State, s.pending = [] → step s = .next s

/-- Every command of every state answers a next state, and leaves the queue of commands alone. -/
def Obligations.EveryCommandCompletes : Prop :=
  ∀ (c : Instr) (s : State), ∃ t, exec c s = .next t ∧ t.pending = s.pending

/-! ## Power-on and RESET -/

namespace Sys2Proof.Claims

/-- The values of power-on in every block (R9, R22, R42, R67, R77, R97, R106, R139, R156, R173, R190), with empty tables. -/
structure AtPowerOn (straps : BitVec 6) (t : State) : Prop where
  tables : t.machine = none ∧ t.peers = none ∧ t.lpt.active = none ∧ t.lpt.pending = none
  position : t.pu = { enc := .noBase, cPrev := 0, tPrev := 0, u := 0, acc := 0, hist := [], v := 0, dir := .standstill
                      silence := none }
  tracker : t.mt = { state := .seeking, last := none, lastReal := false, miss := 0, e := 0, rExp := 0 }
  map : t.ms = { current := none, next := none, slots := List.replicate 16 none, lru := List.replicate 8 false
                 outstanding := [], frontier := none, paused := false, run := false }
  queue : t.fq = { forecast := [], settled := [], hCam := none, flags := List.replicate 24 none }
  knives : t.knives = List.replicate 25 { state := .idle, target := none, reported := none, reportedParked := false, retries := 0
                                          timer := none, cause := .none }
  stop : t.ss.state = .idle ∧ t.ss.kind = none ∧ t.ss.aim = none ∧ t.ss.seenOutside = false ∧ t.ss.uT = none ∧ t.ss.pW = none ∧
    t.ss.late = false ∧ t.ss.overshoot = 0 ∧ t.ss.jogs = 0 ∧ t.ss.haltError = none ∧ t.ss.cutHeld = false ∧ t.ss.dS = none
  sets : t.sc.state = .noSet ∧ t.sc.num = 1 ∧ t.sc.mode = none ∧ t.sc.pStart = none ∧ t.sc.kBase = none ∧ t.sc.x = 0 ∧
    t.sc.xFrozen = false ∧ t.sc.kCut = none ∧ t.sc.cutMark = none ∧ t.sc.frozenCut = none ∧ t.sc.removed = List.replicate 24 0 ∧
    t.sc.held = []
  records : t.rs = { headers := List.replicate 96 none, sendList := [], held := false, inFlight := none }
  notices : t.nq = { waiting := [], inFlight := none, dropped := false }
  link : t.ll.straps = straps ∧ t.ll.own = [] ∧ t.ll.seq = 0 ∧ t.ll.capture = none ∧ t.ll.refusals = 0 ∧
    t.ll.ordersDropped = 0 ∧ t.ll.resetting = false
  ports : ∀ p, (t.ll.port p).passing = [] ∧ (t.ll.port p).drops = 0

end Sys2Proof.Claims

/-- POWER_ON reads the straps and gives every block its power-on values. The links stand (notes/assumptions/2.md), and the
queue of commands with the order drawn for R105, which are the model's own. -/
def Obligations.PowerOnSetsEveryBlock : Prop :=
  ∀ (straps : BitVec 6) (s : State), ∃ t, exec (.powerOn straps) s = .next t ∧ AtPowerOn straps t ∧
    (∀ p, (t.ll.port p).tx = none ∧ (t.ll.port p).link = (s.ll.port p).link) ∧ t.pending = s.pending ∧ t.lookFirst = s.lookFirst

/-- RESET_TAKES_EFFECT gives every block its power-on values once a RESET has been taken (R184). That a passing frame in
transmission goes on is read from R179 (notes/assumptions/43.md), that the links stand (notes/assumptions/2.md) and that
nothing happens without a RESET taken (notes/assumptions/6.md) are the model's choices. -/
def Obligations.ResetTakesEffect : Prop :=
  ∀ (straps : BitVec 6) (s : State),
    (s.ll.resetting = true → ∃ t, exec (.resetTakesEffect straps) s = .next t ∧ AtPowerOn straps t ∧
      (∀ p, (t.ll.port p).tx = (s.ll.port p).tx ∧ (t.ll.port p).link = (s.ll.port p).link) ∧ t.pending = s.pending ∧
      t.lookFirst = s.lookFirst) ∧
    (s.ll.resetting = false → exec (.resetTakesEffect straps) s = .next (endEvent s))

/-- RESET without fields discards every own frame waiting at a port, queues its reply alone, and from then on the part waits for
the reset to take effect; the blocks keep their state (R184). That what waits goes as the request is taken, before its reply
has gone out, is read from R184 (notes/assumptions/11.md). While the part waits no timer expires, and no own frame and no
notice is queued (R184). -/
def Obligations.ResetQueuesItsReplyAlone : Prop :=
  (∀ s : State, s.ll.resetting = true → exec .silenceTimerExpiry s = .next s ∧
    (∀ j, exec (.confirmTimerExpiry j) s = .next s) ∧ (∀ k v0 v1 v2, queueNotice k v0 v1 v2 s = s) ∧
    ∀ c dst tag body, queueOwn c dst tag body s = s) ∧
  ∀ (rx : Rx) (s : State), Asked s rx →
    ∃ t, exec (.reset rx []) s = .next t ∧ t.ll.resetting = true ∧
      t.ll.own = ((s.ll.own.map (fun f => { f with a := if f.a = .waiting then .gone else f.a
                                                   b := if f.b = .waiting then .gone else f.b })).filter
          (fun f => !(f.a == .gone && f.b == .gone))) ++
        (if linked s then [replyTo rx 9 .accepted 0 .empty s] else []) ∧
      t.ll.capture = s.ll.capture ∧ t.ll.refusals = s.ll.refusals ∧ t.ll.straps = s.ll.straps ∧
      { t with ll := s.ll } = s

/-! ## Laws of the blocks -/

/-- The laws of every block hold right after reset. -/
def Obligations.LawsHoldAtReset : Prop :=
  State.reset.pu.lawful State.reset.machine ∧ State.reset.mt.lawful ∧ State.reset.fq.lawful ∧ State.reset.ms.lawful ∧
    State.reset.nq.lawful ∧ State.reset.ll.ownLawful ∧ State.reset.ll.portsLawful ∧ State.reset.rs.lawful ∧
    State.reset.sc.lawful ∧ State.reset.lpt.lawful

/-- Every step keeps the Position Unit's ranges: U, v, at most eight intervals, and acc in 0..PPM-1 under the machine table then
loaded (1.1, R3, R6, R8, R181). -/
def Obligations.StepsKeepPositionRanges : Prop :=
  ∀ s t : State, s.pu.lawful s.machine → step s = .next t → t.pu.lawful t.machine

/-- Every step keeps the Mark Tracker's ranges: E in -20,000..20,000, the miss count at most 3 and below 3 in COASTING (R13, R15). -/
def Obligations.StepsKeepTrackerRanges : Prop := ∀ s t : State, s.mt.lawful → step s = .next t → t.mt.lawful

/-- Every step keeps the Feature Queue's laws: each entry in a slot of its own among the 1,024, Settled entries in order of
position, Forecast entries in order of mark and offset (R43, R45). -/
def Obligations.StepsKeepQueueInOrder : Prop := ∀ s t : State, s.fq.lawful → step s = .next t → t.fq.lawful

/-- Every step keeps the Map Store's law: a block lies in its own set, in one way at most, and is not both VALID and outstanding;
at most seven requests are outstanding (R32). -/
def Obligations.StepsKeepMapStoreLaw : Prop := ∀ s t : State, s.ms.lawful → step s = .next t → t.ms.lawful

/-- Every step keeps the capacities of 10.3 and 10.6: 32 notices waiting, each class of own frames within its number, eight
passing frames at a port, and a refusal count of at most 65,535 (R178, R179, R188). -/
def Obligations.StepsKeepCapacities : Prop :=
  ∀ s t : State, step s = .next t →
    (s.nq.lawful → t.nq.lawful) ∧ (s.ll.ownLawful → t.ll.ownLawful) ∧ (s.ll.portsLawful → t.ll.portsLawful)

/-- Every step keeps each record within its quota and the 96 headers in place (R160, R166). -/
def Obligations.StepsKeepRecordQuotas : Prop := ∀ s t : State, s.rs.lawful → step s = .next t → t.rs.lawful

/-- Every step keeps the set number in 1..65,535 and a removal sum for each lane (R141, R147). -/
def Obligations.StepsKeepSetNumber : Prop := ∀ s t : State, s.sc.lawful → step s = .next t → t.sc.lawful

/-- Every step keeps both banks lawful: adjacent knives at least 150 dmm apart, and quotas of at most 1,024 in all (R69). -/
def Obligations.StepsKeepBanksLawful : Prop := ∀ s t : State, s.lpt.lawful → step s = .next t → t.lpt.lawful

/-! ## The Line Link Interface -/

namespace Sys2Proof.Claims

/-- Where a frame forwarded to a port leaves it (R174, R179): discarded without link, counted as a drop when eight wait already,
and last in the port's waiting list otherwise. -/
def withPassing (f : Frame) (q : PortState) : PortState :=
  if q.link = false then q
  else if q.passing.length < 8 then { q with passing := q.passing ++ [f] }
  else { q with drops := q.drops + 1 }

/-- The state with a frame forwarded to a port; nothing else changes. -/
def forwarded (p : Port) (f : Frame) (s : State) : State :=
  match p with
  | .a => { s with ll := { s.ll with portA := withPassing f s.ll.portA } }
  | .b => { s with ll := { s.ll with portB := withPassing f s.ll.portB } }

/-- A frame that only passes the part (R174, R175): of another Ethertype, addressed to another station, or any Welzuna frame while
the part has no station number. -/
def Passes (s : State) : Frame → Prop
  | .foreign _ _ => True
  | .line f => ∀ own, s.station = some own → f.src.toNat ≠ own ∧ f.dst.toNat ≠ own ∧ f.dst.toNat ≠ 63

/-- The refusal of a taken frame (R178): it replaces the capture whole, and the count rises by one and stops at 65,535. -/
def refused (src kind : Byte) (reason : RefusalReason) (s : State) : State :=
  { s with ll := { s.ll with capture := some { src := src, kind := kind, reason := reason }
                             refusals := if s.ll.refusals < 65535 then s.ll.refusals + 1 else 65535 } }

/-- The state in which a Welzuna frame is judged, once a broadcast has been sent on (R174). -/
def broadcastOn (p : Port) (f : LineFrame) (s : State) : State :=
  if f.dst.toNat = 63 then forwarded p.other (.line f) s else s

/-- The body length that a kind of fixed length calls for (10.4). -/
def fixedLength (kind : Byte) : Option Nat :=
  if kind = 0x10 then some 8 else if kind = 0x11 then some 4 else if kind = 0x12 then some 12
  else if kind = 0x13 then some 5 else if kind = 0x22 then some 1 else none

/-- The header of a Welzuna frame. -/
def headerOf (p : Port) (f : LineFrame) : Rx := { port := p, dst := f.dst, src := f.src, tag := f.tag }

/-- What the arbiter of a port does to an own frame that it has been sending (R179). -/
def sentAt (p : Port) (f : OwnFrame) : OwnFrame := if f.stage p = .sending then f.setStage p .gone else f

/-- The state with other own frames and one port changed; nothing else changes. -/
def withPort (p : Port) (own : List OwnFrame) (q : PortState) (s : State) : State :=
  match p with
  | .a => { s with ll := { s.ll with own := own, portA := q } }
  | .b => { s with ll := { s.ll with own := own, portB := q } }

/-- Frames that have not gone out on both ports. -/
def notOut (l : List OwnFrame) : List OwnFrame := l.filter (fun f => !(f.a == .gone && f.b == .gone))

/-- Of the own frames waiting at a port, the one that the arbiter serves next stands between `pre` and `post` (R179): no class
that goes before its own waits, and within its class none queued before it. -/
def ServedNext (p : Port) (pre : List OwnFrame) (f : OwnFrame) (post : List OwnFrame) : Prop :=
  f.stage p = .waiting ∧ (∀ g ∈ pre, g.stage p = .waiting → f.cls.rank < g.cls.rank) ∧
    ∀ g ∈ post, g.stage p = .waiting → f.cls.rank ≤ g.cls.rank

end Sys2Proof.Claims

/-- A frame that only passes is forwarded to the other port, whole and unchanged, and no block sees it (R174, R175, R179).
That the link of the port it arrives on is not asked is the model's choice (notes/assumptions/54.md). -/
def Obligations.PassingFrameIsForwarded : Prop :=
  ∀ (p : Port) (f : Frame) (s : State), Passes s f →
    exec (.passingFrame p f) s = .next (endEvent (forwarded p.other f s))

/-- A Welzuna frame that the part may not take is refused or discarded: one of its own station number with OWN_SOURCE; a taken
one of an unknown kind with KIND, shorter than its header states or of another length than its kind's, a map block's by its
entry count, with LENGTH, from another station than its role's with PEER; a record flow frame whose byte is neither 0 nor 1 with
RANGE (R170); and while no peer table is loaded, a frame of a known kind and length that is no request is discarded without a
refusal (R174, R177, R178). While a RESET waits to take effect, a frame addressed to the part is discarded without a refusal, and a
broadcast is sent on and not taken (R184). That a request which ends early is refused with LENGTH (notes/assumptions/14.md) and that
OWN_SOURCE stands also while a RESET waits (notes/assumptions/43.md) are readings of the rules; that the link of the arrival port is
not asked is the model's choice (notes/assumptions/54.md). -/
def Obligations.UnfitFrameIsRefused : Prop :=
  ∀ (p : Port) (f : LineFrame) (s : State),
    (s.station = some f.src.toNat → exec (.passingFrame p (.line f)) s = .next (endEvent (refused f.src f.kind .ownSource s))) ∧
    (∀ own, s.station = some own → s.ll.resetting = true → f.src.toNat ≠ own → f.dst.toNat = own ∨ f.dst.toNat = 63 →
      exec (.passingFrame p (.line f)) s = .next (broadcastOn p f s)) ∧
    (Addressed s (headerOf p f) →
      (f.kind ∉ [0x10, 0x11, 0x12, 0x13, 0x14, 0x20, 0x21, 0x22] →
        exec (.passingFrame p (.line f)) s = .next (endEvent (refused f.src f.kind .kind (broadcastOn p f s)))) ∧
      (f.kind ∈ [0x10, 0x11, 0x12, 0x13, 0x14, 0x20, 0x21, 0x22] → f.rest.length < f.len.toNat →
        exec (.passingFrame p (.line f)) s = .next (endEvent (refused f.src f.kind .length (broadcastOn p f s)))) ∧
      (∀ n, fixedLength f.kind = some n → f.len.toNat ≠ n →
        exec (.passingFrame p (.line f)) s = .next (endEvent (refused f.src f.kind .length (broadcastOn p f s)))) ∧
      (f.kind = 0x14 → (f.len.toNat < 10 ∨ ∃ c, f.rest[9]? = some c ∧ f.len.toNat ≠ 10 + 14 * c.toNat) →
        exec (.passingFrame p (.line f)) s = .next (endEvent (refused f.src f.kind .length (broadcastOn p f s)))) ∧
      (∀ c, judgeFrame f = .ok c → ∀ t, s.peers = some t → f.src.toNat ≠ c.role t →
        exec (.passingFrame p (.line f)) s = .next (endEvent (refused f.src f.kind .peer (broadcastOn p f s)))) ∧
      (∀ (b : Byte) t, f.kind = 0x22 → f.len.toNat = 1 → f.rest[0]? = some b → 1 < b.toNat → s.peers = some t →
        f.src.toNat = t.recordReceiver →
        exec (.passingFrame p (.line f)) s = .next (endEvent (refused f.src f.kind .range (broadcastOn p f s)))) ∧
      (∀ c, judgeFrame f = .ok c → s.peers = none → f.kind ≠ 0x20 → f.kind ≠ 0x21 →
        exec (.passingFrame p (.line f)) s = .next (endEvent (broadcastOn p f s))))

namespace Sys2Proof.Claims

/-- The frame that a command stands for, as header and content; none for the commands that are no frames of 10.4. -/
def contentOf : Instr → Option (Rx × Payload)
  | .countFrame rx c t => some (rx, .count c t)
  | .markFrame rx cx => some (rx, .mark cx)
  | .sightingFrame rx cDet kind cls len x0 x1 => some (rx, .sighting cDet kind cls len x0 x1)
  | .knifeReport rx knife outcome position parked => some (rx, .knife knife outcome position parked)
  | .mapBlock rx roll block flags count items => some (rx, .block roll block flags count items)
  | .recordHold rx => some (rx, .flow 0)
  | .recordRelease rx => some (rx, .flow 1)
  | .readStatus rx body => some (rx, .request false (some 1) body)
  | .readTable rx body => some (rx, .request false (some 2) body)
  | .loadMachine rx body => some (rx, .request false (some 3) body)
  | .loadPeers rx body => some (rx, .request false (some 4) body)
  | .loadBankActive rx body => some (rx, .request false (some 5) ([0, 0, 0, 0] ++ body))
  | .loadBankPending rx body => some (rx, .request false (some 5) ([0, 0, 0, 1] ++ body))
  | .cancelPending rx body => some (rx, .request false (some 6) body)
  | .loadRollHeader rx body => some (rx, .request false (some 7) body)
  | .setLateralOffset rx body => some (rx, .request false (some 8) body)
  | .reset rx body => some (rx, .request false (some 9) body)
  | .unknownRequest rx line code body => some (rx, .request line (some code) body)
  | .rollStart rx body => some (rx, .request true (some 1) body)
  | .rollEnd rx body => some (rx, .request true (some 2) body)
  | .markResync rx body => some (rx, .request true (some 3) body)
  | .doffNow rx body => some (rx, .request true (some 4) body)
  | .doffComplete rx body => some (rx, .request true (some 5) body)
  | .removalReport rx body => some (rx, .request true (some 6) body)
  | .resume rx body => some (rx, .request true (some 7) body)
  | .knifeRetry rx body => some (rx, .request true (some 8) body)
  | .powerOn _ | .portLinkChange _ _ | .passingFrame _ _ | .portIdle _ | .silenceTimerExpiry | .confirmTimerExpiry _
  | .reelRecordSent | .noticeSent | .resetTakesEffect _ => none

end Sys2Proof.Claims

/-- Every well-formed command that is a frame of 10.4 is what its bytes are: run from those bytes, as any frame arriving on the port,
it answers the same in every state. Each operand goes into the bytes big-endian and comes back (10.4, R174, R177). That the row
PASSING_FRAME, given bytes that the part takes, is that frame is the model's choice (notes/assumptions/16.md). -/
def Obligations.CommandIsItsFrameBytes : Prop :=
  ∀ (c : Instr) (rx : Rx) (p : Payload), c.wf = true → contentOf c = some (rx, p) →
    ∀ s : State, exec c s = exec (.passingFrame rx.port (.line (frameOf rx p))) s

/-- PORT_IDLE: what the port was sending has gone out on it, and it begins its next frame: of the own frames waiting the first
of the best class, and only when none waits the passing frame that came first (R179). A port without link begins
none. That the one command both ends the port's frame and begins the next (notes/assumptions/8.md), and that the owner of a
frame that has gone out learns of it by a command of its own and not here (notes/assumptions/6.md), are the model's
choices. -/
def Obligations.PortIdleServesByClass : Prop :=
  ∀ (p : Port) (s : State),
    (∀ pre f post, (s.ll.port p).link = true → s.ll.own = pre ++ f :: post → ServedNext p pre f post →
      exec (.portIdle p) s = .next (endEvent (withPort p
        (notOut (pre.map (sentAt p)) ++ f.setStage p .sending :: notOut (post.map (sentAt p))) { s.ll.port p with tx := none } s))) ∧
    ((∀ f ∈ s.ll.own, f.stage p ≠ .waiting) → (s.ll.port p).link = true →
      exec (.portIdle p) s = .next (endEvent (withPort p (notOut (s.ll.own.map (sentAt p)))
        { s.ll.port p with tx := (s.ll.port p).passing.head?, passing := (s.ll.port p).passing.tail } s))) ∧
    ((s.ll.port p).link = false →
      exec (.portIdle p) s =
        .next (endEvent (withPort p (notOut (s.ll.own.map (sentAt p))) { s.ll.port p with tx := none } s)))

/-- PORT_LINK_CHANGE. A link that stands changes nothing, and one gained only the port's link. With the link lost, every own frame
counts as gone out on the port and its passing frames are discarded; where neither the notice nor the reel record in flight
goes out by it, nothing else changes, and where one does, the position, the tables and the other port still stand (R179). That this
takes in an own frame whose sending has begun and the passing frame in transmission is the model's choice
(notes/assumptions/49.md). -/
def Obligations.LinkChangeMovesThePort : Prop :=
  ∀ (p : Port) (s : State),
    (∀ up, (s.ll.port p).link = up → exec (.portLinkChange p up) s = .next (endEvent s)) ∧
    ((s.ll.port p).link = false →
      exec (.portLinkChange p true) s = .next (endEvent (withPort p s.ll.own { s.ll.port p with link := true } s))) ∧
    ((s.ll.port p).link = true →
      (∃ t, exec (.portLinkChange p false) s = .next t ∧
        t.ll.port p = { link := false, passing := [], tx := none, drops := (s.ll.port p).drops } ∧
        t.ll.port p.other = s.ll.port p.other ∧ (∀ f ∈ t.ll.own, f.stage p = .gone) ∧ SameTables s t ∧ t.pu = s.pu ∧
        t.mt = s.mt ∧ t.knives = s.knives ∧ t.ll.capture = s.ll.capture ∧ t.ll.refusals = s.ll.refusals) ∧
      ((∀ f ∈ s.ll.own, f.cls = .notice ∨ f.cls = .record → (f.setStage p .gone).out = false) →
        exec (.portLinkChange p false) s = .next (endEvent (withPort p (notOut (s.ll.own.map (fun f => f.setStage p .gone)))
          { link := false, passing := [], tx := none, drops := (s.ll.port p).drops } s))))

/-- An own frame is queued under the next sequence number, a reply under the tag of its request, and joins the waiting list of both
ports at once; a port without link counts it as gone out. A class that is full drops it, and the drop of an order is counted.
Without a station number, and while a RESET waits to take effect, no own frame is queued (R175, R179, R184). That the frame
carries the number as it stands before it rises is read from R179 and R190 (notes/assumptions/12.md). -/
def Obligations.OwnFrameJoinsItsClass : Prop :=
  ∀ (c : OwnClass) (dst : Nat) (tag : Option Half) (body : OwnBody) (s : State),
    (s.station.isSome = true → s.ll.resetting = false →
      (s.ll.count c < c.capacity → linked s = true →
        queueOwn c dst tag body s =
          { s with ll := { s.ll with own := s.ll.own ++ [queued c dst (tag.getD s.ll.seq) body s], seq := s.ll.seq + 1 } }) ∧
      (s.ll.count c < c.capacity → linked s = false →
        queueOwn c dst tag body s = { s with ll := { s.ll with seq := s.ll.seq + 1 } }) ∧
      (c.capacity ≤ s.ll.count c →
        queueOwn c dst tag body s =
          if c = .order then { s with ll := { s.ll with ordersDropped := s.ll.ordersDropped + 1 } } else s)) ∧
    (s.station = none ∨ s.ll.resetting = true → queueOwn c dst tag body s = s)

/-! ## The Notice Queue -/

/-- The end of an event passes, while no notice is in flight, the oldest notice of the highest priority present: it leaves the queue,
is in flight, carries the dropped mark, which is then cleared, and is queued to the LINE_CONTROLLER, or to 63 without a peer
table (R176, R187, R189). That its tag is the sequence number before it rises (notes/assumptions/12.md), and that it is passed
only when no notice frame is left on a port (notes/assumptions/44.md), are readings of the rules. -/
def Obligations.EventEndPassesTheHeadNotice : Prop :=
  ∀ (s : State) (pre : List Notice) (n : Notice) (post : List Notice), s.nq.waiting = pre ++ n :: post →
    (∀ x ∈ pre, n.kind.priority < x.kind.priority) → (∀ x ∈ post, n.kind.priority ≤ x.kind.priority) →
    s.nq.inFlight = none → s.station.isSome = true → s.ll.resetting = false → ownOf .notice s = [] → linked s = true →
    endEvent s = { s with
      nq := { waiting := pre ++ post, inFlight := some n, dropped := false }
      ll := { s.ll with
        own := s.ll.own ++ [queued .notice (match s.peers with | some t => t.lineController | none => 63) s.ll.seq
          (.notice n s.nq.dropped) s]
        seq := s.ll.seq + 1 } }

/-- A notice that arrives while the queue holds 32. If the lowest priority present is below its own, the newest notice of that priority
is removed and dropped and it joins at the end; otherwise it is dropped. In either case the dropped mark is set, the next notice
passed carries the mark, which is then cleared, and one word of the status body shows the mark (R188). -/
def Obligations.FullNoticeQueueDisplaces : Prop :=
  ∀ (k : NoticeKind) (v0 v1 v2 : Word) (s : State), s.canQueue = true → s.nq.waiting.length = 32 →
    (∀ pre x post, s.nq.waiting = pre ++ x :: post → (∀ y ∈ s.nq.waiting, y.kind.priority ≤ x.kind.priority) →
      (∀ y ∈ post, y.kind.priority < x.kind.priority) → k.priority < x.kind.priority →
      queueNotice k v0 v1 v2 s = { s with nq := { s.nq with
        waiting := pre ++ post ++ [{ kind := k, u := s.pu.u, v0 := v0, v1 := v1, v2 := v2 }], dropped := true } }) ∧
    ((∀ y ∈ s.nq.waiting, y.kind.priority ≤ k.priority) →
      queueNotice k v0 v1 v2 s = { s with nq := { s.nq with dropped := true } }) ∧
    (∀ n : Notice, (passNotice n (queueNotice k v0 v1 v2 s)).nq.dropped = false ∧
      (linked s = true → ownOf .notice s = [] → ∃ f ∈ (passNotice n (queueNotice k v0 v1 v2 s)).ll.own, f.body = .notice n true)) ∧
    ∃ i : Nat, ∀ t : State, (statusWords t)[i]? = some (wBool t.nq.dropped)

/-- NOTICE_SENT: the notice in flight has gone out on both ports and becomes none; the next is passed as the event ends (R189). That
what is left of the frame is taken off both ports (notes/assumptions/6.md), and that the report has this effect also while a RESET
waits to take effect (notes/assumptions/52.md), are the model's choices. -/
def Obligations.SentNoticeIsGone : Prop :=
  ∀ (n : Notice) (s : State), s.nq.inFlight = some n → s.ll.voidNotice = false →
    exec .noticeSent s = .next (endEvent { s with
      nq := { s.nq with inFlight := none }, ll := { s.ll with own := s.ll.own.filter (fun f => f.cls != .notice) } })

/-! ## Web position -/

/-- COUNT_FRAME in NO_BASE sets the baseline: C_prev, T_prev, TRACKING and the silence timer, and nothing else. While no machine
table is loaded the frame is discarded, without a refusal (R1). -/
def Obligations.CountFrameSetsBaseline : Prop :=
  ∀ (rx : Rx) (c t : Word) (s : State), From (·.drive) s rx →
    (∀ m, s.machine = some m → s.pu.enc = .noBase →
      exec (.countFrame rx c t) s = .next (endEvent { passedOn rx (.count c t) s with
        pu := { s.pu with cPrev := c, tPrev := t, enc := .tracking, silence := some m.sEnc } })) ∧
    (s.machine = none → exec (.countFrame rx c t) s = .next (endEvent (passedOn rx (.count c t) s)))

namespace Sys2Proof.Claims

/-- The intervals held once one more has joined (R6). -/
def eightWith (i : Interval) (l : List Interval) : List Interval := (if 8 ≤ l.length then l.drop 1 else l) ++ [i]

/-- Their advances and their times, summed (R6). -/
def sumAdvance (l : List Interval) : Int := (l.map (·.adv)).sum
def sumTime (l : List Interval) : Nat := (l.map (·.time)).sum

/-- The frame's pulses lie within the jump limit, and the advance keeps U in its range (R2, R3). -/
def Applies (m : MachineTable) (c : Word) (s : State) : Prop :=
  s.pu.enc ≠ .noBase ∧ (pulses c s.pu.cPrev).natAbs ≤ jumpLimit m s.pu.enc ∧
    -2 ^ 31 ≤ s.pu.u + (s.pu.acc + pulses c s.pu.cPrev * 10000) / (m.ppm : Int) ∧
    s.pu.u + (s.pu.acc + pulses c s.pu.cPrev * 10000) / (m.ppm : Int) < 2 ^ 31

end Sys2Proof.Claims

namespace Sys2Proof.Claims

/-- The tracking state and the miss count after n synthesized marks (R15). -/
def missed : Nat → TrackState × Nat → TrackState × Nat
  | 0, t => t
  | n + 1, (.seeking, k) => missed n (.seeking, k)
  | n + 1, (.locked, _) => missed n (.coasting, 1)
  | n + 1, (.coasting, k) => missed n (if k + 1 < 3 then .coasting else .lost, k + 1)
  | n + 1, (.lost, k) => missed n (.lost, k)
  | n + 1, (.relocking, k) => missed n (.lost, k)

/-- The mark that stands last once n marks have been synthesized after mark l, each an expected repeat on (R14). -/
def markAfter (n : Nat) (l : LastMark) (t : MarkTracker) : LastMark := { k := l.k + n, u := l.u + n * t.rExp }

/-- The tracker once n > 0 marks have been synthesized after mark l (R14, R15): E and the expected repeat stand. -/
def synthesized (n : Nat) (l : LastMark) (t : MarkTracker) : MarkTracker :=
  { t with state := (missed n (t.state, t.miss)).1, miss := (missed n (t.state, t.miss)).2, last := some (markAfter n l t)
           lastReal := false }

/-- Of the windows that follow mark l, the position u has passed exactly n (R11, R14). -/
def PassesWindows (m : MachineTable) (t : MarkTracker) (l : LastMark) (u : Int) (n : Nat) : Prop :=
  u ≤ (markAfter (n + 1) l t).u + m.wMk ∧ (0 < n → (markAfter n l t).u + m.wMk < u)

end Sys2Proof.Claims

/-- COUNT_FRAME within the jump limit moves U by the pulses' length and carries the remainder, so that no length is lost: U × PPM +
acc rises by exactly d × 10,000, and acc lies in 0..PPM-1. The interval joins the history, and speed and direction are formed
from it (R1, R2, R3, R6). Where the web has moved forward past acceptance windows, exactly that many marks are synthesized, each
an expected repeat after the one before, the tracking state and the miss count moving with each; in SEEKING, and where U has not
risen, the tracker stands (R14, R15, R19). That the miss count stands at a mark synthesized in LOST and in RELOCKING is read from
R15 (notes/assumptions/28.md). The tables, the ports and the knives stand. -/
def Obligations.CountFrameMovesTheWeb : Prop :=
  ∀ (rx : Rx) (c t : Word) (m : MachineTable) (s : State), From (·.drive) s rx → s.machine = some m → 0 < m.ppm → Applies m c s →
    ∃ x, exec (.countFrame rx c t) s = .next x ∧
      x.pu.u * m.ppm + x.pu.acc = s.pu.u * m.ppm + s.pu.acc + pulses c s.pu.cPrev * 10000 ∧ 0 ≤ x.pu.acc ∧ x.pu.acc < m.ppm ∧
      x.pu.enc = .tracking ∧ x.pu.cPrev = c ∧ x.pu.tPrev = t ∧ x.pu.silence = some m.sEnc ∧
      x.pu.hist = eightWith { adv := x.pu.u - s.pu.u, time := (max 0 (pulses t s.pu.tPrev)).toNat } s.pu.hist ∧
      x.pu.v = (if sumTime x.pu.hist = 0 then s.pu.v
        else min 20000 ((2 * ((sumAdvance x.pu.hist).natAbs * 100000) + sumTime x.pu.hist) / (2 * sumTime x.pu.hist))) ∧
      (x.pu.dir = .forward ↔ 0 < sumAdvance x.pu.hist) ∧ (x.pu.dir = .reverse ↔ sumAdvance x.pu.hist < 0) ∧
      SameTables s x ∧ SameLink (passedOn rx (.count c t) s) x ∧ x.knives = s.knives ∧ x.rs.held = s.rs.held ∧
      ownOf .reply x = ownOf .reply s ∧
      (x.pu.u ≤ s.pu.u ∨ s.mt.state = .seeking ∨ s.mt.last = none → x.mt = s.mt) ∧
      ∀ l, s.mt.last = some l → s.mt.state ≠ .seeking → 0 < s.mt.rExp → s.pu.u < x.pu.u →
        (PassesWindows m s.mt l x.pu.u 0 → x.mt = s.mt) ∧
        ∀ n, 0 < n → PassesWindows m s.mt l x.pu.u n → x.mt = synthesized n l s.mt

/-- COUNT_FRAME beyond the jump limit, or one that would take U out of its range, is a discontinuity: the baseline takes its count
and time, U and acc stand, the history is emptied, tracking is LOST from LOCKED, COASTING and RELOCKING with TRACKING_LOST,
every entry takes SUSPECT, open records take UNVERIFIED, and ENCODER_JUMP is queued with d, or 0 for a jump of the range
(R1 to R4, R16, R63, R189). The map, the knives, the stops, the sets, the tables and the ports stand, and no own frame but a
notice is queued. That the miss count stands in LOST is the model's choice (notes/assumptions/28.md). -/
def Obligations.CountFrameJumpKeepsTheWeb : Prop :=
  ∀ (rx : Rx) (c t : Word) (m : MachineTable) (s : State) (d : Int), From (·.drive) s rx → s.machine = some m → s.pu.enc ≠ .noBase →
    ((jumpLimit m s.pu.enc < (pulses c s.pu.cPrev).natAbs ∧ d = pulses c s.pu.cPrev) ∨
      ((pulses c s.pu.cPrev).natAbs ≤ jumpLimit m s.pu.enc ∧ ¬ Applies m c s ∧ d = 0)) →
    ∃ x, exec (.countFrame rx c t) s = .next x ∧
      x.pu = { s.pu with cPrev := c, tPrev := t, enc := .tracking, silence := some m.sEnc, hist := [] } ∧
      x.mt = (if s.mt.state = .seeking ∨ s.mt.state = .lost then s.mt else { s.mt with state := .lost, miss := 0 }) ∧
      x.fq = suspected s.fq ∧ x.rs = unverified s.rs ∧ SameLine s x ∧ SameTables s x ∧
      SameLink (passedOn rx (.count c t) s) x ∧ (∀ k, k ≠ .notice → ownOf k x = ownOf k s) ∧
      (NoticesWait s → x.nq.waiting = s.nq.waiting ++
        (if s.mt.state = .seeking ∨ s.mt.state = .lost then []
          else [{ kind := .trackingLost, u := s.pu.u, v0 := wOptNat (s.mt.last.map (·.k)), v1 := 0, v2 := 0 }]) ++
        uncertainOn s ++ [{ kind := .encoderJump, u := s.pu.u, v0 := wInt d, v1 := 0, v2 := 0 }])

/-- The position of a latched count does not depend on whether a count frame that is applied comes before it or after it: the
remainder is carried exactly (R7). -/
def Obligations.LatchedPositionIgnoresFrameOrder : Prop :=
  ∀ (rx : Rx) (c t cx : Word) (m : MachineTable) (s x : State) (u v : Int), From (·.drive) s rx → s.machine = some m → 0 < m.ppm →
    m.dMax ≤ 65535 → Applies m c s → exec (.countFrame rx c t) s = .next x → s.latched cx = some u → x.latched cx = some v → v = u

/-- SILENCE_TIMER_EXPIRY: the timer stops. With v = 0 the state stays; with v > 0 the encoder is SILENT, every entry takes SUSPECT
and ENCODER_SILENT is queued with v; U, acc, v and direction stand, and no record is marked (R5). -/
def Obligations.SilenceTimerExpires : Prop :=
  ∀ (n : Nat) (s : State), s.pu.silence = some n → s.ll.resetting = false →
    (s.pu.v = 0 → exec .silenceTimerExpiry s = .next (endEvent { s with pu := { s.pu with silence := none } })) ∧
    (0 < s.pu.v → ∃ x, exec .silenceTimerExpiry s = .next x ∧ x.pu = { s.pu with silence := none, enc := .silent } ∧
      x.fq = suspected s.fq ∧ x.mt = s.mt ∧ x.rs = s.rs ∧ SameLine s x ∧ SameTables s x ∧ SameLink s x ∧
      (NoticesWait s → x.nq.waiting = s.nq.waiting ++ uncertainOn s ++
        [{ kind := .encoderSilent, u := s.pu.u, v0 := wNat s.pu.v, v1 := 0, v2 := 0 }]))

/-! ## Marks -/

namespace Sys2Proof.Claims

/-- The lower end of the acceptance window (R11). -/
def windowFrom (m : MachineTable) (t : MarkTracker) (l : LastMark) : Int :=
  if t.state = .lost then l.u + 1 else max (l.u + t.rExp - m.wMk) (l.u + 1)

/-- The stretch estimate after a real mark at u (R12, R13). -/
def stretchAfter (rNom : Nat) (t : MarkTracker) (l : LastMark) (u : Int) : Int :=
  if t.lastReal = true ∧ (t.state = .locked ∨ t.state = .relocking) then
    let sample := max (-20000) (min 20000 (roundHalfAway ((u - l.u - rNom) * 1000000) rNom))
    max (-20000) (min 20000 (t.e + (sample - t.e).tdiv 8))
  else t.e

/-- The expected repeat of an estimate, half up (R13). -/
def repeatAt (rNom : Nat) (e : Int) : Int := (2 * ((rNom : Int) * (1000000 + e)) + 1000000) / 2000000

/-- Where a Forecast entry settles on a mark counted at u (R30, R49). -/
def settlesAt (u e : Int) (y : Forecast) : Int := u + stretchBy y.off e

/-- At a mark event each Forecast entry anchored on the mark settles with its own fields, its stretched length and offset, and the
tag of a doubtful tracking state; one of which no station is due stands in the Settled list with no station taken. No entry
anchored on the mark is left in the Forecast list (R46, R49, R62). -/
def EntriesSettleOnTheirMark : Prop :=
  ∀ (frame : Bool) (k : Nat) (u : Int) (m : MachineTable) (h : Header) (s : State), s.machine = some m → s.ms.current = some h →
    s.fq.lawful → (∀ f, s.ms.frontier = some f → k < f) →
    (∀ y ∈ s.fq.forecast, y.k = k → Ahead m s.pu.u (settlesAt u s.mt.e y) → ∀ doubt : Bool, (doubt = true ↔ Doubtful s.mt.state) →
      Stands { y.feat with len := (stretchBy y.feat.len s.mt.e).toNat, suspect := y.feat.suspect || doubt } (settlesAt u s.mt.e y)
        (markEvent frame k u s)) ∧
    ∀ y ∈ (markEvent frame k u s).fq.forecast, y.k ≠ k

/-- An entry that joins the Settled list under a free number, with no station due, stands there, and every entry that stood there
with none due and none taken stands on, through its joining and through every look of the Stop Scheduler (R45, R98, R100). -/
def EntriesJoinTheSettledList : Prop :=
  ∀ (frame : Bool) (e : Settled) (m : MachineTable) (s : State), s.machine = some m → s.fq.lawful → e.feat.num ∉ s.fq.nums →
    e.knife = false → e.table = false → e.flag = false → e.nip = false → Ahead m s.pu.u e.p →
    Stands e.feat e.p (joinJudged frame e s) ∧
    ∀ f p, Ahead m s.pu.u p → Stands f p s → Stands f p (joinJudged frame e s) ∧ Stands f p (look s)

/-- A repeat's entry as it is placed directly on its mark (R29, R30, R40, R50). -/
def placedAs (h : Header) (num : Nat) (u e : Int) (doubt : Bool) (x : PressEntry) : Settled :=
  { feat := { num := num, origin := .map, kind := x.kind, len := (stretchBy x.len e).toNat, press := some x.ext, slit := none
              rep := some x.rep, suspect := doubt, served := false }
    p := u + stretchBy (h.anchorOffset x.off x.len) e, items := [], knife := false, table := false, flag := false, nip := false }

/-- A counted mark at or beyond the frontier (R40). Outside the roll nothing happens. With its block VALID and room for its entries,
the block's way is marked used and the entries are placed one after another, each in the lowest free slot, the unmapped run
becoming no. With the block VALID and no room the repeat is spanned BLIND. Without the block it is spanned UNMAPPED, with
UNMAPPED_BEGIN where the run begins, and the last repeat of its block abandons the block's request (R37). In each of the three
the frontier goes past the mark and the requests are checked. Below the frontier nothing happens. -/
def LateMarksAreServed : Prop :=
  ∀ (frame : Bool) (k f : Nat) (u : Int) (doubt : Bool) (m : MachineTable) (h : Header) (s : State), s.ms.current = some h →
    s.ms.frontier = some f → (doubt = true ↔ Doubtful s.mt.state) →
    (k < f ∨ h.pressRepeat k = none → lateHandling frame m h k u s = s) ∧
    ∀ r, f ≤ k → h.pressRepeat k = some r →
      (∀ blk, s.ms.block (r / 32) = some blk → (blk.entriesOf h r).length ≤ s.fq.free →
        lateHandling frame m h k u s = checkRequests ((blk.entriesOf h r).foldl
          (fun t x => joinJudged frame (placedAs h t.fq.freeSlot u t.mt.e doubt x) t)
          { s with ms := { s.ms.use (r / 32) with frontier := some (k + 1), run := false } })) ∧
      (∀ blk, s.ms.block (r / 32) = some blk → s.fq.free < (blk.entriesOf h r).length →
        lateHandling frame m h k u s = checkRequests (handSpan frame m .blind u s.mt.rExp.toNat
          { s with ms := { s.ms with frontier := some (k + 1), run := false } })) ∧
      (s.ms.block (r / 32) = none →
        let t := handSpan frame m .unmapped u s.mt.rExp.toNat { s with ms := { s.ms with frontier := some (k + 1), run := true } }
        let t' := if s.ms.run = true then t else queueNotice .unmappedBegin (wNat r) 0 0 t
        lateHandling frame m h k u s = checkRequests { t' with ms := { t'.ms with
          outstanding := if r = (if h.reversed then 32 * (r / 32) else min (32 * (r / 32) + 31) (h.nT - 1))
            then t'.ms.outstanding.erase (r / 32) else t'.ms.outstanding } })

/-- A span touches another of its kind and can extend it (R52). -/
def TouchesSpan (m : MachineTable) (kind : FeatKind) (p : Int) (len : Nat) (e : Settled) : Prop :=
  e.feat.kind = kind ∧ e.p < p ∧ p ≤ e.p + e.feat.len + m.wMk ∧ e.nip = false ∧
    max (p + len - e.p) (e.feat.len : Int) ≤ 65535

/-- A span handed over extends the last of the spans it touches, which keeps its slot and place; touching none it joins in the
lowest free slot; with no slot free it is lost, every open record taking UNVERIFIED and QUEUE_FULL being queued (R51 to R53,
R62). -/
def SpansExtendJoinOrAreLost : Prop :=
  ∀ (frame : Bool) (kind : FeatKind) (p : Int) (len : Nat) (doubt : Bool) (m : MachineTable) (s : State),
    (doubt = true ↔ Doubtful s.mt.state) → (∀ pre e post, s.fq.settled = pre ++ e :: post → TouchesSpan m kind p len e → (∀ x ∈ post, ¬ TouchesSpan m kind p len x) →
      (handSpan frame m kind p len s).fq = { s.fq with settled := s.fq.settled.map (fun x =>
        if x.feat.num = e.feat.num then { x with feat := { x.feat with
          len := (max (p + len - e.p) (e.feat.len : Int)).toNat, suspect := x.feat.suspect || doubt } } else x) }) ∧
    ((∀ x ∈ s.fq.settled, ¬ TouchesSpan m kind p len x) →
      (0 < s.fq.free → handSpan frame m kind p len s = joinJudged frame
        { feat := { num := s.fq.freeSlot, origin := .span, kind := kind, len := len, press := none, slit := none, rep := none
                    suspect := doubt, served := false }
          p := p, items := [], knife := false, table := false, flag := false, nip := false } s) ∧
      (s.fq.free = 0 → handSpan frame m kind p len s = queueNotice .queueFull (wInt p) 0 0 { s with rs := unverified s.rs }))

/-- Of an entry's stations its nip alone is due (R98). -/
def NipDue (m : MachineTable) (u : Int) (e : Settled) : Prop :=
  e.nip = false ∧ e.p ≤ u - m.dNip ∧ (e.knife = true ∨ u - m.dKn < e.p) ∧ (e.table = true ∨ u - m.dSt < e.p) ∧
    (e.flag = true ∨ u - m.dFl < e.p)

/-- The knife station of an entry, where it alone of the entry's stations is due (R98). -/
def KnifeDue (m : MachineTable) (u : Int) (e : Settled) : Prop :=
  e.knife = false ∧ e.p ≤ u - m.dKn ∧ (e.table = true ∨ u - m.dSt < e.p) ∧ (e.flag = true ∨ u - m.dFl < e.p) ∧
    (e.nip = true ∨ u - m.dNip < e.p)

/-- An entry that joins or settles comes behind those at or below its place and is judged at once (R45, R49, R98 to R100): the look at it,
then one of the Stop Scheduler. With none of its stations due the look takes nothing. -/
def JoinsAreJudgedAtOnce : Prop :=
  ∀ (frame : Bool) (s : State), s.fq.lawful →
    (∀ e : Settled, ∃ pre post, s.fq.settled = pre ++ post ∧ (∀ x ∈ pre, x.p ≤ e.p) ∧ (∀ x ∈ post, e.p < x.p) ∧
      (e.feat.suspect = false → s.ms.paused = false → (∀ m, s.machine = some m → m.pLo ≤ s.fq.free - 1) →
        joinJudged frame e s = look (walkJoined frame e.feat.num { s with fq := { s.fq with settled := pre ++ e :: post } }))) ∧
    (∀ (u : Int) (y : Forecast), s.fq.findForecast y.feat.num = some y → ¬ Doubtful s.mt.state →
      let e : Settled := { feat := { y.feat with len := (stretchBy y.feat.len s.mt.e).toNat }, p := settlesAt u s.mt.e y, items := []
                           knife := false, table := false, flag := false, nip := false }
      ∃ pre post, s.fq.settled = pre ++ post ∧ (∀ x ∈ pre, x.p ≤ e.p) ∧ (∀ x ∈ post, e.p < x.p) ∧
        settleOne frame u s y.feat.num = look (walkJoined frame y.feat.num { s with fq := { s.fq with
          forecast := s.fq.forecast.filter (fun x => x.feat.num != y.feat.num), settled := pre ++ e :: post } })) ∧
    ∀ m, s.machine = some m → ∀ e ∈ s.fq.settled, NoneDue m s.pu.u e → walkJoined frame e.feat.num s = s

/-- The web order of the records where an entry joins with its nip already due (R8, R99, R116): a lower entry whose nip is due goes before
it. A higher one goes after it: at a position event in the event's own walk, behind the entries that join after this one, and
otherwise in the same look. -/
def JoinsKeepTheWebOrder : Prop :=
  ∀ (m : MachineTable) (s : State), s.machine = some m → s.fq.lawful →
    ∀ pre x mid e mid' y post, s.fq.settled = pre ++ x :: mid ++ e :: mid' ++ y :: post → e.p < y.p →
      (∀ z, z = x ∨ z = e ∨ z = y → z.feat.served = false ∧ NipDue m s.pu.u z) →
      (∀ z ∈ pre ++ mid ++ mid' ++ post, NoneDue m s.pu.u z) →
      walkJoined true e.feat.num s = takeNip e (takeNip x s) ∧
      walkJoined false e.feat.num s = takeNip y (takeNip e (takeNip x s))

/-- An entry at the nip, held or come to it, is judged again at each look (R98, R113): as another entry joins with its knife station due,
in the order of R99, and as the served mark of another entry clears, of which no station is due (R112). -/
def HeldEntriesAreJudgedAgain : Prop :=
  ∀ (m : MachineTable) (s : State), s.machine = some m → s.fq.lawful →
    (∀ frame pre y mid e post, s.fq.settled = pre ++ y :: mid ++ e :: post → y.feat.served = false → NipDue m s.pu.u y →
      KnifeDue m s.pu.u e → (∀ z ∈ pre ++ mid ++ post, NoneDue m s.pu.u z) →
      (y.p + m.dNip ≤ e.p + m.dKn → walkJoined frame e.feat.num s = takeKnife e (takeNip y s)) ∧
      (e.p + m.dKn < y.p + m.dNip → walkJoined frame e.feat.num s = takeNip y (takeKnife e s))) ∧
    ∀ e ∈ s.fq.settled, ∀ y ∈ s.fq.settled, e.feat.served = true → e.table = false → NoneDue m s.pu.u e → y.feat.served = false →
      NipDue m s.pu.u y → (∀ z ∈ s.fq.settled, z = y ∨ NoneDue m s.pu.u z) →
      clearServed e.feat.num s = takeNip y { s with fq := { s.fq with settled := s.fq.settled.map (fun z =>
        if z.feat.num = e.feat.num then { z with feat := { z.feat with served := false } } else z) } }

end Sys2Proof.Claims

/-- MARK_FRAME whose position lies in the acceptance window counts a real mark: index k_last + 1 at u, last real, no miss, the estimate
updated when the last mark was real and tracking LOCKED or RELOCKING, the expected repeat with it, and RELOCKING from LOST,
LOCKED from every other state. In SEEKING with the direction FORWARD and no mark counted, the mark is counted as number 0
and the estimate stands (R7, R10 to R13, R15). A mark above the window has the missing marks synthesized first and is then
judged against the window that follows: counted in it, re-anchoring a tracker that is LOST, and discarded below it (R11, R12,
R14). The position, the tables, the ports and the knives stand. What a counted mark hands on, real or synthesized: the Forecast
entries anchored on it settle, and none anchored on it is left; a repeat at or beyond the frontier is placed directly, or
spanned BLIND without room, or UNMAPPED without its block; a span extends the one it touches, joins, or is lost (R17, R30,
R37, R40, R49 to R53, R62). An entry that joins is judged at once, and with its nip already due it goes behind what is due below
it, so that records receive their events in web order (R98, R99, R100, R116). That the miss count stands at a mark synthesized in LOST and in RELOCKING
(notes/assumptions/28.md), that the frontier is past the mark and the run set before the repeat's entries join
(notes/assumptions/27.md), which stations the look at an entry that joins takes (notes/assumptions/55.md), that it
shares the Stop Scheduler's look that follows (notes/assumptions/26.md), and how R116 stands beside it (notes/assumptions/56.md),
are read from the rules. -/
def Obligations.MarkInWindowIsCounted : Prop :=
  (∀ (rx : Rx) (cx : Word) (m : MachineTable) (h : Header) (u : Int) (s : State), From (·.markSensor) s rx → s.machine = some m →
    s.ms.current = some h → s.latched cx = some u →
    (∀ l, s.pu.dir ≠ .reverse → s.mt.state ≠ .seeking → s.mt.last = some l → windowFrom m s.mt l ≤ u →
      u ≤ l.u + s.mt.rExp + m.wMk →
      ∃ x, exec (.markFrame rx cx) s = .next x ∧
        x.mt = { state := if s.mt.state = .lost then .relocking else .locked, last := some { k := l.k + 1, u := u }
                 lastReal := true, miss := 0, e := stretchAfter h.rNom s.mt l u
                 rExp := if stretchAfter h.rNom s.mt l u = s.mt.e then s.mt.rExp
                   else repeatAt h.rNom (stretchAfter h.rNom s.mt l u) } ∧
        x.pu = s.pu ∧ SameTables s x ∧ SameLink (passedOn rx (.mark cx) s) x ∧ x.knives = s.knives) ∧
    (s.pu.dir = .forward → s.mt.state = .seeking → s.mt.last = none →
      ∃ x, exec (.markFrame rx cx) s = .next x ∧
        x.mt = { state := .locked, last := some { k := 0, u := u }, lastReal := true, miss := 0, e := s.mt.e, rExp := s.mt.rExp } ∧
        x.pu = s.pu ∧ SameTables s x ∧ SameLink (passedOn rx (.mark cx) s) x ∧ x.knives = s.knives) ∧
    (∀ l n, 0 < n → s.pu.dir ≠ .reverse → s.mt.state ≠ .seeking → s.mt.last = some l → 0 < s.mt.rExp → PassesWindows m s.mt l u n →
      ∃ x, exec (.markFrame rx cx) s = .next x ∧
        (windowFrom m (synthesized n l s.mt) (markAfter n l s.mt) ≤ u →
          x.mt = { synthesized n l s.mt with
            state := if (missed n (s.mt.state, s.mt.miss)).1 = .lost then .relocking else .locked
            last := some { k := l.k + n + 1, u := u }, lastReal := true, miss := 0 }) ∧
        (u < windowFrom m (synthesized n l s.mt) (markAfter n l s.mt) → x.mt = synthesized n l s.mt) ∧
        x.pu = s.pu ∧ SameTables s x ∧ SameLink (passedOn rx (.mark cx) s) x ∧ x.knives = s.knives)) ∧
  EntriesSettleOnTheirMark ∧ EntriesJoinTheSettledList ∧ LateMarksAreServed ∧ SpansExtendJoinOrAreLost ∧
  JoinsAreJudgedAtOnce ∧ JoinsKeepTheWebOrder

/-- MARK_FRAME that counts nothing: refused with RANGE where its count is farther than 64 jump limits or there is no baseline, and
discarded without a refusal while no roll is current, in REVERSE, in SEEKING unless the direction is FORWARD, and below the
acceptance window (R7, R10, R11). A discard changes no state of the tracker; that the attempt to expand made at the end of
every mark's event is made after a discard too is read from the rules (notes/assumptions/27.md), and where nothing can
expand a discard changes nothing. -/
def Obligations.MarkOutsideWindowIsDropped : Prop :=
  ∀ (rx : Rx) (cx : Word) (s : State), From (·.markSensor) s rx →
    (∀ m, s.machine = some m → s.pu.enc = .noBase ∨ m.dMax * 64 < (pulses cx s.pu.cPrev).natAbs →
      exec (.markFrame rx cx) s = .next (endEvent (refused rx.src 0x11 .range (passedOn rx (.mark cx) s)))) ∧
    (∀ m u, s.machine = some m → s.latched cx = some u → s.ms.current = none →
      exec (.markFrame rx cx) s = .next (endEvent (passedOn rx (.mark cx) s))) ∧
    (∀ m h u, s.machine = some m → s.ms.current = some h → s.latched cx = some u →
      (s.pu.dir = .reverse ∨ (s.mt.state = .seeking ∧ s.pu.dir ≠ .forward) ∨
        ∃ l, s.mt.state ≠ .seeking ∧ s.mt.last = some l ∧ u < windowFrom m s.mt l) →
      exec (.markFrame rx cx) s = .next (endEvent (expand (passedOn rx (.mark cx) s))) ∧
        (s.expandable = none → exec (.markFrame rx cx) s = .next (endEvent (passedOn rx (.mark cx) s))))

/-! ## The roll map -/

/-- An entry of press repeat r, wherever its anchor has a slitter index of 0 or more, is met at exactly the slitter mark whose press
repeat is r: the relation of marks and repeats is the same both ways, in either direction of the roll (R28, R29). -/
def Obligations.AnchorMeetsItsPressRepeat : Prop :=
  ∀ (h : Header) (r : Nat), r < h.nT → 0 ≤ h.slitterIndex (h.anchorMark r) →
    h.pressRepeat (h.slitterIndex (h.anchorMark r)).toNat = some r ∧
      ∀ j : Nat, h.pressRepeat j = some r → (j : Int) = h.slitterIndex (h.anchorMark r)

namespace Sys2Proof.Claims

/-- Every repeat of the block that lies in the roll and has a slitter index of 0 or more has it below the frontier (R34). -/
def WhollyPassed (h : Header) (f b : Nat) : Prop :=
  ∀ r, 32 * b ≤ r → r < 32 * b + 32 → r < h.nT → 0 ≤ h.slitterIndex (h.anchorMark r) → h.slitterIndex (h.anchorMark r) < f

/-- The slot that a block is written into (R35): an INVALID way of its set, way 0 first; else the way of the LRU mark, unless that
one holds the frontier's block. -/
def wayFor (t : MapStore) (b : Nat) : Bool :=
  match t.slot b false, t.slot b true with
  | none, _ => false
  | some _, none => true
  | some x, some y =>
    let lru := (t.lru[b % 8]?).getD false
    match t.frontierRepeat with
    | some r => if (if lru then y.num else x.num) = r / 32 then !lru else lru
    | none => lru

/-- A press map entry that screening drops (R26). -/
def Dropped (h : Header) (b : Nat) (i : MapItem) : Prop :=
  i.rep.toNat / 32 ≠ b ∨ h.nT ≤ i.rep.toNat ∨ h.rNom ≤ i.off.toNat ∨ i.x1.toNat < i.x0.toNat ∨ 30000 < i.x1.toNat ∨
    (i.flags.getLsbD 0 = false ∧ 15 < i.cls.toNat)

/-- A press map entry as screening keeps it, its length clamped to its own repeat (R26). -/
def keptAs (h : Header) (i : MapItem) : PressEntry :=
  { rep := i.rep.toNat, off := i.off.toNat
    len := if h.rNom < i.off.toNat + i.len.toNat then h.rNom - i.off.toNat else i.len.toNat
    ext := { x0 := i.x0.toNat, x1 := i.x1.toNat }, kind := if i.flags.getLsbD 0 then .splice else .defect i.cls.toNat }

/-- A block as screening leaves it (R26, R27): the entries kept, in the block's order, and the counts of the clamped and of the
dropped ones. -/
def Screened (h : Header) (b : Nat) (dense : Bool) (items : List MapItem) (blk : Block) : Prop :=
  ∃ keep : MapItem → Bool, (∀ i, keep i = true ↔ ¬ Dropped h b i) ∧ blk.num = b ∧ blk.dense = dense ∧
    blk.entries = (items.filter keep).map (keptAs h) ∧ blk.dropped = (items.filter (fun i => !keep i)).length ∧
    blk.clamped = ((items.filter keep).filter (fun i => decide (h.rNom < i.off.toNat + i.len.toNat))).length

end Sys2Proof.Claims

namespace Sys2Proof.Claims

/-- The blocks wanted for a frontier at repeat r, the frontier's first and then by distance from it in the running direction, none
outside the roll (R33). -/
def wantedFrom (h : Header) (r p : Nat) : List Nat :=
  (((List.range p).map (fun i : Nat => if h.reversed then (r / 32 : Nat) - (i : Int) else (r / 32 : Nat) + (i : Int))).filter
    (fun b => decide (0 ≤ b ∧ b ≤ (((h.nT - 1) / 32 : Nat) : Int)))).map Int.toNat

/-- Block requests that the Line Link Interface still takes, its list holding seven (R179): none where the part queues no frame, and
as many as are asked for where the frames go out at once on a part without any link. -/
def requestPlaces (s : State) : Nat :=
  if s.canQueue = false then 0 else if linked s then 7 - s.ll.count .blockRequest
  else if s.ll.count .blockRequest < 7 then 7 else 0

/-- Where a block request goes: to the MAP_SERVER station, or to 63 without a peer table (R33, R176; notes/assumptions/13.md). -/
def mapServerOf (s : State) : Nat := match s.peers with | some t => t.mapServer | none => 63

/-- What is outstanding after a check of the requests (R33, R179): of the wanted blocks that are neither VALID nor outstanding as many
as the outstanding list of seven and the link have room for have joined the list, in their order, each with its frame queued
under the next sequence number. At end of map no block is wanted. -/
def RequestsAreChecked : Prop :=
  ∀ (m : MachineTable) (h : Header) (s : State), s.machine = some m → s.ms.current = some h →
    (s.ms.frontier = none ∨ (∃ f, s.ms.frontier = some f ∧ h.pressRepeat f = none) → checkRequests s = s) ∧
    ∀ f r, s.ms.frontier = some f → h.pressRepeat f = some r →
      let missing := (wantedFrom h r m.p).filter (fun b => (s.ms.block b).isNone && !s.ms.outstanding.contains b)
      let asked := missing.take (min (7 - s.ms.outstanding.length) (requestPlaces s))
      checkRequests s = { s with
        ms := { s.ms with outstanding := s.ms.outstanding ++ asked }
        ll := { s.ll with
          own := s.ll.own ++ (if linked s then asked.zipIdx.map (fun x =>
            queued .blockRequest (mapServerOf s) (s.ll.seq + BitVec.ofNat 16 x.2) (.blockRequest h.rollId x.1) s) else [])
          seq := s.ll.seq + BitVec.ofNat 16 asked.length } }

/-- The expansion state once a free count has been reported (R39): PAUSED below P_lo, EXPANDING from P_hi on, and between them as it
was. -/
def pausedAt (m : MachineTable) (paused : Bool) (free : Nat) : Bool :=
  if paused then decide (free < m.pHi) else decide (free < m.pLo)

/-- The free count reported to the Map Store (R39): the state follows the levels, and a change is told with the free count. -/
def paced (m : MachineTable) (s : State) : State :=
  let s1 : State := { s with ms := { s.ms with paused := pausedAt m s.ms.paused s.fq.free } }
  if s1.ms.paused = s.ms.paused then s
  else queueNotice (if s1.ms.paused then .expansionPaused else .expansionResumed) (wNat s.fq.free) 0 0 s1

/-- The pacing of the expansion (R39, R43). A Settled entry that joins takes the free count down by one and an entry that leaves takes
it up by one; from EXPANDING the state is PAUSED below P_lo, from PAUSED it is EXPANDING from P_hi on, the change is told with
the new free count, and no other joining or leaving of an entry without the tag queues a notice. -/
def PacingFollowsTheFreeCount : Prop :=
  ∀ (m : MachineTable) (e : Settled) (s : State), s.machine = some m → e.feat.suspect = false →
    let told := fun free : Nat =>
      if pausedAt m s.ms.paused free = s.ms.paused then ([] : List Notice)
      else [{ kind := if s.ms.paused then .expansionResumed else .expansionPaused, u := s.pu.u, v0 := wNat free, v1 := 0, v2 := 0 }]
    (0 < s.fq.free →
      (joinSettled e s).fq.free = s.fq.free - 1 ∧
      (joinSettled e s).ms = { s.ms with paused := pausedAt m s.ms.paused (s.fq.free - 1) } ∧
      (NoticesWait s → (joinSettled e s).nq.waiting = s.nq.waiting ++ told (s.fq.free - 1))) ∧
    (s.fq.lawful → e ∈ s.fq.settled →
      (leave e.feat.num s).fq.free = s.fq.free + 1 ∧
      (leave e.feat.num s).ms = { s.ms with paused := pausedAt m s.ms.paused (s.fq.free + 1) } ∧
      (NoticesWait s → (leave e.feat.num s).nq.waiting = s.nq.waiting ++ told (s.fq.free + 1)))

/-- The entries of repeat r of a block: its kept entries in the block's order, or of a dense block one DEFECT of class 15 over the whole
repeat and the whole web (R27, R38). -/
def repeatEntries (h : Header) (blk : Block) (r : Nat) : List PressEntry :=
  if blk.dense then [{ rep := r, off := 0, len := h.rNom, ext := { x0 := 0, x1 := h.w }, kind := .defect 15 }]
  else blk.entries.filter (fun e => e.rep == r)

/-- An entry of the frontier's repeat as a Forecast entry (R29, R38, R48): of origin MAP, anchored on mark f, not served, not tagged. -/
def forecastAs (h : Header) (f num : Nat) (x : PressEntry) : Forecast :=
  { feat := { num := num, origin := .map, kind := x.kind, len := x.len, press := some x.ext, slit := none, rep := some x.rep
              suspect := false, served := false }
    k := f, off := h.anchorOffset x.off x.len }

/-- A Forecast entry in its place: behind those of a lower key or the same (R45). -/
def inOrder (e : Forecast) (l : List Forecast) : List Forecast :=
  let before := fun x : Forecast => decide (x.k < e.k ∨ x.k = e.k ∧ x.off ≤ e.off)
  l.takeWhile before ++ e :: l.dropWhile before

/-- The repeat of mark f once it has expanded (R32, R38, R39): its entries have joined the Forecast list one after another, each in the
lowest free slot, its way is marked used, the unmapped run is no, the frontier is one farther, and the free count is reported. -/
def expandedAt (m : MachineTable) (h : Header) (f r : Nat) (entries : List PressEntry) (s : State) : State :=
  paced m { s with
    fq := entries.foldl (fun q x => { q with forecast := inOrder (forecastAs h f q.freeSlot x) q.forecast }) s.fq
    ms := { s.ms with lru := s.ms.lru.set (r / 32 % 8) ((s.ms.slot (r / 32) false).any (fun x => x.num == r / 32))
                      run := false, frontier := some (f + 1) } }

/-- Mark f lies within the lookahead (R38). -/
def WithinLookahead (m : MachineTable) (s : State) (f : Nat) : Prop :=
  match s.mt.last with
  | some l => f ≤ l.k + m.h
  | none => f < m.h

/-- An attempt to expand (R38, R45, R48). While a roll is current, the state is EXPANDING, the frontier lies within the lookahead, and
its repeat lies in the roll, in a VALID block and with room for its entries, the repeat expands, the requests are checked, and
the attempt goes on with the next mark. Where one of these fails the attempt changes nothing. A slot is free and the lowest. -/
def AttemptsExpand : Prop :=
  (∀ s : State, s.machine = none ∨ s.ms.current = none ∨ s.ms.frontier = none → expand s = s) ∧
  (∀ q : FeatureQueue, q.freeSlot ∉ q.nums ∧ (∀ j, j < q.freeSlot → j ∈ q.nums) ∧ (0 < q.free → q.freeSlot < 1024)) ∧
  ∀ (m : MachineTable) (h : Header) (f : Nat) (s : State), s.machine = some m → 1 ≤ m.h → s.ms.current = some h →
    s.ms.frontier = some f →
    (s.ms.paused = true ∨ ¬ WithinLookahead m s f ∨ h.pressRepeat f = none → expand s = s) ∧
    ∀ r, h.pressRepeat f = some r →
      (s.ms.block (r / 32) = none → expand s = s) ∧
      ∀ blk, s.ms.block (r / 32) = some blk →
        (s.fq.free < (repeatEntries h blk r).length → expand s = s) ∧
        (s.ms.paused = false → WithinLookahead m s f → (repeatEntries h blk r).length ≤ s.fq.free →
          expand s = expand (checkRequests (expandedAt m h f r (repeatEntries h blk r) s)))

/-- A block as it has been stored, with its faults told, before the attempt to expand (R26, R35). -/
def storedAs (blk : Block) (s : State) : State :=
  let way := wayFor s.ms blk.num
  let s1 : State := { s with ms := { s.ms with
    slots := s.ms.slots.set (blk.num % 8 * 2 + (if way then 1 else 0)) (some blk), lru := s.ms.lru.set (blk.num % 8) (!way)
    outstanding := s.ms.outstanding.erase blk.num } }
  if blk.clamped = 0 ∧ blk.dropped = 0 then s1 else queueNotice .blockFault (wNat blk.num) (wNat blk.clamped) (wNat blk.dropped) s1

end Sys2Proof.Claims

/-- MAP_BLOCK asked for and not wholly passed is screened and written into a way of its set, VALID, its way marked used, and leaves the
outstanding list (R32, R34, R35). Screening drops what lies outside the block, the roll, its repeat or the ranges, clamps a length to
its repeat, and counts both; BLOCK_FAULT is queued with the counts where one is not 0 (R26, R27). An attempt to expand and a check of
the requests follow (R35): a repeat within the lookahead, its block VALID and with room for its entries, joins the Forecast list,
each entry anchored on the frontier's mark and in the lowest free slot, and so does the next until a condition fails; while
PAUSED none does (R38, R45, R48). The expansion state follows the free count: PAUSED below P_lo, EXPANDING again from P_hi on,
each change with its notice (R39, R43). After a check the wanted blocks that are neither VALID nor outstanding are outstanding, as
far as there is room (R33, R179). That the first of them carries the sequence number as it stands before it rises is read from the
rules (notes/assumptions/12.md). That a request goes to 63 without a peer table is the model's choice (notes/assumptions/13.md).
The position, the tracker, the tables, the Settled list, the sets, stops, records and knives stand. -/
def Obligations.MapBlockIsStored : Prop :=
  (∀ (rx : Rx) (roll block : Word) (flags count : Byte) (items : List MapItem) (h : Header) (s : State), From (·.mapServer) s rx →
    s.ms.lawful → s.ms.current = some h → roll = h.rollId → count.toNat = items.length → items.length ≤ 96 →
    (flags.getLsbD 0 = true → items = []) → ¬ WhollyPassed h (s.ms.frontier.getD 0) block.toNat → block.toNat ∈ s.ms.outstanding →
    ∃ x, exec (.mapBlock rx roll block flags count items) s = .next x ∧
      x.ms.slots = s.ms.slots.set (block.toNat % 8 * 2 + (if wayFor s.ms block.toNat then 1 else 0))
        (some (screenBlock h block.toNat (flags.getLsbD 0) items)) ∧
      Screened h block.toNat (flags.getLsbD 0) items (screenBlock h block.toNat (flags.getLsbD 0) items) ∧
      (∀ blk, Screened h block.toNat (flags.getLsbD 0) items blk → blk.clamped ≠ 0 ∨ blk.dropped ≠ 0 → NoticesWait s →
        ∃ n ∈ x.nq.waiting, n.kind = .blockFault ∧ n.v0 = block ∧ n.v1 = wNat blk.clamped ∧ n.v2 = wNat blk.dropped) ∧
      block.toNat ∉ x.ms.outstanding ∧ SameTables s x ∧ SameLink (passedOn rx (.block roll block flags count items) s) x ∧
      x.pu = s.pu ∧ x.mt = s.mt ∧ x.fq.settled = s.fq.settled ∧ x.fq.hCam = s.fq.hCam ∧ x.knives = s.knives ∧ x.ss = s.ss ∧
      x.sc = s.sc ∧ x.rs = s.rs ∧
      x = endEvent (checkRequests (expand (storedAs (screenBlock h block.toNat (flags.getLsbD 0) items)
        (passedOn rx (.block roll block flags count items) s)))) ∧
      (s.ms.paused = true → x.fq = s.fq ∧ x.ms.frontier = s.ms.frontier ∧ x.ms.paused = true) ∧
      ∀ m, s.machine = some m → s.ms.paused = false → m.pLo ≤ s.fq.free →
        (x.ms.paused = true ↔ x.fq.free < m.pLo) ∧
        (NoticesWait s → x.ms.paused = true →
          ∃ n ∈ x.nq.waiting, n.kind = .expansionPaused ∧ n.v0 = wNat x.fq.free)) ∧
  AttemptsExpand ∧ PacingFollowsTheFreeCount ∧ RequestsAreChecked

/-- MAP_BLOCK that is not stored is refused by the first test that fails: UNSOLICITED without a roll or for another roll, RANGE for
more than 96 entries or a dense block with entries, LATE when wholly passed, UNSOLICITED when it was not asked for; it changes
nothing but the capture and the count (R34, R178). -/
def Obligations.MapBlockRefusalsInOrder : Prop :=
  ∀ (rx : Rx) (roll block : Word) (flags count : Byte) (items : List MapItem) (s : State), From (·.mapServer) s rx →
    count.toNat = items.length →
    let answer := fun reason => exec (.mapBlock rx roll block flags count items) s =
      .next (endEvent (refused rx.src 0x14 reason (passedOn rx (.block roll block flags count items) s)))
    ((s.ms.current = none ∨ ∃ h, s.ms.current = some h ∧ roll ≠ h.rollId) → answer .unsolicited) ∧
    ∀ h, s.ms.current = some h → roll = h.rollId →
      ((96 < items.length ∨ (flags.getLsbD 0 = true ∧ items ≠ [])) → answer .range) ∧
      (items.length ≤ 96 → (flags.getLsbD 0 = true → items = []) →
        (WhollyPassed h (s.ms.frontier.getD 0) block.toNat → answer .late) ∧
        (¬ WhollyPassed h (s.ms.frontier.getD 0) block.toNat → block.toNat ∉ s.ms.outstanding → answer .unsolicited))

namespace Sys2Proof.Claims

/-- The eight fields of LOAD_ROLL_HEADER that spell a header (R23, 10.4). -/
def headerBytes (h : Header) : List Byte :=
  [h.rollId, wNat h.nT, wNat h.rNom, wBool h.reversed, wBool h.mirror, wNat h.w, wNat h.f, wInt h.l].flatMap wordBytes

/-- Field n of LOAD_ROLL_HEADER passes, counted from 1 for the parent roll id (R23). -/
def HeaderFieldPasses (ws : List Word) (n : Nat) : Prop :=
  let v := wordAt ws (n - 1)
  (n = 2 → 1 ≤ v ∧ v ≤ 2000000) ∧ (n = 3 → 500 ≤ v ∧ v ≤ 20000) ∧ (n = 4 ∨ n = 5 → v ≤ 1) ∧ (n = 6 → 1000 ≤ v ∧ v ≤ 30000) ∧
    (n = 7 → v < wordAt ws 1)

/-- L as it is stored: clamped to -2,000..2,000 (R23, R24). -/
def storedLateral (l : Int) : Int := max (-2000) (min 2000 l)

end Sys2Proof.Claims

/-- LOAD_ROLL_HEADER with every field in its range makes the header the next roll's, in every set state, its L clamped to
-2,000..2,000; the current header stands (R23). Eight words of which a field fails are INVALID with the first such field, and a body
that is no eight words INVALID with field 0; both change nothing (R23, R180). -/
def Obligations.RollHeaderIsLoaded : Prop :=
  ∀ (rx : Rx) (s : State), Asked s rx →
    (∀ h : Header, 1 ≤ h.nT → h.nT ≤ 2000000 → 500 ≤ h.rNom → h.rNom ≤ 20000 → 1000 ≤ h.w → h.w ≤ 30000 → h.f < h.nT →
      -2 ^ 31 ≤ h.l → h.l < 2 ^ 31 →
      exec (.loadRollHeader rx (headerBytes h)) s = .next (endEvent (answered rx 7 .accepted 0 .empty
        { passedOn rx (.request false (some 7) (headerBytes h)) s with
          ms := { s.ms with next := some { h with l := storedLateral h.l } } }))) ∧
    (∀ (ws : List Word) (n : Nat), ws.length = 8 → FirstFails (HeaderFieldPasses ws) n →
      exec (.loadRollHeader rx (ws.flatMap wordBytes)) s =
        .next (endEvent (answered rx 7 .invalid n .empty (passedOn rx (.request false (some 7) (ws.flatMap wordBytes)) s)))) ∧
    (∀ body : List Byte, body.length ≠ 32 →
      exec (.loadRollHeader rx body) s =
        .next (endEvent (answered rx 7 .invalid 0 .empty (passedOn rx (.request false (some 7) body) s))))

/-- SET_LATERAL_OFFSET replaces L, clamped, in the current header, or without a current roll in the next roll's; with neither it is
NOT_READY and changes nothing (R24). The Stop Scheduler looks at either change (R121, R122); with no set open and none of its stops
standing the look forms d_s and nothing else. The position, the tracker, the tables and the knives stand. -/
def Obligations.LateralOffsetIsReplaced : Prop :=
  ∀ (rx : Rx) (w : Word) (s : State), Asked s rx →
    let s' := passedOn rx (.request false (some 8) (wordBytes w)) s
    (s.ms.current = none → s.ms.next = none →
      exec (.setLateralOffset rx (wordBytes w)) s = .next (endEvent (answered rx 8 .notReady 0 .empty s'))) ∧
    (∀ h, s.ms.current = none → s.ms.next = some h →
      (s.machine = none → exec (.setLateralOffset rx (wordBytes w)) s = .next (endEvent (answered rx 8 .accepted 0 .empty
        { s' with ms := { s.ms with next := some { h with l := storedLateral w.toInt } } }))) ∧
      (∀ m, s.machine = some m → s.sc.state = .noSet → s.ss.state = .idle → s.ss.cutHeld = false →
        exec (.setLateralOffset rx (wordBytes w)) s = .next (endEvent (answered rx 8 .accepted 0 .empty
          { s' with ms := { s.ms with next := some { h with l := storedLateral w.toInt } }
                    ss := { s.ss with aim := none, aimGone := false, dS := some (s.stopDistance m) } }))) ∧
      ∃ x, exec (.setLateralOffset rx (wordBytes w)) s = .next x ∧ x.ms.next = some { h with l := storedLateral w.toInt } ∧
        x.ms.current = none ∧ x.pu = s.pu ∧ x.mt = s.mt ∧ x.machine = s.machine ∧ x.peers = s.peers ∧ x.lpt = s.lpt ∧
        x.knives = s.knives ∧ SameLink s' x ∧ RepliedOnce rx 8 .accepted 0 .empty s' x) ∧
    (∀ h, s.ms.current = some h →
      ∃ x, exec (.setLateralOffset rx (wordBytes w)) s = .next x ∧ x.ms.current = some { h with l := storedLateral w.toInt } ∧
        x.ms.next = s.ms.next ∧ x.pu = s.pu ∧ x.mt = s.mt ∧ x.machine = s.machine ∧ x.peers = s.peers ∧ x.lpt = s.lpt ∧
        x.knives = s.knives ∧ SameLink s' x ∧ RepliedOnce rx 8 .accepted 0 .empty s' x)

/-- MARK_RESYNC in LOCKED sets F so that slitter mark k_last is press mark m, and discards every Forecast entry: each one left is
anchored above k_last on the slitter mark that its press repeat has under the new F. The frontier starts again at k_last + 1; where
nothing can be expanded there it stays, the list is empty, and every slot of the discarded entries is free. Requests for blocks that the new frontier has passed are
abandoned. The tracker and the block store stand (R21, R37, R41, R66). A press mark outside the roll, or one that takes F out of it, is
INVALID with field 1, and a body that is no one word INVALID with field 0; both change nothing (R21, R180). -/
def Obligations.MarkResyncSetsF : Prop :=
  ∀ (rx : Rx) (w : Word) (h : Header) (l : LastMark) (s : State), Asked s rx → s.mt.state = .locked → s.mt.last = some l →
    s.ms.current = some h →
    let newF : Int := if h.reversed then (w.toNat : Int) + l.k else w.toNat - l.k
    (h.nT ≤ w.toNat ∨ newF < 0 ∨ h.nT ≤ newF → exec (.markResync rx (wordBytes w)) s =
      .next (endEvent (answered rx 3 .invalid 1 .empty (passedOn rx (.request true (some 3) (wordBytes w)) s)))) ∧
    (∀ body : List Byte, body.length ≠ 4 → exec (.markResync rx body) s =
      .next (endEvent (answered rx 3 .invalid 0 .empty (passedOn rx (.request true (some 3) body) s)))) ∧
    ∀ f : Nat, w.toNat < h.nT → (f : Int) = newF → f < h.nT →
    ∃ x, exec (.markResync rx (wordBytes w)) s = .next x ∧ x.ms.current = some { h with f := f } ∧ x.ms.next = s.ms.next ∧
      (∃ g, x.ms.frontier = some g ∧ l.k + 1 ≤ g) ∧ (∀ e ∈ x.fq.forecast, l.k + 1 ≤ e.k) ∧
      (∀ e ∈ x.fq.forecast, ∃ r, e.feat.rep = some r ∧ r < h.nT ∧ (e.k : Int) = (if h.reversed then (f : Int) - (r + 1) else r - f)) ∧
      ((∀ b ∈ s.ms.slots, b = none) → x.fq.forecast = [] ∧ x.ms.frontier = some (l.k + 1) ∧ x.ms.run = false) ∧
      (∀ b ∈ x.ms.outstanding, ¬ WhollyPassed { h with f := f } (l.k + 1) b) ∧ x.ms.slots = s.ms.slots ∧ x.mt = s.mt ∧ x.pu = s.pu ∧
      x.machine = s.machine ∧ x.peers = s.peers ∧ x.lpt = s.lpt ∧ x.knives = s.knives ∧
      SameLink (passedOn rx (.request true (some 3) (wordBytes w)) s) x ∧
      RepliedOnce rx 3 .accepted 0 .empty (passedOn rx (.request true (some 3) (wordBytes w)) s) x

/-! ## Sightings and the Feature Queue -/

namespace Sys2Proof.Claims

/-- Two extents overlap when each is widened by M_cd (R56). -/
def Overlap (mCd : Nat) (a b : Extent) : Prop := a.x0 - mCd ≤ b.x1 + mCd ∧ b.x0 - mCd ≤ a.x1 + mCd

/-- The slitter cross extent that an entry uses: its own, or its press extent transformed (R31, R56). -/
def UsesExtent (s : State) (f : Feature) (x : Extent) : Prop :=
  f.slit = some x ∨ f.slit = none ∧ ∃ pe h, f.press = some pe ∧ s.ms.current = some h ∧ x = h.slitterExtent pe

/-- A sighting confirms an entry (R56, R59): a MAP entry of the sighting's kind within M_md of it and not yet past its knife
station, and for a DEFECT with an extent that overlaps. -/
def Confirms (s : State) (m : MachineTable) (p : Int) (splice : Bool) (x : Extent) (e : Settled) : Prop :=
  e.feat.origin = .map ∧ (p - e.p).natAbs ≤ m.mMd ∧ e.knife = false ∧
    ((splice = true ∧ e.feat.kind = .splice) ∨
      (splice = false ∧ (∃ c, e.feat.kind = .defect c) ∧ ∃ y, UsesExtent s e.feat y ∧ Overlap m.mCd x y))

/-- A DEFECT sighting of class c meets the first three tests of streak growth (R57). -/
def Continues (m : MachineTable) (p : Int) (c : Nat) (x : Extent) (e : Settled) : Prop :=
  e.feat.origin = .inline ∧ e.feat.kind = .defect c ∧ e.p ≤ p ∧ p ≤ e.p + e.feat.len + m.mMd ∧
    (∃ y, e.feat.slit = some y ∧ Overlap m.mCd x y) ∧ e.knife = false

/-- Of the entries that pass a test, e is the one nearest to p, the earliest where two are as near (R56, R57, R59). -/
def NearestOf (p : Int) (test : Settled → Prop) (pre : List Settled) (e : Settled) (post : List Settled) : Prop :=
  test e ∧ (∀ x ∈ pre, test x → (p - e.p).natAbs < (p - x.p).natAbs) ∧ ∀ x ∈ post, test x → (p - e.p).natAbs ≤ (p - x.p).natAbs

/-- SIGHTING_FRAME that an entry answers (R55 to R57, R59): it confirms the nearest entry it can, which becomes BOTH with the
sighting's extent, its other fields as they were; a DEFECT that confirms none grows the nearest streak it continues, which takes
the greater end and the union of the extents. Either takes the tag of a tainted sighting, and is not yet at a station. -/
def SightingsMerge : Prop :=
  ∀ (rx : Rx) (cDet : Word) (kind cls : Byte) (len x0 x1 : Half) (m : MachineTable) (u : Int) (taint : Bool) (pre post : List Settled)
    (e : Settled) (s : State),
    From (·.inspection) s rx → s.machine = some m → s.ms.current.isSome = true → s.latched cDet = some u → s.fq.lawful →
    kind.toNat ≤ 1 → (kind = 0 → cls.toNat ≤ 15) → x0.toNat ≤ x1.toNat → x1.toNat ≤ 30000 →
    (taint = true ↔ Doubtful s.mt.state ∨ s.pu.enc = .silent) → s.fq.settled = pre ++ e :: post → Ahead m s.pu.u e.p →
    e.table = false → e.flag = false → e.nip = false →
    let p : Int := u - m.dCam
    let ext : Extent := { x0 := x0.toNat, x1 := x1.toNat }
    let splice := decide (kind = 1)
    let becomes := fun f => ∃ x, exec (.sightingFrame rx cDet kind cls len x0 x1) s = .next x ∧ Stands f e.p x ∧ x.pu = s.pu ∧
      x.mt = s.mt ∧ SameTables s x ∧ SameLink (passedOn rx (.sighting cDet kind cls len x0 x1) s) x ∧ x.knives = s.knives
    (NearestOf p (Confirms s m p splice ext) pre e post →
      becomes { e.feat with origin := .both, slit := some ext, suspect := e.feat.suspect || taint }) ∧
    (kind = 0 → (∀ x ∈ s.fq.settled, ¬ Confirms s m p splice ext x) → NearestOf p (Continues m p cls.toNat ext) pre e post →
      max (p + len.toNat - e.p) (e.feat.len : Int) ≤ 65535 → ∀ y, e.feat.slit = some y →
      becomes { e.feat with len := (max (p + len.toNat - e.p) (e.feat.len : Int)).toNat
                            slit := some { x0 := min y.x0 ext.x0, x1 := max y.x1 ext.x1 }
                            suspect := e.feat.suspect || taint })

/-- SIGHTING_FRAME that would join and finds no slot free is lost: open records take UNVERIFIED and QUEUE_FULL is queued with its
position; no entry is disturbed (R60). An attempt to expand ends the event (notes/assumptions/27.md). -/
def SightingsAreLost : Prop :=
  ∀ (rx : Rx) (cDet : Word) (kind cls : Byte) (len x0 x1 : Half) (m : MachineTable) (u : Int) (s : State),
    From (·.inspection) s rx → s.machine = some m → s.ms.current.isSome = true → s.latched cDet = some u →
    kind.toNat ≤ 1 → (kind = 0 → cls.toNat ≤ 15) → x0.toNat ≤ x1.toNat → x1.toNat ≤ 30000 →
    let p : Int := u - m.dCam
    let ext : Extent := { x0 := x0.toNat, x1 := x1.toNat }
    (∀ x ∈ s.fq.settled, ¬ Confirms s m p (decide (kind = 1)) ext x ∧ (kind = 0 → ¬ Continues m p cls.toNat ext x)) →
    (∀ hc, s.fq.hCam = some hc → hc - m.mMd < p) → s.fq.forecast.length + s.fq.settled.length = 1024 →
    exec (.sightingFrame rx cDet kind cls len x0 x1) s = .next (endEvent (expand (queueNotice .queueFull (wInt p) 0 0
      { passedOn rx (.sighting cDet kind cls len x0 x1) s with rs := unverified s.rs })))

end Sys2Proof.Claims

/-- SIGHTING_FRAME that confirms no entry, grows none and is no re-read joins the Settled list as an INLINE entry in the lowest free
slot, at u - D_cam, with its length, extent and taint; no station of it is due yet (R43, R54, R55, R60). The position, the
tracker, the tables, the ports and the knives stand. A sighting that an entry answers merges into it, confirming it or growing
it (R56, R57, R59), and one that would join a full queue is lost (R60). -/
def Obligations.SightingJoinsAsInline : Prop :=
  (∀ (rx : Rx) (cDet : Word) (kind cls : Byte) (len x0 x1 : Half) (m : MachineTable) (u : Int) (s : State),
    From (·.inspection) s rx → s.machine = some m → s.ms.current.isSome = true → s.latched cDet = some u → s.fq.lawful →
    kind.toNat ≤ 1 → (kind = 0 → cls.toNat ≤ 15) → x0.toNat ≤ x1.toNat → x1.toNat ≤ 30000 →
    let g : Sighting := { p := u - m.dCam, kind := if kind = 1 then .splice else .defect cls.toNat, len := len.toNat
                          ext := { x0 := x0.toNat, x1 := x1.toNat }
                          taint := s.mt.state == .coasting || s.mt.state == .lost || s.mt.state == .relocking || s.pu.enc == .silent }
    (∀ e ∈ s.fq.settled, s.confirmable m g e = false ∧ (kind = 0 → streakCandidate m g e = false)) →
    (∀ hc, s.fq.hCam = some hc → hc - m.mMd < g.p) → s.fq.forecast.length + s.fq.settled.length < 1024 →
    s.pu.u - m.dKn < g.p → s.pu.u - m.dSt < g.p → s.pu.u - m.dFl < g.p → s.pu.u - m.dNip < g.p →
    ∃ x, exec (.sightingFrame rx cDet kind cls len x0 x1) s = .next x ∧
      (∃ e ∈ x.fq.settled, e.feat.num = s.fq.freeSlot ∧ e.p = g.p ∧ e.feat.origin = .inline ∧ e.feat.kind = g.kind ∧
        e.feat.len = len.toNat ∧ e.feat.slit = some g.ext ∧ e.feat.press = none ∧ e.feat.suspect = g.taint ∧ e.knife = false) ∧
      s.fq.freeSlot ∉ s.fq.nums ∧ (∀ j, j < s.fq.freeSlot → j ∈ s.fq.nums) ∧
      x.pu = s.pu ∧ x.mt = s.mt ∧ SameTables s x ∧ SameLink (passedOn rx (.sighting cDet kind cls len x0 x1) s) x ∧
      x.knives = s.knives) ∧
  SightingsMerge ∧ SightingsAreLost

/-- SIGHTING_FRAME that the queue does not take in: refused with RANGE for a kind, a class or an extent outside its range or a count
that R7 refuses; without effect while no roll is current; and discarded as a re-read, without a refusal, when it confirms and
grows nothing and lies M_md or more behind the farthest camera position (R54, R55, R58). That an attempt to expand ends the event
of a discarded re-read too is read from the rules (notes/assumptions/27.md); where nothing can expand, the discard changes
nothing. -/
def Obligations.SightingIsRefusedOrReread : Prop :=
  ∀ (rx : Rx) (cDet : Word) (kind cls : Byte) (len x0 x1 : Half) (m : MachineTable) (s : State),
    From (·.inspection) s rx → s.machine = some m →
    let s' := passedOn rx (.sighting cDet kind cls len x0 x1) s
    let inRange : Prop := kind.toNat ≤ 1 ∧ (kind = 0 → cls.toNat ≤ 15) ∧ x0.toNat ≤ x1.toNat ∧ x1.toNat ≤ 30000
    (¬ inRange ∨ s.pu.enc = .noBase ∨ m.dMax * 64 < (pulses cDet s.pu.cPrev).natAbs →
      exec (.sightingFrame rx cDet kind cls len x0 x1) s = .next (endEvent (refused rx.src 0x12 .range s'))) ∧
    ∀ u, inRange → s.latched cDet = some u →
      (s.ms.current = none → exec (.sightingFrame rx cDet kind cls len x0 x1) s = .next (endEvent s')) ∧
      let g : Sighting := { p := u - m.dCam, kind := if kind = 1 then .splice else .defect cls.toNat, len := len.toNat
                            ext := { x0 := x0.toNat, x1 := x1.toNat }, taint := s.taint }
      (∀ hc, s.ms.current.isSome = true → (∀ e ∈ s.fq.settled, s.confirmable m g e = false ∧ (kind = 0 → streakCandidate m g e = false)) →
        s.fq.hCam = some hc → g.p ≤ hc - m.mMd →
        exec (.sightingFrame rx cDet kind cls len x0 x1) s = .next (endEvent (expand s')) ∧
          (s.expandable = none → exec (.sightingFrame rx cDet kind cls len x0 x1) s = .next (endEvent s')))

namespace Sys2Proof.Claims

/-- The flag inserter (R106 to R109). Where flags are placed, a FLAG item is SHARED when the lane's history holds a position at or
below the entry and at most F_min before it, at or above P_start and on the entry's side of the cut, and FLAGGED otherwise; the
lanes FLAGGED are carried by one order with the entry's position and the lateness, and take the entry's position in the history.
Where none is placed, every FLAG item is NOT_FLAGGED and nothing is sent. The flag marker is set. -/
def FlagStation : Prop :=
  ∀ (m : MachineTable) (place : Bool) (e : Settled) (s : State), s.fq.flags.length = 24 → (∀ i ∈ e.items, i.lane < 24) →
    ∃ (outcome : LaneItem → FlagOutcome) (lanes : List Nat),
      (∀ i, (outcome i = .shared ↔ place = true ∧ ∃ q, s.fq.flags[i.lane]? = some (some q) ∧ q ≤ e.p ∧ e.p - q ≤ m.fMin ∧
        (∃ b, s.sc.pStart = some b ∧ b ≤ q) ∧ ∀ c, s.pCut = some c → (q < c ↔ e.p < c)) ∧
        (outcome i = .notFlagged ↔ place = false) ∧ outcome i ≠ .none) ∧
      lanes = (e.items.filter (fun i => i.action == .flag && outcome i == .flagged)).map (·.lane) ∧
      let items := e.items.map (fun i => if i.action = .flag then { i with outcome := outcome i } else i)
      let s1 : State := { s with fq := { s.fq with settled := s.fq.settled.map (fun x =>
        if x.feat.num = e.feat.num then { x with items := items, flag := true } else x) } }
      (lanes = [] → takeFlag m place e s = s1) ∧
      (lanes ≠ [] → ∃ flags : List (Option Int), flags.length = 24 ∧ (∀ i, i < 24 → i ∈ lanes → flags[i]? = some (some e.p)) ∧
        (∀ i, i ∉ lanes → flags[i]? = s.fq.flags[i]?) ∧
        takeFlag m place e s = queueOwn .order m.flagStation none (.flag s.sc.num lanes e.p (s.pu.u - (e.p + m.dFl)))
          { s1 with fq := { s1.fq with flags := flags } })

/-- The set is open, and began at or behind p (R103, R107, R113). -/
def OpenFrom (s : State) (p : Int) : Prop :=
  (s.sc.state = .running ∨ s.sc.state = .approach ∨ s.sc.state = .cutStop) ∧ ∃ q, s.sc.pStart = some q ∧ q ≤ p

/-- The event that an item gives its lane's record at the nip (R114). -/
def eventOf (pStart : Int) (e : Settled) (i : LaneItem) : Event :=
  { kind := if i.action = .flag ∧ (i.outcome = .flagged ∨ i.outcome = .shared ∨ i.outcome = .none) then .flagged
      else match e.feat.kind with
        | .defect _ => .defect
        | .splice => .splice
        | .unmapped => .unmapped
        | .blind => .blind
    cls := match e.feat.kind with
      | .defect c => some c
      | _ => none
    gross := (e.p - pStart).toNat, len := e.feat.len, origin := some e.feat.origin, rep := e.feat.rep, suspect := e.feat.suspect
    confirmed := decide (e.feat.origin = .both), notRemoved := decide (i.action = .log) && i.notRemoved
    flagShared := decide (i.action = .flag ∧ i.outcome = .shared), rejectCause := decide (i.action = .reject) }

/-- A place at or beyond the cut that the set was last brought to, in a state in which it holds entries at the nip (R113). -/
def BeyondCut (s : State) (p : Int) : Prop :=
  (s.sc.state = .cutStop ∨ s.sc.state = .atCut ∨ s.sc.state = .changing ∨ s.sc.state = .preparing) ∧ ∃ c, s.pCut = some c ∧ c ≤ p

/-- The rewind nip of an entry that is not served (R113, R114, R116): written, lanes ascending, and gone; held at or beyond the cut
that the set was last brought to; or gone without an event. That it is held in CUT_STOP also below P_start is the model's choice
(notes/assumptions/53.md). -/
def NipStation : Prop :=
  ∀ (e : Settled) (s : State),
    let written := OpenFrom s e.p ∧ (s.sc.state = .cutStop → ∃ c, s.pCut = some c ∧ e.p < c)
    (∀ start, s.sc.pStart = some start → written →
      takeNip e s = leave e.feat.num (e.items.foldl (fun t i => handEvent i.lane (eventOf start e i) t) s)) ∧
    (BeyondCut s e.p → takeNip e s = s) ∧ (¬ written → ¬ BeyondCut s e.p → takeNip e s = leave e.feat.num s)

/-- A served entry's flag and nip stations are deferred (R111), and a flag station that is due as the served mark is cleared places no
flag (R108, R112). -/
def ServedStationsWait : Prop :=
  ∀ (m : MachineTable) (num : Nat) (e : Settled) (s : State), s.machine = some m → s.fq.findSettled num = some e →
    (e.feat.served = true → ∀ cleared, takeStation cleared .flag num s = s ∧ takeStation cleared .nip num s = s) ∧
    (e.feat.served = false → takeStation true .flag num s = takeFlag m false e s ∧
      ∀ place : Bool, (place = true ↔ OpenFrom s e.p) → takeStation false .flag num s = takeFlag m place e s)

/-- A record with an event handed to it (R115, R160, R161): stored below the quota, counted at it; the statuses follow either way. -/
def handedTo (e : Event) (r : ReelRecord) : ReelRecord :=
  let full := decide (r.quota ≤ r.events.length)
  { r with events := if full then r.events else r.events ++ [e], notStored := if full then r.notStored + 1 else r.notStored
           statuses := { r.statuses with reject := r.statuses.reject || e.rejectCause
                                         removalMissed := r.statuses.removalMissed || e.notRemoved
                                         edgeDrift := r.statuses.edgeDrift || decide (e.kind = .drift)
                                         truncated := r.statuses.truncated || full } }

/-- Header i holds the lane's open record, and no other header holds one of the lane. -/
def OpenAt (t : RecordStore) (lane i : Nat) (r : ReelRecord) : Prop :=
  t.headers[i]? = some (some r) ∧ r.totals = none ∧ r.lane = lane ∧
    ∀ (j : Nat) (x : ReelRecord), t.headers[j]? = some (some x) → x.totals = none → x.lane = lane → j = i

/-- An event handed over for a lane goes to the lane's open record and to no other; without one it counts nowhere (R159 to R161). -/
def EventsGoToTheOpenRecord : Prop :=
  ∀ (lane : Nat) (e : Event) (s : State),
    (∀ i r, OpenAt s.rs lane i r →
      handEvent lane e s = { s with rs := { s.rs with headers := s.rs.headers.set i (some (handedTo e r)) } }) ∧
    ((∀ (j : Nat) (x : ReelRecord), s.rs.headers[j]? = some (some x) → x.totals = none → x.lane ≠ lane) → handEvent lane e s = s)

end Sys2Proof.Claims

/-- The splice table of an entry that is not served: each STOP item becomes LOG with its not-removed field set, the table marker is
set, and, when there was one and the set is open at or behind the entry, STOP_MISSED is queued with the entry's number, its
position and the lanes (R103). Of a served entry the marker alone is set (R104). The flag inserter places, shares or leaves out
flags (R106 to R109), a served entry's flag and nip wait (R111, R112), the nip writes, holds or lets go (R113, R114, R116), an
entry there is judged again at each look (R98, R112, R113), and an event goes to its lane's open record (R115, R159 to R161). That the lanes are FLAGGED and their history takes the position also
where 64 orders wait and the flag order is dropped (notes/assumptions/37.md), and which stations the looks as an entry joins and as a
served mark clears take (notes/assumptions/55.md), are read from the rules. That an entry in CUT_STOP with
P_cut ≤ p < P_start is held (notes/assumptions/53.md), and that a gross position beyond the range of 9.1 is kept as it is
(notes/assumptions/15.md), are the model's choices. -/
def Obligations.TableStationDowngradesStops : Prop :=
  (∀ (e : Settled) (s : State), e.feat.served = false → s.fq.lawful → e ∈ s.fq.settled →
    let stops := (e.items.filter (fun i => i.action == .stop)).map (·.lane)
    let recorded : Prop := (s.sc.state = .running ∨ s.sc.state = .approach ∨ s.sc.state = .cutStop) ∧
      ∃ q, s.sc.pStart = some q ∧ q ≤ e.p
    let s1 : State := { s with fq := { s.fq with settled := s.fq.settled.map (fun x =>
      if x.feat.num = e.feat.num then { x with
        table := true
        items := x.items.map (fun i => if i.action = .stop then { i with action := .log, notRemoved := true } else i) }
      else x) } }
    (stops ≠ [] → recorded →
      takeTable e s = queueNotice .stopMissed (wNat e.feat.num) (wInt e.p) (wLanes stops) s1) ∧
    (stops = [] ∨ ¬ recorded → takeTable e s = s1)) ∧
  (∀ (e : Settled) (s : State), e.feat.served = true → takeTable e s = { s with fq := { s.fq with
    settled := s.fq.settled.map (fun x => if x.feat.num = e.feat.num then { x with table := true } else x) } }) ∧
  FlagStation ∧ ServedStationsWait ∧ NipStation ∧ HeldEntriesAreJudgedAgain ∧ EventsGoToTheOpenRecord

/-! ## Lane plans -/

namespace Sys2Proof.Claims

/-- The code of an action (10.4). -/
def actionCode : Action → Nat
  | .ignore => 0
  | .log => 1
  | .flag => 2
  | .stop => 3
  | .reject => 4

/-- The fields of one lane: sixteen class actions, the splice action, the quota (4.1). -/
def laneFields (l : LanePlan) : List Word := l.actions.map (fun a => wNat (actionCode a)) ++ [wNat (actionCode l.splice), wNat l.quota]

/-- The fields of LOAD_BANK after the selector that spell a plan (R68, 10.4). -/
def bankBytes (b : Bank) : List Byte :=
  ([b.job, wNat b.n, wNat b.nSet, wNat b.nApp, wNat b.cOff, wBool b.makeUp, wNat b.xMax] ++ b.knives.map wNat ++
    b.lanes.flatMap laneFields).flatMap wordBytes

/-- Field n of LOAD_BANK passes, `ws` the words of field 2 on (4.1, R68, R69). -/
def BankFieldPasses (ws : List Word) (n : Nat) : Prop :=
  let v := fun k => wordAt ws (k - 2)
  let lanes := v 3
  (n = 3 → 1 ≤ lanes ∧ lanes ≤ 24 ∧ ws.length + 1 = 8 + (lanes + 1) + 18 * lanes) ∧ (n = 4 → 1 ≤ v 4 ∧ v 4 ≤ 65535) ∧
    (n = 5 → v 5 ≤ v 4) ∧ (n = 6 → v 6 ≤ 65535) ∧ (n = 7 → v 7 ≤ 1) ∧ (n = 8 → v 8 ≤ 64) ∧
    (9 ≤ n → n ≤ 9 + lanes → v n ≤ 30000 ∧ (9 < n → v (n - 1) + 150 ≤ v n)) ∧
    (∀ i c, i < lanes → c ≤ 16 → n = 10 + lanes + 18 * i + c → v n ≤ 4) ∧
    (∀ i, i < lanes → n = 27 + lanes + 18 * i →
      v n ≤ 1024 ∧ ((List.range (i + 1)).map (fun l => v (27 + lanes + 18 * l))).sum ≤ 1024)

/-- A plan with every field in its range and consistent (4.1, R69). -/
def GoodPlan (b : Bank) : Prop :=
  b.lawful ∧ 1 ≤ b.nSet ∧ b.nSet ≤ 65535 ∧ b.cOff ≤ 65535 ∧ ∀ l ∈ b.lanes, l.actions.length = 16

end Sys2Proof.Claims

/-- LOAD_BANK with every field in its range replaces the bank whole: PENDING in every set state, ACTIVE in NO_SET, the other bank
standing; ACTIVE outside NO_SET is BUSY and changes nothing (R68, R69, R71, R72). A field that fails makes it INVALID with the first
such field, a body of another number of fields than its lane count calls for with field 3, and a selector that names no bank with
field 1; neither bank changes. -/
def Obligations.BankLoadReplacesTheBank : Prop :=
  ∀ (rx : Rx) (b : Bank) (s : State), Asked s rx → GoodPlan b →
    exec (.loadBankPending rx (bankBytes b)) s = .next (endEvent (answered rx 5 .accepted 0 .empty
      { passedOn rx (.request false (some 5) ([0, 0, 0, 1] ++ bankBytes b)) s with
        lpt := { active := s.lpt.active, pending := some b } })) ∧
    (s.sc.state = .noSet →
      exec (.loadBankActive rx (bankBytes b)) s = .next (endEvent (answered rx 5 .accepted 0 .empty
        { passedOn rx (.request false (some 5) ([0, 0, 0, 0] ++ bankBytes b)) s with
          lpt := { active := some b, pending := s.lpt.pending } }))) ∧
    (s.sc.state ≠ .noSet →
      exec (.loadBankActive rx (bankBytes b)) s = .next (endEvent (answered rx 5 .busy 0 .empty
        (passedOn rx (.request false (some 5) ([0, 0, 0, 0] ++ bankBytes b)) s)))) ∧
    (∀ (body : List Byte) (n : Nat), body.length % 4 ≠ 0 ∧ n = 3 ∨
        (∃ ws : List Word, body = ws.flatMap wordBytes ∧ FirstFails (BankFieldPasses ws) n) →
      exec (.loadBankPending rx body) s = .next (endEvent (answered rx 5 .invalid n .empty
        (passedOn rx (.request false (some 5) ([0, 0, 0, 1] ++ body)) s))) ∧
      (s.sc.state = .noSet → exec (.loadBankActive rx body) s = .next (endEvent (answered rx 5 .invalid n .empty
        (passedOn rx (.request false (some 5) ([0, 0, 0, 0] ++ body)) s))))) ∧
    (∀ (w : Word) (body : List Byte), 1 < w.toNat →
      let a := execute false (some 5) (wordBytes w ++ body) s
      a.status = .invalid ∧ a.index = 1 ∧ a.state = s)

/-- CANCEL_PENDING in every set state makes the PENDING bank EMPTY and is answered ACCEPTED, also when it was EMPTY already; the ACTIVE
bank is not touched. A plan so cancelled is not activated at the next set change: a DOFF_COMPLETE taken while PENDING is EMPTY
keeps the ACTIVE bank (R73). -/
def Obligations.CancelPendingEmptiesTheBank : Prop :=
  ∀ (rx : Rx) (s : State), Asked s rx →
    exec (.cancelPending rx []) s = .next (endEvent (answered rx 6 .accepted 0 .empty
      { passedOn rx (.request false (some 6) []) s with lpt := { active := s.lpt.active, pending := none } })) ∧
    (s.sc.state = .changing → s.lpt.pending = none → ∃ x, exec (.doffComplete rx []) s = .next x ∧ x.lpt = s.lpt)

/-- The banks at each reset (R77): EMPTY after power-on and RESET, which empty the machine table and the peer table as well, so that
ROLL_START is refused until everything has been loaded; and unchanged by ROLL_START and ROLL_END, so that a plan armed before
is activated at the first doff. -/
def Obligations.BanksStandThroughRolls : Prop :=
  State.reset.lpt = { active := none, pending := none } ∧
    (∀ (straps : BitVec 6) (s : State), ∃ x, exec (.powerOn straps) s = .next x ∧ x.lpt = { active := none, pending := none } ∧
      x.machine = none ∧ x.peers = none) ∧
    (∀ (straps : BitVec 6) (s : State), s.ll.resetting = true →
      ∃ x, exec (.resetTakesEffect straps) s = .next x ∧ x.lpt = { active := none, pending := none } ∧ x.machine = none ∧
        x.peers = none) ∧
    (∀ (rx : Rx) (body : List Byte) (s : State),
      (∃ x, exec (.rollStart rx body) s = .next x ∧ x.lpt = s.lpt) ∧ ∃ x, exec (.rollEnd rx body) s = .next x ∧ x.lpt = s.lpt) ∧
    ∀ (rx : Rx) (s : State), Asked s rx →
      (s.sc.state = .noSet → s.machine = none ∨ s.peers = none ∨ s.lpt.active = none ∨ s.ms.next = none →
        ∃ i, exec (.rollStart rx []) s =
          .next (endEvent (answered rx 1 .notReady i .empty (passedOn rx (.request true (some 1) []) s)))) ∧
      (∀ b, s.sc.state = .changing → s.lpt.pending = some b →
        ∃ x, exec (.doffComplete rx []) s = .next x ∧ x.lpt = { active := some b, pending := none })

/-! ## Lane resolution and the knife station -/

namespace Sys2Proof.Claims

/-- Edge j of a resolution (R78): the knife's place in the plan, or the place last reported for it while its channel is DRIFTED. -/
def EdgeAt (s : State) (b : Bank) (j : Nat) (x : Int) : Prop :=
  ∃ c k, s.knives[j]? = some c ∧ b.knives[j]? = some k ∧ x = if c.state = .drifted then ((c.reported.getD k : Nat) : Int) else k

/-- An entry touches lane i (R31, R78, R79): a span touches every lane, and any other entry the lanes, taken from the lesser to the
greater edge, that its extent widened by the guard overlaps. -/
def Touches (s : State) (m : MachineTable) (b : Bank) (f : Feature) (i : Nat) : Prop :=
  f.kind = .unmapped ∨ f.kind = .blind ∨
    ∃ e p q, (f.slit = some e ∨ f.slit = none ∧ ∃ pe h, f.press = some pe ∧ s.ms.current = some h ∧ e = h.slitterExtent pe) ∧
      EdgeAt s b i p ∧ EdgeAt s b (i + 1) q ∧ p ≠ q ∧ e.x0 - m.g < max p q ∧ min p q ≤ e.x1 + m.g

/-- The action a lane's plan gives a feature (R82). -/
def Chooses (l : LanePlan) : FeatKind → Action → Prop
  | .defect c, a => l.actions[c]? = some a
  | .splice, a => a = l.splice
  | .unmapped, a | .blind, a => a = .log

end Sys2Proof.Claims

/-- A resolution gives each lane that the entry touches once, lanes ascending, with the action the lane's plan has for the entry's
kind, IGNORE left out, and is empty while the ACTIVE bank is EMPTY; the knife station writes it into the entry as its lane
actions, or discards the entry where it is empty (R78 to R82, R101, R102). -/
def Obligations.LanesAreResolvedByTheirEdges : Prop :=
  ∀ (f : Feature) (s : State),
    (s.lpt.active = none → s.resolve f = []) ∧
    ∀ m b, s.machine = some m → s.lpt.active = some b → GoodPlan b → s.knives.length = 25 → (∀ c, f.kind = .defect c → c < 16) →
      (s.resolve f).Pairwise (fun x y => x.1 < y.1) ∧
      (∀ i a, (i, a) ∈ s.resolve f ↔
        i < b.n ∧ a ≠ .ignore ∧ Touches s m b f i ∧ ∃ l, b.lanes[i]? = some l ∧ Chooses l f.kind a) ∧
      ∀ e, e.feat = f →
        (s.resolve f ≠ [] → takeKnife e s = { s with fq := { s.fq with settled := s.fq.settled.map (fun x =>
          if x.feat.num = f.num then { x with
            knife := true
            items := (s.resolve f).map (fun r => { lane := r.1, action := r.2, notRemoved := false, outcome := .none }) }
          else x) } }) ∧
        (s.resolve f = [] → ∀ x, x ∈ (takeKnife e s).fq.settled ↔ x ∈ s.fq.settled ∧ x.feat.num ≠ f.num)

/-! ## Knife channels -/

namespace Sys2Proof.Claims

/-- A report meets a channel's target: within K_tol of a position with parked clear, or parked for PARK (R86). -/
def Meets (kTol : Nat) (target : Option KnifeTarget) (position parked : Nat) : Prop :=
  (∃ n, target = some (.pos n) ∧ parked = 0 ∧ ((position : Int) - n).natAbs ≤ kTol) ∨ (target = some .park ∧ parked = 1)

/-- From `s` to `t` channel j becomes c and every other channel stands. -/
def KnifeBecomes (j : Nat) (c : KnifeChannel) (s t : State) : Prop :=
  t.knives[j]? = some c ∧ ∀ i, i ≠ j → t.knives[i]? = s.knives[i]?

/-- The fields of a knife report lie in their ranges (R86). -/
def KnifeInRange (knife outcome : Byte) (position : Half) (parked : Byte) : Prop :=
  knife.toNat ≤ 24 ∧ outcome.toNat ≤ 2 ∧ position.toNat ≤ 30000 ∧ parked.toNat ≤ 1

/-- A channel once a DONE or STATUS report has replaced what it reports (R86). -/
def reportedTo (position : Half) (parked : Byte) (c : KnifeChannel) : KnifeChannel :=
  { c with reported := if parked = 1 then c.reported else some position.toNat, reportedParked := decide (parked = 1) }

/-- The DRIFT event of a lane beside a knife (R92). -/
def driftAt (m : MachineTable) (start : Int) (s : State) : Event :=
  { kind := .drift, cls := none, gross := (s.pu.u - m.dKn - start).toNat, len := 0, origin := none, rep := none, suspect := false
    confirmed := false, notRemoved := false, flagShared := false, rejectCause := false }

/-- A move fault queues KNIFE_FAULT with the knife, the cause and the reported position (R88). -/
def MoveFaultsAreNoticed : Prop :=
  ∀ (rx : Rx) (knife outcome : Byte) (position : Half) (parked : Byte) (m : MachineTable) (c : KnifeChannel) (s : State),
    From (·.knifePositioner) s rx → s.machine = some m → KnifeInRange knife outcome position parked →
    s.knives[knife.toNat]? = some c → c.state = .moving → NoticesWait s →
    (outcome = 1 ∨ outcome = 0 ∧ ¬ Meets m.kTol c.target position.toNat parked.toNat) →
    ∃ x, exec (.knifeReport rx knife outcome position parked) s = .next x ∧ ∃ n ∈ x.nq.waiting, n.kind = .knifeFault ∧
      n.v0 = wNat knife.toNat ∧ n.v1 = (if outcome = 1 then 1 else 2) ∧
      n.v2 = wOptNat (if outcome = 1 then c.reported else (reportedTo position parked c).reported)

/-- KNIFE_REPORT for a channel that is not MOVING. A FAULT report changes no channel and queues KNIFE_FAULT with the knife, REPORTED
and the channel's state (R93). Any other is kept as the channel's report, and only the attempt to expand that ends the event follows
(notes/assumptions/27.md): in IDLE; in FAULT unless it meets the
target; in IN_POSITION where it does, or where the set is in no state that judges drift; in DRIFTED where it does not; in PARKED
where it does (R91, R93). It confirms a FAULT channel and returns a DRIFTED one to IN_POSITION where it meets the target. -/
def KnivesAtRest : Prop :=
  ∀ (rx : Rx) (knife outcome : Byte) (position : Half) (parked : Byte) (m : MachineTable) (c : KnifeChannel) (s : State),
    From (·.knifePositioner) s rx → s.machine = some m → KnifeInRange knife outcome position parked →
    s.knives[knife.toNat]? = some c → c.state ≠ .moving →
    let s' := passedOn rx (.knife knife outcome position parked) s
    let seen := reportedTo position parked c
    let meets := Meets m.kTol c.target position.toNat parked.toNat
    let kept := exec (.knifeReport rx knife outcome position parked) s =
      .next (endEvent (expand { s' with knives := s.knives.set knife.toNat seen }))
    let becomes := fun c' => ∃ x, exec (.knifeReport rx knife outcome position parked) s = .next x ∧
      KnifeBecomes knife.toNat c' s x ∧ x.pu = s.pu ∧ x.mt = s.mt ∧ SameTables s x ∧ SameLink s' x
    (outcome = 1 → exec (.knifeReport rx knife outcome position parked) s =
      .next (endEvent (expand (queueNotice .knifeFault (wNat knife.toNat) 1 (wNat c.state.code) s')))) ∧
    (outcome ≠ 1 →
      (c.state = .idle → kept) ∧ (c.state = .fault → ¬ meets → kept) ∧ (c.state = .inPosition → meets → kept) ∧
      (c.state = .inPosition → ¬ meets → s.sc.state ≠ .running → s.sc.state ≠ .approach → s.sc.state ≠ .preparing → kept) ∧
      (c.state = .drifted → ¬ meets → kept) ∧ (c.state = .parked → meets → kept) ∧
      (c.state = .fault → meets →
        becomes { seen with state := if c.target = some .park then .parked else .inPosition, timer := none, cause := .none }) ∧
      (c.state = .drifted → meets → becomes { seen with state := .inPosition }))

/-- KNIFE_REPORT that places a knife at rest off its target (R91, R92). While the set runs or approaches its cut, a channel IN_POSITION
enters DRIFTED: each lane beside the knife is given a DRIFT event, the web at the knife line measured from P_start and not
below 0, and KNIFE_DRIFT is queued. In PREPARING its order is sent again, retries used 0. A PARKED channel stays PARKED and queues
KNIFE_DRIFT, and in PREPARING its order is sent again too. That this last sets retries used to 0 is the model's choice
(notes/assumptions/48.md). -/
def KnivesOutOfPlace : Prop :=
  ∀ (rx : Rx) (knife outcome : Byte) (position : Half) (parked : Byte) (m : MachineTable) (c : KnifeChannel) (s : State),
    From (·.knifePositioner) s rx → s.machine = some m → KnifeInRange knife outcome position parked → outcome ≠ 1 →
    s.knives[knife.toNat]? = some c → ¬ Meets m.kTol c.target position.toNat parked.toNat →
    let s' := passedOn rx (.knife knife outcome position parked) s
    let seen := reportedTo position parked c
    let noticed := fun x : State => ∃ n ∈ x.nq.waiting, n.kind = .knifeDrift ∧ n.v0 = wNat knife.toNat ∧ n.v1 = wOptNat seen.reported ∧
      n.v2 = wBool seen.reportedParked
    let becomes := fun c' => ∃ x, exec (.knifeReport rx knife outcome position parked) s = .next x ∧
      KnifeBecomes knife.toNat c' s x ∧ x.pu = s.pu ∧ x.mt = s.mt ∧ SameTables s x ∧ SameLink s' x
    let again := fun k => becomes { seen with state := .moving, timer := some m.tKnife, retries := 0, cause := .none } ∧
      (OrdersGo s → ∃ x, exec (.knifeReport rx knife outcome position parked) s = .next x ∧
        Ordered (match s.peers with | some t => t.knifePositioner | none => 63) (.knife knife.toNat k) x)
    (c.state = .inPosition → s.sc.state = .running ∨ s.sc.state = .approach →
      becomes { seen with state := .drifted } ∧
      ∀ b start, s.lpt.active = some b → s.sc.pStart = some start → (∀ e ∈ s.fq.settled, e.feat.served = false) →
        ∃ x, exec (.knifeReport rx knife outcome position parked) s = .next x ∧ (NoticesWait s → noticed x) ∧
          ∀ l i r, OpenAt s.rs l i r → x.rs.headers[i]? = some (some
            (if l < b.n ∧ (l = knife.toNat ∨ l + 1 = knife.toNat) then handedTo (driftAt m start s) r else r))) ∧
    (∀ k, c.target = some k → c.state = .inPosition ∨ c.state = .parked → s.sc.state = .preparing → again k) ∧
    (c.state = .parked → s.sc.state ≠ .preparing → exec (.knifeReport rx knife outcome position parked) s =
      .next (endEvent (expand (queueNotice .knifeDrift (wNat knife.toNat) (wOptNat seen.reported) (wBool seen.reportedParked)
        { s' with knives := s.knives.set knife.toNat seen })))) ∧
    (c.state = .parked → s.sc.state = .preparing → NoticesWait s →
      ∃ x, exec (.knifeReport rx knife outcome position parked) s = .next x ∧ noticed x)

end Sys2Proof.Claims

/-- KNIFE_REPORT for a MOVING channel. DONE replaces the reported position, unless parked, and the parked mark, and confirms the channel
where it meets the target: IN_POSITION, or PARKED for PARK; otherwise the channel is in FAULT, MISPLACED. FAULT puts it in
FAULT, REPORTED. STATUS replaces what it reports and leaves the channel MOVING with its timer (R86, R88). The position, the
tracker, the tables, the ports and every other channel stand. A field outside its range is refused with RANGE. KNIFE_FAULT is queued
for a move fault and for a FAULT report at rest; any other report of a knife at rest is kept, confirms, returns a DRIFTED knife,
or shows one out of place: DRIFTED with a DRIFT event in each lane beside it while the set runs, ordered again while it is
prepared, KNIFE_DRIFT queued (R88, R91 to R93). That an attempt to expand ends the event of every report
(notes/assumptions/27.md), and that a knife ordered again is MOVING also where 64 orders wait and its order is dropped
(notes/assumptions/37.md), are read from the rules. That a PARKED knife ordered again has retries used 0 is the model's choice
(notes/assumptions/48.md), and so is that a DRIFT event beyond the range of 9.1 is kept where it is (notes/assumptions/15.md). -/
def Obligations.KnifeReportSettlesAMove : Prop :=
  (∀ (rx : Rx) (knife outcome : Byte) (position : Half) (parked : Byte) (m : MachineTable) (c : KnifeChannel) (s : State),
    From (·.knifePositioner) s rx → s.machine = some m →
    let s' := passedOn rx (.knife knife outcome position parked) s
    let seen : KnifeChannel := { c with reported := if parked = 1 then c.reported else some position.toNat
                                        reportedParked := decide (parked = 1) }
    let becomes := fun c' => ∃ x, exec (.knifeReport rx knife outcome position parked) s = .next x ∧
      KnifeBecomes knife.toNat c' s x ∧ x.pu = s.pu ∧ x.mt = s.mt ∧ SameTables s x ∧ SameLink s' x
    (knife.toNat ≤ 24 ∧ outcome.toNat ≤ 2 ∧ position.toNat ≤ 30000 ∧ parked.toNat ≤ 1 → s.knives[knife.toNat]? = some c →
      c.state = .moving →
      (outcome = 0 → Meets m.kTol c.target position.toNat parked.toNat →
        becomes { seen with state := if c.target = some .park then .parked else .inPosition, timer := none }) ∧
      (outcome = 0 → ¬ Meets m.kTol c.target position.toNat parked.toNat →
        becomes { seen with state := .fault, timer := none, cause := .misplaced }) ∧
      (outcome = 1 → becomes { c with state := .fault, timer := none, cause := .reported }) ∧
      (outcome = 2 → becomes seen)) ∧
    (¬ (knife.toNat ≤ 24 ∧ outcome.toNat ≤ 2 ∧ position.toNat ≤ 30000 ∧ parked.toNat ≤ 1) →
      exec (.knifeReport rx knife outcome position parked) s = .next (endEvent (refused rx.src 0x13 .range s')))) ∧
  MoveFaultsAreNoticed ∧ KnivesAtRest ∧ KnivesOutOfPlace

/-- CONFIRM_TIMER_EXPIRY of a MOVING channel: below RC retries its order is sent again, its timer runs anew and retries used rises by
one; at RC it is in FAULT, TIMEOUT. Every other channel, the position, the tables and the ports stand (R85, R89). That the order
goes to 63 without a peer table (notes/assumptions/13.md), and that the channel counts it as sent also where 64 orders wait
(notes/assumptions/37.md), are the model's choices. -/
def Obligations.ConfirmTimerExpires : Prop :=
  ∀ (j : Nat) (m : MachineTable) (c : KnifeChannel) (s : State), s.machine = some m → s.knives[j]? = some c → c.state = .moving →
    c.timer.isSome = true → s.ll.resetting = false →
    (∀ k, c.target = some k → c.retries < m.rc →
      exec (.confirmTimerExpiry j) s = .next (endEvent (queueOwn .order
        (match s.peers with | some t => t.knifePositioner | none => 63) none (.knife j k)
        { s with knives := s.knives.set j { c with timer := some m.tKnife, retries := c.retries + 1 } }))) ∧
    (m.rc ≤ c.retries → ∃ x, exec (.confirmTimerExpiry j) s = .next x ∧
      KnifeBecomes j { c with state := .fault, timer := none, cause := .timeout } s x ∧ x.pu = s.pu ∧ x.mt = s.mt ∧
      SameTables s x ∧ SameLink s x ∧
      (NoticesWait s → ∃ n ∈ x.nq.waiting, n.kind = .knifeFault ∧ n.v0 = wNat j ∧ n.v1 = 3 ∧ n.v2 = wOptNat c.reported))

/-- KNIFE_RETRY of a channel in FAULT sends its order again: MOVING with the timer running, no retries used, no fault cause; a channel in
another state is BUSY, a knife number above 24 INVALID, and either changes nothing (R85, R95). That the channel is MOVING also
where 64 orders wait and its order is dropped is read from the rules (notes/assumptions/37.md). -/
def Obligations.KnifeRetryMovesAFaultedKnife : Prop :=
  ∀ (rx : Rx) (b : Byte) (s : State), Asked s rx →
    let s' := passedOn rx (.request true (some 8) [b]) s
    (∀ m c k, s.machine = some m → s.knives[b.toNat]? = some c → c.state = .fault → c.target = some k →
      ∃ x, exec (.knifeRetry rx [b]) s = .next x ∧
        KnifeBecomes b.toNat { c with state := .moving, timer := some m.tKnife, retries := 0, cause := .none } s x ∧
        (s.ll.count .order < 64 → linked s = true → ∃ f ∈ x.ll.own, f.cls = .order ∧ f.body = .knife b.toNat k) ∧
        x.pu = s.pu ∧ x.mt = s.mt ∧ SameTables s x ∧ SameLink s' x ∧ RepliedOnce rx 8 .accepted 0 .empty s' x) ∧
    (∀ c, s.knives[b.toNat]? = some c → c.state ≠ .fault →
      exec (.knifeRetry rx [b]) s = .next (endEvent (answered rx 8 .busy 0 .empty s'))) ∧
    (s.knives[b.toNat]? = none → exec (.knifeRetry rx [b]) s = .next (endEvent (answered rx 8 .invalid 1 .empty s')))

/-! ## Stops -/

namespace Sys2Proof.Claims

/-- A position at which the set is stopped for: at or above P_start, below P_cut where one is held, with the set open (R119). -/
def InStopSpan (s : State) (p : Int) : Prop := OpenFrom s p ∧ ∀ c, s.pCut = some c → p < c

/-- The entry's tentative lanes include a STOP lane (R80, R119). -/
def WantsStop (s : State) (f : Feature) : Prop := ∃ i, (i, Action.stop) ∈ s.resolve f

/-- The predicted position of a Forecast entry (R20, R47). -/
def Predicted (s : State) (y : Forecast) (p : Int) : Prop :=
  ∃ l, s.mt.last = some l ∧ p = l.u + ((y.k : Int) - l.k) * s.mt.rExp + stretchBy y.off s.mt.e

/-- A Settled entry is a defect candidate (R119). -/
def SettledCandidate (s : State) (e : Settled) : Prop :=
  e.feat.served = false ∧ e.table = false ∧ InStopSpan s e.p ∧
    ((e.knife = true ∧ ∃ i ∈ e.items, i.action = .stop) ∨ (e.knife = false ∧ WantsStop s e.feat))

/-- A Forecast entry is a defect candidate at its prediction (R119). -/
def ForecastCandidate (s : State) (y : Forecast) (p : Int) : Prop :=
  y.feat.served = false ∧ Predicted s y p ∧ InStopSpan s p ∧ WantsStop s y.feat

/-- The candidates with their targets, in the order of ties: Settled entries, then Forecast entries, each in list order, then the cut
while its target is held (R119, R120, R129). -/
def TargetsAreTheCandidates : Prop :=
  ∀ (m : MachineTable) (s : State),
    (∀ a t, (a, t) ∈ s.targets m ↔
      (∃ e ∈ s.fq.settled, SettledCandidate s e ∧ a = .entry e.feat.num ∧ t = e.p + m.dSt) ∨
      (∃ y ∈ s.fq.forecast, ∃ p, ForecastCandidate s y p ∧ a = .entry y.feat.num ∧ t = p + m.dSt) ∨
      (a = .cut ∧ s.ss.cutHeld = true ∧ ∃ c, s.pCut = some c ∧ t = c + m.dNip)) ∧
    ∃ (one two : List Nat) (cut : List Aim), one.Sublist (s.fq.settled.map (·.feat.num)) ∧
      two.Sublist (s.fq.forecast.map (·.feat.num)) ∧ (∀ a ∈ cut, a = .cut) ∧
      (s.targets m).map (·.1) = (one ++ two).map Aim.entry ++ cut

/-- The aim of a look: the first of the least targets (R120). -/
def Aims (m : MachineTable) (s : State) (a : Aim) (t : Int) : Prop :=
  ∃ pre post, s.targets m = pre ++ (a, t) :: post ∧ (∀ x ∈ pre, t < x.2) ∧ ∀ x ∈ post, t ≤ x.2

/-- From `s` to `x` a stop has been ordered for an aim (R123): the scheduler is REQUESTED for it, the order goes to the drive, and a LATE
one is noticed. -/
def Sent (m : MachineTable) (a : Aim) (t : Int) (late seen : Bool) (s x : State) : Prop :=
  let kind : StopKind := if a = .cut then .cut else .defect
  let extra : Int := if late then s.stopDistance m - (t - s.pu.u) else 0
  x.ss = { s.ss with
    state := .requested, kind := some kind, aim := some a, aimGone := false, seenOutside := seen, uT := some t
    pW := if a = .cut then none else some (t - m.dSt), late := late, overshoot := extra, jogs := 0, haltError := none
    dS := some (s.stopDistance m) } ∧
  x.pu = s.pu ∧ x.sc = s.sc ∧ (OrdersGo s → Ordered (driveOf s) (.stop kind t late extra) x) ∧
  (late = true → NoticesWait s → (∀ e ∈ s.fq.settled, e.feat.served = false) → ∃ n ∈ x.nq.waiting, n.kind = .stopLate ∧
    n.v0 = (match a with | .entry k => wNat k | .cut => wAbsent) ∧ n.v1 = wInt t ∧ n.v2 = wInt extra)

/-- From `s` to `x` every candidate in the window from w has been taken into the served set, and no other entry (R124). -/
def WindowServed (m : MachineTable) (w : Int) (s x : State) : Prop :=
  ∃ (g : Settled → Bool) (h : Forecast → Bool),
    (∀ e ∈ s.fq.settled, g e = true ↔ e.feat.served = true ∨ (SettledCandidate s e ∧ w ≤ e.p ∧ e.p ≤ w + m.wTab)) ∧
    (∀ y ∈ s.fq.forecast, h y = true ↔
      y.feat.served = true ∨ ∃ p, ForecastCandidate s y p ∧ w ≤ p ∧ p ≤ w + m.wTab) ∧
    x.fq = { s.fq with
      settled := s.fq.settled.map (fun e => { e with feat := { e.feat with served := g e } })
      forecast := s.fq.forecast.map (fun y => { y with feat := { y.feat with served := h y } }) }

/-- An IDLE look (R121, R123, R124): without a candidate the aim is none; an aim outside the stop distance is seen so, and nothing is
sent; one within it is ordered, LATE where it was never seen outside and lies inside, and a defect's window is served. With
the web standing the standstill check follows at once. -/
def IdleLooks : Prop :=
  ∀ (m : MachineTable) (s : State), s.machine = some m → s.ss.state = .idle → s.fq.lawful →
    let d := s.stopDistance m
    (s.targets m = [] → look s = { s with ss := { s.ss with aim := none, aimGone := false, dS := some d } }) ∧
    ∀ a t, Aims m s a t →
      (d < t - s.pu.u →
        look s = { s with ss := { s.ss with
          aim := some a, aimGone := false, dS := some d, seenOutside := true } }) ∧
      (t - s.pu.u ≤ d → ∀ seen : Bool,
        (seen = true ↔ s.ss.seenOutside = true ∧ s.ss.aim = some a ∧ s.ss.aimGone = false) →
        ∃ y, Sent m a t (!seen && decide (t - s.pu.u < d)) seen s y ∧ (a = .cut → y.fq = s.fq) ∧
          (a ≠ .cut → WindowServed m (t - m.dSt) s y) ∧
          look s = if s.pu.dir = .standstill then standstillCheck m y else y)

/-- No served entry is to be dropped: each past its knife station still holds a STOP item (R125). -/
def NoneDropped (s : State) : Prop := ∀ e ∈ s.fq.settled, e.feat.served = true → e.knife = true → ∃ i ∈ e.items, i.action = .stop

/-- The target of the aim of a REQUESTED stop as it stands: of a served entry, settled or predicted, or of the cut held (R120). -/
def AimStands (m : MachineTable) (s : State) (a : Aim) (t : Int) : Prop :=
  s.ss.aim = some a ∧
    ((a = .cut ∧ s.ss.cutHeld = true ∧ ∃ c, s.pCut = some c ∧ t = c + m.dNip) ∨
      (s.ss.aimGone = false ∧ ∃ e ∈ s.fq.settled, a = .entry e.feat.num ∧ e.feat.served = true ∧ t = e.p + m.dSt) ∨
      (s.ss.aimGone = false ∧ ∃ y ∈ s.fq.forecast, ∃ p, a = .entry y.feat.num ∧ y.feat.served = true ∧ Predicted s y p ∧
        t = p + m.dSt))

/-- No candidate that could supersede a stop of kind k has a target below u (R127): no defect, and for a defect stop not the cut. -/
def NoneNearer (m : MachineTable) (k : StopKind) (s : State) (u : Int) : Prop :=
  (∀ e ∈ s.fq.settled, SettledCandidate s e → u ≤ e.p + m.dSt) ∧
    (∀ y ∈ s.fq.forecast, ∀ p, ForecastCandidate s y p → u ≤ p + m.dSt) ∧
    (k = .defect → s.ss.cutHeld = true → ∀ c, s.pCut = some c → u ≤ c + m.dNip)

/-- A stop of this kind is REQUESTED for u; a defect stop serves an entry. -/
def StopStands (k : StopKind) (u : Int) (s : State) : Prop :=
  s.ss.state = .requested ∧ s.ss.kind = some k ∧ s.ss.uT = some u ∧ (k = .defect → 0 < s.fq.servedCount)

/-- A REQUESTED look that no nearer candidate supersedes (R124, R126). A target more than T_pos from the one ordered is ordered anew, under
the late mark and overshoot of the old order, and p_w moves with it; one within leaves the order as it is. A defect stop then
serves its window. An aim that has left the served set passes to the served entry of least position. -/
def RequestedLooks : Prop :=
  ∀ (m : MachineTable) (k : StopKind) (u : Int) (s : State), s.machine = some m → s.fq.lawful → StopStands k u s → NoneDropped s →
    let d := s.stopDistance m
    (∀ a t, (a = .cut ↔ k = .cut) → AimStands m s a t →
      let far : Bool := decide (m.tPos < (t - u).natAbs)
      NoneNearer m k s (if far then t else u) →
      (look s).ss = { s.ss with
        uT := some (if far then t else u), pW := if far = true ∧ k = .defect then some (t - m.dSt) else s.ss.pW, dS := some d } ∧
      (look s).nq = s.nq ∧ (look s).sc = s.sc ∧ (far = false → (look s).ll = s.ll) ∧
      (far = true → OrdersGo s → Ordered (driveOf s) (.stop k t s.ss.late s.ss.overshoot) (look s)) ∧
      (k = .cut → (look s).fq = s.fq) ∧ (k = .defect → ∀ w, (look s).ss.pW = some w → WindowServed m w s (look s))) ∧
    (∀ n e, k = .defect → s.ss.aim = some (.entry n) →
      (s.ss.aimGone = true ∨ (∀ x ∈ s.fq.settled, x.feat.num = n → x.feat.served = false) ∧
        ∀ y ∈ s.fq.forecast, y.feat.num = n → y.feat.served = false) →
      e ∈ s.fq.settled → e.feat.served = true → (∀ x ∈ s.fq.settled, x.feat.served = true → x = e ∨ e.p < x.p) →
      (∀ y ∈ s.fq.forecast, ∀ p, y.feat.served = true → Predicted s y p → e.p ≤ p) →
      (e.p + m.dSt - u).natAbs ≤ m.tPos → NoneNearer m k s u →
      (look s).ss = { s.ss with aim := some (.entry e.feat.num), aimGone := false, dS := some d })

/-- A REQUESTED look that ends the order (R125, R127, R128). The candidate of least target supersedes the stop where its target lies below
the one ordered: its order goes out, LATE where it lies inside the stop distance, and the old served set is released. To a defect
stop the cut is such a candidate as well; to its own stop it is none (R126). A defect stop without a
served entry is cancelled, and the look goes on as in IDLE. A served entry whose final lanes hold no STOP is dropped, also in
CORRECTING. -/
def OrdersGiveWay : Prop :=
  ∀ (m : MachineTable) (k : StopKind) (u : Int) (s : State), s.machine = some m → s.fq.lawful → s.ss.kind = some k →
    (StopStands k u s → NoneDropped s → ∀ a t b v pre post, (a = .cut ↔ k = .cut) → AimStands m s a t → (t - u).natAbs ≤ m.tPos →
      s.targets m = pre ++ (b, v) :: post → (b = .cut → k = .defect) → (∀ x ∈ pre, x.1 ≠ .cut ∨ k = .defect → v < x.2) →
      (∀ x ∈ post, x.1 ≠ .cut ∨ k = .defect → v ≤ x.2) → v < u →
      ∃ y, Sent m b v (decide (v - s.pu.u < s.stopDistance m)) false s y ∧
        (look s = if s.pu.dir = .standstill then standstillCheck m y else y) ∧
        ∀ e ∈ s.fq.settled, e.feat.served = true → e.table = false → NoneDue m s.pu.u e →
          (b = .cut ∨ e.p < v - m.dSt ∨ v - m.dSt + m.wTab < e.p) →
          ∃ x ∈ y.fq.settled, x = { e with feat := { e.feat with served := false } }) ∧
    (s.ss.state = .requested → k = .defect → s.fq.servedCount = 0 →
      look s = look (queueOwn .order (driveOf s) none .cancel { s with ss := { s.ss with
        state := .idle, kind := none, aim := none, aimGone := false, uT := none, pW := none, late := false } })) ∧
    (s.ss.state = .requested ∨ s.ss.state = .correcting → ∀ e ∈ s.fq.settled, e.feat.served = true → e.knife = true →
      (∀ i ∈ e.items, i.action ≠ .stop) → NoneDue m s.pu.u e →
      ∃ x ∈ (look s).fq.settled, x = { e with feat := { e.feat with served := false } })

/-- Each knife station taken in a walk gives the Stop Scheduler a look before the next station is taken (R99, R121). With no station due
the walk changes nothing; with one knife station due a look follows it; with two, the second entry's is taken after the look that
the first gives, unless that look has taken it or the entry is gone. -/
def KnifeStationsLook : Prop :=
  ∀ (m : MachineTable) (s : State), s.machine = some m → s.fq.lawful →
    ((∀ e ∈ s.fq.settled, NoneDue m s.pu.u e) → walk s = s) ∧
    (∀ e ∈ s.fq.settled, KnifeDue m s.pu.u e → (∀ x ∈ s.fq.settled, x = e ∨ NoneDue m s.pu.u x) → walk s = look (takeKnife e s)) ∧
    (∀ pre e mid y post, s.fq.settled = pre ++ e :: mid ++ y :: post → KnifeDue m s.pu.u e → KnifeDue m s.pu.u y →
      (∀ x ∈ pre ++ mid ++ post, NoneDue m s.pu.u x) →
      let s1 := look (takeKnife e s)
      ((∀ x ∈ s1.fq.settled, x.feat.num ≠ y.feat.num ∨ x.knife = true) → walk s = s1) ∧
      ∀ x ∈ s1.fq.settled, x.feat.num = y.feat.num → x.knife = false → walk s = look (takeKnife x s1))

/-- A look in CORRECTING serves the window and neither revises nor supersedes; a look in HALTED changes nothing but d_s (R122, R132,
R133). -/
def LooksAtRest : Prop :=
  ∀ (m : MachineTable) (s : State), s.machine = some m → s.fq.lawful →
    (s.ss.state = .correcting → NoneDropped s →
      (∃ q, look s = { s with fq := q, ss := { s.ss with dS := some (s.stopDistance m) } }) ∧
      (s.ss.kind = some .defect → ∀ w, s.ss.pW = some w → WindowServed m w s (look s)) ∧
      (s.ss.kind ≠ some .defect → (look s).fq = s.fq)) ∧
    (s.ss.state = .halted → look s = { s with ss := { s.ss with dS := some (s.stopDistance m) } })

/-- The check of a standstill (R130, R131): within T_pos of the target the stop is HALTED with its error; farther off a jog of minus
the error is ordered, four times at most, and then it is HALTED all the same. In IDLE and HALTED nothing happens. -/
def Standstills : Prop :=
  ∀ (m : MachineTable) (t : Int) (s : State), s.ss.uT = some t →
    let e := s.pu.u - t
    let jogs := if s.ss.state = .requested then 0 else s.ss.jogs
    (s.ss.state = .idle ∨ s.ss.state = .halted → standstillCheck m s = s) ∧
    (s.ss.state = .requested ∨ s.ss.state = .correcting →
      (m.tPos < e.natAbs → jogs < 4 → standstillCheck m s = queueOwn .order (driveOf s) none (.jog (-e)) { s with
        ss := { s.ss with state := .correcting, jogs := jogs + 1 } }) ∧
      (e.natAbs ≤ m.tPos ∨ 4 ≤ jogs → s.ss.kind ≠ some .cut →
        standstillCheck m s = { s with ss := { s.ss with state := .halted, haltError := some e } }))

/-- COUNT_FRAME applied without an advance, while the Set Controller makes no test of its own: the Stop Scheduler looks, and the
standstill check follows where the direction has come to STANDSTILL with a stop ordered, or with a jog ordered at an earlier
frame (R121, R130, R131). That a jog ordered at this frame is not checked at once is read from the rules
(notes/assumptions/33.md). -/
def FramesLook : Prop :=
  ∀ (rx : Rx) (c t : Word) (m : MachineTable) (s : State), From (·.drive) s rx → s.machine = some m → Applies m c s →
    (s.pu.acc + pulses c s.pu.cPrev * 10000) / (m.ppm : Int) = 0 → s.sc.state ≠ .running → s.sc.state ≠ .approach →
    ∃ x, exec (.countFrame rx c t) s = .next x ∧
      let z := look { passedOn rx (.count c t) s with pu := x.pu }
      x = endEvent (expand (if s.pu.dir ≠ .standstill ∧ x.pu.dir = .standstill ∧
        (z.ss.state = .requested ∨ z.ss.state = .correcting ∧ s.ss.state = .correcting) then standstillCheck m z else z))

end Sys2Proof.Claims

/-- Each look forms the stop distance afresh with the speed and machine table then standing, ceil(v² × 10 / (2 × a_d)) + M_st, the least
such number of whole decimillimetres; at v = 0 it is M_st; and one word of the status body shows the distance formed at the last
look (R122). The candidates, their targets and the aim are those of R119 and R120. An IDLE look aims, and orders within the stop
distance, LATE where the aim was never seen outside (R123); the window is served (R124). A REQUESTED look revises the order beyond
T_pos (R126), gives way to a nearer candidate (R127), cancels it with the last entry served (R128), and drops an entry without STOP
(R125); in CORRECTING it serves, in HALTED it does nothing (R132, R133). A standstill halts or jogs (R130, R131). Each knife station of
a walk gives a look (R99, R121). The mark of an aim that is gone is the model's choice (notes/assumptions/29.md). Read from the rules
are that a defect stop gives way to a cut that lies nearer (notes/assumptions/50.md), the look
before the next station of a walk (notes/assumptions/26.md), one check for
one standstill (notes/assumptions/33.md), the overshoot that a cancel leaves (notes/assumptions/30.md), the order of the rules in a
look (notes/assumptions/31.md), an order dropped that counts as sent (notes/assumptions/37.md), and at a frame the order of the
blocks and the attempt to expand (notes/assumptions/25.md, notes/assumptions/27.md). -/
def Obligations.LookFormsTheStopDistance : Prop :=
  (∀ (m : MachineTable) (s : State), s.machine = some m → 0 < m.aD →
    (∃ d : Int, (look s).ss.dS = some d ∧ (s.pu.v : Int) ^ 2 * 10 ≤ (d - m.mSt) * (2 * m.aD) ∧
      (d - m.mSt - 1) * (2 * m.aD) < (s.pu.v : Int) ^ 2 * 10) ∧
    (s.pu.v = 0 → (look s).ss.dS = some (m.mSt : Int)) ∧ ∃ i : Nat, ∀ t : State, (statusWords t)[i]? = some (wOptInt t.ss.dS)) ∧
  TargetsAreTheCandidates ∧ IdleLooks ∧ RequestedLooks ∧ OrdersGiveWay ∧ KnifeStationsLook ∧ LooksAtRest ∧ Standstills ∧ FramesLook

namespace Sys2Proof.Claims

/-- The fields of REMOVAL_REPORT: the pair count, then lane and amount of each (R134, 10.4). -/
def removalBytes (pairs : List (Nat × Nat)) : List Byte :=
  BitVec.ofNat 8 pairs.length :: pairs.flatMap (fun x => BitVec.ofNat 8 x.1 :: wordBytes (wNat x.2))

/-- A report's pairs pass (R134): at most 24, each lane of the bank once, each amount at most 100,000. -/
def GoodPairs (n : Nat) (pairs : List (Nat × Nat)) : Prop :=
  pairs.length ≤ 24 ∧ (pairs.map (·.1)).Nodup ∧ ∀ x ∈ pairs, x.1 < n ∧ x.2 ≤ 100000

/-- The removal sum of a lane. -/
def removedOf (s : State) (i : Nat) : Nat := (s.sc.removed[i]?).getD 0

/-- The bound of a removal (R135): the web that has reached the table since P_start, and not beyond P_cut when one is held. -/
def boundOf (m : MachineTable) (start : Int) (s : State) : Int :=
  match s.pCut with
  | some c => min (s.pu.u - m.dSt - start) (c - start)
  | none => s.pu.u - m.dSt - start

/-- X and K_cut once removals have been added (R147): X is the lesser of X_max and the repeats, rounded up, that the most removed of any
lane makes, and K_cut moves with it; the cut mark position is that of the new mark K_cut where it has been counted. -/
def MadeUp (b : Bank) (h : Header) (base : Nat) (x : State) : Prop :=
  ∃ most repeats : Nat, (∀ i, i < b.n → removedOf x i ≤ most) ∧ (most = 0 ∨ ∃ i, i < b.n ∧ removedOf x i = most) ∧
    most ≤ repeats * h.rNom ∧ repeats * h.rNom < most + h.rNom ∧ x.sc.x = min b.xMax repeats ∧
    x.sc.kCut = some (base + b.nSet + x.sc.x) ∧
    ((∀ l ∈ x.sc.counted, l.k ≠ base + b.nSet + x.sc.x) → x.sc.cutMark = none)

/-- Nothing is left to stop for once the stop has ended: every Settled entry is past the table, or is served with its lanes final, or
holds final lanes without STOP; no Forecast entry is left, and the cut target is not held. -/
def NothingLeft (s : State) : Prop :=
  (∀ e ∈ s.fq.settled, e.table = true ∨ (e.knife = true ∧ (e.feat.served = true ∨ ∀ i ∈ e.items, i.action ≠ .stop))) ∧
    s.fq.forecast = [] ∧ s.ss.cutHeld = false

/-- The lane actions of a served entry once the listed lanes are cut out and the STOP items left are LOG, not removed (R136). -/
def itemsLeft (lanes : List Nat) (e : Settled) : List LaneItem :=
  (e.items.filter (fun i => !lanes.contains i.lane)).map
    (fun i => if i.action = .stop then { i with action := .log, notRemoved := true } else i)

/-- From `s` to `x` a HALTED defect stop has ended with the listed lanes removed (R136). Where nothing is left to stop for, the scheduler
is IDLE with kind, aim, U_t, p_w, late mark and overshoot cleared, the jog count and the halt error standing. Where it is IDLE
the stop it had is gone and no entry is served. A served entry past its knife station of which no station is due has the items
left to it, or has left the queue where none is; one not yet past it keeps its fields. -/
def StopHasEnded (m : MachineTable) (lanes : List Nat) (s x : State) : Prop :=
  (x.ss.state = .idle → x.ss.kind = none ∧ x.ss.uT = none ∧ x.ss.pW = none ∧ x.ss.late = false ∧ x.fq.servedCount = 0) ∧
  (NothingLeft s → (∀ e ∈ x.fq.settled, e.feat.served = false) ∧ x.ss = { s.ss with
    state := .idle, kind := none, aim := none, aimGone := false, uT := none, pW := none, late := false, overshoot := 0
    dS := some (s.stopDistance m) }) ∧
  (s.fq.lawful → ∀ e ∈ s.fq.settled, e.feat.served = true → NoneDue m s.pu.u e →
    (e.knife = true → (itemsLeft lanes e ≠ [] →
        ∃ y ∈ x.fq.settled, y = { e with items := itemsLeft lanes e, feat := { e.feat with served := false } }) ∧
      (itemsLeft lanes e = [] → ∀ y ∈ x.fq.settled, y.feat.num ≠ e.feat.num)) ∧
    (e.knife = false → e.table = false → StandsAs e x))

/-- No entry has its nip due but one that is held beyond the cut with X frozen (R98, R113). -/
def NoNipDue (m : MachineTable) (s : State) : Prop :=
  ∀ e ∈ s.fq.settled, e.nip = true ∨ s.pu.u - m.dNip < e.p ∨ (e.feat.served = false ∧ s.sc.xFrozen = true ∧ BeyondCut s e.p)

/-- Field n of REMOVAL_REPORT passes under a bank of `lanes` lanes (R134). -/
def PairFieldPasses (lanes : Nat) (count : Byte) (pairs : List (Byte × Word)) (n : Nat) : Prop :=
  (n = 1 → count.toNat ≤ 24 ∧ pairs.length = count.toNat) ∧
    ∀ pre x post, pairs = pre ++ x :: post →
      (n = 2 * (pre.length + 1) → x.1.toNat < lanes ∧ ∀ y ∈ pre, y.1 ≠ x.1) ∧
      (n = 2 * (pre.length + 1) + 1 → x.2.toNat ≤ 100000)

/-- The REMOVED event of a lane (R135). -/
def removedAt (gross : Int) (len : Nat) (suspect : Bool) : Event :=
  { kind := .removed, cls := none, gross := gross.toNat, len := len, origin := none, rep := none, suspect := suspect
    confirmed := false, notRemoved := false, flagShared := false, rejectCause := false }

end Sys2Proof.Claims

/-- REMOVAL_REPORT and RESUME while a DEFECT stop is HALTED end it: no entry stays served unless a new stop has been sent at once. The
amount of each listed lane is added to its sum, clamped to the bound, while the set is open, and no other sum changes; RESUME
changes none (R134 to R137, R147). Each listed lane's open record is given a REMOVED event from p_w of the amount added, SUSPECT where
a served entry of the lane is; RESUME writes none. The listed lanes leave the served entries' actions, a STOP item left is LOG,
not removed, and an entry without items leaves the queue; with nothing left to stop for the scheduler is IDLE, its stop cleared
(R135, R136). Under MAKE_UP, and while X is not frozen, X and K_cut are formed anew from the sums, and otherwise they stand (R147); that
a new K_cut takes the position of its own mark is read from R146 (notes/assumptions/34.md, notes/assumptions/39.md). A field of the
report that fails makes it INVALID with the first such field, and a RESUME with a body is INVALID with field 0; the stop stays
HALTED (R134, R180). While no DEFECT stop is HALTED both are NOT_HALTED and change nothing; that this is judged before the body is
read from the rules (notes/assumptions/19.md). The position, the tracker, the tables, the ports and the knives stand. That a length or a
position beyond the range of 9.1 is kept as it is, is the model's choice (notes/assumptions/15.md). -/
def Obligations.RemovalReportEndsTheStop : Prop :=
  ∀ (rx : Rx) (s : State), Asked s rx →
    (∀ m b pairs, s.machine = some m → s.lpt.active = some b → s.ss.state = .halted → s.ss.kind = some .defect → GoodPairs b.n pairs →
      b.n ≤ 24 →
      let s' := passedOn rx (.request true (some 6) (removalBytes pairs)) s
      ∃ x, exec (.removalReport rx (removalBytes pairs)) s = .next x ∧ (x.ss.state = .idle → x.fq.servedCount = 0) ∧
        (∀ i, (∀ a, (i, a) ∉ pairs) ∨ s.sc.state.open = false → removedOf x i = removedOf s i) ∧
        (∀ i a, (i, a) ∈ pairs → removedOf s i ≤ removedOf x i ∧ removedOf x i ≤ removedOf s i + a) ∧
        (∀ i a start, pairs = [(i, a)] → s.sc.state.open = true → s.sc.pStart = some start → i < s.sc.removed.length →
          removedOf x i = removedOf s i + (min (a : Int) (boundOf m start s - removedOf s i)).toNat) ∧
        StopHasEnded m (pairs.map (·.1)) s x ∧
        (∀ h base, s.ms.current = some h → 0 < h.rNom → s.sc.kBase = some base →
          (pairs ≠ [] → s.sc.state.open = true → b.makeUp = true → s.sc.xFrozen = false → MadeUp b h base x) ∧
          (pairs = [] ∨ s.sc.state.open = false ∨ b.makeUp = false ∨ s.sc.xFrozen = true →
            x.sc.x = s.sc.x ∧ x.sc.kCut = s.sc.kCut ∧ x.sc.cutMark = s.sc.cutMark)) ∧
        (∀ i a w start j r (suspect : Bool), (i, a) ∈ pairs → s.sc.state.open = true → s.sc.pStart = some start → s.ss.pW = some w →
          i < s.sc.removed.length → OpenAt s.rs i j r → NoNipDue m s →
          (suspect = true ↔ ∃ e ∈ s.fq.settled, e.feat.served = true ∧ e.feat.suspect = true ∧ ∃ y ∈ e.items, y.lane = i) →
          x.rs.headers[j]? = some (some (handedTo (removedAt (w - start) (removedOf x i - removedOf s i) suspect) r))) ∧
        x.pu = s.pu ∧ x.mt = s.mt ∧ SameTables s x ∧ SameLink s' x ∧ x.knives = s.knives ∧
        RepliedOnce rx 6 .accepted 0 .empty s' x) ∧
    (∀ m, s.machine = some m → s.ss.state = .halted → s.ss.kind = some .defect →
      ∃ x, exec (.resume rx []) s = .next x ∧ (x.ss.state = .idle → x.fq.servedCount = 0) ∧ x.sc.removed = s.sc.removed ∧
        StopHasEnded m [] s x ∧ (NoNipDue m s → x.rs = s.rs) ∧
        x.pu = s.pu ∧ x.mt = s.mt ∧ SameTables s x ∧ SameLink (passedOn rx (.request true (some 7) []) s) x ∧
        x.knives = s.knives ∧ x.sc.x = s.sc.x ∧ x.sc.kCut = s.sc.kCut ∧
        RepliedOnce rx 7 .accepted 0 .empty (passedOn rx (.request true (some 7) []) s) x) ∧
    (∀ b, s.machine.isSome = true → s.lpt.active = some b → s.ss.state = .halted → s.ss.kind = some .defect →
      (∀ (body : List Byte) (n : Nat), body.length % 5 ≠ 1 ∧ n = 1 ∨ (∃ (count : Byte) (pairs : List (Byte × Word)),
          body = count :: pairs.flatMap (fun y => y.1 :: wordBytes y.2) ∧ FirstFails (PairFieldPasses b.n count pairs) n) →
        exec (.removalReport rx body) s =
          .next (endEvent (answered rx 6 .invalid n .empty (passedOn rx (.request true (some 6) body) s)))) ∧
      ∀ body : List Byte, body ≠ [] → exec (.resume rx body) s =
        .next (endEvent (answered rx 7 .invalid 0 .empty (passedOn rx (.request true (some 7) body) s)))) ∧
    (s.ss.state ≠ .halted ∨ s.ss.kind ≠ some .defect → ∀ body : List Byte,
      exec (.removalReport rx body) s =
        .next (endEvent (answered rx 6 .notHalted 0 .empty (passedOn rx (.request true (some 6) body) s))) ∧
      exec (.resume rx body) s =
        .next (endEvent (answered rx 7 .notHalted 0 .empty (passedOn rx (.request true (some 7) body) s))))

/-! ## Sets and rolls -/

namespace Sys2Proof.Claims

/-- The empty tables of a roll's Map Store (R42). -/
def emptyMap (next : Option Header) : MapStore :=
  { current := none, next := next, slots := List.replicate 16 none, lru := List.replicate 8 false, outstanding := []
    frontier := none, paused := false, run := false }

/-- The Stop Scheduler after ROLL_START and ROLL_END, but for d_s as last formed (R139). -/
def noStop (dS : Option Int) : StopScheduler :=
  { state := .idle, kind := none, aim := none, aimGone := false, seenOutside := false, uT := none, pW := none, late := false
    overshoot := 0, jogs := 0, haltError := none, cutHeld := false, dS := dS }

/-- The Set Controller after ROLL_START and ROLL_END, but for its state, number and start mode (R153, R154, R156). The model's own lists
are empty with it: no mark of the roll has been counted, and no set of it cut (notes/assumptions/34.md, notes/assumptions/35.md). -/
def noneOpened (state : SetState) (num : Nat) (mode : Option StartMode) : SetController :=
  { state := state, num := num, mode := mode, pStart := none, kBase := none, x := 0, xFrozen := false, kCut := none, cutMark := none
    frozenCut := none, lastKCut := none, counted := [], removed := List.replicate 24 0, held := [] }

/-- The distance from the web position to the cut that would follow mark j (R150). -/
def toCutAt (m : MachineTable) (b : Bank) (h : Header) (l : LastMark) (j : Nat) (s : State) : Int :=
  l.u + ((j : Int) - l.k) * s.mt.rExp + ((b.cOff % h.rNom : Nat) : Int) + m.dNip - s.pu.u

/-- The set number that follows (R141). -/
def numberAfter (n : Nat) : Nat := if n < 65535 then n + 1 else 1

/-- The wanted target of a knife under a bank (R87). -/
def wantedOf (b : Bank) (j : Nat) : KnifeTarget := if j ≤ b.n then .pos ((b.knives[j]?).getD 0) else .park

/-- A knife channel as the entry into PREPARING leaves it (R85, R87): as it is where it stands in place for its wanted target or moves
to it; with the new target and no order in FAULT; ordered to the target otherwise. -/
def KnifePrepared (m : MachineTable) (b : Bank) (j : Nat) (c c' : KnifeChannel) : Prop :=
  let t := wantedOf b j
  let left : Prop := c.target = some t ∧ (c.state = .moving ∨ (c.state = .parked ∧ t = .park ∧ c.reportedParked = true) ∨
    (c.state = .inPosition ∧ c.reportedParked = false ∧
      ∃ k p, t = .pos k ∧ c.reported = some p ∧ ((p : Int) - k).natAbs ≤ m.kTol))
  (left → c' = c) ∧ (c.state = .fault → c' = { c with target := some t }) ∧
    (¬ left → c.state ≠ .fault →
      c' = { c with target := some t, state := .moving, timer := some m.tKnife, retries := 0, cause := .none })

/-- The first requests of a roll (R33): the frontier's block and the next P - 1 in the running direction, within the roll. -/
def firstRequests (m : MachineTable) (h : Header) : List Nat :=
  match h.pressRepeat 0 with
  | some r => (List.range m.p).filterMap (fun i =>
      if h.reversed then (if i ≤ r / 32 then some (r / 32 - i) else none)
      else (if r / 32 + i ≤ (h.nT - 1) / 32 then some (r / 32 + i) else none))
  | none => []

/-- Event slots that the records hold: one for each stored event whose fragment has not been sent (R160, R169). -/
def slotsHeld (t : RecordStore) : Nat :=
  (t.headers.map (fun h => match h with | some r => r.events.length - 64 * r.fragments | none => 0)).sum

/-- The gate holds (R143): knives 0..n IN_POSITION at the bank's places and the others PARKED, free slots for the quotas of the bank,
and a free header for each lane. -/
def KnivesReady (b : Bank) (s : State) : Prop :=
  ∀ j c, s.knives[j]? = some c → if j ≤ b.n then c.state = .inPosition ∧ c.target = some (wantedOf b j) else c.state = .parked
def SlotsReady (b : Bank) (s : State) : Prop := (b.lanes.map (·.quota)).sum ≤ 2048 - slotsHeld s.rs
def HeadersReady (b : Bank) (s : State) : Prop := b.n ≤ (s.rs.headers.filter (fun h => h == none)).length

/-- A judgement of the gate that holds opens the set (R143, R145): P_start, K_base, K_cut, no X, no removals and no frozen P_cut; below
a THREAD start no Settled entry is left, and one at or above P_start of which no station is due stands; each lane's record
opens in a free header; the speed limit is lifted and SET_READY queued. While more repeats remain than N_app the set is RUNNING;
the cut mark position is that of mark K_cut where it has been counted. -/
def GateOpensTheSet : Prop :=
  ∀ (m : MachineTable) (b : Bank) (h : Header) (s : State), s.machine = some m → s.lpt.active = some b → s.ms.current = some h →
    s.sc.state = .preparing → s.ss.state = .idle → s.ss.cutHeld = false → s.fq.lawful → b.lanes.length = b.n →
    KnivesReady b s → SlotsReady b s → HeadersReady b s →
    let x := judgeGate s
    let start := if s.sc.mode = some .continue then s.sc.frozenCut.getD 0 else s.pu.u - m.dKn
    let base := s.sc.lastKCut.getD 0
    x.sc.state ≠ .preparing ∧ x.sc.pStart = some start ∧ x.sc.kBase = some base ∧ x.sc.kCut = some (base + b.nSet) ∧
    x.sc.x = 0 ∧ x.sc.removed = List.replicate 24 0 ∧ x.sc.num = s.sc.num ∧
    (∀ r : Int, r = (match s.mt.last with | some l => (base : Int) + b.nSet - l.k | none => b.nSet) → b.nApp < r →
      x.sc.state = .running ∧ x.sc.xFrozen = false ∧ x.sc.frozenCut = none ∧ (s.sc.mode ≠ some .continue →
        ∀ e ∈ x.fq.settled, start ≤ e.p)) ∧
    (∀ pre l post, s.sc.counted = pre ++ l :: post → l.k = base + b.nSet → (∀ y ∈ pre, y.k ≠ base + b.nSet) →
      x.sc.cutMark = some l.u) ∧
    ((∀ l ∈ s.sc.counted, l.k ≠ base + b.nSet) → x.sc.cutMark = none) ∧
    (∀ e ∈ s.fq.settled, s.sc.mode = some .continue ∨ start ≤ e.p → NoneDue m s.pu.u e → StandsAs e x) ∧
    (∀ (i : Nat) (l : LanePlan), b.lanes[i]? = some l → ∃ (j : Nat) (r : ReelRecord), s.rs.headers[j]? = some none ∧ x.rs.headers[j]? = some (some r) ∧
      r.set = s.sc.num ∧ r.lane = i ∧ r.job = b.job ∧ r.roll = h.rollId ∧ r.quota = l.quota ∧ r.totals = none ∧ r.fragments = 0 ∧
      (s.fq.settled = [] → r.events = [] ∧ r.notStored = 0)) ∧
    (OrdersGo s → Ordered (driveOf s) (.speed 0) x) ∧
    (s.fq.settled = [] → NoticesWait s →
      ∃ n ∈ x.nq.waiting, n.kind = .setReady ∧ n.v0 = wNat s.sc.num ∧ n.v1 = wInt start ∧ n.v2 = 0)

/-- A judgement of the gate that fails announces each reason that applies and is not announced yet, KNIFE_FAULT, RECORD_SLOTS,
RECORD_HEADERS in this order, and nothing else changes (R144). -/
def GateHeldIsAnnounced : Prop :=
  ∀ (m : MachineTable) (b : Bank) (applies : HeldReason → Bool) (value : HeldReason → Nat) (s : State), s.machine = some m →
    s.lpt.active = some b → s.sc.state = .preparing → ¬ (KnivesReady b s ∧ SlotsReady b s ∧ HeadersReady b s) →
    (applies .knifeFault = true ↔ ∃ c ∈ s.knives, c.state = .fault) →
    (∀ (j : Nat) c, s.knives[j]? = some c → c.state = .fault → (∀ (i : Nat) c', i < j → s.knives[i]? = some c' → c'.state ≠ .fault) →
      value .knifeFault = j) →
    (applies .recordSlots = true ↔ ¬ SlotsReady b s) → value .recordSlots = 2048 - slotsHeld s.rs →
    (applies .recordHeaders = true ↔ ¬ HeadersReady b s) →
    value .recordHeaders = (s.rs.headers.filter (fun h => h == none)).length →
    let new := [HeldReason.knifeFault, .recordSlots, .recordHeaders].filter (fun r => applies r && !s.sc.held.contains r)
    (judgeGate s).sc = { s.sc with held := s.sc.held ++ new } ∧ { judgeGate s with nq := s.nq, sc := s.sc } = s ∧
      (NoticesWait s → (judgeGate s).nq = { s.nq with waiting := s.nq.waiting ++ new.map (fun r =>
        { kind := .setHeld, u := s.pu.u, v0 := wNat s.sc.num, v1 := wNat r.code, v2 := wNat (value r) }) })

end Sys2Proof.Claims

/-- ROLL_START in NO_SET with every item present gives the blocks their ROLL_START values: U and acc 0 with the baseline kept, SEEKING
with the estimate kept and the expected repeat of the new roll, the next-roll header current, no entries, H_cam at -D_cam, and
a set in preparation or beyond under the number standing; the banks and the tables stand (R9, R22, R23, R67, R153, R185). The
block store is INVALID with its frontier at 0 and the first blocks requested, no lane has a flag, the Stop Scheduler is idle but
for its d_s, and the knives take the bank's positions (R33, R42, R87, R106, R139). The gate of a set in preparation opens it, or
announces what holds it (R143 to R145). At ROLL_START a gate that fails leaves no P_start, K_base, K_cut or cut mark position, X
not frozen, and the reasons just announced as held; a gate that holds opens the roll's first set at the knife line with K_base 0
(R153, R156). That d_s stands in PREPARING is read from R139 against R121 (notes/assumptions/36.md), and
that a knife is MOVING also where 64 orders wait and its order is dropped from the rules (notes/assumptions/37.md). The model's own
lists give an opening set the position of its mark K_cut where it has been counted (notes/assumptions/34.md) and the K_cut of the
set before as its K_base (notes/assumptions/35.md). -/
def Obligations.RollStartSetsTheBlocks : Prop :=
  (∀ (rx : Rx) (m : MachineTable) (b : Bank) (h : Header) (s : State), Asked s rx → s.sc.state = .noSet → s.machine = some m →
    s.peers.isSome = true → s.lpt.active = some b → s.ms.next = some h →
    let s' := passedOn rx (.request true (some 1) []) s
    ∃ x, exec (.rollStart rx []) s = .next x ∧ x.pu = { s.pu with u := 0, acc := 0 } ∧
      x.mt = { state := .seeking, last := none, lastReal := false, miss := 0, e := s.mt.e, rExp := repeatAt h.rNom s.mt.e } ∧
      x.ms.current = some h ∧ x.ms.next = none ∧ x.fq.settled = [] ∧ x.fq.forecast = [] ∧ x.fq.hCam = some (-(m.dCam : Int)) ∧
      x.sc.num = s.sc.num ∧ x.sc.state ≠ .noSet ∧ x.sc.mode = some .thread ∧ x.lpt = s.lpt ∧ x.machine = s.machine ∧
      x.peers = s.peers ∧ SameLink s' x ∧ RepliedOnce rx 1 .accepted 0 .empty s' x ∧
      x.ms.slots = List.replicate 16 none ∧ x.ms.lru = List.replicate 8 false ∧ x.ms.frontier = some 0 ∧ x.ms.paused = false ∧
      x.ms.run = false ∧ (s.ll.count .blockRequest = 0 → m.p ≤ 7 → x.ms.outstanding = firstRequests m h) ∧
      x.fq.flags = List.replicate 24 none ∧
      (1 ≤ b.nSet → x.ss = noStop x.ss.dS) ∧
      (x.sc.state = .preparing → x.ss.dS = s.ss.dS) ∧ x.sc.removed = List.replicate 24 0 ∧ x.sc.x = 0 ∧ x.sc.frozenCut = none ∧
      (x.sc.state = .preparing ↔ ¬ (KnivesReady b x ∧ SlotsReady b s ∧ HeadersReady b s)) ∧
      (x.sc.state = .preparing → x.sc = { noneOpened .preparing s.sc.num (some .thread) with held := x.sc.held } ∧
        ∀ applies : HeldReason → Bool, (applies .knifeFault = true ↔ ∃ c ∈ x.knives, c.state = .fault) →
          (applies .recordSlots = true ↔ ¬ SlotsReady b s) → (applies .recordHeaders = true ↔ ¬ HeadersReady b s) →
          x.sc.held = [HeldReason.knifeFault, .recordSlots, .recordHeaders].filter applies) ∧
      (x.sc.state ≠ .preparing → x.sc.pStart = some (-(m.dKn : Int)) ∧ x.sc.kBase = some 0 ∧ x.sc.kCut = some b.nSet ∧
        x.sc.cutMark = none ∧ x.sc.held = []) ∧
      ∀ (j : Nat) c, j < 25 → s.knives[j]? = some c → ∃ c', x.knives[j]? = some c' ∧ KnifePrepared m b j c c') ∧
  GateOpensTheSet ∧ GateHeldIsAnnounced

namespace Sys2Proof.Claims

/-- A gross length as it is closed (R152, R154): the least number that is not below the length measured and not below any lane's removal
sum. -/
def GrossIs (measured : Int) (s : State) (gross : Nat) : Prop :=
  measured ≤ gross ∧ (∀ i, removedOf s i ≤ gross) ∧ ∀ y : Nat, measured ≤ y → (∀ i, removedOf s i ≤ y) → gross ≤ y

/-- A record as it closes (R163, R164): its totals, SHORT and ROLL_END where they apply, no fragment sent. -/
def closedAs (gross removed repeats : Nat) (short rollEnd : Bool) (r : ReelRecord) : ReelRecord :=
  { r with totals := some { gross := gross, removed := removed, net := gross - removed, repeats := repeats }
           statuses := { r.statuses with short := r.statuses.short || short, rollEnd := r.statuses.rollEnd || rollEnd }
           fragments := 0 }

/-- From `s` to `x` the records of a set have closed (R152, R154, R163 to R165): for each lane of the bank the open record, held in header
`at_ i`, has its totals, is SHORT where more was removed than X repeats, and has joined the end of the send list, lanes
ascending. -/
def SetClosed (b : Bank) (h : Header) (gross repeats : Nat) (rollEnd : Bool) (s x : State) : Prop :=
  ∀ at_ : Nat → Nat, (∀ i, i < b.n → ∃ r, OpenAt s.rs i (at_ i) r) →
    x.rs.sendList = s.rs.sendList ++ (List.range b.n).map at_ ∧
    ∀ i r, i < b.n → OpenAt s.rs i (at_ i) r → x.rs.headers[at_ i]? = some (some
      (closedAs gross (removedOf s i) repeats (decide (s.sc.x * h.rNom < removedOf s i)) rollEnd r))

end Sys2Proof.Claims

/-- ROLL_END outside NO_SET gives the blocks their ROLL_END values: NO_SET with a new set number where records were open and
every other value of the Set Controller none, 0, no or empty, SEEKING with the estimate kept, an empty Map Store but for the next-roll header, an empty queue, the Stop Scheduler with none of its
stop left but the last stop distance; a stop or jog outstanding is cancelled. The tables, the banks, the knives and the Position Unit
stand (R22, R42, R67, R139, R141, R154, R156, R186). That d_s stands though the set state changes is read from R139 against R121
(notes/assumptions/36.md). The open records close with ROLL_END, their lengths and their repeats and join the send list, and in
PREPARING none is closed (R154, R163 to R165). That the repeats are 0 where k_last lies below K_base is read from the rules
(notes/assumptions/34.md). That a length or a position beyond the range of 9.1 is kept as it is, is the model's choice
(notes/assumptions/15.md). -/
def Obligations.RollEndClearsTheBlocks : Prop :=
  ∀ (rx : Rx) (s : State), Asked s rx → s.sc.state ≠ .noSet →
    let s' := passedOn rx (.request true (some 2) []) s
    ∃ x, exec (.rollEnd rx []) s = .next x ∧ 
      x.sc = noneOpened .noSet (if s.sc.state = .preparing then s.sc.num else numberAfter s.sc.num) none ∧
      x.mt = { state := .seeking, last := none, lastReal := false, miss := 0, e := s.mt.e, rExp := s.mt.rExp } ∧
      x.ms = emptyMap s.ms.next ∧ x.fq = { forecast := [], settled := [], hCam := none, flags := List.replicate 24 none } ∧
      x.ss = noStop s.ss.dS ∧
      (s.ss.state = .requested ∨ s.ss.state = .correcting → s.ll.count .order < 64 → linked s = true →
        ∃ f ∈ x.ll.own, f.cls = .order ∧ f.body = .cancel) ∧
      x.pu = s.pu ∧ x.lpt = s.lpt ∧ x.knives = s.knives ∧ x.machine = s.machine ∧ x.peers = s.peers ∧ SameLink s' x ∧
      RepliedOnce rx 2 .accepted 0 .empty s' x ∧
      (s.sc.state = .preparing → x.rs.headers = s.rs.headers ∧ x.rs.sendList = s.rs.sendList) ∧
      ∀ m b h start base gross, s.machine = some m → s.lpt.active = some b → s.ms.current = some h → s.sc.pStart = some start →
        s.sc.kBase = some base → linked s = true →
        (s.sc.state.open = true → GrossIs (s.pu.u - m.dNip - start) s gross →
          SetClosed b h gross (match s.mt.last with | some l => l.k - base | none => 0) true s x) ∧
        (∀ c k, s.sc.state = .changing → s.sc.frozenCut = some c → s.sc.kCut = some k → GrossIs (c - start) s gross →
          SetClosed b h gross (k - base) true s x)

namespace Sys2Proof.Claims

/-- P_cut (R146): as frozen; else, with a mark counted, the cut mark position and the cut offset, or before mark K_cut its prediction and the
offset; else none is held. -/
def CutPosition : Prop :=
  ∀ (b : Bank) (h : Header) (s : State), s.lpt.active = some b → s.ms.current = some h →
    (∀ c, s.sc.frozenCut = some c → s.pCut = some c) ∧
    (s.sc.frozenCut = none → (s.sc.kCut = none ∨ s.mt.last = none → s.pCut = none) ∧
      ∀ k l, s.sc.kCut = some k → s.mt.last = some l →
        (∀ u, s.sc.cutMark = some u → s.pCut = some (u + ((b.cOff % h.rNom : Nat) : Int))) ∧
        (s.sc.cutMark = none →
          s.pCut = some (l.u + ((k : Int) - l.k) * s.mt.rExp + ((b.cOff % h.rNom : Nat) : Int))))

/-- The repeats that remain of the set (R146). -/
def RemainingIs (b : Bank) (s : State) (r : Int) : Prop :=
  ∃ base, s.sc.kBase = some base ∧ r = (match s.mt.last with
    | some l => (base : Int) + b.nSet + s.sc.x - l.k
    | none => (b.nSet : Int) + s.sc.x)

/-- The cut lies no farther off than the stop distance and an expected repeat (R149). -/
def CutNear (m : MachineTable) (s : State) : Prop := ∃ c, s.pCut = some c ∧ c + m.dNip - s.pu.u ≤ s.stopDistance m + s.mt.rExp

/-- The set hands its cut target to the Stop Scheduler, which looks (R129, R149). -/
def handOver (s : State) : State := look { s with sc := { s.sc with state := .cutStop }, ss := { s.ss with cutHeld := true } }

/-- The set enters APPROACH: X is frozen, and the speed order goes out (R148). -/
def approaching (m : MachineTable) (s : State) : State :=
  queueOwn .order (driveOf s) none (.speed m.vApp) { s with sc := { s.sc with state := .approach, xFrozen := true } }

/-- The Set Controller at a mark event and at an applied count frame (R146, R148, R149). A counted mark is recorded, as the cut mark
position where it is mark K_cut. In RUNNING a mark that leaves N_app repeats or fewer, or a frame that finds the cut near, brings
the set into APPROACH; in APPROACH the cut is handed over where no repeat remains or the cut is near. That the two changes of one event
make one look is read from R121 (notes/assumptions/26.md). -/
def ApproachAndHandOver : Prop :=
  ∀ (m : MachineTable) (b : Bank) (k : Nat) (u r : Int) (s : State), s.machine = some m → s.lpt.active = some b →
    let s1 : State := { s with sc := { s.sc with
      counted := { k := k, u := u } :: s.sc.counted, cutMark := if s.sc.kCut = some k then some u else s.sc.cutMark } }
    RemainingIs b s r →
    (s.sc.state = .running →
      (b.nApp < r → setAtMark k u m s = s1) ∧
      (r ≤ b.nApp → (r ≤ 0 ∨ CutNear m s1 → setAtMark k u m s = handOver (approaching m s1)) ∧
        (0 < r → ¬ CutNear m s1 → setAtMark k u m s = look (approaching m s1))) ∧
      (CutNear m s → setAtFrame m s = handOver (approaching m s)) ∧ (¬ CutNear m s → setAtFrame m s = s)) ∧
    (s.sc.state = .approach →
      (r ≤ 0 ∨ CutNear m s1 → setAtMark k u m s = handOver s1) ∧ (0 < r → ¬ CutNear m s1 → setAtMark k u m s = s1) ∧
      (r ≤ 0 ∨ CutNear m s → setAtFrame m s = handOver s) ∧ (0 < r → ¬ CutNear m s → setAtFrame m s = s)) ∧
    (s.sc.state ≠ .running → s.sc.state ≠ .approach → setAtMark k u m s = s1 ∧ setAtFrame m s = s)

/-- A cut stop that comes to rest (R130, R131, R138, R151): P_cut is frozen, the cut order goes out with the set, its lanes, P_cut and the
halt error, the set is in CHANGING, and the scheduler is IDLE with the cut no longer held, in one look (notes/assumptions/26.md). -/
def CutIsMade : Prop :=
  ∀ (m : MachineTable) (b : Bank) (t c : Int) (s : State), s.ss.uT = some t → s.ss.kind = some .cut → s.lpt.active = some b →
    s.pCut = some c → (s.ss.state = .requested ∧ (s.pu.u - t).natAbs ≤ m.tPos ∨
      s.ss.state = .correcting ∧ ((s.pu.u - t).natAbs ≤ m.tPos ∨ 4 ≤ s.ss.jogs)) →
    standstillCheck m s = queueOwn .order (driveOf s) none (.cut s.sc.num b.n c (s.pu.u - t)) { s with
      sc := { s.sc with state := .changing, frozenCut := some c }
      ss := { s.ss with state := .idle, kind := none, aim := none, aimGone := false, uT := none, late := false, cutHeld := false
                        haltError := some (s.pu.u - t), dS := some (s.stopDistance m) } }

end Sys2Proof.Claims

/-- DOFF_NOW in RUNNING or APPROACH once a mark has been counted freezes X and sets K_cut to the smallest mark index above k_last whose
cut still lies a stop distance or more ahead; the set is in CUT_STOP, or already cut in CHANGING where the web stands at the
target (R122, R146, R149 to R151). The Stop Scheduler looks with the cut handed over, and so keeps the nearer target of a defect stop
outstanding and the cut (R150); that the cut then supersedes it is read from the rules (notes/assumptions/50.md). Also read from the
rules are that an attempt to expand ends the event after that look (notes/assumptions/27.md), and that the new K_cut takes the
position of its own mark, were it among the marks counted (notes/assumptions/39.md). The position, the tracker, the tables,
the ports and the knives stand. P_cut is the frozen, the counted or the predicted one (R146), the approach and the hand-over of the cut come at marks and frames as R148 and R149 say, and
the cut stop at rest sends the cut order and enters CHANGING (R138, R151). The list of the marks counted is the model's own
(notes/assumptions/34.md). That the end of a cut stop leaves the overshoot standing (notes/assumptions/30.md), that the approach
and the cut go on also where 64 orders wait and their orders are dropped (notes/assumptions/37.md), and that a hand-over in the
event of the approach, and a cut that halts and returns to IDLE, make one look each where R121 lists each occasion
(notes/assumptions/26.md), are read from the rules. -/
def Obligations.DoffNowCutsAtTheNearestMark : Prop :=
  (∀ (rx : Rx) (m : MachineTable) (b : Bank) (h : Header) (l : LastMark) (s : State), Asked s rx →
    s.sc.state = .running ∨ s.sc.state = .approach → s.machine = some m → s.lpt.active = some b → s.ms.current = some h →
    s.mt.last = some l → 0 < s.mt.rExp →
    let s' := passedOn rx (.request true (some 4) []) s
    ∃ x k, exec (.doffNow rx []) s = .next x ∧ x.sc.kCut = some k ∧ l.k < k ∧ s.stopDistance m ≤ toCutAt m b h l k s ∧
      (∀ j, l.k < j → j < k → toCutAt m b h l j s < s.stopDistance m) ∧ x.sc.xFrozen = true ∧
      (x.sc.state = .cutStop ∨ x.sc.state = .changing) ∧ x.sc.num = s.sc.num ∧ x.sc.removed = s.sc.removed ∧ x.pu = s.pu ∧
      x.mt = s.mt ∧ SameTables s x ∧ x.knives = s.knives ∧ SameLink s' x ∧ RepliedOnce rx 4 .accepted 0 .empty s' x ∧
      x = endEvent (answered rx 4 .accepted 0 .empty (expand (handOver { s' with sc := { s.sc with
        xFrozen := true, kCut := some k, cutMark := (s.sc.counted.find? (fun c => c.k == k)).map (·.u) } })))) ∧
  CutPosition ∧ ApproachAndHandOver ∧ CutIsMade

/-- DOFF_COMPLETE in CHANGING closes the set: the set number advances, an ARMED plan becomes the ACTIVE bank and the next set starts by
threading, and without one the ACTIVE bank stands and the next set continues at the cut (R74, R141, R142, R152). Its records close
with their gross length, removed and net lengths and repeats, SHORT where more than X repeats was removed, and join the send list,
lanes ascending (R152, R163 to R165). The position, the tracker, the tables, the roll headers and the ports stand. That a length or a
position beyond the range of 9.1 is kept as it is, is the model's choice (notes/assumptions/15.md). -/
def Obligations.DoffCompleteChangesTheSet : Prop :=
  ∀ (rx : Rx) (s : State), Asked s rx → s.sc.state = .changing →
    let s' := passedOn rx (.request true (some 5) []) s
    ∃ x, exec (.doffComplete rx []) s = .next x ∧ x.sc.num = numberAfter s.sc.num ∧
      (∀ b, s.lpt.pending = some b → x.lpt = { active := some b, pending := none } ∧ x.sc.mode = some .thread) ∧
      (s.lpt.pending = none → x.lpt = s.lpt ∧ x.sc.mode = some .continue) ∧ x.sc.state ≠ .noSet ∧ x.pu = s.pu ∧ x.mt = s.mt ∧
      x.machine = s.machine ∧ x.peers = s.peers ∧ x.ms.current = s.ms.current ∧ x.ms.next = s.ms.next ∧ SameLink s' x ∧
      RepliedOnce rx 5 .accepted 0 .empty s' x ∧
      ∀ b h start base c k gross, s.lpt.active = some b → s.ms.current = some h → s.sc.pStart = some start → s.sc.kBase = some base →
        s.sc.frozenCut = some c → s.sc.kCut = some k → linked s = true → GrossIs (c - start) s gross →
        SetClosed b h gross (k - base) false s x

/-! ## Reel records -/

namespace Sys2Proof.Claims

/-- The record at the head of the send list and its next fragment, as the frame in flight (R167). -/
def nextFlight (i : Nat) (r : ReelRecord) : RecordInFlight :=
  { header := i, fragment := r.fragments, last := decide (r.events.length ≤ 64 * (r.fragments + 1)) }

/-- The store once the report of a frame has given back what it held (R169). -/
def givenBack (f : RecordInFlight) (t : RecordStore) : RecordStore :=
  { t with
    headers := if f.last then t.headers.set f.header none
      else t.headers.modify f.header (fun h => h.map (fun r => { r with fragments := r.fragments + 1 }))
    sendList := if f.last then t.sendList.erase f.header else t.sendList
    inFlight := none }

/-- The frame of a record's next fragment is among the own frames (R167): events 64f to 64f + 63 to the RECORD_RECEIVER. -/
def Carries (i : Nat) (r : ReelRecord) (s x : State) : Prop :=
  ∃ f ∈ x.ll.own, f.cls = .record ∧ f.dst = (match s.peers with | some t => t.recordReceiver | none => 63) ∧
    f.body = .record r r.fragments (nextFlight i r).last ((r.events.drop (64 * r.fragments)).take 64)

end Sys2Proof.Claims

/-- RECORD_HOLD makes the flow state HELD and changes nothing else. RECORD_RELEASE makes it SENDING; with a frame in flight or no record
waiting no frame follows, and otherwise the next fragment of the record at the head of the send list is passed over at
once (R167, R168, R170). That an attempt to expand ends the event (notes/assumptions/27.md), and that the fragment goes to 63
without a peer table (notes/assumptions/13.md), are the model's choices; where nothing can expand, nothing else follows. -/
def Obligations.RecordFlowHoldsAndReleases : Prop :=
  ∀ (rx : Rx) (s : State), From (·.recordReceiver) s rx →
    exec (.recordHold rx) s = .next (endEvent { passedOn rx (.flow 0) s with rs := { s.rs with held := true } }) ∧
    (s.rs.inFlight ≠ none ∨ s.rs.sendList = [] →
      exec (.recordRelease rx) s = .next (endEvent (expand { passedOn rx (.flow 1) s with rs := { s.rs with held := false } })) ∧
      (s.expandable = none →
        exec (.recordRelease rx) s = .next (endEvent { passedOn rx (.flow 1) s with rs := { s.rs with held := false } }))) ∧
    (∀ i l r, s.rs.sendList = i :: l → s.rs.record i = some r → s.rs.inFlight = none → ownOf .record s = [] → linked s = true →
      ∃ x, exec (.recordRelease rx) s = .next x ∧ x.rs = { s.rs with held := false, inFlight := some (nextFlight i r) } ∧
        Carries i r s x ∧ x.pu = s.pu ∧ x.mt = s.mt ∧ SameTables s x ∧ SameLink (passedOn rx (.flow 1) s) x ∧
        x.knives = s.knives ∧ x.ss = s.ss ∧ x.sc = s.sc ∧ x.fq.settled = s.fq.settled)

/-- REEL_RECORD_SENT gives back the slots of the events sent, or the header and the place in the send list after the last fragment, and
nothing is in flight. While HELD, or with no record left, no frame follows; else the next fragment is passed over at once
(R167 to R170). Outside PREPARING, where the gate is not judged, nothing else of the blocks changes but by the attempt to expand
that ends the event (notes/assumptions/27.md). That what is left of the frame is taken off both ports
(notes/assumptions/6.md), that a fragment goes to 63 without a peer table (notes/assumptions/13.md), and that the report gives back
slots and header also while a RESET waits to take effect (notes/assumptions/52.md), are the model's choices. -/
def Obligations.SentRecordIsGivenBack : Prop :=
  ∀ (f : RecordInFlight) (s : State), s.rs.inFlight = some f → s.ll.voidRecord = false →
    (s.sc.state ≠ .preparing →
      (s.rs.held = true ∨ (givenBack f s.rs).sendList = [] →
        exec .reelRecordSent s = .next (endEvent (expand { s with
          rs := givenBack f s.rs, ll := { s.ll with own := s.ll.own.filter (fun f => f.cls != .record) } }))) ∧
      (∀ i l r, s.rs.held = false → (givenBack f s.rs).sendList = i :: l → (givenBack f s.rs).record i = some r →
        s.station.isSome = true → s.ll.resetting = false → linked s = true →
        ∃ x, exec .reelRecordSent s = .next x ∧ x.rs = { givenBack f s.rs with inFlight := some (nextFlight i r) } ∧
          Carries i r s x ∧ x.pu = s.pu ∧ x.mt = s.mt ∧ SameTables s x ∧ SameLink s x ∧ x.knives = s.knives ∧ x.ss = s.ss ∧
          x.sc = s.sc ∧ x.fq.settled = s.fq.settled)) ∧
    (∃ x, exec .reelRecordSent s = .next x ∧ x.pu = s.pu ∧ x.mt = s.mt ∧ SameTables s x ∧ SameLink s x ∧ x.knives = s.knives ∧
      x.rs.held = s.rs.held)

/-! ## Requests -/

/-- READ_STATUS answers with the status items and READ_TABLE with the row asked for, and neither changes any block; a request of a kind
the part does not know is answered UNKNOWN and changes nothing (R180, R182, R183). A selector or an index outside its range is
INVALID and names its field (R183). The layout of the status items and of a row is the model's choice
(notes/assumptions/24.md), and this statement fixes none of it. That the items of a broadcast READ_STATUS are those after the frame
has been sent on is the model's choice (notes/assumptions/51.md), and so is that they show an entry as held by its nip case as it
stands then (notes/assumptions/58.md). -/
def Obligations.ReadRequestsChangeNothing : Prop :=
  ∀ (rx : Rx) (s : State), Asked s rx →
    exec (.readStatus rx []) s = .next (endEvent (answered rx 1 .accepted 0
      (.status (statusWords (passedOn rx (.request false (some 1) []) s))) (passedOn rx (.request false (some 1) []) s))) ∧
    (∀ sel idx : Nat, (sel = 0 ∧ idx < 1024) ∨ (sel = 1 ∧ idx < 16) ∨ (sel = 2 ∧ idx < 25) ∨ (sel = 3 ∧ idx < 96) →
      let body := wordBytes (wNat sel) ++ wordBytes (wNat idx)
      let s' := passedOn rx (.request false (some 2) body) s
      exec (.readTable rx body) s = .next (endEvent (answered rx 2 .accepted 0 (.row sel idx (rowWords s' sel idx)) s'))) ∧
    (∀ (sel idx : Word), 3 < sel.toNat →
      let body := wordBytes sel ++ wordBytes idx
      exec (.readTable rx body) s =
        .next (endEvent (answered rx 2 .invalid 1 .empty (passedOn rx (.request false (some 2) body) s)))) ∧
    (∀ (sel idx : Word), (sel = 0 ∧ 1024 ≤ idx.toNat) ∨ (sel = 1 ∧ 16 ≤ idx.toNat) ∨ (sel = 2 ∧ 25 ≤ idx.toNat) ∨
        (sel = 3 ∧ 96 ≤ idx.toNat) →
      let body := wordBytes sel ++ wordBytes idx
      exec (.readTable rx body) s =
        .next (endEvent (answered rx 2 .invalid 2 .empty (passedOn rx (.request false (some 2) body) s)))) ∧
    (∀ (line : Bool) (code : Byte) (body : List Byte), knownKind line code = false →
      exec (.unknownRequest rx line code body) s =
        .next (endEvent (answered rx code .unknown 0 .empty (passedOn rx (.request line (some code) body) s))))

namespace Sys2Proof.Claims

/-- The ranges of the machine table's fields (R181). -/
def GoodMachine (own : Nat) (m : MachineTable) : Prop :=
  (2000 ≤ m.ppm ∧ m.ppm ≤ 200000) ∧ (1 ≤ m.dMax ∧ m.dMax ≤ 65535) ∧ (1 ≤ m.sEnc ∧ m.sEnc ≤ 100) ∧
    (100 ≤ m.dCam ∧ m.dCam < m.dKn ∧ m.dKn < m.dSt ∧ m.dSt < m.dFl ∧ m.dFl ≤ m.dNip ∧ m.dNip ≤ 200000) ∧
    (10 ≤ m.wMk ∧ m.wMk ≤ 2000) ∧ (100 ≤ m.aD ∧ m.aD ≤ 10000) ∧ m.mSt ≤ 50000 ∧ (5 ≤ m.tPos ∧ m.tPos ≤ 500) ∧
    (100 ≤ m.wTab ∧ m.wTab ≤ 20000) ∧ (100 ≤ m.vApp ∧ m.vApp ≤ 20000) ∧ m.mMd ≤ 2000 ∧ m.mCd ≤ 500 ∧ m.g ≤ 200 ∧
    m.fMin ≤ 50000 ∧ (1 ≤ m.h ∧ m.h ≤ 4096) ∧ (1 ≤ m.p ∧ m.p ≤ 7) ∧ (16 ≤ m.pLo ∧ m.pLo ≤ 512) ∧
    (17 ≤ m.pHi ∧ m.pHi ≤ 1008 ∧ m.pLo < m.pHi) ∧ (100 ≤ m.tKnife ∧ m.tKnife ≤ 30000) ∧ m.rc ≤ 7 ∧
    (5 ≤ m.kTol ∧ m.kTol ≤ 200) ∧ (1 ≤ m.flagStation ∧ m.flagStation ≤ 62 ∧ m.flagStation ≠ own)

/-- The 26 fields of LOAD_MACHINE that spell a table; where `absent`, those equal to their default are sent as all ones (R181). -/
def machineBytes (absent : Bool) (m : MachineTable) : List Byte :=
  let field := fun (default value : Nat) => if absent = true ∧ value = default then (0xFFFFFFFF : Word) else wNat value
  [wNat m.ppm, wNat m.dMax, field 10 m.sEnc, wNat m.dCam, wNat m.dKn, wNat m.dSt, wNat m.dFl, wNat m.dNip, field 50 m.wMk,
    wNat m.aD, wNat m.mSt, wNat m.tPos, wNat m.wTab, wNat m.vApp, wNat m.mMd, wNat m.mCd, wNat m.g, wNat m.fMin, field 256 m.h,
    field 3 m.p, field 64 m.pLo, field 192 m.pHi, wNat m.tKnife, wNat m.rc, wNat m.kTol, wNat m.flagStation].flatMap wordBytes

/-- The range of a field of LOAD_MACHINE (R181). -/
def machineRange : Nat → Nat × Nat
  | 1 => (2000, 200000) | 2 => (1, 65535) | 3 => (1, 100) | 4 | 5 | 6 | 7 | 8 => (100, 200000) | 9 => (10, 2000)
  | 10 => (100, 10000) | 11 => (0, 50000) | 12 => (5, 500) | 13 | 14 => (100, 20000) | 15 => (0, 2000) | 16 => (0, 500)
  | 17 => (0, 200) | 18 => (0, 50000) | 19 => (1, 4096) | 20 => (1, 7) | 21 => (16, 512) | 22 => (17, 1008)
  | 23 => (100, 30000) | 24 => (0, 7) | 25 => (5, 200) | 26 => (1, 62) | _ => (0, 2 ^ 32)

/-- The value of a field of LOAD_MACHINE, its default where it may be absent and is (R181). -/
def machineField (ws : List Word) (n : Nat) : Nat :=
  if n ∈ [3, 9, 19, 20, 21, 22] ∧ wordAt ws (n - 1) = 2 ^ 32 - 1 then
    (match n with | 3 => 10 | 9 => 50 | 19 => 256 | 20 => 3 | 21 => 64 | _ => 192)
  else wordAt ws (n - 1)

/-- Field n of LOAD_MACHINE passes (R181). -/
def MachineFieldPasses (own : Nat) (ws : List Word) (n : Nat) : Prop :=
  let v := machineField ws
  (machineRange n).1 ≤ v n ∧ v n ≤ (machineRange n).2 ∧ (n = 5 ∨ n = 6 ∨ n = 7 ∨ n = 22 → v (n - 1) < v n) ∧
    (n = 8 → v 7 ≤ v 8) ∧ (n = 26 → v 26 ≠ own)

/-- The seven fields of LOAD_PEERS (R176). -/
def peerBytes (t : PeerTable) : List Byte :=
  [t.drive, t.markSensor, t.inspection, t.knifePositioner, t.lineController, t.mapServer, t.recordReceiver].flatMap
    (fun n => wordBytes (wNat n))

/-- A station that a role may name (R176). -/
def GoodStation (own n : Nat) : Prop := 1 ≤ n ∧ n ≤ 62 ∧ n ≠ own

end Sys2Proof.Claims

/-- LOAD_MACHINE in NO_SET with every field in its range replaces the machine table whole, an absent field taking its default; acc
becomes 0 where PPM changes, and everything else of the position is kept (R8, R181). Of 26 words the first field that fails makes it
INVALID with its number, and a body that is no 26 words is INVALID with field 0; both change nothing (R180, R181). -/
def Obligations.MachineTableIsLoaded : Prop :=
  ∀ (rx : Rx) (own : Nat) (m : MachineTable) (absent : Bool) (s : State), Asked s rx → s.station = some own → s.sc.state = .noSet →
    (∀ (ws : List Word) (n : Nat), ws.length = 26 → FirstFails (MachineFieldPasses own ws) n →
      exec (.loadMachine rx (ws.flatMap wordBytes)) s =
        .next (endEvent (answered rx 3 .invalid n .empty (passedOn rx (.request false (some 3) (ws.flatMap wordBytes)) s)))) ∧
    (∀ body : List Byte, body.length ≠ 104 → exec (.loadMachine rx body) s =
      .next (endEvent (answered rx 3 .invalid 0 .empty (passedOn rx (.request false (some 3) body) s)))) ∧
    (GoodMachine own m →
    exec (.loadMachine rx (machineBytes absent m)) s = .next (endEvent (answered rx 3 .accepted 0 .empty
      { passedOn rx (.request false (some 3) (machineBytes absent m)) s with
        machine := some m
        pu := if s.machine.map (·.ppm) = some m.ppm then s.pu else { s.pu with acc := 0 } })))

/-- LOAD_PEERS in NO_SET replaces the peer table whole; two roles may name one station (R176). A field outside 1..62, or naming the
part itself, makes it INVALID with the number of the first such field, and the table stands. -/
def Obligations.PeerTableIsLoaded : Prop :=
  ∀ (rx : Rx) (own : Nat) (t : PeerTable) (s : State), Asked s rx → s.station = some own → s.sc.state = .noSet →
    ((∀ n ∈ [t.drive, t.markSensor, t.inspection, t.knifePositioner, t.lineController, t.mapServer, t.recordReceiver],
        GoodStation own n) →
      exec (.loadPeers rx (peerBytes t)) s = .next (endEvent (answered rx 4 .accepted 0 .empty
        { passedOn rx (.request false (some 4) (peerBytes t)) s with peers := some t }))) ∧
    (∀ (pre post : List Word) (w : Word), (pre ++ w :: post).length = 7 → (∀ v ∈ pre, GoodStation own v.toNat) →
      ¬ GoodStation own w.toNat →
      let body := (pre ++ w :: post).flatMap wordBytes
      exec (.loadPeers rx body) s = .next (endEvent (answered rx 4 .invalid (pre.length + 1) .empty
        (passedOn rx (.request false (some 4) body) s))))

/-- What a request needs of the part's state is judged first, whatever its body, and a request refused for it changes nothing; R21
says this order of MARK_RESYNC, and of the others it is read from their rules (notes/assumptions/19.md): BUSY outside NO_SET for the
loads of machine and peers and for ROLL_START, BUSY in NO_SET for ROLL_END, BUSY without LOCKED tracking for MARK_RESYNC, BUSY
outside RUNNING and APPROACH for DOFF_NOW and NOT_READY in them before the first mark, BUSY outside CHANGING for DOFF_COMPLETE;
and NOT_READY for ROLL_START, the index naming the first missing item (R21, R150, R152, R176, R181, R185, R186). -/
def Obligations.RequestsRefusedForTheState : Prop :=
  ∀ (rx : Rx) (body : List Byte) (s : State), Asked s rx →
    let turned := fun (c : Instr) (line : Bool) (code : Byte) (status : ReplyStatus) (index : Nat) =>
      exec c s = .next (endEvent (answered rx code status index .empty (passedOn rx (.request line (some code) body) s)))
    (s.sc.state ≠ .noSet → turned (.loadMachine rx body) false 3 .busy 0 ∧ turned (.loadPeers rx body) false 4 .busy 0 ∧
      turned (.rollStart rx body) true 1 .busy 0) ∧
    (s.sc.state = .noSet → turned (.rollEnd rx body) true 2 .busy 0 ∧
      (s.machine = none → turned (.rollStart rx body) true 1 .notReady 1) ∧
      (s.machine.isSome = true → s.peers = none → turned (.rollStart rx body) true 1 .notReady 2) ∧
      (s.machine.isSome = true → s.peers.isSome = true → s.lpt.active = none → turned (.rollStart rx body) true 1 .notReady 3) ∧
      (s.machine.isSome = true → s.peers.isSome = true → s.lpt.active.isSome = true → s.ms.next = none →
        turned (.rollStart rx body) true 1 .notReady 4)) ∧
    (s.mt.state ≠ .locked → turned (.markResync rx body) true 3 .busy 0) ∧
    (s.sc.state ≠ .running → s.sc.state ≠ .approach → turned (.doffNow rx body) true 4 .busy 0) ∧
    (s.sc.state = .running ∨ s.sc.state = .approach → s.mt.last = none → turned (.doffNow rx body) true 4 .notReady 0) ∧
    (s.sc.state ≠ .changing → turned (.doffComplete rx body) true 5 .busy 0)

/-- A request executed with any other status than ACCEPTED leaves the state as it was, with an empty reply body, and a field index only
where a field is INVALID or an item is missing (R180). -/
def Obligations.RefusedRequestChangesNothing : Prop :=
  ∀ (line : Bool) (code : Option Byte) (body : List Byte) (s : State), (execute line code body s).status ≠ .accepted →
    (execute line code body s).state = s ∧ (execute line code body s).body = .empty ∧
      ((execute line code body s).index ≠ 0 →
        (execute line code body s).status = .invalid ∨ (execute line code body s).status = .notReady)

/-- Every table request and line command taken from its bytes, other than RESET, receives exactly one reply, which carries its tag and
its kind and goes to its source; no other reply is queued or lost. When the reply list is full it is not executed, is refused
with BACKLOG and receives none (R177, R180). A request with an empty body, which names no kind, is answered UNKNOWN
(notes/assumptions/18.md), the kind of its reply being a free value (notes/assumptions/23.md). That the bytes run as
PASSING_FRAME are that request is the model's choice (notes/assumptions/16.md). -/
def Obligations.EveryRequestGetsOneReply : Prop :=
  ∀ (rx : Rx) (line : Bool) (code : Byte) (body : List Byte) (s : State), 1 + body.length < 65536 →
    let p : Payload := .request line (some code) body
    (Asked s rx → (line = true ∨ code ≠ 9) →
      ∃ x status index rb, exec (.passingFrame rx.port (.line (frameOf rx p))) s = .next x ∧
        RepliedOnce rx code status index rb (passedOn rx p s) x) ∧
    (Addressed s rx → (∀ t, s.peers = some t → rx.src.toNat = t.lineController) → 16 ≤ s.ll.count .reply →
      exec (.passingFrame rx.port (.line (frameOf rx p))) s =
        .next (endEvent (refused rx.src (if line then 0x21 else 0x20) .backlog (passedOn rx p s)))) ∧
    (Asked s rx → exec (.passingFrame rx.port (.line (frameOf rx (.request line none [])))) s =
      .next (endEvent (answered rx Config.replyKindOfEmpty .unknown 0 .empty (passedOn rx (.request line none []) s))))

end Statements
end

