-- ==== Sys2Proof/Laws/Kept.lean ====
section
/-! SUPPORT. What the shared operations leave alone, and which laws of the state they keep: one relation, `Kept`, that every
operation below the commands satisfies. -/

namespace Sys2Proof.Machine

/-- The part of the state that no operation below the commands changes: the tables, the Position Unit, the Mark Tracker, the
roll headers, the banks, the knife channels, the ports, the replies waiting, and the Line Link Interface's own marks. -/
structure Fixed where
  pending : List Instr
  lookFirst : List Bool
  machine : Option MachineTable
  peers : Option PeerTable
  pu : PositionUnit
  mt : MarkTracker
  current : Option Header
  next : Option Header
  hCam : Option Int
  lpt : LanePlans
  knives : List KnifeChannel
  flow : Bool
  straps : BitVec 6
  portA : PortState
  portB : PortState
  replies : List OwnFrame
  capture : Option Capture
  refusals : Nat
  resetting : Bool
  voidRecord : Bool
  voidNotice : Bool

/-- The replies among the own frames, in order of queuing. -/
def LineLink.replies (l : LineLink) : List OwnFrame := l.own.filter (fun f => f.cls == .reply)

def State.fixed (s : State) : Fixed :=
  { pending := s.pending, lookFirst := s.lookFirst, machine := s.machine, peers := s.peers, pu := s.pu, mt := s.mt
    current := s.ms.current, next := s.ms.next, hCam := s.fq.hCam, lpt := s.lpt, knives := s.knives
    flow := s.rs.held
    straps := s.ll.straps, portA := s.ll.portA, portB := s.ll.portB, replies := s.ll.replies, capture := s.ll.capture
    refusals := s.ll.refusals, resetting := s.ll.resetting, voidRecord := s.ll.voidRecord, voidNotice := s.ll.voidNotice }

/-- The entries of both lists. -/
def FeatureQueue.size (q : FeatureQueue) : Nat := q.forecast.length + q.settled.length

/-- `t` differs from `s` in nothing fixed, and the laws of the blocks that hold of `s` hold of `t`. -/
structure Upholds (s t : State) : Prop where
  fixed : t.fixed = s.fixed
  queue : s.fq.lawful → t.fq.lawful
  map : s.ms.lawful → t.ms.lawful
  notices : s.nq.lawful → t.nq.lawful
  own : s.ll.ownLawful → t.ll.ownLawful
  records : s.rs.lawful → t.rs.lawful
  sets : s.sc.lawful → t.sc.lawful

/-- An operation that upholds, and by which no entry joins the queue. -/
structure Kept (s t : State) : Prop extends Upholds s t where
  size : t.fq.size ≤ s.fq.size

theorem Upholds.refl (s : State) : Upholds s s := ⟨rfl, id, id, id, id, id, id⟩

theorem Upholds.trans {s t u : State} (h : Upholds s t) (k : Upholds t u) : Upholds s u :=
  ⟨k.fixed.trans h.fixed, k.queue ∘ h.queue, k.map ∘ h.map, k.notices ∘ h.notices, k.own ∘ h.own, k.records ∘ h.records,
    k.sets ∘ h.sets⟩

theorem Kept.refl (s : State) : Kept s s := ⟨Upholds.refl s, Nat.le_refl _⟩

theorem Kept.trans {s t u : State} (h : Kept s t) (k : Kept t u) : Kept s u :=
  ⟨h.toUpholds.trans k.toUpholds, Nat.le_trans k.size h.size⟩

/-- A fold of operations that uphold. -/
theorem Upholds.foldl {α : Type} (f : State → α → State) (h : ∀ s x, Upholds s (f s x)) (l : List α) :
    ∀ s, Upholds s (l.foldl f s) := by
  induction l with
  | nil => exact Upholds.refl
  | cons x l ih => exact fun s => (h s x).trans (ih _)

/-- A fold of operations that keep. -/
theorem Kept.foldl {α : Type} (f : State → α → State) (h : ∀ s x, Kept s (f s x)) (l : List α) :
    ∀ s, Kept s (l.foldl f s) := by
  induction l with
  | nil => exact Kept.refl
  | cons x l ih => exact fun s => (h s x).trans (ih _)

/-! ### Updates of one block -/

theorem Kept.stop (s : State) (x : StopScheduler) : Kept s { s with ss := x } :=
  ⟨⟨rfl, id, id, id, id, id, id⟩, Nat.le_refl _⟩

theorem Kept.set (s : State) (x : SetController) (h : s.sc.lawful → x.lawful) : Kept s { s with sc := x } :=
  ⟨⟨rfl, id, id, id, id, id, h⟩, Nat.le_refl _⟩

theorem Kept.setStop (s : State) (x : SetController) (y : StopScheduler) (h : s.sc.lawful → x.lawful) :
    Kept s { s with sc := x, ss := y } :=
  ⟨⟨rfl, id, id, id, id, id, h⟩, Nat.le_refl _⟩

theorem Upholds.queueOf (s : State) (x : FeatureQueue) (hc : x.hCam = s.fq.hCam) (h : s.fq.lawful → x.lawful) :
    Upholds s { s with fq := x } :=
  ⟨by simp [State.fixed, hc], h, id, id, id, id, id⟩

theorem Kept.queueOf (s : State) (x : FeatureQueue) (hc : x.hCam = s.fq.hCam) (h : s.fq.lawful → x.lawful)
    (hs : x.size ≤ s.fq.size) : Kept s { s with fq := x } :=
  ⟨Upholds.queueOf s x hc h, hs⟩

theorem Kept.mapOf (s : State) (x : MapStore) (h1 : x.current = s.ms.current) (h2 : x.next = s.ms.next)
    (h : s.ms.lawful → x.lawful) : Kept s { s with ms := x } :=
  ⟨⟨by simp [State.fixed, h1, h2], id, h, id, id, id, id⟩, Nat.le_refl _⟩

theorem Kept.recordsOf (s : State) (x : RecordStore) (h1 : x.held = s.rs.held) (h : s.rs.lawful → x.lawful) :
    Kept s { s with rs := x } :=
  ⟨⟨by simp [State.fixed, h1], id, id, id, id, h, id⟩, Nat.le_refl _⟩

/-- The same but for the knife channels, which some operations move. -/
def UpholdsBut (s t : State) : Prop := ∃ ks, Upholds { s with knives := ks } t

theorem Upholds.withKnives {s t : State} (h : Upholds s t) (ks : List KnifeChannel) :
    Upholds { s with knives := ks } { t with knives := ks } :=
  ⟨congrArg (fun f : Fixed => { f with knives := ks }) h.fixed, h.queue, h.map, h.notices, h.own, h.records, h.sets⟩

theorem Upholds.but {s t : State} (h : Upholds s t) : UpholdsBut s t := ⟨s.knives, h⟩

theorem UpholdsBut.refl (s : State) : UpholdsBut s s := (Upholds.refl s).but

theorem UpholdsBut.trans {s t u : State} (h : UpholdsBut s t) (k : UpholdsBut t u) : UpholdsBut s u := by
  obtain ⟨ks, h⟩ := h
  obtain ⟨ks', k⟩ := k
  exact ⟨ks', (h.withKnives ks').trans k⟩

theorem UpholdsBut.knives (s : State) (x : List KnifeChannel) : UpholdsBut s { s with knives := x } := ⟨x, Upholds.refl _⟩

/-- A fold of operations that uphold all but the knife channels. -/
theorem UpholdsBut.foldl {α : Type} (f : State → α → State) (h : ∀ s x, UpholdsBut s (f s x)) (l : List α) :
    ∀ s, UpholdsBut s (l.foldl f s) := by
  induction l with
  | nil => exact UpholdsBut.refl
  | cons x l ih => exact fun s => (h s x).trans (ih _)

/-! ### Queuing -/

theorem LineLink.count_append (l : LineLink) (f : OwnFrame) (c : OwnClass) (seq : Half) :
    ({ l with own := l.own ++ [f], seq := seq } : LineLink).count c = l.count c + (if f.cls = c then 1 else 0) := by
  simp only [LineLink.count, List.filter_append, List.length_append]
  by_cases h : f.cls = c <;> simp [h]

/-- Queuing an own frame that is no reply: the ports, the replies and the marks stand, and no class exceeds its capacity. -/
theorem kept_queueOwn (c : OwnClass) (hc : c ≠ .reply) (dst : Nat) (tag : Option Half) (body : OwnBody) (s : State) :
    Kept s (queueOwn c dst tag body s) := by
  unfold queueOwn
  split
  · split
    · rename_i h
      refine ⟨⟨?_, id, id, id, ?_, id, id⟩, Nat.le_refl _⟩
      · simp only [State.fixed, LineLink.replies]
        split <;> simp [hc]
      · intro hl c'
        dsimp only
        split
        · exact hl c'
        · rw [LineLink.count_append]
          have := hl c'
          by_cases hcc : c = c'
          · subst hcc; simp [LineLink.room] at h; simp; omega
          · simp [hcc, this]
    · split
      · exact ⟨⟨rfl, id, id, id, id, id, id⟩, Nat.le_refl _⟩
      · exact Kept.refl s
  · exact Kept.refl s

theorem kept_driveOrder (body : OwnBody) (s : State) : Kept s (driveOrder body s) :=
  kept_queueOwn .order (by decide) _ _ _ _

theorem dropNewest_length (p : Nat) (l : List Notice) (h : ∃ n ∈ l, n.kind.priority = p) :
    (dropNewest p l).length + 1 = l.length := by
  obtain ⟨n, hn, hp⟩ := h
  have := List.length_eraseP_add_one (l := l.reverse) (p := fun n => n.kind.priority == p) (a := n)
    (by simpa using hn) (by simpa using hp)
  simpa [dropNewest] using this

theorem foldl_max_mem (l : List Notice) : ∀ m, l.foldl (fun m n => max m n.kind.priority) m = m ∨
    ∃ n ∈ l, n.kind.priority = l.foldl (fun m n => max m n.kind.priority) m := by
  induction l with
  | nil => intro m; exact .inl rfl
  | cons x l ih =>
    intro m
    simp only [List.foldl_cons]
    rcases ih (max m x.kind.priority) with h | ⟨n, hn, hp⟩
    · by_cases hm : x.kind.priority ≤ m
      · left; rw [h]; omega
      · right; exact ⟨x, by simp, by rw [h]; omega⟩
    · right; exact ⟨n, by simp [hn], hp⟩

/-- A displaced queue is no longer than it was (R188). -/
theorem displace_length (n : Notice) (l : List Notice) : (displace n l).length ≤ l.length := by
  unfold displace
  split
  · rename_i h
    rcases foldl_max_mem l 0 with h0 | hm
    · simp only [lowestPriority] at h; omega
    · have := dropNewest_length (lowestPriority l) l hm
      simp; omega
  · exact Nat.le_refl _

theorem kept_queueNotice (k : NoticeKind) (a b c : Word) (s : State) : Kept s (queueNotice k a b c s) := by
  unfold queueNotice
  split
  · dsimp only
    split
    · refine ⟨⟨rfl, id, id, fun _ => ?_, id, id, id⟩, Nat.le_refl _⟩
      simp only [NoticeQueue.lawful, List.length_append, List.length_singleton]; omega
    · refine ⟨⟨rfl, id, id, fun h => ?_, id, id, id⟩, Nat.le_refl _⟩
      exact Nat.le_trans (displace_length _ _) h
  · exact Kept.refl s

/-! ### The queue's lists -/

theorem insertSettled_perm (e : Settled) (l : List Settled) : (insertSettled e l).Perm (e :: l) := by
  induction l with
  | nil => exact List.Perm.refl _
  | cons x l ih =>
    unfold insertSettled
    split
    · exact (List.Perm.cons x ih).trans (List.Perm.swap e x l)
    · exact List.Perm.refl _

theorem insertForecast_perm (e : Forecast) (l : List Forecast) : (insertForecast e l).Perm (e :: l) := by
  induction l with
  | nil => exact List.Perm.refl _
  | cons x l ih =>
    unfold insertForecast
    split
    · exact (List.Perm.cons x ih).trans (List.Perm.swap e x l)
    · exact List.Perm.refl _

/-- Insertion keeps the Settled list in order (R45). -/
theorem insertSettled_sorted (e : Settled) (l : List Settled) (h : l.Pairwise (fun x y => x.p ≤ y.p)) :
    (insertSettled e l).Pairwise (fun x y => x.p ≤ y.p) := by
  induction l with
  | nil => simp [insertSettled]
  | cons x l ih =>
    rw [List.pairwise_cons] at h
    unfold insertSettled
    split
    · rename_i hx
      rw [List.pairwise_cons]
      refine ⟨fun y hy => ?_, ih h.2⟩
      rcases List.mem_cons.1 ((insertSettled_perm e l).mem_iff.1 hy) with rfl | hy
      · exact hx
      · exact h.1 y hy
    · rename_i hx
      refine List.pairwise_cons.2 ⟨fun y hy => ?_, List.pairwise_cons.2 h⟩
      rcases List.mem_cons.1 hy with rfl | hy
      · omega
      · have := h.1 y hy; omega

theorem Forecast.le_trans {x y z : Forecast} (h : x.le y = true) (k : y.le z = true) : x.le z = true := by
  simp only [Forecast.le, Bool.or_eq_true, Bool.and_eq_true, decide_eq_true_eq, beq_iff_eq] at *
  omega

theorem Forecast.le_total {x y : Forecast} (h : x.le y ≠ true) : y.le x = true := by
  simp only [Forecast.le, Bool.or_eq_true, Bool.and_eq_true, decide_eq_true_eq, beq_iff_eq, ne_eq] at *
  omega

/-- Insertion keeps the Forecast list in order (R45). -/
theorem insertForecast_sorted (e : Forecast) (l : List Forecast) (h : l.Pairwise (fun x y => x.le y = true)) :
    (insertForecast e l).Pairwise (fun x y => x.le y = true) := by
  induction l with
  | nil => simp [insertForecast]
  | cons x l ih =>
    rw [List.pairwise_cons] at h
    unfold insertForecast
    split
    · rename_i hx
      rw [List.pairwise_cons]
      refine ⟨fun y hy => ?_, ih h.2⟩
      rcases List.mem_cons.1 ((insertForecast_perm e l).mem_iff.1 hy) with rfl | hy
      · exact hx
      · exact h.1 y hy
    · rename_i hx
      refine List.pairwise_cons.2 ⟨fun y hy => ?_, List.pairwise_cons.2 h⟩
      rcases List.mem_cons.1 hy with rfl | hy
      · exact Forecast.le_total hx
      · exact Forecast.le_trans (Forecast.le_total hx) (h.1 y hy)

end Sys2Proof.Machine
end

