-- ==== Sys2Proof/Laws/KeptQueue.lean ====
section
/-! SUPPORT. What the operations of the Feature Queue's lists and of the Map Store keep (3.1, 3.2, 2.5, 2.6). -/

namespace Sys2Proof.Machine

/-! ### Slots -/

theorem FeatureQueue.nums_length (q : FeatureQueue) : q.nums.length = q.size := by
  simp [FeatureQueue.nums, FeatureQueue.size]

/-- Every number that the search for a free slot passes is used, and it looks no further than its fuel. -/
theorem firstUnused_spec (used : List Nat) : ∀ fuel n,
    (∀ x, n ≤ x → x < firstUnused used fuel n → x ∈ used) ∧ n ≤ firstUnused used fuel n ∧
      firstUnused used fuel n ≤ n + fuel ∧ (firstUnused used fuel n < n + fuel → firstUnused used fuel n ∉ used) := by
  intro fuel
  induction fuel with
  | zero => intro n; simp [firstUnused]; omega
  | succ fuel ih =>
    intro n
    unfold firstUnused
    split
    · rename_i h
      obtain ⟨h1, h2, h3, h4⟩ := ih (n + 1)
      refine ⟨fun x hx hlt => ?_, by omega, by omega, fun hlt => h4 (by omega)⟩
      by_cases hxn : x = n
      · subst hxn; simpa using h
      · exact h1 x (by omega) hlt
    · rename_i h
      refine ⟨fun x hx hlt => by omega, Nat.le_refl _, by omega, fun _ => by simpa using h⟩

/-- The lowest free slot is free, and no greater than the number of entries (R43). -/
theorem FeatureQueue.freeSlot_spec (q : FeatureQueue) : q.freeSlot ∉ q.nums ∧ q.freeSlot ≤ q.size := by
  obtain ⟨h1, _, h3, h4⟩ := firstUnused_spec q.nums q.nums.length 0
  refine ⟨fun hm => ?_, by rw [← q.nums_length]; simpa [FeatureQueue.freeSlot] using h3⟩
  have heq : q.freeSlot = q.nums.length := by
    have : ¬ firstUnused q.nums q.nums.length 0 < 0 + q.nums.length := fun hlt => h4 hlt hm
    simp only [FeatureQueue.freeSlot]; omega
  have hsub : List.range (q.nums.length + 1) ⊆ q.nums := by
    intro x hx
    rw [List.mem_range] at hx
    by_cases hxl : x = q.nums.length
    · rw [hxl, ← heq]; exact hm
    · exact h1 x (Nat.zero_le _) (by simp only [FeatureQueue.freeSlot] at heq; omega)
  have := (List.nodup_range.subperm hsub).length_le
  simp at this

/-! ### Laws of the lists -/

/-- A change of entries in place that moves neither number nor key keeps the queue's laws. -/
theorem FeatureQueue.lawful_map (q : FeatureQueue) (f : Forecast → Forecast) (g : Settled → Settled)
    (hf : ∀ e, (f e).feat.num = e.feat.num ∧ (f e).k = e.k ∧ (f e).off = e.off)
    (hg : ∀ e, (g e).feat.num = e.feat.num ∧ (g e).p = e.p) (h : q.lawful) :
    ({ q with forecast := q.forecast.map f, settled := q.settled.map g } : FeatureQueue).lawful := by
  obtain ⟨h1, h2, h3, h4, h5⟩ := h
  have hn : ({ q with forecast := q.forecast.map f, settled := q.settled.map g } : FeatureQueue).nums = q.nums := by
    simp [FeatureQueue.nums, Function.comp_def, fun e => (hf e).1, fun e => (hg e).1]
  refine ⟨by rw [hn]; exact h1, by rw [hn]; exact h2, ?_, ?_, h5⟩
  · rw [List.pairwise_map]; exact h3.imp (fun {a b} hab => by rw [(hg a).2, (hg b).2]; exact hab)
  · rw [List.pairwise_map]
    refine h4.imp (fun {a b} hab => ?_)
    simpa [Forecast.le, (hf a).2.1, (hf b).2.1, (hf a).2.2, (hf b).2.2] using hab

/-- Entries taken out of the lists leave the laws standing. -/
theorem FeatureQueue.lawful_filter (q : FeatureQueue) (a : Forecast → Bool) (b : Settled → Bool) (h : q.lawful) :
    ({ q with forecast := q.forecast.filter a, settled := q.settled.filter b } : FeatureQueue).lawful := by
  obtain ⟨h1, h2, h3, h4, h5⟩ := h
  have hs : ({ q with forecast := q.forecast.filter a, settled := q.settled.filter b } : FeatureQueue).nums.Sublist q.nums :=
    List.Sublist.append (List.filter_sublist.map _) (List.filter_sublist.map _)
  exact ⟨h1.sublist hs, fun n hn => h2 n (hs.subset hn), h3.filter _, h4.filter _, h5⟩

/-- A Settled entry that joins in the free slot, with room, keeps the laws (R43, R45). -/
theorem FeatureQueue.lawful_join (q : FeatureQueue) (e : Settled) (hn : e.feat.num = q.freeSlot)
    (hr : q.size < Config.entrySlots) (h : q.lawful) :
    ({ q with settled := insertSettled e q.settled } : FeatureQueue).lawful := by
  obtain ⟨h1, h2, h3, h4, h5⟩ := h
  obtain ⟨hf, hl⟩ := q.freeSlot_spec
  have hp : ({ q with settled := insertSettled e q.settled } : FeatureQueue).nums.Perm (q.freeSlot :: q.nums) := by
    have := ((insertSettled_perm e q.settled).map (fun x => x.feat.num)).append_left (q.forecast.map (·.feat.num))
    refine this.trans ?_
    simp only [List.map_cons, hn, FeatureQueue.nums]
    exact List.perm_middle
  refine ⟨hp.nodup_iff.2 (List.nodup_cons.2 ⟨hf, h1⟩), fun n hm => ?_, insertSettled_sorted e _ h3, h4, h5⟩
  rcases List.mem_cons.1 (hp.mem_iff.1 hm) with rfl | hm
  · omega
  · exact h2 n hm

/-- A Forecast entry that joins in the free slot, with room, keeps the laws (R43, R45). -/
theorem FeatureQueue.lawful_joinForecast (q : FeatureQueue) (e : Forecast) (hn : e.feat.num = q.freeSlot)
    (hr : q.size < Config.entrySlots) (h : q.lawful) :
    ({ q with forecast := insertForecast e q.forecast } : FeatureQueue).lawful := by
  obtain ⟨h1, h2, h3, h4, h5⟩ := h
  obtain ⟨hf, hl⟩ := q.freeSlot_spec
  have hp : ({ q with forecast := insertForecast e q.forecast } : FeatureQueue).nums.Perm (q.freeSlot :: q.nums) := by
    have := ((insertForecast_perm e q.forecast).map (fun x => x.feat.num)).append_right (q.settled.map (·.feat.num))
    refine this.trans ?_
    simp [hn, FeatureQueue.nums]
  refine ⟨hp.nodup_iff.2 (List.nodup_cons.2 ⟨hf, h1⟩), fun n hm => ?_, h3, insertForecast_sorted e _ h4, h5⟩
  rcases List.mem_cons.1 (hp.mem_iff.1 hm) with rfl | hm
  · omega
  · exact h2 n hm

/-! ### Operations of the lists -/

theorem kept_noticeTags (before : Nat) (s : State) : Kept s (noticeTags before s) := by
  unfold noticeTags
  split
  · exact kept_queueNotice ..
  · split
    · exact kept_queueNotice ..
    · exact Kept.refl s

theorem kept_paused (s : State) (b : Bool) : Kept s { s with ms := { s.ms with paused := b } } :=
  Kept.mapOf s _ rfl rfl id

theorem kept_reportFree (s : State) : Kept s (reportFree s) := by
  unfold reportFree
  split
  · exact Kept.refl s
  · split
    · exact (kept_paused s true).trans (kept_queueNotice ..)
    · split
      · exact (kept_paused s false).trans (kept_queueNotice ..)
      · exact Kept.refl s

/-- A change of one Settled entry that moves neither number nor position keeps. -/
theorem kept_changeSettled (num : Nat) (f : Settled → Settled) (hf : ∀ e, (f e).feat.num = e.feat.num ∧ (f e).p = e.p)
    (s : State) : Kept s (changeSettled num f s) := by
  refine Kept.queueOf s _ rfl (fun h => ?_) (by simp [FeatureQueue.size, FeatureQueue.modifySettled])
  have := s.fq.lawful_map id (fun e => if e.feat.num = num then f e else e) (by simp)
    (fun e => by split <;> simp [hf]) h
  simpa [FeatureQueue.modifySettled] using this

theorem kept_tagAll (s : State) : Kept s (tagAll s) :=
  (Kept.queueOf s
    { s.fq with forecast := s.fq.forecast.map Forecast.tag, settled := s.fq.settled.map Settled.tag } rfl
    (s.fq.lawful_map Forecast.tag Settled.tag (fun _ => ⟨rfl, rfl, rfl⟩) (fun _ => ⟨rfl, rfl⟩))
    (by simp [FeatureQueue.size])).trans (kept_noticeTags _ _)

theorem kept_tagSettled (num : Nat) (s : State) : Kept s (tagSettled num s) :=
  (kept_changeSettled num Settled.tag (fun _ => ⟨rfl, rfl⟩) s).trans (kept_noticeTags _ _)

/-- An entry that leaves keeps the laws; nothing joins (R65). -/
theorem kept_leave (num : Nat) (s : State) : Kept s (leave num s) := by
  have h1 : Kept s { s with
      fq := { s.fq with forecast := s.fq.forecast.filter (fun e => e.feat.num != num)
                        settled := s.fq.settled.filter (fun e => e.feat.num != num) } } :=
    Kept.queueOf s _ rfl (s.fq.lawful_filter _ _)
      (Nat.add_le_add (List.length_filter_le _ _) (List.length_filter_le _ _))
  exact ((h1.trans (Kept.stop _ _)).trans (kept_reportFree _)).trans (kept_noticeTags _ _)

theorem kept_clearQueue (s : State) : Kept s (clearQueue s) := by
  refine (Kept.queueOf s { s.fq with forecast := [], settled := [] } rfl (fun h => ?_)
    (by simp [FeatureQueue.size])).trans (kept_noticeTags _ _)
  simpa using s.fq.lawful_filter (fun _ => false) (fun _ => false) h

/-- A Settled entry that joins in the free slot where there is room upholds the laws, and the queue grows by one. -/
theorem upholds_joinSettled (e : Settled) (s : State) (hn : e.feat.num = s.fq.freeSlot) (hr : s.fq.size < Config.entrySlots) :
    Upholds s (joinSettled e s) ∧ (joinSettled e s).fq.size ≤ s.fq.size + 1 := by
  have h := (kept_noticeTags s.fq.tagged { s with fq := { s.fq with settled := insertSettled e s.fq.settled } }).trans
    (kept_reportFree _)
  refine ⟨(Upholds.queueOf s { s.fq with settled := insertSettled e s.fq.settled } rfl
    (s.fq.lawful_join e hn hr)).trans h.toUpholds, Nat.le_trans h.size ?_⟩
  simp [FeatureQueue.size, (insertSettled_perm e s.fq.settled).length_eq]; omega

/-- Free slots are the slots not taken. -/
theorem FeatureQueue.room_of_free {q : FeatureQueue} {n : Nat} (h : n ≤ q.free) : q.size + n ≤ Config.entrySlots ∨ n = 0 := by
  simp only [FeatureQueue.free, FeatureQueue.size] at *; omega

/-! ### The Map Store -/

/-- A block that stands in a slot of its own set is looked up (R32). -/
theorem MapStore.block_isSome {t : MapStore} {i : Nat} {x : Block} (hx : t.slots[i]? = some (some x))
    (hs : x.num % 8 = i / 2) : (t.block x.num).isSome := by
  have hw : t.slot x.num false = some x ∨ t.slot x.num true = some x := by
    have : i = slotOf x.num false ∨ i = slotOf x.num true := by simp only [slotOf]; simp; omega
    rcases this with h | h
    · left; simp only [MapStore.slot, ← h, hx, Option.join_some]
    · right; simp only [MapStore.slot, ← h, hx, Option.join_some]
  unfold MapStore.block MapStore.wayOf
  split
  · rename_i h
    obtain ⟨y, hy, -⟩ := (Option.any_eq_true _ _).1 h
    simp [hy]
  · rename_i h
    rcases hw with hw | hw
    · simp [hw] at h
    · simp [hw]

theorem kept_requestBlock (roll : Word) (b : Nat) (s : State) : Kept s (requestBlock roll b s) := by
  unfold requestBlock
  split
  · exact Kept.refl s
  · split
    · rename_i h _
      refine (kept_queueOwn .blockRequest (by decide) _ _ _ s).trans (Kept.mapOf _ _ rfl rfl (fun hl => ?_))
      have hms : (queueOwn .blockRequest (s.role (·.mapServer)) none (.blockRequest roll b) s).ms = s.ms := by
        unfold queueOwn; split_ifs <;> rfl
      rw [hms] at hl ⊢
      obtain ⟨h1, h2, h3, h4, h5, h6, h7⟩ := hl
      simp only [not_or, Nat.not_le, Bool.not_eq_true, Option.isSome_eq_false_iff] at h
      refine ⟨h1, h2, ?_, ?_, h5, h6, ?_⟩
      · rw [List.nodup_append]; refine ⟨h3, by simp, ?_⟩
        rintro x hx y hy rfl; simp at hy; subst hy; exact h.2.1 hx
      · simp only [List.length_append, List.length_singleton]; omega
      · intro i x hx
        simp only [List.mem_append, List.mem_singleton, not_or]
        refine ⟨h7 i x hx, fun hb => ?_⟩
        subst hb
        have hv := MapStore.block_isSome (t := s.ms) hx (h5 i x hx)
        rw [Option.isNone_iff_eq_none.1 h.1] at hv
        exact absurd hv (by simp)
    · exact Kept.refl s

theorem kept_checkRequests (s : State) : Kept s (checkRequests s) := by
  unfold checkRequests
  split
  · exact Kept.foldl _ (fun s b => kept_requestBlock _ b s) _ s
  · exact Kept.refl s

/-- One entry that joins the Forecast list where there is room (R48). -/
theorem upholds_joinForecast (h : Header) (e : PressEntry) (s : State) (hr : s.fq.size < Config.entrySlots) :
    Upholds s (joinForecast h e s) ∧ (joinForecast h e s).fq.size ≤ s.fq.size + 1 := by
  refine ⟨Upholds.queueOf s _ rfl (s.fq.lawful_joinForecast _ rfl hr), ?_⟩
  simp [joinForecast, FeatureQueue.size, (insertForecast_perm _ s.fq.forecast).length_eq]; omega

theorem upholds_joinForecasts (h : Header) (l : List PressEntry) : ∀ s : State, s.fq.size + l.length ≤ Config.entrySlots →
    Upholds s (l.foldl (fun s e => joinForecast h e s) s) := by
  induction l with
  | nil => exact fun s _ => Upholds.refl s
  | cons e l ih =>
    intro s hr
    simp only [List.length_cons] at hr
    obtain ⟨h1, h2⟩ := upholds_joinForecast h e s (by omega)
    exact h1.trans (ih _ (by omega))

theorem MapStore.use_lawful (b : Nat) (t : MapStore) (h : t.lawful) : (t.use b).lawful := by
  unfold MapStore.use
  split
  · obtain ⟨h1, h2, h3⟩ := h
    exact ⟨h1, by simpa using h2, h3⟩
  · exact h

theorem MapStore.use_headers (b : Nat) (t : MapStore) : (t.use b).current = t.current ∧ (t.use b).next = t.next := by
  unfold MapStore.use
  split <;> exact ⟨rfl, rfl⟩

/-- A mark that expands with room for its entries upholds the laws (R38). -/
theorem upholds_expandOne (h : Header) (f b : Nat) (l : List PressEntry) (s : State)
    (hr : s.fq.size + l.length ≤ Config.entrySlots ∨ l.length = 0) : Upholds s (expandOne h f b l s) := by
  have h1 : Upholds s (l.foldl (fun s e => joinForecast h e s) s) := by
    rcases hr with hr | hr
    · exact upholds_joinForecasts h l s hr
    · rw [List.length_eq_zero_iff.1 hr]; exact Upholds.refl s
  unfold expandOne
  generalize l.foldl (fun s e => joinForecast h e s) s = s1 at h1
  have h2 : Kept s1 { s1 with ms := { s1.ms.use b with run := false, frontier := some (f + 1) } } :=
    Kept.mapOf s1 _ (MapStore.use_headers b s1.ms).1 (MapStore.use_headers b s1.ms).2 (MapStore.use_lawful b s1.ms)
  exact h1.trans (h2.trans ((kept_reportFree _).trans (kept_checkRequests _))).toUpholds

theorem State.expandable_room {s : State} {h : Header} {f b : Nat} {l : List PressEntry}
    (he : s.expandable = some (h, f, b, l)) : l.length ≤ s.fq.free := by
  unfold State.expandable at he
  split at he
  · split at he
    · split at he
      · cases he
      · split at he
        · cases he
        · split at he
          · simp only [Option.some.injEq, Prod.mk.injEq] at he
            obtain ⟨-, -, -, rfl⟩ := he
            assumption
          · cases he
    · cases he
  · cases he

theorem upholds_expandFor (n : Nat) : ∀ s, Upholds s (expandFor n s) := by
  induction n with
  | zero => exact Upholds.refl
  | succ n ih =>
    intro s
    unfold expandFor
    split
    · exact Upholds.refl s
    · rename_i he
      exact (upholds_expandOne _ _ _ _ s (FeatureQueue.room_of_free (State.expandable_room he))).trans (ih _)

theorem upholds_expand (s : State) : Upholds s (expand s) := by
  unfold expand
  split
  · exact Upholds.refl s
  · exact upholds_expandFor _ s

end Sys2Proof.Machine
end

