-- ==== Sys2Proof/Laws/KeptStops.lean ====
section
/-! SUPPORT. What the Record Store, the station logic and the Stop Scheduler keep (chapters 6, 7 and 9). -/

namespace Sys2Proof.Machine

/-! ### Records -/

/-- A change of one header that keeps each record within its quota keeps the store's law (R160). -/
theorem modifyFirst_within (p : Option ReelRecord → Bool) (f : ReelRecord → ReelRecord)
    (hf : ∀ r, r.events.length ≤ r.quota → (f r).events.length ≤ (f r).quota) (l : List (Option ReelRecord))
    (h : ∀ r, some r ∈ l → r.events.length ≤ r.quota) :
    (modifyFirst p f l).length = l.length ∧ ∀ r, some r ∈ modifyFirst p f l → r.events.length ≤ r.quota := by
  induction l with
  | nil => exact ⟨rfl, h⟩
  | cons x l ih =>
    have hl : ∀ r, some r ∈ l → r.events.length ≤ r.quota := fun r hr => h r (by simp [hr])
    unfold modifyFirst
    split
    · refine ⟨by simp, fun r hr => ?_⟩
      rcases List.mem_cons.1 hr with hr | hr
      · cases x with
        | none => cases hr
        | some y => simp only [Option.map_some, Option.some.injEq] at hr; subst hr; exact hf y (h y (by simp))
      · exact hl r hr
    · obtain ⟨h1, h2⟩ := ih hl
      refine ⟨by simp [h1], fun r hr => ?_⟩
      rcases List.mem_cons.1 hr with hr | hr
      · exact h r (by simp [hr])
      · exact h2 r hr

/-- An event handed to a record leaves it within its quota (R160). -/
theorem ReelRecord.take_within (e : Event) (r : ReelRecord) (h : r.events.length ≤ r.quota) :
    (r.take e).events.length ≤ (r.take e).quota := by
  unfold ReelRecord.take
  split
  · simp; omega
  · exact h

theorem kept_handEvent (lane : Nat) (e : Event) (s : State) : Kept s (handEvent lane e s) := by
  refine Kept.recordsOf s _ rfl (fun h => ?_)
  obtain ⟨h1, h2⟩ := modifyFirst_within (openFor lane) (ReelRecord.take e) (ReelRecord.take_within e) s.rs.headers h.2
  exact ⟨h1.trans h.1, h2⟩

theorem kept_markUnverified (s : State) : Kept s (markUnverified s) := by
  refine Kept.recordsOf s _ rfl (fun h => ⟨by simpa [RecordStore.mapOpen] using h.1, fun r hr => ?_⟩)
  simp only [RecordStore.mapOpen, List.mem_map] at hr
  obtain ⟨x, hx, hr⟩ := hr
  cases x with
  | none => cases hr
  | some y =>
    simp only [Option.map_some, Option.some.injEq] at hr
    subst hr
    have := h.2 y hx
    split <;> exact this

theorem takeHeader_within (r : ReelRecord) (hr : r.events.length ≤ r.quota) (l : List (Option ReelRecord))
    (h : ∀ x, some x ∈ l → x.events.length ≤ x.quota) :
    (takeHeader r l).length = l.length ∧ ∀ x, some x ∈ takeHeader r l → x.events.length ≤ x.quota := by
  induction l with
  | nil => exact ⟨rfl, h⟩
  | cons y l ih =>
    have hl : ∀ x, some x ∈ l → x.events.length ≤ x.quota := fun x hx => h x (by simp [hx])
    cases y with
    | none =>
      refine ⟨rfl, fun x hx => ?_⟩
      rcases List.mem_cons.1 hx with hx | hx
      · cases hx; exact hr
      · exact hl x hx
    | some y =>
      obtain ⟨h1, h2⟩ := ih hl
      refine ⟨by simp [takeHeader, h1], fun x hx => ?_⟩
      rcases List.mem_cons.1 hx with hx | hx
      · cases hx; exact h y (by simp)
      · exact h2 x hx

theorem kept_openRecords (set : Nat) (roll : Word) (b : Bank) (s : State) : Kept s (openRecords set roll b s) := by
  refine Kept.recordsOf s _ rfl (fun h => ?_)
  have key : ∀ (l : List (LanePlan × Nat)) (hs : List (Option ReelRecord)), hs.length = Config.recordHeaders →
      (∀ x, some x ∈ hs → x.events.length ≤ x.quota) →
      (l.foldl (fun hs p => takeHeader (newRecord set roll b p.2 p.1.quota) hs) hs).length = Config.recordHeaders ∧
        ∀ x, some x ∈ l.foldl (fun hs p => takeHeader (newRecord set roll b p.2 p.1.quota) hs) hs →
          x.events.length ≤ x.quota := by
    intro l
    induction l with
    | nil => exact fun hs h1 h2 => ⟨h1, h2⟩
    | cons p l ih =>
      intro hs h1 h2
      obtain ⟨k1, k2⟩ := takeHeader_within (newRecord set roll b p.2 p.1.quota) (Nat.zero_le _) hs h2
      exact ih _ (k1.trans h1) k2
  exact key _ _ h.1 h.2

theorem RecordStore.closeLane_lawful (gross removed repeats : Nat) (short rollEnd : Bool) (lane : Nat) (t : RecordStore)
    (h : t.lawful) : (closeLane gross removed repeats short rollEnd lane t).lawful ∧
      (closeLane gross removed repeats short rollEnd lane t).held = t.held := by
  unfold closeLane
  split
  · exact ⟨h, rfl⟩
  · obtain ⟨h1, h2⟩ := modifyFirst_within (openFor lane)
      (fun r => { r with totals := some { gross := gross, removed := removed, net := gross - removed, repeats := repeats }
                         statuses := { r.statuses with short := r.statuses.short || short
                                                       rollEnd := r.statuses.rollEnd || rollEnd }
                         fragments := 0 }) (fun _ hr => hr) t.headers h.2
    exact ⟨⟨h1.trans h.1, h2⟩, rfl⟩

theorem RecordStore.giveBack_lawful (f : RecordInFlight) (t : RecordStore) (h : t.lawful) : (t.giveBack f).lawful := by
  obtain ⟨h1, h2⟩ := h
  unfold RecordStore.giveBack
  refine ⟨by dsimp only; split <;> simpa using h1, fun r hr => ?_⟩
  dsimp only at hr
  split at hr
  · rcases List.mem_or_eq_of_mem_set hr with hr | hr
    · exact h2 r hr
    · cases hr
  · obtain ⟨i, hi⟩ := List.getElem?_of_mem hr
    rw [List.getElem?_modify] at hi
    cases hx : t.headers[i]? with
    | none => simp [hx] at hi
    | some x =>
      have hm := List.mem_of_getElem? hx
      rw [hx] at hi
      simp only [Option.map_eq_map, Option.map_some, Option.some.injEq] at hi
      split at hi
      · cases x with
        | none => cases hi
        | some y => simp only [Option.map_some, Option.some.injEq] at hi; subst hi; exact h2 y hm
      · subst hi; exact h2 r hm

theorem kept_passRecord (i : Nat) (r : ReelRecord) (s : State) : Kept s (passRecord i r s) :=
  (kept_queueOwn .record (by decide) _ _ _ s).trans (Kept.recordsOf _ _ rfl id)

/-! ### Stations -/

theorem kept_takeKnife (e : Settled) (s : State) : Kept s (takeKnife e s) := by
  unfold takeKnife
  dsimp only
  split
  · exact kept_leave _ s
  · exact kept_changeSettled _ (fun x => { x with items := (s.resolve e.feat).map itemOf, knife := true })
      (fun _ => ⟨rfl, rfl⟩) s

theorem kept_missStops (e : Settled) (s : State) : Kept s (missStops e s) := by
  unfold missStops
  have h := kept_changeSettled e.feat.num (fun x => { x with items := x.items.map LaneItem.downgrade }) (fun _ => ⟨rfl, rfl⟩) s
  dsimp only
  split
  · exact h.trans (kept_queueNotice ..)
  · exact h

theorem kept_takeTable (e : Settled) (s : State) : Kept s (takeTable e s) := by
  unfold takeTable
  have h := kept_changeSettled e.feat.num (fun x => { x with table := true }) (fun _ => ⟨rfl, rfl⟩) s
  dsimp only
  split
  · exact h
  · exact h.trans (kept_missStops e _)

theorem foldl_set_length {α : Type} (v : α) (l : List Nat) : ∀ fs : List α,
    (l.foldl (fun fs i => fs.set i v) fs).length = fs.length := by
  induction l with
  | nil => exact fun _ => rfl
  | cons i l ih => exact fun fs => (ih _).trans (List.length_set ..)

/-- A change of the flag history alone. -/
theorem kept_flags (s : State) (x : List (Option Int)) (hx : x.length = s.fq.flags.length) :
    Kept s { s with fq := { s.fq with flags := x } } :=
  Kept.queueOf s _ rfl (fun ⟨h1, h2, h3, h4, h5⟩ => ⟨h1, h2, h3, h4, hx.trans h5⟩) (Nat.le_refl _)

theorem kept_takeFlag (m : MachineTable) (place : Bool) (e : Settled) (s : State) : Kept s (takeFlag m place e s) := by
  unfold takeFlag
  have h := kept_changeSettled e.feat.num
    (fun x => { x with items := e.items.map (s.flagItem m place e.p), flag := true }) (fun _ => ⟨rfl, rfl⟩) s
  dsimp only
  split
  · exact (h.trans (kept_flags _ _ (foldl_set_length _ _ _))).trans (kept_queueOwn .order (by decide) _ _ _ _)
  · exact h

theorem kept_writeEvents (pStart : Int) (e : Settled) (s : State) : Kept s (writeEvents pStart e s) :=
  Kept.foldl (fun s (i : LaneItem) => handEvent i.lane (nipEvent pStart e i) s) (fun s i => kept_handEvent i.lane (nipEvent pStart e i) s)
    e.items s

theorem kept_takeNip (e : Settled) (s : State) : Kept s (takeNip e s) := by
  unfold takeNip
  split
  · exact (kept_writeEvents (s.sc.pStart.getD 0) e s).trans (kept_leave e.feat.num _)
  · exact Kept.refl s
  · exact kept_leave _ s

theorem kept_takeStation (c : Bool) (st : Station) (num : Nat) (s : State) : Kept s (takeStation c st num s) := by
  unfold takeStation
  split
  · split
    · exact kept_takeKnife _ s
    · exact kept_takeTable _ s
    · split
      · exact Kept.refl s
      · exact kept_takeFlag _ _ _ s
    · split
      · exact Kept.refl s
      · exact kept_takeNip _ s
  · exact Kept.refl s

/-- The stations of one look keep the laws, whichever they are (R99). -/
theorem kept_takeAll (m : MachineTable) (c : Option Nat) (l : List DueStation) (s : State) : Kept s (takeAll m c l s) := by
  unfold takeAll
  refine Kept.foldl _ (fun s d => ?_) _ s
  split
  · exact kept_takeStation _ _ _ s
  · exact Kept.refl s

/-- A look at an entry that joins takes stations or nothing (R98). -/
theorem walkJoined_cases (frame : Bool) (num : Nat) (s : State) :
    walkJoined frame num s = s ∨ ∃ m l, walkJoined frame num s = takeAll m none l s := by
  unfold walkJoined
  split
  · split
    · exact .inl rfl
    · exact .inr ⟨_, _, rfl⟩
  · exact .inl rfl

theorem kept_walkJoined (frame : Bool) (num : Nat) (s : State) : Kept s (walkJoined frame num s) := by
  obtain h | ⟨m, l, h⟩ := walkJoined_cases frame num s
  · rw [h]; exact Kept.refl s
  · rw [h]; exact kept_takeAll ..

theorem kept_walkCleared (num : Nat) (s : State) : Kept s (walkCleared num s) := by
  unfold walkCleared
  split
  · exact kept_takeAll ..
  · exact Kept.refl s

theorem kept_clearServed (num : Nat) (s : State) : Kept s (clearServed num s) := by
  unfold clearServed
  split
  · exact Kept.refl s
  · have h := kept_changeSettled num (Settled.setServed false) (fun _ => ⟨rfl, rfl⟩) s
    dsimp only
    split
    · exact (h.trans (kept_missStops _ _)).trans (kept_walkCleared ..)
    · exact h.trans (kept_walkCleared ..)

/-! ### The Stop Scheduler -/

theorem kept_serve (num : Nat) (s : State) : Kept s (serve num s) := by
  refine Kept.queueOf s _ rfl (fun h => ?_)
    (by simp [FeatureQueue.size, FeatureQueue.modifySettled, FeatureQueue.modifyForecast])
  have := s.fq.lawful_map (fun e => if e.feat.num = num then e.setServed true else e)
    (fun e => if e.feat.num = num then e.setServed true else e)
    (fun e => by split <;> simp [Forecast.setServed]) (fun e => by split <;> simp [Settled.setServed]) h
  simpa [FeatureQueue.modifySettled, FeatureQueue.modifyForecast] using this

theorem kept_serveWindow (m : MachineTable) (s : State) : Kept s (serveWindow m s) :=
  Kept.foldl _ (fun s _ => kept_serve _ s) _ s

theorem kept_dropServed (s : State) : Kept s (dropServed s) := Kept.foldl _ (fun s _ => kept_clearServed _ s) _ s

theorem kept_releaseAll (s : State) : Kept s (releaseAll s) := by
  have h : Kept s { s with fq := { s.fq with forecast := s.fq.forecast.map (Forecast.setServed false) } } :=
    Kept.queueOf s _ rfl (fun h => by
      simpa using s.fq.lawful_map (Forecast.setServed false) id (fun _ => ⟨rfl, rfl, rfl⟩) (fun _ => ⟨rfl, rfl⟩) h)
      (by simp [FeatureQueue.size])
  exact h.trans (Kept.foldl (fun s (e : Settled) => clearServed e.feat.num s) (fun s _ => kept_clearServed _ s) _ _)

theorem kept_formDs (m : MachineTable) (s : State) : Kept s (formDs m s) := Kept.stop s _

theorem kept_cutHalt (m : MachineTable) (s : State) : Kept s (cutHalt m s) := by
  unfold cutHalt
  have h := kept_driveOrder (.cut s.sc.num ((s.lpt.active.map (·.n)).getD 0) (s.pCut.getD 0) (s.ss.haltError.getD 0)) s
  dsimp only
  generalize driveOrder (.cut s.sc.num ((s.lpt.active.map (·.n)).getD 0) (s.pCut.getD 0) (s.ss.haltError.getD 0)) s = s1 at h
  exact (h.trans (Kept.setStop s1 _ _ (by exact id))).trans (kept_formDs m _)

theorem kept_halt (m : MachineTable) (e : Int) (s : State) : Kept s (halt m e s) := by
  unfold halt
  dsimp only
  split
  · exact (Kept.stop s _).trans (kept_cutHalt m _)
  · exact Kept.stop s _

theorem kept_standstillCheck (m : MachineTable) (s : State) : Kept s (standstillCheck m s) := by
  unfold standstillCheck
  split
  · exact Kept.refl s
  · dsimp only
    generalize (if s.ss.state = .requested then 0 else s.ss.jogs) = jogs
    split_ifs
    · exact kept_halt m _ s
    · exact (Kept.stop s _).trans (kept_driveOrder _ _)
    · exact kept_halt m _ s
    · exact Kept.refl s

theorem kept_sendStop (m : MachineTable) (aim : Aim) (target : Int) (late : Bool) (s : State) :
    Kept s (sendStop m aim target late s) := by
  have tail : ∀ (x : State) (kind : StopKind) (extra : Int) (v0 : Word),
      let s2 := if kind = .defect then serveWindow m x else x
      let s3 := if late then queueNotice .stopLate v0 (wInt target) (wInt extra) s2 else s2
      Kept x (if s3.pu.dir = .standstill then standstillCheck m s3 else s3) := by
    intro x kind extra v0
    have h2 : Kept x (if kind = .defect then serveWindow m x else x) := by
      split
      · exact kept_serveWindow m x
      · exact Kept.refl x
    generalize (if kind = .defect then serveWindow m x else x) = s2 at h2
    have h3 : Kept x (if late then queueNotice .stopLate v0 (wInt target) (wInt extra) s2 else s2) := by
      split
      · exact h2.trans (kept_queueNotice ..)
      · exact h2
    dsimp only
    generalize (if late then queueNotice .stopLate v0 (wInt target) (wInt extra) s2 else s2) = s3 at h3
    split
    · exact h3.trans (kept_standstillCheck m s3)
    · exact h3
  exact ((Kept.stop s _).trans (kept_driveOrder _ _)).trans (tail _ _ _ _)

theorem kept_idleLook (m : MachineTable) (s : State) : Kept s (idleLook m s) := by
  unfold idleLook
  split
  · exact Kept.stop s _
  · dsimp only
    split
    · exact Kept.stop s _
    · exact (Kept.stop s _).trans (kept_sendStop ..)

theorem kept_cancelStop (s : State) : Kept s (cancelStop s) := (Kept.stop s _).trans (kept_driveOrder _ _)

theorem kept_reviseOrder (m : MachineTable) (s : State) : Kept s (reviseOrder m s) := by
  unfold reviseOrder
  dsimp only
  split
  · split
    · exact (Kept.stop s _).trans (kept_driveOrder _ _)
    · exact Kept.stop s _
  · exact Kept.stop s _

theorem kept_supersede (m : MachineTable) (aim : Aim) (target : Int) (s : State) : Kept s (supersede m aim target s) :=
  ((kept_releaseAll s).trans (Kept.stop _ _)).trans (kept_sendStop ..)

theorem kept_requestedLook (m : MachineTable) (s : State) : Kept s (requestedLook m s) := by
  unfold requestedLook
  have h1 := kept_dropServed s
  dsimp only
  generalize dropServed s = s1 at h1
  split
  · exact (h1.trans (kept_cancelStop s1)).trans (kept_idleLook m _)
  · have h2 := h1.trans (kept_reviseOrder m s1)
    generalize reviseOrder m s1 = s2 at h2
    split
    · exact h2.trans (kept_supersede ..)
    · split
      · exact h2.trans (kept_serveWindow m s2)
      · exact h2

/-- A look of the Stop Scheduler keeps: by a look no entry joins, and nothing fixed moves (R121). -/
theorem kept_look (s : State) : Kept s (look s) := by
  unfold look
  split
  · exact Kept.refl s
  · rename_i m _
    have h0 := kept_formDs m s
    dsimp only
    generalize formDs m s = s0 at h0
    split
    · exact h0.trans (kept_idleLook m s0)
    · exact h0.trans (kept_requestedLook m s0)
    · have h1 := h0.trans (kept_dropServed s0)
      split
      · exact h1.trans (kept_serveWindow m _)
      · exact h1
    · exact h0

/-! ### The walk -/

theorem kept_walkStation (m : MachineTable) (s : State) (d : DueStation) : Kept s (walkStation m s d) := by
  unfold walkStation
  split
  · dsimp only
    split
    · exact (kept_takeStation _ _ _ s).trans (kept_look _)
    · exact kept_takeStation _ _ _ s
  · exact Kept.refl s

/-- A walk with no station due changes nothing (R98). -/
theorem walk_of_none_due (m : MachineTable) (s : State) (h : s.machine = some m) (hd : s.dueList m = []) : walk s = s := by
  simp [walk, h, hd]

/-- A walk is its due stations, one after another, in their order (R99). -/
theorem walk_eq (m : MachineTable) (s : State) (h : s.machine = some m) : walk s = (s.dueList m).foldl (walkStation m) s := by
  simp [walk, h]

theorem kept_walk (s : State) : Kept s (walk s) := by
  unfold walk
  split
  · exact Kept.refl s
  · exact Kept.foldl _ (fun s d => kept_walkStation _ s d) _ s

end Sys2Proof.Machine
end

