-- ==== Sys2Proof/Laws/KeptSets.lean ====
section
/-! SUPPORT. What the Set Controller, the Knife Channels and the sending of records keep (chapters 5, 8 and 9). -/

namespace Sys2Proof.Machine

theorem Kept.but {s t : State} (h : Kept s t) : UpholdsBut s t := h.toUpholds.but


/-! ### The cycle of a set -/

theorem kept_enterCutStop (s : State) : Kept s (enterCutStop s) :=
  (Kept.setStop s { s.sc with state := .cutStop } { s.ss with cutHeld := true } (fun h => h)).trans (kept_look _)

theorem kept_cutTest (m : MachineTable) (s : State) : Kept s (cutTest m s) := by
  unfold cutTest
  split
  · exact kept_enterCutStop s
  · exact Kept.refl s

theorem kept_enterApproach (m : MachineTable) (s : State) : Kept s (enterApproach m s) := by
  unfold enterApproach
  have h1 : Kept s (driveOrder (.speed m.vApp) { s with sc := { s.sc with state := .approach, xFrozen := true } }) :=
    (Kept.set s { s.sc with state := .approach, xFrozen := true } (fun h => h)).trans (kept_driveOrder _ _)
  dsimp only
  generalize driveOrder (.speed m.vApp) { s with sc := { s.sc with state := .approach, xFrozen := true } } = s1 at h1
  have h2 := h1.trans (kept_cutTest m s1)
  split
  · exact h2.trans (kept_look _)
  · exact h2

theorem kept_approachTest (m : MachineTable) (s : State) : Kept s (approachTest m s) := by
  unfold approachTest
  dsimp only
  split
  · exact kept_enterApproach m s
  · exact Kept.refl s

theorem kept_setAtFrame (m : MachineTable) (s : State) : Kept s (setAtFrame m s) := by
  unfold setAtFrame
  split
  · split
    · exact kept_enterApproach m s
    · exact Kept.refl s
  · exact kept_cutTest m s

theorem kept_setAtMark (k : Nat) (u : Int) (m : MachineTable) (s : State) : Kept s (setAtMark k u m s) := by
  unfold setAtMark
  have h1 : Kept s { s with sc := s.sc.mark k u } := Kept.set s (s.sc.mark k u) (fun h => h)
  dsimp only
  split
  · exact h1.trans (kept_approachTest m _)
  · exact h1.trans (kept_cutTest m _)

theorem kept_discardWaste (p : Int) (s : State) : Kept s (discardWaste p s) :=
  Kept.foldl (fun s (e : Settled) => leave e.feat.num s) (fun s (e : Settled) => kept_leave e.feat.num s) _ s

theorem SetController.opened_lawful (t : SetController) (p : Int) (n : Nat) (h : t.lawful) : (t.opened p n).lawful :=
  ⟨h.1, h.2.1, by simp [SetController.opened, SetController.aimCut]⟩

/-- The opening of a set keeps: it only lets entries leave (R145). -/
theorem kept_openSet (m : MachineTable) (b : Bank) (s : State) : Kept s (openSet m b s) := by
  have tail : ∀ (start : Int) (x : State) (roll : Word), Kept x (approachTest m (look (walk
      (queueNotice .setReady (wNat (driveOrder (.speed 0) (openRecords x.sc.num roll b x)).sc.num) (wInt start) 0
        (driveOrder (.speed 0) (openRecords x.sc.num roll b x)))))) := by
    intro start x roll
    have h := (kept_openRecords x.sc.num roll b x).trans (kept_driveOrder (.speed 0) _)
    generalize driveOrder (.speed 0) (openRecords x.sc.num roll b x) = y at h
    exact (((h.trans (kept_queueNotice ..)).trans (kept_walk _)).trans (kept_look _)).trans (kept_approachTest m _)
  unfold openSet
  have h1 : Kept s (if s.sc.mode = some .continue then s else discardWaste (s.startAt m) s) := by
    split
    · exact Kept.refl s
    · exact kept_discardWaste _ s
  dsimp only
  generalize (if s.sc.mode = some .continue then s else discardWaste (s.startAt m) s) = s1 at h1
  exact (h1.trans (Kept.set s1 (s1.sc.opened (s.startAt m) b.nSet) (SetController.opened_lawful _ _ _))).trans
    (tail (s.startAt m) _ _)

theorem kept_announce (r : HeldReason) (b : Bool) (v : Nat) (s : State) : Kept s (announce r b v s) := by
  unfold announce
  split
  · exact (Kept.set s { s.sc with held := s.sc.held ++ [r] } (fun h => h)).trans (kept_queueNotice ..)
  · exact Kept.refl s

theorem kept_announceHeld (b : Bank) (s : State) : Kept s (announceHeld b s) :=
  ((kept_announce ..).trans (kept_announce ..)).trans (kept_announce ..)

theorem kept_judgeGate (s : State) : Kept s (judgeGate s) := by
  unfold judgeGate
  split
  · split
    · split
      · exact kept_openSet _ _ s
      · exact kept_announceHeld _ s
    · exact Kept.refl s
  · exact Kept.refl s

/-! ### Sending records -/

theorem kept_recordSent (s : State) : Kept s (recordSent s) := by
  unfold recordSent
  split
  · exact Kept.refl s
  · rename_i f _
    exact (Kept.recordsOf s (s.rs.giveBack f) rfl (RecordStore.giveBack_lawful f s.rs)).trans (kept_judgeGate _)

theorem kept_pumpRecords (n : Nat) : ∀ s, Kept s (pumpRecords n s) := by
  induction n with
  | zero => exact Kept.refl
  | succ n ih =>
    intro s
    unfold pumpRecords
    split
    · exact Kept.refl s
    · rename_i i r _
      have h := kept_passRecord i r s
      dsimp only
      generalize passRecord i r s = s1 at h
      split
      · exact (h.trans (kept_recordSent s1)).trans (ih _)
      · exact h

theorem kept_sendRecords (s : State) : Kept s (sendRecords s) := kept_pumpRecords _ s

/-! ### The Knife Channels -/

theorem but_changeKnife (j : Nat) (f : KnifeChannel → KnifeChannel) (s : State) : UpholdsBut s (changeKnife j f s) :=
  UpholdsBut.knives s _

theorem but_sendKnife (m : MachineTable) (fresh : Bool) (j : Nat) (s : State) : UpholdsBut s (sendKnife m fresh j s) := by
  unfold sendKnife
  split
  · exact UpholdsBut.refl s
  · exact (but_changeKnife j _ s).trans (kept_queueOwn .order (by decide) _ _ _ _).but

theorem but_prepareKnife (m : MachineTable) (b : Bank) (s : State) (j : Nat) : UpholdsBut s (prepareKnife m b s j) := by
  unfold prepareKnife
  dsimp only
  split
  · exact UpholdsBut.refl s
  · split
    · exact UpholdsBut.refl s
    · have h := but_changeKnife j (fun c => { c with target := some (b.wantedTarget j) }) s
      split
      · exact h
      · exact h.trans (but_sendKnife m true j _)

theorem but_prepareKnives (s : State) : UpholdsBut s (prepareKnives s) := by
  unfold prepareKnives
  split
  · exact UpholdsBut.foldl _ (fun s j => but_prepareKnife _ _ s j) _ s
  · exact UpholdsBut.refl s

theorem but_enterPreparing (s : State) : UpholdsBut s (enterPreparing s) :=
  ((Kept.set s { s.sc with state := .preparing, held := [] } (fun h => h)).but.trans (but_prepareKnives _)).trans
    (kept_judgeGate _).but

end Sys2Proof.Machine
end

