-- ==== Sys2Proof/Laws/KeptMarks.lean ====
section
/-! SUPPORT. What counted marks, spans and position events keep (chapters 1 to 3): joining with room, settling, late handling,
and the Mark Tracker's own laws. -/

namespace Sys2Proof.Machine

/-! ### Joining -/

/-- An entry that joins in the free slot where there is room and is judged at once (R45, R100, R121). -/
theorem upholds_joinJudged (frame : Bool) (e : Settled) (s : State) (hn : e.feat.num = s.fq.freeSlot) (hr : s.fq.size < Config.entrySlots) :
    Upholds s (joinJudged frame e s) ∧ (joinJudged frame e s).fq.size ≤ s.fq.size + 1 := by
  obtain ⟨h1, h2⟩ := upholds_joinSettled e s hn hr
  have h := (kept_walkJoined frame e.feat.num (joinSettled e s)).trans (kept_look _)
  exact ⟨h1.trans h.toUpholds, Nat.le_trans h.size h2⟩

theorem upholds_placeOne (frame : Bool) (h : Header) (u : Int) (s : State) (x : PressEntry) (hr : s.fq.size < Config.entrySlots) :
    Upholds s (placeOne frame h u s x) ∧ (placeOne frame h u s x).fq.size ≤ s.fq.size + 1 :=
  upholds_joinJudged frame (h.placedOf s.fq.freeSlot u s.mt.e s.mt.state.doubtful x) s rfl hr

theorem upholds_placeAll (frame : Bool) (h : Header) (u : Int) (l : List PressEntry) : ∀ s : State,
    s.fq.size + l.length ≤ Config.entrySlots → Upholds s (l.foldl (placeOne frame h u) s) := by
  induction l with
  | nil => exact fun s _ => Upholds.refl s
  | cons x l ih =>
    intro s hr
    simp only [List.length_cons] at hr
    obtain ⟨h1, h2⟩ := upholds_placeOne frame h u s x (by omega)
    exact h1.trans (ih _ (by omega))

/-! ### Spans and late handling -/

theorem upholds_handSpan (frame : Bool) (m : MachineTable) (kind : FeatKind) (p : Int) (len : Nat) (s : State) :
    Upholds s (handSpan frame m kind p len s) := by
  unfold handSpan
  split
  · rename_i e _
    have h := kept_changeSettled e.feat.num (fun x => { x with feat := { x.feat with len := spanLength e p len } })
      (fun _ => ⟨rfl, rfl⟩) s
    dsimp only
    split
    · exact (h.trans (kept_tagSettled _ _)).toUpholds
    · exact h.toUpholds
  · split
    · rename_i hf
      refine (upholds_joinJudged frame _ s rfl ?_).1
      simp only [FeatureQueue.free, FeatureQueue.size] at *; omega
    · exact ((kept_markUnverified s).trans (kept_queueNotice ..)).toUpholds

theorem kept_advanceFrontier (k : Nat) (run : Bool) (s : State) : Kept s (advanceFrontier k run s) :=
  Kept.mapOf s _ rfl rfl id

theorem kept_use (b : Nat) (s : State) : Kept s { s with ms := s.ms.use b } :=
  Kept.mapOf s _ (MapStore.use_headers b s.ms).1 (MapStore.use_headers b s.ms).2 (MapStore.use_lawful b s.ms)

theorem kept_abandon (b : Nat) (s : State) : Kept s { s with ms := { s.ms with outstanding := s.ms.outstanding.erase b } } :=
  Kept.mapOf s _ rfl rfl (fun ⟨h1, h2, h3, h4, h5, h6, h7⟩ =>
    ⟨h1, h2, h3.erase b, Nat.le_trans (List.length_erase_le) h4, h5, h6, fun i x hx hm => h7 i x hx (List.mem_of_mem_erase hm)⟩)

theorem upholds_placeRepeat (frame : Bool) (h : Header) (k : Nat) (u : Int) (b : Nat) (l : List PressEntry) (s : State)
    (hr : s.fq.size + l.length ≤ Config.entrySlots ∨ l.length = 0) : Upholds s (placeRepeat frame h k u b l s) := by
  unfold placeRepeat
  have h1 : Kept s (advanceFrontier k false { s with ms := s.ms.use b }) := (kept_use b s).trans (kept_advanceFrontier ..)
  have hs : (advanceFrontier k false { s with ms := s.ms.use b }).fq = s.fq := rfl
  dsimp only
  generalize advanceFrontier k false { s with ms := s.ms.use b } = s1 at h1 hs
  refine h1.toUpholds.trans (Upholds.trans ?_ (kept_checkRequests _).toUpholds)
  rcases hr with hr | hr
  · exact upholds_placeAll frame h u l s1 (by rw [hs]; exact hr)
  · rw [List.length_eq_zero_iff.1 hr]; exact Upholds.refl s1

theorem upholds_spanUnmapped (frame : Bool) (m : MachineTable) (h : Header) (k r : Nat) (u : Int) (s : State) :
    Upholds s (spanUnmapped frame m h k r u s) := by
  unfold spanUnmapped
  have h1 := (kept_advanceFrontier k true s).toUpholds.trans (upholds_handSpan frame m .unmapped u s.mt.rExp.toNat _)
  dsimp only
  generalize handSpan frame m .unmapped u s.mt.rExp.toNat (advanceFrontier k true s) = s1 at h1
  have h2 : Upholds s (if s.ms.run then s1 else queueNotice .unmappedBegin (wNat r) 0 0 s1) := by
    split
    · exact h1
    · exact h1.trans (kept_queueNotice ..).toUpholds
  generalize (if s.ms.run then s1 else queueNotice .unmappedBegin (wNat r) 0 0 s1) = s2 at h2
  have h3 : Upholds s (if r = h.lastRepeatOf (blockOfRepeat r) then
      { s2 with ms := { s2.ms with outstanding := s2.ms.outstanding.erase (blockOfRepeat r) } } else s2) := by
    split
    · exact h2.trans (kept_abandon _ s2).toUpholds
    · exact h2
  exact h3.trans (kept_checkRequests _).toUpholds

theorem upholds_lateHandling (frame : Bool) (m : MachineTable) (h : Header) (k : Nat) (u : Int) (s : State) :
    Upholds s (lateHandling frame m h k u s) := by
  unfold lateHandling
  split
  · split
    · exact Upholds.refl s
    · split
      · dsimp only
        split
        · rename_i hf
          exact upholds_placeRepeat _ _ _ _ _ _ s (FeatureQueue.room_of_free hf)
        · exact ((kept_advanceFrontier k false s).toUpholds.trans (upholds_handSpan frame m .blind u _ _)).trans
            (kept_checkRequests _).toUpholds
      · exact upholds_spanUnmapped ..
  · exact Upholds.refl s

/-! ### Settling -/

/-- An entry that moves from the Forecast to the Settled list under its number keeps the laws (R49). -/
theorem FeatureQueue.lawful_settle (q : FeatureQueue) (x : Forecast) (e : Settled) (hx : x ∈ q.forecast)
    (hn : e.feat.num = x.feat.num) (h : q.lawful) :
    ({ q with forecast := q.forecast.filter (fun y => y.feat.num != x.feat.num)
              settled := insertSettled e q.settled } : FeatureQueue).lawful := by
  obtain ⟨h1, h2, h3, h4, h5⟩ := h
  have hf : x.feat.num ∈ q.forecast.map (·.feat.num) := List.mem_map.2 ⟨x, hx, rfl⟩
  obtain ⟨n1, n2, n3⟩ := List.nodup_append.1 h1
  have hs : x.feat.num ∉ q.settled.map (·.feat.num) := fun hm => n3 _ hf _ hm rfl
  have hp : ({ q with forecast := q.forecast.filter (fun y => y.feat.num != x.feat.num)
                      settled := insertSettled e q.settled } : FeatureQueue).nums.Perm
      (x.feat.num :: ((q.forecast.filter (fun y => y.feat.num != x.feat.num)).map (·.feat.num) ++
        q.settled.map (·.feat.num))) := by
    have := ((insertSettled_perm e q.settled).map (fun y => y.feat.num)).append_left
      ((q.forecast.filter (fun y => y.feat.num != x.feat.num)).map (·.feat.num))
    refine this.trans ?_
    simp only [List.map_cons, hn]
    exact List.perm_middle
  refine ⟨hp.nodup_iff.2 (List.nodup_cons.2 ⟨?_, List.nodup_append.2 ⟨?_, n2, ?_⟩⟩), fun n hm => ?_,
    insertSettled_sorted e _ h3, h4.filter _, h5⟩
  · simp only [List.mem_append, not_or]
    refine ⟨?_, hs⟩
    simp [List.mem_map, List.mem_filter]
  · exact n1.sublist (List.filter_sublist.map _)
  · exact fun a ha b hb => n3 a ((List.filter_sublist.map _).subset ha) b hb
  · rcases List.mem_cons.1 (hp.mem_iff.1 hm) with rfl | hm
    · exact h2 _ (List.mem_append_left _ hf)
    · rcases List.mem_append.1 hm with hm | hm
      · exact h2 n (List.mem_append_left _ ((List.filter_sublist.map _).subset hm))
      · exact h2 n (List.mem_append_right _ hm)

theorem upholds_settleOne (frame : Bool) (u : Int) (s : State) (num : Nat) : Upholds s (settleOne frame u s num) := by
  unfold settleOne
  split
  · exact Upholds.refl s
  · rename_i x hx
    have hm : x ∈ s.fq.forecast := List.mem_of_find?_eq_some hx
    have hn : x.feat.num = num := by simpa using List.find?_some hx
    subst hn
    have h1 : Upholds s { s with
        fq := { s.fq with forecast := s.fq.forecast.filter (fun y => y.feat.num != x.feat.num)
                          settled := insertSettled (x.settle u s.mt.e s.mt.state.doubtful) s.fq.settled } } :=
      Upholds.queueOf s _ rfl (s.fq.lawful_settle x _ hm rfl)
    exact h1.trans (((kept_noticeTags _ _).trans (kept_walkJoined ..)).trans (kept_look _)).toUpholds

theorem upholds_settleMark (frame : Bool) (k : Nat) (u : Int) (s : State) : Upholds s (settleMark frame k u s) :=
  Upholds.foldl (settleOne frame u) (upholds_settleOne frame u) _ s

/-- A mark event upholds the laws and moves nothing fixed (R17). -/
theorem upholds_markEvent (frame : Bool) (k : Nat) (u : Int) (s : State) : Upholds s (markEvent frame k u s) := by
  unfold markEvent
  split
  · exact ((((upholds_lateHandling _ _ _ k u s).trans (upholds_settleMark _ k u _)).trans (upholds_expand _)).trans
      (kept_setAtMark k u _ _).toUpholds).trans (kept_look _).toUpholds
  · exact Upholds.refl s

/-! ### The Mark Tracker -/

theorem clamp_within (lo hi x : Int) (h : lo ≤ hi) : lo ≤ clamp lo hi x ∧ clamp lo hi x ≤ hi := by
  unfold clamp; omega

/-- A real mark keeps the tracker's ranges (R12, R13). -/
theorem MarkTracker.real_lawful (rNom : Nat) (u : Int) (t : MarkTracker) (h : t.lawful) : (t.real rNom u).lawful := by
  obtain ⟨h1, h2, h3, h4⟩ := h
  have he : -20000 ≤ t.stretchAfter rNom u ∧ t.stretchAfter rNom u ≤ 20000 := by
    unfold MarkTracker.stretchAfter
    split
    · split
      · exact clamp_within _ _ _ (by decide)
      · exact ⟨h1, h2⟩
    · exact ⟨h1, h2⟩
  refine ⟨he.1, he.2, by simp [MarkTracker.real], ?_⟩
  simp [MarkTracker.real]

/-- A synthesized mark keeps the tracker's ranges (R14, R15). -/
theorem MarkTracker.synth_lawful (l : LastMark) (t : MarkTracker) (h : t.lawful) : (t.synth l).lawful := by
  obtain ⟨h1, h2, h3, h4⟩ := h
  refine ⟨h1, h2, ?_, ?_⟩
  · simp only [MarkTracker.synth, MarkTracker.afterMiss]
    cases hs : t.state <;> simp only [] <;> try omega
    have := h4 hs
    split <;> simp only [] <;> omega
  · simp only [MarkTracker.synth, MarkTracker.afterMiss]
    cases hs : t.state <;> simp
    split <;> simp; omega

/-- What a position event or a counted mark may move beside the blocks below: the Mark Tracker, H_cam, and the order drawn for
R105. -/
def UpholdsMt (s t : State) : Prop := ∃ (mt : MarkTracker) (lf : List Bool) (hc : Option Int), (s.mt.lawful → mt.lawful) ∧
  Upholds { s with mt := mt, lookFirst := lf, fq := { s.fq with hCam := hc } } t

theorem Upholds.withMt {s t : State} (h : Upholds s t) (mt : MarkTracker) (lf : List Bool) (hc : Option Int) :
    Upholds { s with mt := mt, lookFirst := lf, fq := { s.fq with hCam := hc } }
      { t with mt := mt, lookFirst := lf, fq := { t.fq with hCam := hc } } :=
  ⟨congrArg (fun f : Fixed => { f with mt := mt, lookFirst := lf, hCam := hc }) h.fixed, h.queue, h.map, h.notices, h.own,
    h.records, h.sets⟩

theorem Upholds.mtFixed {s t : State} (h : Upholds s t) : t.mt = s.mt := congrArg Fixed.mt h.fixed

theorem Upholds.mt {s t : State} (h : Upholds s t) : UpholdsMt s t := ⟨s.mt, s.lookFirst, s.fq.hCam, id, h⟩

theorem UpholdsMt.refl (s : State) : UpholdsMt s s := (Upholds.refl s).mt

theorem UpholdsMt.trans {s t u : State} (h : UpholdsMt s t) (k : UpholdsMt t u) : UpholdsMt s u := by
  obtain ⟨mt, lf, hc, hm, h⟩ := h
  obtain ⟨mt', lf', hc', km, k⟩ := k
  exact ⟨mt', lf', hc', fun hl => km (by rw [h.mtFixed]; exact hm hl), (h.withMt mt' lf' hc').trans k⟩

theorem mt_countReal (rNom : Nat) (u : Int) (s : State) : UpholdsMt s (countReal rNom u s) := by
  refine ⟨s.mt.real rNom u, s.lookFirst, s.fq.hCam, MarkTracker.real_lawful rNom u s.mt, ?_⟩
  unfold countReal
  dsimp only
  refine Upholds.trans ?_ (upholds_markEvent ..)
  split
  · exact (kept_queueNotice ..).toUpholds
  · exact Upholds.refl _

theorem mt_synthesize (frame : Bool) (l : LastMark) (s : State) : UpholdsMt s (synthesize frame l s) := by
  refine ⟨s.mt.synth l, s.lookFirst, s.fq.hCam, MarkTracker.synth_lawful l s.mt, ?_⟩
  unfold synthesize
  dsimp only
  refine Upholds.trans ?_ (upholds_markEvent ..)
  split
  · exact (kept_queueNotice ..).toUpholds
  · exact Upholds.refl _

theorem mt_synthesizeTo (wMk : Nat) (u : Int) (n : Nat) : ∀ s, UpholdsMt s (synthesizeTo wMk u n s) := by
  induction n with
  | zero => exact UpholdsMt.refl
  | succ n ih =>
    intro s
    unfold synthesizeTo
    split
    · exact UpholdsMt.refl s
    · split
      · exact (mt_synthesize _ _ s).trans (ih _)
      · exact UpholdsMt.refl s

theorem mt_judgeMark (wMk rNom : Nat) (u : Int) (n : Nat) : ∀ s, UpholdsMt s (judgeMark wMk rNom u n s) := by
  induction n with
  | zero => exact UpholdsMt.refl
  | succ n ih =>
    intro s
    unfold judgeMark
    split
    · exact UpholdsMt.refl s
    · split
      · exact UpholdsMt.refl s
      · split
        · exact mt_countReal rNom u s
        · exact (mt_synthesize _ _ s).trans (ih _)

theorem mt_takeMark (m : MachineTable) (h : Header) (u : Int) (s : State) : UpholdsMt s (takeMark m h u s) := by
  unfold takeMark
  split_ifs
  · exact UpholdsMt.refl s
  · exact mt_countReal _ u s
  · exact UpholdsMt.refl s
  · exact mt_judgeMark _ _ u _ s

/-! ### Position events -/

theorem mt_raiseHCam (m : MachineTable) (s : State) : UpholdsMt s (raiseHCam m s) :=
  ⟨s.mt, s.lookFirst, s.fq.hCam.map (fun x => max x (s.pu.u - m.dCam)), id, Upholds.refl _⟩

theorem mt_missingMarks (m : MachineTable) (adv : Int) (s : State) : UpholdsMt s (missingMarks m adv s) := by
  unfold missingMarks
  split
  · exact mt_synthesizeTo ..
  · exact UpholdsMt.refl s

theorem mt_positionEvent (m : MachineTable) (adv : Int) (s : State) : UpholdsMt s (positionEvent m adv s) := by
  have h1 : UpholdsMt s (raiseHCam m { s with lookFirst := s.lookFirst.tail }) :=
    UpholdsMt.trans (t := { s with lookFirst := s.lookFirst.tail })
      ⟨s.mt, s.lookFirst.tail, s.fq.hCam, id, Upholds.refl _⟩ (mt_raiseHCam m _)
  unfold positionEvent
  dsimp only
  generalize raiseHCam m { s with lookFirst := s.lookFirst.tail } = s1 at h1
  split
  · exact h1.trans (((kept_look s1).toUpholds.mt.trans (mt_missingMarks m adv _)).trans (kept_walk _).toUpholds.mt)
  · exact h1.trans ((mt_missingMarks m adv s1).trans ((kept_walk _).trans (kept_look _)).toUpholds.mt)

theorem kept_standstillAt (m : MachineTable) (b s : State) : Kept s (standstillAt m b s) := by
  unfold standstillAt
  split
  · exact kept_standstillCheck m s
  · exact Kept.refl s

/-- What follows an applied frame moves the Mark Tracker, H_cam and the blocks below, and nothing else that is fixed (R8). -/
theorem mt_frameApplied (m : MachineTable) (adv : Int) (b s : State) : UpholdsMt s (frameApplied m adv b s) := by
  unfold frameApplied
  have h1 : UpholdsMt s (if adv = 0 then look s else positionEvent m adv s) := by
    split
    · exact (kept_look s).toUpholds.mt
    · exact mt_positionEvent m adv s
  dsimp only
  generalize (if adv = 0 then look s else positionEvent m adv s) = s1 at h1
  exact h1.trans (((kept_setAtFrame m s1).trans (kept_standstillAt m b _)).toUpholds.trans (upholds_expand _)).mt

theorem mt_trackerJump (s : State) : UpholdsMt s (trackerJump s) := by
  unfold trackerJump
  split
  case h_4 => exact UpholdsMt.refl s
  all_goals
    refine ⟨{ s.mt with state := .lost, miss := 0 }, s.lookFirst, s.fq.hCam, fun h => ⟨h.1, h.2.1, by simp, by simp⟩, ?_⟩
    exact (kept_queueNotice ..).toUpholds

/-- A discontinuity empties the history and moves nothing else of the Position Unit (R4). -/
theorem mt_discontinuity (d : Int) (s : State) :
    UpholdsMt { s with pu := { s.pu with hist := [] } } (discontinuity d s) := by
  unfold discontinuity
  exact (mt_trackerJump _).trans
    (((kept_tagAll _).trans (kept_markUnverified _)).trans (kept_queueNotice ..)).toUpholds.mt

end Sys2Proof.Machine
end

