-- ==== Sys2Proof/Laws/Keeps.lean ====
section
/-! SUPPORT. The laws of every block at once, `Keeps`, and what keeps them: count and mark frames, sightings, knife reports, map
blocks and record flow (chapters 1 to 5 and 9). -/

namespace Sys2Proof.Machine

/-- From `s` to `t` the laws of every block stand. -/
structure KeepsLaws (s t : State) : Prop where
  pu : s.pu.lawful s.machine → t.pu.lawful t.machine
  mt : s.mt.lawful → t.mt.lawful
  queue : s.fq.lawful → t.fq.lawful
  map : s.ms.lawful → t.ms.lawful
  notices : s.nq.lawful → t.nq.lawful
  own : s.ll.ownLawful → t.ll.ownLawful
  ports : s.ll.portsLawful → t.ll.portsLawful
  records : s.rs.lawful → t.rs.lawful
  sets : s.sc.lawful → t.sc.lawful
  plans : s.lpt.lawful → t.lpt.lawful
  pending : t.pending = s.pending

/-- What decides whether and how the part queues own frames: the straps, a RESET waiting, and the links of the ports. -/
def State.lines (s : State) : BitVec 6 × Bool × Bool × Bool :=
  (s.ll.straps, s.ll.resetting, s.ll.portA.link, s.ll.portB.link)

/-- From `s` to `t` the laws of every block stand, no reply is queued or gone, and the straps, the links and a RESET's mark stand. -/
structure Keeps (s t : State) : Prop extends KeepsLaws s t where
  replies : t.ll.replies = s.ll.replies
  lines : t.lines = s.lines

theorem KeepsLaws.refl (s : State) : KeepsLaws s s := ⟨id, id, id, id, id, id, id, id, id, id, rfl⟩

theorem KeepsLaws.trans {s t u : State} (h : KeepsLaws s t) (k : KeepsLaws t u) : KeepsLaws s u :=
  ⟨k.pu ∘ h.pu, k.mt ∘ h.mt, k.queue ∘ h.queue, k.map ∘ h.map, k.notices ∘ h.notices, k.own ∘ h.own, k.ports ∘ h.ports,
    k.records ∘ h.records, k.sets ∘ h.sets, k.plans ∘ h.plans, k.pending.trans h.pending⟩

theorem Keeps.refl (s : State) : Keeps s s := ⟨KeepsLaws.refl s, rfl, rfl⟩

theorem Keeps.trans {s t u : State} (h : Keeps s t) (k : Keeps t u) : Keeps s u :=
  ⟨h.toKeepsLaws.trans k.toKeepsLaws, k.replies.trans h.replies, k.lines.trans h.lines⟩

theorem Upholds.ports {s t : State} (h : Upholds s t) (hl : s.ll.portsLawful) : t.ll.portsLawful := by
  have ha : t.ll.portA = s.ll.portA := congrArg Fixed.portA h.fixed
  have hb : t.ll.portB = s.ll.portB := congrArg Fixed.portB h.fixed
  have hr : t.ll.refusals = s.ll.refusals := congrArg Fixed.refusals h.fixed
  refine ⟨fun p => ?_, by rw [hr]; exact hl.2⟩
  have := hl.1 p
  cases p <;> simpa [LineLink.port, ha, hb] using this

theorem Upholds.keeps {s t : State} (h : Upholds s t) : Keeps s t := by
  have hp : t.pu = s.pu := congrArg Fixed.pu h.fixed
  have hm : t.machine = s.machine := congrArg Fixed.machine h.fixed
  have ht : t.mt = s.mt := congrArg Fixed.mt h.fixed
  have hl : t.lpt = s.lpt := congrArg Fixed.lpt h.fixed
  exact ⟨⟨by rw [hp, hm]; exact id, by rw [ht]; exact id, h.queue, h.map, h.notices, h.own, h.ports, h.records, h.sets,
    by rw [hl]; exact id, congrArg Fixed.pending h.fixed⟩, congrArg Fixed.replies h.fixed,
    congrArg (fun f : Fixed => (f.straps, f.resetting, f.portA.link, f.portB.link)) h.fixed⟩

theorem Kept.keeps {s t : State} (h : Kept s t) : Keeps s t := h.toUpholds.keeps

theorem UpholdsBut.keeps {s t : State} (h : UpholdsBut s t) : Keeps s t := by
  obtain ⟨_, h⟩ := h
  exact ⟨⟨h.keeps.pu, h.keeps.mt, h.keeps.queue, h.keeps.map, h.keeps.notices, h.keeps.own, h.keeps.ports, h.keeps.records,
    h.keeps.sets, h.keeps.plans, h.keeps.pending⟩, h.keeps.replies, h.keeps.lines⟩

theorem UpholdsMt.keeps {s t : State} (h : UpholdsMt s t) : Keeps s t := by
  obtain ⟨_, _, _, hm, h⟩ := h
  exact ⟨⟨h.keeps.pu, h.keeps.mt ∘ hm, h.keeps.queue, h.keeps.map, h.keeps.notices, h.keeps.own, h.keeps.ports, h.keeps.records,
    h.keeps.sets, h.keeps.plans, h.keeps.pending⟩, h.keeps.replies, h.keeps.lines⟩

theorem keeps_pu (s : State) (x : PositionUnit) (h : s.pu.lawful s.machine → x.lawful s.machine) : Keeps s { s with pu := x } :=
  ⟨⟨h, id, id, id, id, id, id, id, id, id, rfl⟩, rfl, rfl⟩

/-! ### Count frames -/

theorem PositionUnit.rebased_lawful {machine : Option MachineTable} (c t : Word) (n : Nat) (p : PositionUnit)
    (h : p.lawful machine) : (p.rebased c t n).lawful machine := h

theorem joinInterval_length (i : Interval) (l : List Interval) (h : l.length ≤ 8) : (joinInterval i l).length ≤ 8 := by
  unfold joinInterval
  split <;> simp <;> omega

theorem speedOf_le (l : List Interval) (v : Nat) (h : v ≤ 20000) : speedOf l v ≤ 20000 := by
  unfold speedOf
  dsimp only
  split
  · exact h
  · omega

/-- An applied frame keeps the Position Unit's ranges (R3, R6). -/
theorem PositionUnit.applied_lawful (m : MachineTable) (acc : Int) (dt : Nat) (p : PositionUnit) (h : p.lawful (some m))
    (h1 : int32Min ≤ p.u + floorDiv acc m.ppm) (h2 : p.u + floorDiv acc m.ppm ≤ int32Max) :
    (p.applied (floorDiv acc m.ppm) (acc - floorDiv acc m.ppm * m.ppm) dt).lawful (some m) := by
  obtain ⟨_, _, hv, hh, ha⟩ := h
  refine ⟨h1, h2, speedOf_le _ _ hv, joinInterval_length _ _ hh, fun m' hm => ?_⟩
  cases hm
  obtain ⟨hp, -, -⟩ := ha m rfl
  have hp' : (0 : Int) < m.ppm := by omega
  have h3 := Int.emod_nonneg acc (Int.ne_of_gt hp')
  have h4 := Int.emod_lt_of_pos acc hp'
  rw [Int.emod_def, Int.mul_comm] at h3 h4
  exact ⟨hp, h3, h4⟩

theorem keeps_discontinuity (d : Int) (s : State) : Keeps s (discontinuity d s) :=
  (keeps_pu s { s.pu with hist := [] } (fun ⟨h1, h2, h3, _, h5⟩ => ⟨h1, h2, h3, Nat.zero_le _, h5⟩)).trans
    (mt_discontinuity d s).keeps

theorem keeps_takeCount (c t : Word) (s : State) : Keeps s (takeCount c t s) := by
  unfold takeCount
  split
  · exact Keeps.refl s
  · rename_i m hm
    have h1 : Keeps s { s with pu := s.pu.rebased c t m.sEnc } := keeps_pu s _ (PositionUnit.rebased_lawful c t m.sEnc s.pu)
    split
    · exact h1
    · dsimp only
      generalize s.pu.acc + signedDiff c s.pu.cPrev * 10000 = acc
      generalize (if s.pu.enc = .silent then m.dMax * 64 else m.dMax) = limit
      split
      · exact h1.trans (keeps_discontinuity _ _)
      · split
        · exact h1.trans (keeps_discontinuity _ _)
        · rename_i hr
          refine Keeps.trans (keeps_pu s ((s.pu.rebased c t m.sEnc).applied (floorDiv acc m.ppm)
            (acc - floorDiv acc m.ppm * m.ppm) (max 0 (signedDiff t s.pu.tPrev)).toNat) (fun h => ?_))
            (mt_frameApplied m _ s _).keeps
          rw [hm] at h ⊢
          exact PositionUnit.applied_lawful m acc _ _ (PositionUnit.rebased_lawful c t m.sEnc s.pu h)
            (by simp only [PositionUnit.rebased]; omega) (by simp only [PositionUnit.rebased]; omega)

theorem keeps_silenceExpires (s : State) : Keeps s (silenceExpires s) := by
  unfold silenceExpires
  dsimp only
  split
  · exact keeps_pu s { s.pu with silence := none } id
  · exact (keeps_pu s { s.pu with silence := none, enc := .silent } id).trans
      ((kept_tagAll _).trans (kept_queueNotice ..)).keeps

/-! ### Refusals and forwarding -/

theorem keeps_refuse (src kind : Byte) (r : RefusalReason) (s : State) : Keeps s (refuse src kind r s) :=
  ⟨⟨id, id, id, id, id, id, fun h => ⟨h.1, by simp only [refuse]; omega⟩, id, id, id, rfl⟩, rfl, rfl⟩

/-- A port of another content within its capacity. -/
theorem laws_setPort (p : Port) (x : PortState) (s : State) (hx : s.ll.portsLawful → x.passing.length ≤ Config.passingMax) :
    KeepsLaws s { s with ll := s.ll.setPort p x } := by
  have hown : (s.ll.setPort p x).own = s.ll.own := by cases p <;> rfl
  refine ⟨id, id, id, id, id, fun h c => ?_, fun h => ⟨fun q => ?_, ?_⟩, id, id, id, rfl⟩
  · simpa [LineLink.count, hown] using h c
  · cases p <;> cases q <;>
      first
        | exact hx h
        | exact h.1 .a
        | exact h.1 .b
  · cases p <;> exact h.2

/-- A port of another content within its capacity and the same link. -/
theorem keeps_setPort (p : Port) (x : PortState) (s : State) (hx : s.ll.portsLawful → x.passing.length ≤ Config.passingMax)
    (hl : x.link = (s.ll.port p).link) : Keeps s { s with ll := s.ll.setPort p x } := by
  refine ⟨laws_setPort p x s hx, ?_, ?_⟩
  · cases p <;> rfl
  · cases p <;> simp [State.lines, LineLink.setPort, LineLink.port] at hl ⊢ <;> exact hl

theorem keeps_forward (p : Port) (f : Frame) (s : State) : Keeps s (forward p f s) := by
  unfold forward
  dsimp only
  split
  · split
    · exact keeps_setPort p _ s (fun _ => by simp; omega) rfl
    · exact keeps_setPort p _ s (fun h => h.1 p) rfl
  · exact Keeps.refl s

/-! ### Marks and sightings -/

theorem keeps_takeMarkFrame (src : Byte) (cx : Word) (s : State) : Keeps s (takeMarkFrame src cx s) := by
  unfold takeMarkFrame
  split
  · split
    · exact ((mt_takeMark _ _ _ s).trans (upholds_expand _).mt).keeps
    · exact Keeps.refl s
  · exact keeps_refuse _ _ _ s

theorem kept_merge (g : Sighting) (num : Nat) (f : Settled → Settled)
    (hf : ∀ e, (f e).feat.num = e.feat.num ∧ (f e).p = e.p) (s : State) : Kept s (merge g num f s) := by
  unfold merge
  have h := kept_changeSettled num f hf s
  dsimp only
  split
  · exact (h.trans (kept_tagSettled ..)).trans (kept_look _)
  · exact h.trans (kept_look _)

theorem upholds_joinInline (g : Sighting) (s : State) : Upholds s (joinInline g s) := by
  unfold joinInline
  split
  · rename_i hf
    refine (upholds_joinJudged false _ s rfl ?_).1
    simp only [FeatureQueue.free, FeatureQueue.size] at *; omega
  · exact ((kept_markUnverified s).trans (kept_queueNotice ..)).toUpholds

/-- A sighting as handled upholds the laws (R55). -/
theorem upholds_handleSighting (m : MachineTable) (g : Sighting) (s : State) : Upholds s (handleSighting m g s) := by
  unfold handleSighting
  split
  · exact (kept_merge g _ (Settled.confirm g) (fun _ => ⟨rfl, rfl⟩) s).toUpholds
  · split
    · exact (kept_merge g _ (Settled.grow g) (fun _ => ⟨rfl, rfl⟩) s).toUpholds
    · split
      · exact Upholds.refl s
      · exact upholds_joinInline g s

theorem keeps_takeSighting (src : Byte) (cDet : Word) (kind cls : Byte) (len x0 x1 : Half) (s : State) :
    Keeps s (takeSighting src cDet kind cls len x0 x1 s) := by
  unfold takeSighting
  split
  · split
    · split
      · exact ((upholds_handleSighting _ _ s).trans (upholds_expand _)).keeps
      · exact Keeps.refl s
    · exact keeps_refuse _ _ _ s
  · exact keeps_refuse _ _ _ s

/-! ### Knife reports -/

theorem kept_knifeChanged (j : Nat) (b s : State) : Kept s (knifeChanged j b s) := by
  unfold knifeChanged
  dsimp only
  split
  · exact Kept.refl s
  · refine Kept.trans ?_ (kept_judgeGate _)
    split
    · exact kept_look s
    · exact Kept.refl s

theorem but_knifeFault (j : Nat) (cause : KnifeCause) (s : State) : UpholdsBut s (knifeFault j cause s) :=
  (but_changeKnife j _ s).trans (kept_queueNotice ..).but

theorem kept_handAll (e : Event) (lanes : List Nat) (s : State) : Kept s (lanes.foldl (fun s l => handEvent l e s) s) :=
  Kept.foldl (fun s (l : Nat) => handEvent l e s) (fun s l => kept_handEvent l e s) lanes s

theorem but_knifeDrifts (m : MachineTable) (j : Nat) (s : State) : UpholdsBut s (knifeDrifts m j s) := by
  have key : ∀ (x : State) (e : Event) (lanes : List Nat) (a b c : Word),
      Kept x (queueNotice .knifeDrift a b c (lanes.foldl (fun s l => handEvent l e s) x)) :=
    fun x e lanes a b c => (kept_handAll e lanes x).trans (kept_queueNotice ..)
  exact (but_changeKnife j (fun c => { c with state := .drifted }) s).trans (key _ _ _ _ _ _).but

theorem but_judgeReport (m : MachineTable) (j : Nat) (o : KnifeOutcome) (c : KnifeChannel) (s : State) :
    UpholdsBut s (judgeReport m j o c s) := by
  unfold judgeReport
  dsimp only
  split
  · exact but_knifeFault ..
  · split
    · exact but_changeKnife ..
    · exact but_knifeFault ..
  · exact UpholdsBut.refl s
  · exact (kept_queueNotice ..).but
  · exact UpholdsBut.refl s
  · split
    · exact but_changeKnife ..
    · exact UpholdsBut.refl s
  · split
    · exact UpholdsBut.refl s
    · unfold outOfPosition
      split
      · exact but_knifeDrifts ..
      · exact but_knifeDrifts ..
      · exact but_sendKnife ..
      · exact UpholdsBut.refl s
  · split
    · exact but_changeKnife ..
    · exact UpholdsBut.refl s
  · split
    · exact UpholdsBut.refl s
    · unfold outOfPark
      dsimp only
      split
      · exact (kept_queueNotice ..).but.trans (but_sendKnife ..)
      · exact (kept_queueNotice ..).but

/-- A report handed to its channel moves knife channels and nothing else that is fixed (R86). -/
theorem but_knifeReport (m : MachineTable) (j : Nat) (o : KnifeOutcome) (pos : Nat) (parked : Bool) (s : State) :
    UpholdsBut s (knifeReport m j o pos parked s) := by
  unfold knifeReport
  have h1 : UpholdsBut s (if o = .fault then s else changeKnife j (KnifeChannel.report pos parked) s) := by
    split
    · exact UpholdsBut.refl s
    · exact but_changeKnife ..
  dsimp only
  generalize (if o = .fault then s else changeKnife j (KnifeChannel.report pos parked) s) = s1 at h1
  split
  · exact h1
  · exact (h1.trans (but_judgeReport ..)).trans (kept_knifeChanged ..).but

theorem keeps_takeKnifeReport (src knife outcome : Byte) (position : Half) (parked : Byte) (s : State) :
    Keeps s (takeKnifeReport src knife outcome position parked s) := by
  unfold takeKnifeReport
  dsimp only
  split
  · split
    · exact ((but_knifeReport ..).trans (upholds_expand _).but).keeps
    · split
      · exact (kept_queueNotice ..).keeps
      · exact (but_changeKnife ..).keeps
  · exact keeps_refuse _ _ _ s

theorem but_confirmExpires (m : MachineTable) (j : Nat) (c : KnifeChannel) (s : State) :
    UpholdsBut s (confirmExpires m j c s) := by
  unfold confirmExpires
  split
  · exact but_sendKnife ..
  · exact (but_knifeFault ..).trans (kept_knifeChanged ..).but

/-! ### Map blocks -/

/-- A block that was outstanding and is stored in its set keeps the Map Store's law (R32, R35). -/
theorem MapStore.store_lawful (blk : Block) (t : MapStore) (hb : blk.num ∈ t.outstanding) (h : t.lawful) :
    (t.store blk).lawful := by
  obtain ⟨h1, h2, h3, h4, h5, h6, h7⟩ := h
  unfold MapStore.store
  dsimp only
  have hslot : slotOf blk.num (t.victim blk.num) / 2 = blk.num % 8 := by
    simp only [slotOf]; split <;> omega
  generalize slotOf blk.num (t.victim blk.num) = k at hslot
  have cases : ∀ (i : Nat) (x : Block), (t.slots.set k (some blk))[i]? = some (some x) →
      (i = k ∧ x = blk) ∨ (i ≠ k ∧ t.slots[i]? = some (some x)) := by
    intro i x hx
    by_cases hi : i = k
    · subst hi
      left
      by_cases hlt : i < t.slots.length
      · rw [List.getElem?_set_self hlt] at hx; simp at hx; exact ⟨rfl, hx.symm⟩
      · rw [List.getElem?_eq_none (by simpa using hlt)] at hx; cases hx
    · right; rw [List.getElem?_set_ne (Ne.symm hi)] at hx; exact ⟨hi, hx⟩
  refine ⟨by simpa using h1, by simpa using h2, h3.erase _, Nat.le_trans List.length_erase_le h4, ?_, ?_, ?_⟩
  · intro i x hx
    rcases cases i x hx with ⟨rfl, rfl⟩ | ⟨_, hx⟩
    · exact hslot.symm
    · exact h5 i x hx
  · intro i j x y hx hy hxy
    rcases cases i x hx with ⟨hi, he⟩ | ⟨_, hx'⟩ <;> rcases cases j y hy with ⟨hj, hf⟩ | ⟨_, hy'⟩
    · rw [hi, hj]
    · exact absurd (by rw [← hxy, he]; exact hb) (h7 j y hy')
    · exact absurd (by rw [hxy, hf]; exact hb) (h7 i x hx')
    · exact h6 i j x y hx' hy' hxy
  · intro i x hx hm
    have hm : x.num ∈ t.outstanding.erase blk.num := hm
    rcases cases i x hx with ⟨_, he⟩ | ⟨_, hx⟩
    · exact ((List.Nodup.mem_erase_iff h3).1 hm).1 (by rw [he])
    · exact h7 i x hx (List.mem_of_mem_erase hm)

theorem upholds_storeBlock (blk : Block) (s : State) (hb : blk.num ∈ s.ms.outstanding) : Upholds s (storeBlock blk s) := by
  unfold storeBlock
  have h1 : Kept s { s with ms := s.ms.store blk } := Kept.mapOf s _ rfl rfl (MapStore.store_lawful blk s.ms hb)
  dsimp only
  generalize ({ s with ms := s.ms.store blk } : State) = s1 at h1
  have h2 : Kept s (if blk.clamped ≠ 0 ∨ blk.dropped ≠ 0 then
      queueNotice .blockFault (wNat blk.num) (wNat blk.clamped) (wNat blk.dropped) s1 else s1) := by
    split
    · exact h1.trans (kept_queueNotice ..)
    · exact h1
  exact (h2.toUpholds.trans (upholds_expand _)).trans (kept_checkRequests _).toUpholds

theorem keeps_takeBlock (src : Byte) (roll block : Word) (flags count : Byte) (items : List MapItem) (s : State) :
    Keeps s (takeBlock src roll block flags count items s) := by
  unfold takeBlock
  split
  · exact keeps_refuse _ _ _ s
  · split_ifs with h1 h2 h3 h4
    · exact keeps_refuse _ _ _ s
    · exact keeps_refuse _ _ _ s
    · exact keeps_refuse _ _ _ s
    · exact (upholds_storeBlock _ s h4).keeps
    · exact keeps_refuse _ _ _ s

/-! ### Record flow -/

theorem keeps_flow (s : State) (b : Bool) : Keeps s { s with rs := { s.rs with held := b } } :=
  ⟨⟨id, id, id, id, id, id, id, id, id, id, rfl⟩, rfl, rfl⟩

theorem keeps_takeFlow (src code : Byte) (s : State) : Keeps s (takeFlow src code s) := by
  unfold takeFlow
  split_ifs
  · exact keeps_flow s true
  · exact (keeps_flow s false).trans ((kept_sendRecords _).toUpholds.trans (upholds_expand _)).keeps
  · exact keeps_refuse _ _ _ s

end Sys2Proof.Machine
end

