-- ==== Sys2Proof/Laws/KeepsRequests.lean ====
section
/-! SUPPORT. What the Request Handler keeps (10.5): the checks of its fields, and the state that each request leaves. -/

namespace Sys2Proof.Machine

/-! ### Checks -/

/-- No field fails exactly when every field's test passes. -/
theorem firstFailing_none {l : List (Nat × Bool)} : firstFailing l = none ↔ ∀ x ∈ l, x.2 = true := by
  induction l with
  | nil => simp [firstFailing]
  | cons x l ih =>
    obtain ⟨n, b⟩ := x
    cases b <;> simp [firstFailing, ih]

/-- The field named is in the list and fails, and every field before it passes. -/
theorem firstFailing_some {l : List (Nat × Bool)} {n : Nat} : firstFailing l = some n →
    ∃ a b, l = a ++ (n, false) :: b ∧ ∀ x ∈ a, x.2 = true := by
  induction l with
  | nil => simp [firstFailing]
  | cons x l ih =>
    obtain ⟨m, b⟩ := x
    cases b
    · intro h; simp [firstFailing] at h; subst h; exact ⟨[], l, rfl, by simp⟩
    · intro h
      simp only [firstFailing, if_true] at h
      obtain ⟨a, c, rfl, ha⟩ := ih h
      exact ⟨(m, true) :: a, c, rfl, by simpa using ha⟩

/-- A machine table that passes has a PPM above 0 (R181). -/
theorem State.machineIn_ppm {s : State} {body : List Byte} {m : MachineTable} (h : s.machineIn body = .ok m) : 0 < m.ppm := by
  unfold State.machineIn at h
  split at h
  · cases h
  · split at h
    · cases h
    · rename_i hf
      cases h
      have := firstFailing_none.1 hf (1, within 2000 200000 m.ppm) (by simp [State.machineTests])
      simp [within] at this
      omega

theorem knifeTests_pass : ∀ (l : List Nat) (f : Nat) (prev : Option Nat), (∀ x ∈ knifeTests f prev l, x.2 = true) →
    l.Pairwise (fun x y => x + 150 ≤ y) ∧ (∀ k ∈ l, k ≤ 30000) ∧ ∀ p, prev = some p → ∀ k ∈ l, p + 150 ≤ k := by
  intro l
  induction l with
  | nil => simp
  | cons k l ih =>
    intro f prev h
    simp only [knifeTests, List.mem_cons, forall_eq_or_imp] at h
    obtain ⟨h1, h2⟩ := h
    obtain ⟨i1, i2, i3⟩ := ih (f + 1) (some k) h2
    simp only [within, Bool.and_eq_true, decide_eq_true_eq] at h1
    refine ⟨List.pairwise_cons.2 ⟨i3 k rfl, i1⟩, ?_, ?_⟩
    · rintro x hx
      rcases List.mem_cons.1 hx with rfl | hx
      · exact h1.1.2
      · exact i2 x hx
    · rintro p rfl x hx
      have hp : p + 150 ≤ k := by simpa using h1.2
      rcases List.mem_cons.1 hx with rfl | hx
      · exact hp
      · have := i3 k rfl x hx; omega

theorem laneTests_pass : ∀ (l : List (List Word)) (f sum : Nat), sum ≤ 1024 → (∀ x ∈ laneTests f sum l, x.2 = true) →
    sum + (l.map laneQuota).sum ≤ 1024 := by
  intro l
  induction l with
  | nil => exact fun _ _ h _ => by simpa using h
  | cons w l ih =>
    intro f sum hs h
    simp only [laneTests, List.mem_append, List.mem_cons] at h
    have hq := h (f + 17, within 0 1024 (laneQuota w) && decide (sum + laneQuota w ≤ 1024)) (.inr (.inl rfl))
    simp only [within, Bool.and_eq_true, decide_eq_true_eq] at hq
    have := ih (f + 18) (sum + laneQuota w) hq.2 (fun x hx => h x (.inr (.inr hx)))
    simp only [List.map_cons, List.sum_cons]
    omega

theorem laneWords_length (n : Nat) : ∀ ws, (laneWords n ws).length = n := by
  induction n with
  | zero => exact fun _ => rfl
  | succ n ih => exact fun ws => by simp [laneWords, ih]

/-- A bank that passes the checks is lawful (R68, R69). -/
theorem bankIn_lawful {body : List Byte} {b : Bank} (h : bankIn body = .ok b) : b.lawful := by
  unfold bankIn at h
  split at h
  · rename_i job wn rest _
    dsimp only at h
    split at h
    · rename_i hn
      obtain ⟨hn, hl⟩ := hn
      unfold bankOf at h
      split at h
      · rename_i wSet wApp wOff wPol wMax rest _
        dsimp only at h
        split at h
        · cases h
        · rename_i hf
          cases h
          rw [firstFailing_none] at hf
          simp only [List.mem_append] at hf
          obtain ⟨k1, k2, -⟩ := knifeTests_pass _ 9 none (fun x hx => hf x (.inl (.inr hx)))
          have q := laneTests_pass _ (10 + wn.toNat) 0 (Nat.zero_le _) (fun x hx => hf x (.inr hx))
          have a := hf (5, decide (wApp.toNat ≤ wSet.toNat)) (.inl (.inl (by simp)))
          have c := hf (8, within 0 64 wMax.toNat) (.inl (.inl (by simp)))
          simp only [within, Bool.and_eq_true, decide_eq_true_eq] at hn a c
          simp only [List.length_cons] at hl
          refine ⟨hn.1, hn.2, ?_, ?_, k1, k2, ?_, a, c.2⟩
          · simp only [List.length_map, List.length_take]; omega
          · simp [laneWords_length]
          · simpa [Bank.quotaSum, lanePlanOf, Function.comp_def] using q
      · cases h
    · cases h
  · cases h

/-! ### Table requests -/

theorem keeps_deny (r : ReplyStatus) (n : Nat) (s : State) : Keeps s (deny r n s).state := Keeps.refl s

theorem keeps_bare (body : List Byte) (s : State) (go : State → State) (h : Keeps s (go s)) : Keeps s (bare body s go).state := by
  unfold bare
  split
  · exact h
  · exact Keeps.refl s

theorem keeps_readStatus (body : List Byte) (s : State) : Keeps s (readStatus body s).state := by
  unfold readStatus
  split <;> exact Keeps.refl s

theorem keeps_readTable (body : List Byte) (s : State) : Keeps s (readTable body s).state := by
  unfold readTable
  split <;> exact Keeps.refl s

theorem keeps_loadMachine (body : List Byte) (s : State) : Keeps s (loadMachine body s).state := by
  unfold loadMachine
  split
  · split
    · rename_i m hm
      refine ⟨⟨fun h => ?_, id, id, id, id, id, id, id, id, id, rfl⟩, rfl, rfl⟩
      have hp := State.machineIn_ppm hm
      simp only [accept]
      split
      · rename_i ho
        obtain ⟨o, ho, he⟩ := (Option.any_eq_true _ _).1 ho
        obtain ⟨h1, h2, h3, h4, h5⟩ := h
        refine ⟨h1, h2, h3, h4, fun m' hm' => ?_⟩
        cases hm'
        have := h5 o ho
        simp only [beq_iff_eq] at he
        rw [he] at this
        exact this
      · obtain ⟨h1, h2, h3, h4, -⟩ := h
        refine ⟨h1, h2, h3, h4, fun m' hm' => ?_⟩
        cases hm'
        exact ⟨hp, Int.le_refl 0, by simpa using hp⟩
    · exact Keeps.refl s
  · exact Keeps.refl s

theorem keeps_loadPeers (body : List Byte) (s : State) : Keeps s (loadPeers body s).state := by
  unfold loadPeers
  split
  · split
    · exact ⟨⟨id, id, id, id, id, id, id, id, id, id, rfl⟩, rfl, rfl⟩
    · exact Keeps.refl s
  · exact Keeps.refl s

theorem keeps_lpt (s : State) (x : LanePlans) (h : s.lpt.lawful → x.lawful) : Keeps s { s with lpt := x } :=
  ⟨⟨id, id, id, id, id, id, id, id, id, h, rfl⟩, rfl, rfl⟩

theorem keeps_loadBank (body : List Byte) (s : State) : Keeps s (loadBank body s).state := by
  unfold loadBank
  split
  · split
    · split
      · split
        · rename_i b hb
          exact keeps_lpt s _ (fun h => ⟨fun b' he => by cases he; exact bankIn_lawful hb, h.2⟩)
        · exact Keeps.refl s
      · exact Keeps.refl s
    · split
      · split
        · rename_i b hb
          exact keeps_lpt s _ (fun h => ⟨h.1, fun b' he => by cases he; exact bankIn_lawful hb⟩)
        · exact Keeps.refl s
      · exact Keeps.refl s
  · exact Keeps.refl s

theorem keeps_cancelPending (body : List Byte) (s : State) : Keeps s (cancelPending body s).state :=
  keeps_bare body s _ (keeps_lpt s _ (fun h => ⟨h.1, fun b he => by cases he⟩))

/-- A change of the roll headers alone. -/
theorem keeps_headers (s : State) (a b : Option Header) : Keeps s { s with ms := { s.ms with current := a, next := b } } :=
  ⟨⟨id, id, id, id, id, id, id, id, id, id, rfl⟩, rfl, rfl⟩

theorem keeps_loadRollHeader (body : List Byte) (s : State) : Keeps s (loadRollHeader body s).state := by
  unfold loadRollHeader
  split
  · exact keeps_headers s s.ms.current _
  · exact Keeps.refl s

theorem keeps_setLateralOffset (body : List Byte) (s : State) : Keeps s (setLateralOffset body s).state := by
  unfold setLateralOffset
  split
  · exact Keeps.refl s
  · split
    · exact Keeps.refl s
    · split
      · rename_i w _ _ h _
        exact (keeps_headers s (some { h with l := lateral w }) s.ms.next).trans
          ((kept_look _).toUpholds.trans (upholds_expand _)).keeps
      · rename_i w _ _ _
        exact (keeps_headers s s.ms.current (s.ms.next.map (fun h => { h with l := lateral w }))).trans (kept_look _).keeps

/-! ### ROLL_START and ROLL_END -/

theorem no_block (n i : Nat) (x : Block) : (List.replicate n (none : Option Block))[i]? ≠ some (some x) := by
  rw [List.getElem?_replicate]; split <;> simp

theorem MapStore.init_lawful : MapStore.init.lawful :=
  ⟨rfl, rfl, List.nodup_nil, Nat.zero_le _, fun i x h => absurd h (no_block _ i x),
    fun i _ x _ h => absurd h (no_block _ i x), fun i x h => absurd h (no_block _ i x)⟩

theorem keeps_startRoll (m : MachineTable) (h : Header) (s : State) : Keeps s (startRoll m h s) := by
  have key : ∀ x : State, Keeps x { x with
      pu := x.pu.rollStart
      mt := x.mt.rollStart h.rNom
      ms := MapStore.rollStart h
      fq := { x.fq with hCam := some (-(m.dCam : Int)), flags := List.replicate Config.laneCount none }
      ss := x.ss.cleared
      sc := x.sc.rollStart } := fun x =>
    ⟨⟨fun ⟨_, _, h3, h4, h5⟩ => ⟨(show int32Min ≤ 0 by decide), (show (0:Int) ≤ int32Max by decide), h3, h4, fun m hm => ⟨(h5 m hm).1, Int.le_refl 0, by
        have := (h5 m hm).1; simpa [PositionUnit.rollStart] using this⟩⟩,
      fun ⟨h1, h2, _, _⟩ => ⟨h1, h2, Nat.zero_le _, by simp [MarkTracker.rollStart]⟩,
      fun ⟨h1, h2, h3, h4, _⟩ => ⟨h1, h2, h3, h4, rfl⟩, fun _ => MapStore.init_lawful, id, id, id, id,
      fun ⟨h1, h2, _⟩ => ⟨h1, h2, rfl⟩, id, rfl⟩, rfl, rfl⟩
  unfold startRoll
  have h1 := (kept_clearQueue s).keeps.trans (key (clearQueue s))
  exact h1.trans (((((kept_checkRequests _).toUpholds.trans (upholds_expand _)).but).trans (but_enterPreparing _)).trans
    (upholds_expand _).but).keeps

theorem keeps_rollStart (body : List Byte) (s : State) : Keeps s (rollStart body s).state := by
  unfold rollStart
  split
  · split
    · exact Keeps.refl s
    · split
      · exact keeps_bare body s _ (keeps_startRoll _ _ s)
      · exact Keeps.refl s
  · exact Keeps.refl s

theorem RecordStore.closeAll_lawful (f : Nat → Nat → RecordStore → RecordStore)
    (hf : ∀ a i (t : RecordStore), t.lawful → (f a i t).lawful ∧ (f a i t).held = t.held) (l : List Nat) (a : Nat) :
    ∀ t : RecordStore, t.lawful → (l.foldl (fun t i => f a i t) t).lawful ∧ (l.foldl (fun t i => f a i t) t).held = t.held := by
  induction l with
  | nil => exact fun t h => ⟨h, rfl⟩
  | cons i l ih =>
    intro t h
    obtain ⟨h1, h2⟩ := hf a i t h
    obtain ⟨i1, i2⟩ := ih _ h1
    exact ⟨i1, i2.trans h2⟩

theorem keeps_records (s : State) (x : RecordStore) (h : s.rs.lawful → x.lawful) : Keeps s { s with rs := x } :=
  ⟨⟨id, id, id, id, id, id, id, h, id, id, rfl⟩, rfl, rfl⟩

theorem keeps_set (s : State) (x : SetController) (h : s.sc.lawful → x.lawful) : Keeps s { s with sc := x } :=
  ⟨⟨id, id, id, id, id, id, id, id, h, id, rfl⟩, rfl, rfl⟩

theorem keeps_closeSet (gross repeats : Nat) (rollEnd : Bool) (s : State) : Keeps s (closeSet gross repeats rollEnd s) := by
  unfold closeSet
  refine Keeps.trans (keeps_records s _ (fun h => ?_)) (kept_sendRecords _).keeps
  exact (RecordStore.closeAll_lawful
    (fun _ i t => closeLane gross ((s.sc.removed[i]?).getD 0) repeats (s.short i) rollEnd i t)
    (fun _ i t ht => RecordStore.closeLane_lawful _ _ _ _ _ _ t ht) _ 0 s.rs h).1

theorem nextSetNumber_within (n : Nat) : 1 ≤ nextSetNumber n ∧ nextSetNumber n ≤ 65535 := by
  unfold nextSetNumber; split <;> omega

theorem keeps_closeAtEnd (s : State) : Keeps s (closeAtEnd s) := by
  unfold closeAtEnd
  split
  · exact Keeps.refl s
  · exact Keeps.refl s
  · have h := keeps_closeSet (s.sc.grossOf s.endGross) s.endRepeats true s
    dsimp only
    generalize closeSet (s.sc.grossOf s.endGross) s.endRepeats true s = s1 at h
    exact h.trans (keeps_set s1 { s1.sc with num := nextSetNumber s1.sc.num }
      (fun ⟨_, _, h3⟩ => ⟨(nextSetNumber_within _).1, (nextSetNumber_within _).2, h3⟩))

theorem kept_cancelAtEnd (s : State) : Kept s (cancelAtEnd s) := by
  unfold cancelAtEnd
  split
  · exact kept_driveOrder _ s
  · exact kept_driveOrder _ s
  · exact Kept.refl s

theorem keeps_endRoll (s : State) : Keeps s (endRoll s) := by
  have key : ∀ x : State, Keeps x { x with
      mt := x.mt.rollEnd
      ms := { MapStore.init with next := x.ms.next }
      fq := { x.fq with hCam := none, flags := List.replicate Config.laneCount none }
      ss := x.ss.cleared
      sc := { SetController.init with num := x.sc.num } } := fun x =>
    ⟨⟨id, fun ⟨h1, h2, _, _⟩ => ⟨h1, h2, Nat.zero_le _, by simp [MarkTracker.rollEnd]⟩,
      fun ⟨h1, h2, h3, h4, _⟩ => ⟨h1, h2, h3, h4, rfl⟩, fun _ => MapStore.init_lawful, id, id, id, id,
      fun ⟨h1, h2, _⟩ => ⟨h1, h2, rfl⟩, id, rfl⟩, rfl, rfl⟩
  exact ((keeps_closeAtEnd s).trans ((kept_cancelAtEnd _).trans (kept_clearQueue _)).keeps).trans (key _)

theorem keeps_rollEnd (body : List Byte) (s : State) : Keeps s (rollEnd body s).state := by
  unfold rollEnd
  split
  · exact Keeps.refl s
  · exact keeps_bare body s _ (keeps_endRoll s)

/-! ### MARK_RESYNC -/

theorem kept_discardOne (s : State) (n : Nat) : Kept s (discardOne s n) := by
  unfold discardOne
  split
  · exact (kept_leave n s).trans (kept_look _)
  · exact kept_leave n s

theorem kept_discardForecast (s : State) : Kept s (discardForecast s) := Kept.foldl discardOne kept_discardOne _ s

theorem keeps_resetFrontier (h : Header) (k : Nat) (s : State) : Keeps s (resetFrontier h k s) := by
  unfold resetFrontier
  have h1 : Kept s { s with ms := { s.ms with
      frontier := some (k + 1), run := false, outstanding := s.ms.outstanding.filter (fun b => !h.passed (k + 1) b) } } :=
    Kept.mapOf s _ rfl rfl (fun ⟨h1, h2, h3, h4, h5, h6, h7⟩ => ⟨h1, h2, h3.filter _,
      Nat.le_trans (List.length_filter_le _ _) h4, h5, h6, fun i x hx hm => h7 i x hx (List.mem_of_mem_filter hm)⟩)
  exact ((h1.trans (kept_checkRequests _)).toUpholds.trans (upholds_expand _)).keeps

theorem keeps_markResync (body : List Byte) (s : State) : Keeps s (markResync body s).state := by
  unfold markResync
  split
  · split
    · exact Keeps.refl s
    · split
      · exact Keeps.refl s
      · exact ((keeps_headers s _ s.ms.next).trans (kept_discardForecast _).keeps).trans (keeps_resetFrontier ..)
  · exact Keeps.refl s

/-! ### Doffs -/

theorem keeps_doffAt (k : Nat) (s : State) : Keeps s (doffAt k s) :=
  (((Kept.set s (SetController.aimCut k { s.sc with xFrozen := true }) (fun h => h)).trans
    (kept_enterCutStop _)).toUpholds.trans (upholds_expand _)).keeps

theorem keeps_doffNow (body : List Byte) (s : State) : Keeps s (doffNow body s).state := by
  unfold doffNow
  split
  · split
    · exact keeps_bare body s _ (keeps_doffAt _ s)
    · exact Keeps.refl s
  · exact Keeps.refl s

theorem keeps_activate (s : State) : Keeps s (activate s) := by
  unfold activate
  split
  · rename_i b hb
    exact ⟨⟨id, id, fun ⟨h1, h2, h3, h4, _⟩ => ⟨h1, h2, h3, h4, rfl⟩, id, id, id, id, id, fun h => h,
      fun h => ⟨fun b' he => by cases he; exact h.2 b hb, fun b' he => by cases he⟩, rfl⟩, rfl, rfl⟩
  · exact keeps_set s { s.sc with mode := some .continue } (fun h => h)

theorem kept_lookPreparing (s : State) : Kept s (lookPreparing s) := by
  unfold lookPreparing
  split
  · exact kept_look s
  · exact Kept.refl s

theorem keeps_completeDoff (s : State) : Keeps s (completeDoff s) := by
  have tail : ∀ x : State, Keeps x
      (expand (lookPreparing (enterPreparing (activate { x with sc := x.sc.doffed })))) := fun x =>
    ((keeps_set x x.sc.doffed (fun ⟨_, _, h3⟩ => ⟨(nextSetNumber_within _).1, (nextSetNumber_within _).2, h3⟩)).trans
      (keeps_activate _)).trans (((but_enterPreparing _).trans (kept_lookPreparing _).but).trans (upholds_expand _).but).keeps
  exact (keeps_closeSet _ _ _ s).trans (tail _)

theorem keeps_doffComplete (body : List Byte) (s : State) : Keeps s (doffComplete body s).state := by
  unfold doffComplete
  split
  · exact keeps_bare body s _ (keeps_completeDoff s)
  · exact Keeps.refl s

/-! ### The end of a defect stop -/

theorem kept_addRemoval (lane amount : Nat) (s : State) : Kept s (addRemoval lane amount s) := by
  unfold addRemoval
  have hr : s.sc.lawful → ({ s.sc with removed := s.sc.removed.modify lane (· + amount) } : SetController).lawful :=
    fun ⟨h1, h2, h3⟩ => ⟨h1, h2, by simpa using h3⟩
  split
  · dsimp only
    split
    · split
      · exact Kept.set s _ hr
      · exact Kept.set s _ hr
    · exact Kept.set s _ hr
  · exact Kept.refl s

theorem kept_takeRemoval (m : MachineTable) (s : State) (x : Nat × Nat) : Kept s (takeRemoval m s x) :=
  (kept_addRemoval ..).trans (kept_handEvent ..)

theorem kept_settleServed (lanes : List Nat) (s : State) (e : Settled) : Kept s (settleServed lanes s e) := by
  unfold settleServed
  split
  · dsimp only
    split
    · exact kept_leave _ s
    · exact kept_changeSettled _
        (fun x => { x with items := (e.items.filter (fun i => !lanes.contains i.lane)).map LaneItem.downgrade })
        (fun _ => ⟨rfl, rfl⟩) s
  · exact Kept.refl s

theorem kept_takeRemovals (m : MachineTable) (l : List (Nat × Nat)) (s : State) : Kept s (l.foldl (takeRemoval m) s) :=
  Kept.foldl (takeRemoval m) (kept_takeRemoval m) l s

theorem kept_settleAll (lanes : List Nat) (l : List Settled) (s : State) : Kept s (l.foldl (settleServed lanes) s) :=
  Kept.foldl (settleServed lanes) (kept_settleServed lanes) l s

/-- The end of a defect stop upholds the laws (R135, R136). -/
theorem upholds_endDefectStop (m : MachineTable) (pairs : List (Nat × Nat)) (s : State) :
    Upholds s (endDefectStop m pairs s) := by
  unfold endDefectStop
  have h1 := kept_takeRemovals m (sortPairs pairs) s
  dsimp only
  generalize (sortPairs pairs).foldl (takeRemoval m) s = s1 at h1
  have h2 := h1.trans (kept_settleAll (pairs.map (·.1)) s1.fq.settled s1)
  generalize s1.fq.settled.foldl (settleServed (pairs.map (·.1))) s1 = s2 at h2
  have h3 := h2.trans (kept_releaseAll s2)
  generalize releaseAll s2 = s3 at h3
  exact ((h3.trans (Kept.stop s3 s3.ss.ended)).trans (kept_look _)).toUpholds.trans (upholds_expand _)

theorem keeps_removalReport (body : List Byte) (s : State) : Keeps s (removalReport body s).state := by
  unfold removalReport
  split
  · split
    · exact (upholds_endDefectStop _ _ s).keeps
    · exact Keeps.refl s
  · exact Keeps.refl s

theorem keeps_resume (body : List Byte) (s : State) : Keeps s (resume body s).state := by
  unfold resume
  split
  · exact keeps_bare body s _ (upholds_endDefectStop _ _ s).keeps
  · exact Keeps.refl s

/-! ### KNIFE_RETRY -/

theorem but_retryKnife (j : Nat) (s : State) : UpholdsBut s (retryKnife j s) := by
  unfold retryKnife
  split
  · exact (but_sendKnife ..).trans (kept_knifeChanged ..).but
  · exact UpholdsBut.refl s

theorem keeps_knifeRetry (body : List Byte) (s : State) : Keeps s (knifeRetry body s).state := by
  unfold knifeRetry
  split
  · split
    · exact Keeps.refl s
    · split
      · exact (but_retryKnife _ s).keeps
      · exact Keeps.refl s
  · exact Keeps.refl s

/-! ### The handler -/

theorem keeps_lineCommand (code : Byte) (body : List Byte) (s : State) : Keeps s (lineCommand code body s).state := by
  unfold lineCommand
  split_ifs
  · exact keeps_rollStart ..
  · exact keeps_rollEnd ..
  · exact keeps_markResync ..
  · exact keeps_doffNow ..
  · exact keeps_doffComplete ..
  · exact keeps_removalReport ..
  · exact keeps_resume ..
  · exact keeps_knifeRetry ..
  · exact Keeps.refl s

/-- A table request other than RESET leaves the laws and the replies standing. -/
theorem keeps_tableRequest (code : Byte) (hc : code ≠ codeReset) (body : List Byte) (s : State) :
    Keeps s (tableRequest code body s).state := by
  unfold tableRequest
  split_ifs
  · exact keeps_readStatus ..
  · exact keeps_readTable ..
  · exact keeps_loadMachine ..
  · exact keeps_loadPeers ..
  · exact keeps_loadBank ..
  · exact keeps_cancelPending ..
  · exact keeps_loadRollHeader ..
  · exact keeps_setLateralOffset ..
  · exact Keeps.refl s

/-- Frames that stay or go, class by class: no class grows. -/
theorem keepsLaws_own (s : State) (x : LineLink) (ha : x.portA = s.ll.portA) (hb : x.portB = s.ll.portB)
    (hr : x.refusals = s.ll.refusals) (hc : ∀ c, x.count c ≤ s.ll.count c) : KeepsLaws s { s with ll := x } :=
  ⟨id, id, id, id, id, fun h c => Nat.le_trans (hc c) (h c),
    fun h => ⟨fun p => by have := h.1 p; cases p <;> simpa [LineLink.port, ha, hb] using this, by rw [hr]; exact h.2⟩, id, id, id, rfl⟩

theorem count_filter_map_le (l : List OwnFrame) (f : OwnFrame → OwnFrame) (p : OwnFrame → Bool) (hf : ∀ x, (f x).cls = x.cls)
    (c : OwnClass) : (((l.map f).filter p).filter (fun x => x.cls == c)).length ≤ (l.filter (fun x => x.cls == c)).length := by
  refine Nat.le_trans ((List.filter_sublist.filter (fun x : OwnFrame => x.cls == c)).length_le) (Nat.le_of_eq ?_)
  rw [List.filter_map, List.length_map]
  congr 2
  funext x
  simp [Function.comp, hf]

theorem laws_resetRequest (body : List Byte) (s : State) : KeepsLaws s (resetRequest body s).state := by
  unfold resetRequest
  split
  · exact keepsLaws_own s _ rfl rfl rfl (count_filter_map_le s.ll.own OwnFrame.discardWaiting _ (fun _ => rfl))
  · exact KeepsLaws.refl s

/-- Whatever request is executed, the laws of every block stand. -/
theorem laws_execute (line : Bool) (code : Option Byte) (body : List Byte) (s : State) :
    KeepsLaws s (execute line code body s).state := by
  unfold execute
  split
  · exact KeepsLaws.refl s
  · rename_i c
    split
    · exact (keeps_lineCommand c body s).toKeepsLaws
    · by_cases hc : c = codeReset
      · subst hc
        have : tableRequest codeReset body s = resetRequest body s := by simp [tableRequest, codeReset, codeReadStatus,
          codeReadTable, codeLoadMachine, codeLoadPeers, codeLoadBank, codeCancelPending, codeLoadRollHeader, codeSetLateralOffset]
        rw [this]
        exact laws_resetRequest body s
      · exact (keeps_tableRequest c hc body s).toKeepsLaws

end Sys2Proof.Machine
end

