-- ==== Sys2Proof/Laws/KeepsLink.lean ====
section
/-! SUPPORT. What the Line Link Interface's own steps keep: the end of an event, replies, arriving frames, the arbiter, links and
sent reports (10.1 to 10.6); and the end of an event said once, as what it leaves alone. -/

namespace Sys2Proof.Machine

/-! ### The end of an event -/

/-- `t` differs from `s` in nothing but notices: the Notice Queue, and own frames of the notice class queued last. -/
structure NoticesOnly (s t : State) : Prop where
  rest : t = { s with nq := t.nq, ll := { s.ll with own := t.ll.own, seq := t.ll.seq } }
  own : ∃ l : List OwnFrame, t.ll.own = s.ll.own ++ l ∧ ∀ f ∈ l, f.cls = .notice
  waiting : t.nq.waiting.Sublist s.nq.waiting

theorem NoticesOnly.refl (s : State) : NoticesOnly s s := ⟨rfl, ⟨[], by simp⟩, List.Sublist.refl _⟩

theorem NoticesOnly.trans {s t u : State} (h : NoticesOnly s t) (k : NoticesOnly t u) : NoticesOnly s u := by
  obtain ⟨h1, ⟨l, h2, h3⟩, h4⟩ := h
  obtain ⟨k1, ⟨m, k2, k3⟩, k4⟩ := k
  refine ⟨?_, ⟨l ++ m, by rw [k2, h2, List.append_assoc], fun f hf => ?_⟩, k4.trans h4⟩
  · rw [k1, h1]
  · rcases List.mem_append.1 hf with hf | hf
    · exact h3 f hf
    · exact k3 f hf

/-- An own frame queued: nothing changes but the list of own frames, the sequence number and the orders dropped. -/
theorem queueOwn_cases (c : OwnClass) (dst : Nat) (tag : Option Half) (body : OwnBody) (s : State) :
    (s.canQueue = true ∧ s.ll.room c = true ∧ ∃ f : OwnFrame,
      f = { cls := c, dst := dst, tag := tag.getD s.ll.seq, body := body, a := s.ll.portA.newStage, b := s.ll.portB.newStage } ∧
      queueOwn c dst tag body s =
        { s with ll := { s.ll with own := if f.out then s.ll.own else s.ll.own ++ [f], seq := s.ll.seq + 1 } }) ∨
    (s.canQueue = true ∧ s.ll.room c = false ∧ queueOwn c dst tag body s =
      if c = .order then { s with ll := { s.ll with ordersDropped := s.ll.ordersDropped + 1 } } else s) ∨
    (s.canQueue = false ∧ queueOwn c dst tag body s = s) := by
  unfold queueOwn
  cases hq : s.canQueue
  · exact .inr (.inr ⟨rfl, by simp⟩)
  · cases hr : s.ll.room c
    · exact .inr (.inl ⟨rfl, rfl, by simp⟩)
    · exact .inl ⟨rfl, rfl, _, rfl, by simp⟩

theorem noticesOnly_passNotice (n : Notice) (s : State) : NoticesOnly s (passNotice n s) := by
  unfold passNotice
  rcases queueOwn_cases .notice (s.role (·.lineController)) none (.notice n s.nq.dropped) s with
    ⟨_, _, f, hf, h⟩ | ⟨_, _, h⟩ | ⟨_, h⟩
  · rw [h]
    refine ⟨rfl, ?_, List.erase_sublist⟩
    dsimp only
    split
    · exact ⟨[], by simp⟩
    · exact ⟨[f], rfl, by simp [hf]⟩
  · rw [h, if_neg (by decide)]; exact ⟨rfl, ⟨[], by simp⟩, List.erase_sublist⟩
  · rw [h]; exact ⟨rfl, ⟨[], by simp⟩, List.erase_sublist⟩

theorem noticesOnly_flight (s : State) (x : Option Notice) : NoticesOnly s { s with nq := { s.nq with inFlight := x } } :=
  ⟨rfl, ⟨[], by simp⟩, List.Sublist.refl _⟩

theorem noticesOnly_pump (n : Nat) : ∀ s, NoticesOnly s (pumpNotices n s) := by
  induction n with
  | zero => exact NoticesOnly.refl
  | succ n ih =>
    intro s
    unfold pumpNotices
    split
    · split
      · exact NoticesOnly.refl s
      · rename_i x _
        split
        · exact ((noticesOnly_passNotice x s).trans (noticesOnly_flight _ none)).trans (ih _)
        · exact noticesOnly_passNotice x s
    · exact NoticesOnly.refl s

/-- The end of an event passes notices and does nothing else (R187, R189). -/
theorem noticesOnly_endEvent (s : State) : NoticesOnly s (endEvent s) := noticesOnly_pump _ s

theorem kept_passNotice (n : Notice) (s : State) : Kept s (passNotice n s) := by
  unfold passNotice
  have h := kept_queueOwn .notice (by decide) (s.role (·.lineController)) none (.notice n s.nq.dropped) s
  dsimp only
  generalize queueOwn .notice (s.role (·.lineController)) none (.notice n s.nq.dropped) s = s1 at h
  exact ⟨⟨h.fixed, h.queue, h.map, fun hl => Nat.le_trans List.erase_sublist.length_le hl, h.own, h.records, h.sets⟩, h.size⟩

theorem kept_pumpNotices (n : Nat) : ∀ s, Kept s (pumpNotices n s) := by
  induction n with
  | zero => exact Kept.refl
  | succ n ih =>
    intro s
    unfold pumpNotices
    split
    · split
      · exact Kept.refl s
      · rename_i x _
        split
        · refine (kept_passNotice x s).trans (Kept.trans ?_ (ih _))
          exact ⟨⟨rfl, fun h => h, fun h => h, fun h => h, fun h => h, fun h => h, fun h => h⟩, Nat.le_refl _⟩
        · exact kept_passNotice x s
    · exact Kept.refl s

theorem kept_endEvent (s : State) : Kept s (endEvent s) := kept_pumpNotices _ s

/-! ### Requests answered -/

/-- A reply queued keeps the laws: the reply class has its capacity (R179). -/
theorem laws_queueReply (dst : Nat) (tag : Option Half) (body : OwnBody) (s : State) :
    KeepsLaws s (queueOwn .reply dst tag body s) := by
  rcases queueOwn_cases .reply dst tag body s with ⟨_, hr, f, hf, h⟩ | ⟨_, _, h⟩ | ⟨_, h⟩
  · rw [h]
    refine ⟨id, id, id, id, id, fun hl c => ?_, fun hl => hl, id, id, id, rfl⟩
    dsimp only
    split
    · exact hl c
    · rw [LineLink.count_append]
      have := hl c
      have hc : f.cls = .reply := by rw [hf]
      by_cases hcc : OwnClass.reply = c
      · subst hcc; simp [LineLink.room] at hr; simp [hc]; omega
      · simp [hc, hcc, this]
  · rw [h, if_neg (by decide)]; exact KeepsLaws.refl s
  · rw [h]; exact KeepsLaws.refl s

theorem laws_markResetting (b : Bool) (s : State) : KeepsLaws s (markResetting b s) := by
  unfold markResetting
  split
  · exact ⟨id, id, id, id, id, fun h => h, fun h => h, id, id, id, rfl⟩
  · exact KeepsLaws.refl s

theorem laws_request (src : Byte) (tag : Half) (line : Bool) (code : Option Byte) (body : List Byte) (s : State) :
    KeepsLaws s (request src tag line code body s) := by
  unfold request
  split
  · exact ((laws_execute line code body s).trans (laws_queueReply ..)).trans (laws_markResetting ..)
  · exact (keeps_refuse ..).toKeepsLaws

/-! ### Arriving frames -/

theorem laws_handOver (src : Byte) (tag : Half) (p : Payload) (s : State) : KeepsLaws s (handOver src tag p s) := by
  cases p with
  | count c t => exact (keeps_takeCount c t s).toKeepsLaws
  | mark cx => exact (keeps_takeMarkFrame src cx s).toKeepsLaws
  | sighting cDet kind cls len x0 x1 => exact (keeps_takeSighting src cDet kind cls len x0 x1 s).toKeepsLaws
  | knife k o p q => exact (keeps_takeKnifeReport src k o p q s).toKeepsLaws
  | block roll b fl n items => exact (keeps_takeBlock src roll b fl n items s).toKeepsLaws
  | flow c => exact (keeps_takeFlow src c s).toKeepsLaws
  | request line code body => exact laws_request src tag line code body s

theorem laws_judgeSource (f : LineFrame) (p : Payload) (s : State) : KeepsLaws s (judgeSource f p s) := by
  unfold judgeSource
  split
  · split
    · exact laws_handOver ..
    · exact (keeps_refuse ..).toKeepsLaws
  · split
    · exact laws_handOver ..
    · exact KeepsLaws.refl s

theorem laws_takeFrame (f : LineFrame) (r : Except RefusalReason Payload) (s : State) : KeepsLaws s (takeFrame f r s) := by
  unfold takeFrame
  split
  · exact KeepsLaws.refl s
  · split
    · exact (keeps_refuse ..).toKeepsLaws
    · exact laws_judgeSource ..

/-- Whatever frame arrives, the laws of every block stand (R174, R177). -/
theorem laws_receive (p : Port) (f : LineFrame) (r : Except RefusalReason Payload) (s : State) :
    KeepsLaws s (receive p f r s) := by
  unfold receive
  split
  · exact (keeps_forward ..).toKeepsLaws
  · split
    · exact (keeps_refuse ..).toKeepsLaws
    · split
      · exact laws_takeFrame ..
      · split
        · exact (keeps_forward ..).toKeepsLaws.trans (laws_takeFrame ..)
        · exact (keeps_forward ..).toKeepsLaws

/-! ### Own frames that go out -/

theorem OwnFrame.setStage_cls (f : OwnFrame) (p : Port) (x : Stage) : (f.setStage p x).cls = f.cls := by cases p <;> rfl

/-- Own frames mapped class by class, some of them gone, and a port within its capacity: the laws stand. -/
theorem laws_ownPort (s : State) (p : Port) (g : OwnFrame → OwnFrame) (k : OwnFrame → Bool) (q : PortState)
    (hg : ∀ f, (g f).cls = f.cls) (hq : q.passing.length ≤ (s.ll.port p).passing.length) :
    KeepsLaws s { s with ll := ({ s.ll with own := (s.ll.own.map g).filter k } : LineLink).setPort p q } := by
  refine ⟨id, id, id, id, id, fun h c => Nat.le_trans ?_ (h c), fun h => ⟨fun r => ?_, ?_⟩, id, id, id, rfl⟩
  · refine Nat.le_trans (Nat.le_of_eq ?_) (count_filter_map_le s.ll.own g k hg c)
    cases p <;> rfl
  · have hr := h.1 r
    have hp := h.1 p
    cases p <;> cases r <;> simp only [LineLink.setPort, LineLink.port] at * <;> omega
  · have := h.2
    cases p <;> exact this

theorem laws_finishSending (p : Port) (s : State) : KeepsLaws s (finishSending p s) := by
  unfold finishSending
  exact laws_ownPort s p _ _ _ (fun f => by split <;> [exact OwnFrame.setStage_cls ..; rfl]) (Nat.le_refl _)

theorem laws_unlink (p : Port) (s : State) : KeepsLaws s (unlink p s) := by
  unfold unlink
  exact laws_ownPort s p _ _ _ (fun f => OwnFrame.setStage_cls ..) (Nat.zero_le _)

theorem count_modify (l : List OwnFrame) (i : Nat) (g : OwnFrame → OwnFrame) (hg : ∀ f, (g f).cls = f.cls) (c : OwnClass) :
    ((l.modify i g).filter (fun f => f.cls == c)).length = (l.filter (fun f => f.cls == c)).length := by
  induction l generalizing i with
  | nil => simp
  | cons x l ih =>
    cases i with
    | zero => simp [List.filter_cons, hg]; split <;> rfl
    | succ i => simp only [List.modify_succ_cons, List.filter_cons]; split <;> simp [ih]

theorem laws_beginSending (p : Port) (s : State) : KeepsLaws s (beginSending p s) := by
  unfold beginSending
  dsimp only
  split
  · split
    · rename_i i _
      refine ⟨id, id, id, id, id, fun h c => ?_, fun h => h, id, id, id, rfl⟩
      exact Nat.le_trans (Nat.le_of_eq (count_modify _ i _ (fun f => OwnFrame.setStage_cls ..) c)) (h c)
    · split
      · rename_i f rest hp
        refine laws_setPort p _ s (fun h => ?_)
        have := h.1 p
        rw [hp] at this
        simp only [List.length_cons] at this
        dsimp only
        omega
      · exact KeepsLaws.refl s
  · exact KeepsLaws.refl s

theorem laws_idlePort (p : Port) (s : State) : KeepsLaws s (idlePort p s) := (laws_finishSending p s).trans (laws_beginSending p _)

theorem laws_dropClass (c : OwnClass) (s : State) : KeepsLaws s (dropClass c s) :=
  keepsLaws_own s _ rfl rfl rfl (fun c' => (List.filter_sublist.filter (fun x : OwnFrame => x.cls == c')).length_le)

theorem laws_reportRecord (s : State) : KeepsLaws s (reportRecord s) := by
  unfold reportRecord
  split
  · exact (laws_dropClass .record s).trans (((kept_recordSent _).trans (kept_sendRecords _)).toUpholds.trans (upholds_expand _)).keeps.toKeepsLaws
  · exact KeepsLaws.refl s

theorem laws_reportNotice (s : State) : KeepsLaws s (reportNotice s) := by
  unfold reportNotice
  split
  · exact (laws_dropClass .notice s).trans ⟨id, id, id, id, fun h => h, id, id, id, id, id, rfl⟩
  · exact KeepsLaws.refl s

theorem laws_changeLink (p : Port) (up : Bool) (s : State) : KeepsLaws s (changeLink p up s) := by
  unfold changeLink
  split
  · exact KeepsLaws.refl s
  · split
    · exact laws_setPort p { s.ll.port p with link := true } s (fun h => h.1 p)
    · unfold linkLost
      dsimp only
      have h1 := laws_unlink p s
      have h2 : KeepsLaws s (if wentOut .notice s (unlink p s) then reportNotice (unlink p s) else unlink p s) := by
        split
        · exact h1.trans (laws_reportNotice _)
        · exact h1
      split
      · exact h2.trans (laws_reportRecord _)
      · exact h2

/-! ### Timers -/

theorem keeps_expireSilence (s : State) : Keeps s (expireSilence s) := by
  unfold expireSilence
  split
  · exact keeps_silenceExpires s
  · exact Keeps.refl s

theorem keeps_expireConfirm (j : Nat) (s : State) : Keeps s (expireConfirm j s) := by
  unfold expireConfirm
  split
  · split
    · exact (but_confirmExpires ..).keeps
    · exact Keeps.refl s
  · exact Keeps.refl s

end Sys2Proof.Machine
end

