-- ==== Sys2Proof/Laws/Frames.lean ====
section
/-! SUPPORT. What the shared operations leave alone, said once: an expansion attempt, a notice queued, a frame forwarded; and how a
frame that is taken reaches its block. -/

namespace Sys2Proof.Machine

/-- A notice queued changes the Notice Queue and nothing else. -/
theorem queueNotice_rest (k : NoticeKind) (a b c : Word) (s : State) :
    queueNotice k a b c s = { s with nq := (queueNotice k a b c s).nq } := by
  unfold queueNotice; split
  · dsimp only; split <;> rfl
  · rfl

/-- The queue with room takes a notice at its end (R187). -/
theorem queueNotice_room (k : NoticeKind) (a b c : Word) (s : State) (hq : s.canQueue = true)
    (hr : s.nq.waiting.length < Config.noticeMax) :
    queueNotice k a b c s = { s with nq := { s.nq with waiting := s.nq.waiting ++
      [{ kind := k, u := s.pu.u, v0 := a, v1 := b, v2 := c }] } } := by
  simp [queueNotice, hq, hr]

/-- Where no notice can be passed, an event ends as it is. -/
theorem endEvent_busy (s : State) (h : s.nq.inFlight ≠ none) : endEvent s = s := by
  unfold endEvent pumpNotices
  simp [h]

theorem endEvent_resetting (s : State) (h : s.ll.resetting = true) : endEvent s = s := by
  unfold endEvent pumpNotices
  simp [State.canQueue, h]

theorem endEvent_empty (s : State) (h : s.nq.waiting = []) : endEvent s = s := by
  unfold endEvent pumpNotices
  simp [h, nextNotice]

/-! ### Expansion -/

/-- `t` differs from `s` in what an expansion attempt may change: the Map Store but for its slots and headers, the Forecast list,
notices, and block requests queued. -/
structure ExpandsOnly (s t : State) : Prop where
  rest : t = { s with ms := t.ms, fq := { s.fq with forecast := t.fq.forecast }, nq := t.nq
                      ll := { s.ll with own := t.ll.own, seq := t.ll.seq } }
  slots : t.ms.slots = s.ms.slots
  current : t.ms.current = s.ms.current
  next : t.ms.next = s.ms.next

theorem ExpandsOnly.refl (s : State) : ExpandsOnly s s := ⟨rfl, rfl, rfl, rfl⟩

theorem ExpandsOnly.trans {s t u : State} (h : ExpandsOnly s t) (k : ExpandsOnly t u) : ExpandsOnly s u := by
  refine ⟨?_, k.slots.trans h.slots, k.current.trans h.current, k.next.trans h.next⟩
  rw [k.rest, h.rest]

theorem ExpandsOnly.foldl {α : Type} (f : State → α → State) (h : ∀ s x, ExpandsOnly s (f s x)) (l : List α) :
    ∀ s, ExpandsOnly s (l.foldl f s) := by
  induction l with
  | nil => exact ExpandsOnly.refl
  | cons x l ih => exact fun s => (h s x).trans (ih _)

theorem expandsOnly_notice (k : NoticeKind) (a b c : Word) (s : State) : ExpandsOnly s (queueNotice k a b c s) := by
  have h := queueNotice_rest k a b c s
  exact ⟨by rw [h], by rw [h], by rw [h], by rw [h]⟩

theorem expandsOnly_map (s : State) (x : MapStore) (h1 : x.slots = s.ms.slots) (h2 : x.current = s.ms.current)
    (h3 : x.next = s.ms.next) : ExpandsOnly s { s with ms := x } := ⟨rfl, h1, h2, h3⟩

theorem expandsOnly_request (roll : Word) (b : Nat) (s : State) : ExpandsOnly s (requestBlock roll b s) := by
  unfold requestBlock
  split
  · exact ExpandsOnly.refl s
  · split
    · refine ExpandsOnly.trans (t := queueOwn .blockRequest (s.role (·.mapServer)) none (.blockRequest roll b) s) ?_
        (expandsOnly_map _ _ rfl rfl rfl)
      rcases queueOwn_cases .blockRequest (s.role (·.mapServer)) none (.blockRequest roll b) s with
        ⟨_, _, f, _, h⟩ | ⟨_, _, h⟩ | ⟨_, h⟩
      · rw [h]; exact ⟨rfl, rfl, rfl, rfl⟩
      · rw [h, if_neg (by decide)]; exact ExpandsOnly.refl s
      · rw [h]; exact ExpandsOnly.refl s
    · exact ExpandsOnly.refl s

/-- The check of requests changes the outstanding list and queues block requests (R33). -/
theorem expandsOnly_checkRequests (s : State) : ExpandsOnly s (checkRequests s) := by
  unfold checkRequests
  split
  · exact ExpandsOnly.foldl (fun s b => requestBlock _ b s) (fun s b => expandsOnly_request _ b s) _ s
  · exact ExpandsOnly.refl s

theorem expandsOnly_reportFree (s : State) : ExpandsOnly s (reportFree s) := by
  unfold reportFree
  split
  · exact ExpandsOnly.refl s
  · split
    · exact (expandsOnly_map s { s.ms with paused := true } rfl rfl rfl).trans (expandsOnly_notice ..)
    · split
      · exact (expandsOnly_map s { s.ms with paused := false } rfl rfl rfl).trans (expandsOnly_notice ..)
      · exact ExpandsOnly.refl s

theorem expandsOnly_joinForecast (h : Header) (e : PressEntry) (s : State) : ExpandsOnly s (joinForecast h e s) :=
  ⟨rfl, rfl, rfl, rfl⟩

theorem MapStore.use_slots (b : Nat) (t : MapStore) : (t.use b).slots = t.slots := by
  unfold MapStore.use; split <;> rfl

theorem expandsOnly_expandOne (h : Header) (f b : Nat) (l : List PressEntry) (s : State) :
    ExpandsOnly s (expandOne h f b l s) := by
  unfold expandOne
  have h1 : ExpandsOnly s (l.foldl (fun s e => joinForecast h e s) s) :=
    ExpandsOnly.foldl (fun s e => joinForecast h e s) (fun s e => expandsOnly_joinForecast h e s) l s
  dsimp only
  generalize l.foldl (fun s e => joinForecast h e s) s = s1 at h1
  exact ((h1.trans (expandsOnly_map s1 { s1.ms.use b with run := false, frontier := some (f + 1) } (MapStore.use_slots b s1.ms)
    (MapStore.use_headers b s1.ms).1 (MapStore.use_headers b s1.ms).2)).trans (expandsOnly_reportFree _)).trans
      (expandsOnly_checkRequests _)

/-- An expansion attempt changes nothing but the Map Store's frontier, marks and requests, the Forecast list and what it queues
(R38, R39). -/
theorem expandsOnly_expand (s : State) : ExpandsOnly s (expand s) := by
  have key : ∀ n s, ExpandsOnly s (expandFor n s) := by
    intro n
    induction n with
    | zero => exact ExpandsOnly.refl
    | succ n ih =>
      intro s
      unfold expandFor
      split
      · exact ExpandsOnly.refl s
      · exact (expandsOnly_expandOne ..).trans (ih _)
  unfold expand
  split
  · exact ExpandsOnly.refl s
  · exact key _ s

/-! ### Taken frames -/

/-- A frame forwarded changes the passing frames and drops of its port and nothing else (R174, R179). -/
theorem forward_rest (p : Port) (f : Frame) (s : State) :
    forward p f s = { s with ll := s.ll.setPort p ((forward p f s).ll.port p) } := by
  unfold forward
  dsimp only
  split
  · split <;> cases p <;> rfl
  · cases p <;> rfl

/-- A Welzuna frame addressed to the part alone, or to all, is taken; in the second case it is forwarded first (R174). -/
theorem receive_taken {s : State} {p : Port} {f : LineFrame} {own : Nat} (r : Except RefusalReason Payload)
    (hs : s.station = some own) (hsrc : f.src.toNat ≠ own) (hd : f.dst.toNat = own ∨ f.dst.toNat = 63) :
    receive p f r s = takeFrame f r (if f.dst.toNat = 63 then forward p.other (.line f) s else s) := by
  have ho : own ≤ 62 := by
    unfold State.station at hs
    split at hs
    · rename_i h; cases hs; exact h.2
    · cases hs
  unfold receive
  rw [hs]
  simp only [if_neg hsrc]
  rcases hd with h | h
  · rw [if_pos h, if_neg (by omega)]
  · rw [if_neg (by omega), if_pos h, if_pos (show f.dst.toNat = Config.broadcast from h)]

end Sys2Proof.Machine
end

