-- ==== Sys2Proof/Laws/State.lean ====
section
/-! SUPPORT. The field lemmas of the named updates: for each update of one block, one lemma for every other field of the state, and
what the update writes. -/

namespace Sys2Proof.Machine

variable (s : State)

/-! ### changeSettled -/

@[simp] theorem changeSettled_pending (num : Nat) (f : Settled → Settled) : (changeSettled num f s).pending = s.pending := rfl
@[simp] theorem changeSettled_lookFirst (num : Nat) (f : Settled → Settled) : (changeSettled num f s).lookFirst = s.lookFirst :=
    rfl
@[simp] theorem changeSettled_machine (num : Nat) (f : Settled → Settled) : (changeSettled num f s).machine = s.machine := rfl
@[simp] theorem changeSettled_peers (num : Nat) (f : Settled → Settled) : (changeSettled num f s).peers = s.peers := rfl
@[simp] theorem changeSettled_pu (num : Nat) (f : Settled → Settled) : (changeSettled num f s).pu = s.pu := rfl
@[simp] theorem changeSettled_mt (num : Nat) (f : Settled → Settled) : (changeSettled num f s).mt = s.mt := rfl
@[simp] theorem changeSettled_ms (num : Nat) (f : Settled → Settled) : (changeSettled num f s).ms = s.ms := rfl
@[simp] theorem changeSettled_lpt (num : Nat) (f : Settled → Settled) : (changeSettled num f s).lpt = s.lpt := rfl
@[simp] theorem changeSettled_knives (num : Nat) (f : Settled → Settled) : (changeSettled num f s).knives = s.knives := rfl
@[simp] theorem changeSettled_ss (num : Nat) (f : Settled → Settled) : (changeSettled num f s).ss = s.ss := rfl
@[simp] theorem changeSettled_sc (num : Nat) (f : Settled → Settled) : (changeSettled num f s).sc = s.sc := rfl
@[simp] theorem changeSettled_rs (num : Nat) (f : Settled → Settled) : (changeSettled num f s).rs = s.rs := rfl
@[simp] theorem changeSettled_nq (num : Nat) (f : Settled → Settled) : (changeSettled num f s).nq = s.nq := rfl
@[simp] theorem changeSettled_ll (num : Nat) (f : Settled → Settled) : (changeSettled num f s).ll = s.ll := rfl
@[simp] theorem changeSettled_fq (num : Nat) (f : Settled → Settled) : (changeSettled num f s).fq = s.fq.modifySettled num f :=
    rfl

/-! ### serve -/

@[simp] theorem serve_pending (num : Nat) : (serve num s).pending = s.pending := rfl
@[simp] theorem serve_lookFirst (num : Nat) : (serve num s).lookFirst = s.lookFirst := rfl
@[simp] theorem serve_machine (num : Nat) : (serve num s).machine = s.machine := rfl
@[simp] theorem serve_peers (num : Nat) : (serve num s).peers = s.peers := rfl
@[simp] theorem serve_pu (num : Nat) : (serve num s).pu = s.pu := rfl
@[simp] theorem serve_mt (num : Nat) : (serve num s).mt = s.mt := rfl
@[simp] theorem serve_ms (num : Nat) : (serve num s).ms = s.ms := rfl
@[simp] theorem serve_lpt (num : Nat) : (serve num s).lpt = s.lpt := rfl
@[simp] theorem serve_knives (num : Nat) : (serve num s).knives = s.knives := rfl
@[simp] theorem serve_ss (num : Nat) : (serve num s).ss = s.ss := rfl
@[simp] theorem serve_sc (num : Nat) : (serve num s).sc = s.sc := rfl
@[simp] theorem serve_rs (num : Nat) : (serve num s).rs = s.rs := rfl
@[simp] theorem serve_nq (num : Nat) : (serve num s).nq = s.nq := rfl
@[simp] theorem serve_ll (num : Nat) : (serve num s).ll = s.ll := rfl
@[simp] theorem serve_fq (num : Nat) : (serve num s).fq = (s.fq.modifySettled num (Settled.setServed true)).modifyForecast num (Forecast.setServed true) :=
    rfl

/-! ### joinForecast -/

@[simp] theorem joinForecast_pending (h : Header) (e : PressEntry) : (joinForecast h e s).pending = s.pending := rfl
@[simp] theorem joinForecast_lookFirst (h : Header) (e : PressEntry) : (joinForecast h e s).lookFirst = s.lookFirst := rfl
@[simp] theorem joinForecast_machine (h : Header) (e : PressEntry) : (joinForecast h e s).machine = s.machine := rfl
@[simp] theorem joinForecast_peers (h : Header) (e : PressEntry) : (joinForecast h e s).peers = s.peers := rfl
@[simp] theorem joinForecast_pu (h : Header) (e : PressEntry) : (joinForecast h e s).pu = s.pu := rfl
@[simp] theorem joinForecast_mt (h : Header) (e : PressEntry) : (joinForecast h e s).mt = s.mt := rfl
@[simp] theorem joinForecast_ms (h : Header) (e : PressEntry) : (joinForecast h e s).ms = s.ms := rfl
@[simp] theorem joinForecast_lpt (h : Header) (e : PressEntry) : (joinForecast h e s).lpt = s.lpt := rfl
@[simp] theorem joinForecast_knives (h : Header) (e : PressEntry) : (joinForecast h e s).knives = s.knives := rfl
@[simp] theorem joinForecast_ss (h : Header) (e : PressEntry) : (joinForecast h e s).ss = s.ss := rfl
@[simp] theorem joinForecast_sc (h : Header) (e : PressEntry) : (joinForecast h e s).sc = s.sc := rfl
@[simp] theorem joinForecast_rs (h : Header) (e : PressEntry) : (joinForecast h e s).rs = s.rs := rfl
@[simp] theorem joinForecast_nq (h : Header) (e : PressEntry) : (joinForecast h e s).nq = s.nq := rfl
@[simp] theorem joinForecast_ll (h : Header) (e : PressEntry) : (joinForecast h e s).ll = s.ll := rfl
@[simp] theorem joinForecast_fq_forecast (h : Header) (e : PressEntry) : (joinForecast h e s).fq.forecast = insertForecast (h.forecastOf s.fq.freeSlot e) s.fq.forecast :=
    rfl
@[simp] theorem joinForecast_fq_settled (h : Header) (e : PressEntry) : (joinForecast h e s).fq.settled = s.fq.settled := rfl
@[simp] theorem joinForecast_fq_hCam (h : Header) (e : PressEntry) : (joinForecast h e s).fq.hCam = s.fq.hCam := rfl
@[simp] theorem joinForecast_fq_flags (h : Header) (e : PressEntry) : (joinForecast h e s).fq.flags = s.fq.flags := rfl

/-! ### raiseHCam -/

@[simp] theorem raiseHCam_pending (m : MachineTable) : (raiseHCam m s).pending = s.pending := rfl
@[simp] theorem raiseHCam_lookFirst (m : MachineTable) : (raiseHCam m s).lookFirst = s.lookFirst := rfl
@[simp] theorem raiseHCam_machine (m : MachineTable) : (raiseHCam m s).machine = s.machine := rfl
@[simp] theorem raiseHCam_peers (m : MachineTable) : (raiseHCam m s).peers = s.peers := rfl
@[simp] theorem raiseHCam_pu (m : MachineTable) : (raiseHCam m s).pu = s.pu := rfl
@[simp] theorem raiseHCam_mt (m : MachineTable) : (raiseHCam m s).mt = s.mt := rfl
@[simp] theorem raiseHCam_ms (m : MachineTable) : (raiseHCam m s).ms = s.ms := rfl
@[simp] theorem raiseHCam_lpt (m : MachineTable) : (raiseHCam m s).lpt = s.lpt := rfl
@[simp] theorem raiseHCam_knives (m : MachineTable) : (raiseHCam m s).knives = s.knives := rfl
@[simp] theorem raiseHCam_ss (m : MachineTable) : (raiseHCam m s).ss = s.ss := rfl
@[simp] theorem raiseHCam_sc (m : MachineTable) : (raiseHCam m s).sc = s.sc := rfl
@[simp] theorem raiseHCam_rs (m : MachineTable) : (raiseHCam m s).rs = s.rs := rfl
@[simp] theorem raiseHCam_nq (m : MachineTable) : (raiseHCam m s).nq = s.nq := rfl
@[simp] theorem raiseHCam_ll (m : MachineTable) : (raiseHCam m s).ll = s.ll := rfl
@[simp] theorem raiseHCam_fq_hCam (m : MachineTable) : (raiseHCam m s).fq.hCam = s.fq.hCam.map (fun x => max x (s.pu.u - m.dCam)) :=
    rfl
@[simp] theorem raiseHCam_fq_forecast (m : MachineTable) : (raiseHCam m s).fq.forecast = s.fq.forecast := rfl
@[simp] theorem raiseHCam_fq_settled (m : MachineTable) : (raiseHCam m s).fq.settled = s.fq.settled := rfl
@[simp] theorem raiseHCam_fq_flags (m : MachineTable) : (raiseHCam m s).fq.flags = s.fq.flags := rfl

/-! ### changeKnife -/

@[simp] theorem changeKnife_pending (j : Nat) (f : KnifeChannel → KnifeChannel) : (changeKnife j f s).pending = s.pending := rfl
@[simp] theorem changeKnife_lookFirst (j : Nat) (f : KnifeChannel → KnifeChannel) : (changeKnife j f s).lookFirst = s.lookFirst :=
    rfl
@[simp] theorem changeKnife_machine (j : Nat) (f : KnifeChannel → KnifeChannel) : (changeKnife j f s).machine = s.machine := rfl
@[simp] theorem changeKnife_peers (j : Nat) (f : KnifeChannel → KnifeChannel) : (changeKnife j f s).peers = s.peers := rfl
@[simp] theorem changeKnife_pu (j : Nat) (f : KnifeChannel → KnifeChannel) : (changeKnife j f s).pu = s.pu := rfl
@[simp] theorem changeKnife_mt (j : Nat) (f : KnifeChannel → KnifeChannel) : (changeKnife j f s).mt = s.mt := rfl
@[simp] theorem changeKnife_ms (j : Nat) (f : KnifeChannel → KnifeChannel) : (changeKnife j f s).ms = s.ms := rfl
@[simp] theorem changeKnife_fq (j : Nat) (f : KnifeChannel → KnifeChannel) : (changeKnife j f s).fq = s.fq := rfl
@[simp] theorem changeKnife_lpt (j : Nat) (f : KnifeChannel → KnifeChannel) : (changeKnife j f s).lpt = s.lpt := rfl
@[simp] theorem changeKnife_ss (j : Nat) (f : KnifeChannel → KnifeChannel) : (changeKnife j f s).ss = s.ss := rfl
@[simp] theorem changeKnife_sc (j : Nat) (f : KnifeChannel → KnifeChannel) : (changeKnife j f s).sc = s.sc := rfl
@[simp] theorem changeKnife_rs (j : Nat) (f : KnifeChannel → KnifeChannel) : (changeKnife j f s).rs = s.rs := rfl
@[simp] theorem changeKnife_nq (j : Nat) (f : KnifeChannel → KnifeChannel) : (changeKnife j f s).nq = s.nq := rfl
@[simp] theorem changeKnife_ll (j : Nat) (f : KnifeChannel → KnifeChannel) : (changeKnife j f s).ll = s.ll := rfl
@[simp] theorem changeKnife_knives (j : Nat) (f : KnifeChannel → KnifeChannel) : (changeKnife j f s).knives = s.knives.modify j f :=
    rfl

/-! ### markUnverified -/

@[simp] theorem markUnverified_pending : (markUnverified s).pending = s.pending := rfl
@[simp] theorem markUnverified_lookFirst : (markUnverified s).lookFirst = s.lookFirst := rfl
@[simp] theorem markUnverified_machine : (markUnverified s).machine = s.machine := rfl
@[simp] theorem markUnverified_peers : (markUnverified s).peers = s.peers := rfl
@[simp] theorem markUnverified_pu : (markUnverified s).pu = s.pu := rfl
@[simp] theorem markUnverified_mt : (markUnverified s).mt = s.mt := rfl
@[simp] theorem markUnverified_ms : (markUnverified s).ms = s.ms := rfl
@[simp] theorem markUnverified_fq : (markUnverified s).fq = s.fq := rfl
@[simp] theorem markUnverified_lpt : (markUnverified s).lpt = s.lpt := rfl
@[simp] theorem markUnverified_knives : (markUnverified s).knives = s.knives := rfl
@[simp] theorem markUnverified_ss : (markUnverified s).ss = s.ss := rfl
@[simp] theorem markUnverified_sc : (markUnverified s).sc = s.sc := rfl
@[simp] theorem markUnverified_nq : (markUnverified s).nq = s.nq := rfl
@[simp] theorem markUnverified_ll : (markUnverified s).ll = s.ll := rfl
@[simp] theorem markUnverified_rs_sendList : (markUnverified s).rs.sendList = s.rs.sendList := rfl
@[simp] theorem markUnverified_rs_held : (markUnverified s).rs.held = s.rs.held := rfl
@[simp] theorem markUnverified_rs_inFlight : (markUnverified s).rs.inFlight = s.rs.inFlight := rfl

/-! ### handEvent -/

@[simp] theorem handEvent_pending (lane : Nat) (e : Event) : (handEvent lane e s).pending = s.pending := rfl
@[simp] theorem handEvent_lookFirst (lane : Nat) (e : Event) : (handEvent lane e s).lookFirst = s.lookFirst := rfl
@[simp] theorem handEvent_machine (lane : Nat) (e : Event) : (handEvent lane e s).machine = s.machine := rfl
@[simp] theorem handEvent_peers (lane : Nat) (e : Event) : (handEvent lane e s).peers = s.peers := rfl
@[simp] theorem handEvent_pu (lane : Nat) (e : Event) : (handEvent lane e s).pu = s.pu := rfl
@[simp] theorem handEvent_mt (lane : Nat) (e : Event) : (handEvent lane e s).mt = s.mt := rfl
@[simp] theorem handEvent_ms (lane : Nat) (e : Event) : (handEvent lane e s).ms = s.ms := rfl
@[simp] theorem handEvent_fq (lane : Nat) (e : Event) : (handEvent lane e s).fq = s.fq := rfl
@[simp] theorem handEvent_lpt (lane : Nat) (e : Event) : (handEvent lane e s).lpt = s.lpt := rfl
@[simp] theorem handEvent_knives (lane : Nat) (e : Event) : (handEvent lane e s).knives = s.knives := rfl
@[simp] theorem handEvent_ss (lane : Nat) (e : Event) : (handEvent lane e s).ss = s.ss := rfl
@[simp] theorem handEvent_sc (lane : Nat) (e : Event) : (handEvent lane e s).sc = s.sc := rfl
@[simp] theorem handEvent_nq (lane : Nat) (e : Event) : (handEvent lane e s).nq = s.nq := rfl
@[simp] theorem handEvent_ll (lane : Nat) (e : Event) : (handEvent lane e s).ll = s.ll := rfl
@[simp] theorem handEvent_rs_headers (lane : Nat) (e : Event) : (handEvent lane e s).rs.headers = modifyFirst (openFor lane) (ReelRecord.take e) s.rs.headers :=
    rfl
@[simp] theorem handEvent_rs_sendList (lane : Nat) (e : Event) : (handEvent lane e s).rs.sendList = s.rs.sendList := rfl
@[simp] theorem handEvent_rs_held (lane : Nat) (e : Event) : (handEvent lane e s).rs.held = s.rs.held := rfl
@[simp] theorem handEvent_rs_inFlight (lane : Nat) (e : Event) : (handEvent lane e s).rs.inFlight = s.rs.inFlight := rfl

/-! ### openRecords -/

@[simp] theorem openRecords_pending (set : Nat) (roll : Word) (b : Bank) : (openRecords set roll b s).pending = s.pending := rfl
@[simp] theorem openRecords_lookFirst (set : Nat) (roll : Word) (b : Bank) : (openRecords set roll b s).lookFirst = s.lookFirst :=
    rfl
@[simp] theorem openRecords_machine (set : Nat) (roll : Word) (b : Bank) : (openRecords set roll b s).machine = s.machine := rfl
@[simp] theorem openRecords_peers (set : Nat) (roll : Word) (b : Bank) : (openRecords set roll b s).peers = s.peers := rfl
@[simp] theorem openRecords_pu (set : Nat) (roll : Word) (b : Bank) : (openRecords set roll b s).pu = s.pu := rfl
@[simp] theorem openRecords_mt (set : Nat) (roll : Word) (b : Bank) : (openRecords set roll b s).mt = s.mt := rfl
@[simp] theorem openRecords_ms (set : Nat) (roll : Word) (b : Bank) : (openRecords set roll b s).ms = s.ms := rfl
@[simp] theorem openRecords_fq (set : Nat) (roll : Word) (b : Bank) : (openRecords set roll b s).fq = s.fq := rfl
@[simp] theorem openRecords_lpt (set : Nat) (roll : Word) (b : Bank) : (openRecords set roll b s).lpt = s.lpt := rfl
@[simp] theorem openRecords_knives (set : Nat) (roll : Word) (b : Bank) : (openRecords set roll b s).knives = s.knives := rfl
@[simp] theorem openRecords_ss (set : Nat) (roll : Word) (b : Bank) : (openRecords set roll b s).ss = s.ss := rfl
@[simp] theorem openRecords_sc (set : Nat) (roll : Word) (b : Bank) : (openRecords set roll b s).sc = s.sc := rfl
@[simp] theorem openRecords_nq (set : Nat) (roll : Word) (b : Bank) : (openRecords set roll b s).nq = s.nq := rfl
@[simp] theorem openRecords_ll (set : Nat) (roll : Word) (b : Bank) : (openRecords set roll b s).ll = s.ll := rfl
@[simp] theorem openRecords_rs_sendList (set : Nat) (roll : Word) (b : Bank) : (openRecords set roll b s).rs.sendList = s.rs.sendList :=
    rfl
@[simp] theorem openRecords_rs_held (set : Nat) (roll : Word) (b : Bank) : (openRecords set roll b s).rs.held = s.rs.held := rfl
@[simp] theorem openRecords_rs_inFlight (set : Nat) (roll : Word) (b : Bank) : (openRecords set roll b s).rs.inFlight = s.rs.inFlight :=
    rfl

/-! ### formDs -/

@[simp] theorem formDs_pending (m : MachineTable) : (formDs m s).pending = s.pending := rfl
@[simp] theorem formDs_lookFirst (m : MachineTable) : (formDs m s).lookFirst = s.lookFirst := rfl
@[simp] theorem formDs_machine (m : MachineTable) : (formDs m s).machine = s.machine := rfl
@[simp] theorem formDs_peers (m : MachineTable) : (formDs m s).peers = s.peers := rfl
@[simp] theorem formDs_pu (m : MachineTable) : (formDs m s).pu = s.pu := rfl
@[simp] theorem formDs_mt (m : MachineTable) : (formDs m s).mt = s.mt := rfl
@[simp] theorem formDs_ms (m : MachineTable) : (formDs m s).ms = s.ms := rfl
@[simp] theorem formDs_fq (m : MachineTable) : (formDs m s).fq = s.fq := rfl
@[simp] theorem formDs_lpt (m : MachineTable) : (formDs m s).lpt = s.lpt := rfl
@[simp] theorem formDs_knives (m : MachineTable) : (formDs m s).knives = s.knives := rfl
@[simp] theorem formDs_sc (m : MachineTable) : (formDs m s).sc = s.sc := rfl
@[simp] theorem formDs_rs (m : MachineTable) : (formDs m s).rs = s.rs := rfl
@[simp] theorem formDs_nq (m : MachineTable) : (formDs m s).nq = s.nq := rfl
@[simp] theorem formDs_ll (m : MachineTable) : (formDs m s).ll = s.ll := rfl
@[simp] theorem formDs_ss_dS (m : MachineTable) : (formDs m s).ss.dS = some (s.stopDistance m) := rfl
@[simp] theorem formDs_ss_state (m : MachineTable) : (formDs m s).ss.state = s.ss.state := rfl
@[simp] theorem formDs_ss_kind (m : MachineTable) : (formDs m s).ss.kind = s.ss.kind := rfl
@[simp] theorem formDs_ss_aim (m : MachineTable) : (formDs m s).ss.aim = s.ss.aim := rfl
@[simp] theorem formDs_ss_uT (m : MachineTable) : (formDs m s).ss.uT = s.ss.uT := rfl
@[simp] theorem formDs_ss_cutHeld (m : MachineTable) : (formDs m s).ss.cutHeld = s.ss.cutHeld := rfl

/-! ### advanceFrontier -/

@[simp] theorem advanceFrontier_pending (k : Nat) (run : Bool) : (advanceFrontier k run s).pending = s.pending := rfl
@[simp] theorem advanceFrontier_lookFirst (k : Nat) (run : Bool) : (advanceFrontier k run s).lookFirst = s.lookFirst := rfl
@[simp] theorem advanceFrontier_machine (k : Nat) (run : Bool) : (advanceFrontier k run s).machine = s.machine := rfl
@[simp] theorem advanceFrontier_peers (k : Nat) (run : Bool) : (advanceFrontier k run s).peers = s.peers := rfl
@[simp] theorem advanceFrontier_pu (k : Nat) (run : Bool) : (advanceFrontier k run s).pu = s.pu := rfl
@[simp] theorem advanceFrontier_mt (k : Nat) (run : Bool) : (advanceFrontier k run s).mt = s.mt := rfl
@[simp] theorem advanceFrontier_fq (k : Nat) (run : Bool) : (advanceFrontier k run s).fq = s.fq := rfl
@[simp] theorem advanceFrontier_lpt (k : Nat) (run : Bool) : (advanceFrontier k run s).lpt = s.lpt := rfl
@[simp] theorem advanceFrontier_knives (k : Nat) (run : Bool) : (advanceFrontier k run s).knives = s.knives := rfl
@[simp] theorem advanceFrontier_ss (k : Nat) (run : Bool) : (advanceFrontier k run s).ss = s.ss := rfl
@[simp] theorem advanceFrontier_sc (k : Nat) (run : Bool) : (advanceFrontier k run s).sc = s.sc := rfl
@[simp] theorem advanceFrontier_rs (k : Nat) (run : Bool) : (advanceFrontier k run s).rs = s.rs := rfl
@[simp] theorem advanceFrontier_nq (k : Nat) (run : Bool) : (advanceFrontier k run s).nq = s.nq := rfl
@[simp] theorem advanceFrontier_ll (k : Nat) (run : Bool) : (advanceFrontier k run s).ll = s.ll := rfl
@[simp] theorem advanceFrontier_ms_frontier (k : Nat) (run : Bool) : (advanceFrontier k run s).ms.frontier = some (k + 1) := rfl
@[simp] theorem advanceFrontier_ms_run (k : Nat) (run : Bool) : (advanceFrontier k run s).ms.run = run := rfl
@[simp] theorem advanceFrontier_ms_current (k : Nat) (run : Bool) : (advanceFrontier k run s).ms.current = s.ms.current := rfl
@[simp] theorem advanceFrontier_ms_next (k : Nat) (run : Bool) : (advanceFrontier k run s).ms.next = s.ms.next := rfl
@[simp] theorem advanceFrontier_ms_slots (k : Nat) (run : Bool) : (advanceFrontier k run s).ms.slots = s.ms.slots := rfl
@[simp] theorem advanceFrontier_ms_outstanding (k : Nat) (run : Bool) : (advanceFrontier k run s).ms.outstanding = s.ms.outstanding :=
    rfl
@[simp] theorem advanceFrontier_ms_paused (k : Nat) (run : Bool) : (advanceFrontier k run s).ms.paused = s.ms.paused := rfl

/-! ### refuse -/

@[simp] theorem refuse_pending (src kind : Byte) (r : RefusalReason) : (refuse src kind r s).pending = s.pending := rfl
@[simp] theorem refuse_lookFirst (src kind : Byte) (r : RefusalReason) : (refuse src kind r s).lookFirst = s.lookFirst := rfl
@[simp] theorem refuse_machine (src kind : Byte) (r : RefusalReason) : (refuse src kind r s).machine = s.machine := rfl
@[simp] theorem refuse_peers (src kind : Byte) (r : RefusalReason) : (refuse src kind r s).peers = s.peers := rfl
@[simp] theorem refuse_pu (src kind : Byte) (r : RefusalReason) : (refuse src kind r s).pu = s.pu := rfl
@[simp] theorem refuse_mt (src kind : Byte) (r : RefusalReason) : (refuse src kind r s).mt = s.mt := rfl
@[simp] theorem refuse_ms (src kind : Byte) (r : RefusalReason) : (refuse src kind r s).ms = s.ms := rfl
@[simp] theorem refuse_fq (src kind : Byte) (r : RefusalReason) : (refuse src kind r s).fq = s.fq := rfl
@[simp] theorem refuse_lpt (src kind : Byte) (r : RefusalReason) : (refuse src kind r s).lpt = s.lpt := rfl
@[simp] theorem refuse_knives (src kind : Byte) (r : RefusalReason) : (refuse src kind r s).knives = s.knives := rfl
@[simp] theorem refuse_ss (src kind : Byte) (r : RefusalReason) : (refuse src kind r s).ss = s.ss := rfl
@[simp] theorem refuse_sc (src kind : Byte) (r : RefusalReason) : (refuse src kind r s).sc = s.sc := rfl
@[simp] theorem refuse_rs (src kind : Byte) (r : RefusalReason) : (refuse src kind r s).rs = s.rs := rfl
@[simp] theorem refuse_nq (src kind : Byte) (r : RefusalReason) : (refuse src kind r s).nq = s.nq := rfl
@[simp] theorem refuse_ll_capture (src kind : Byte) (r : RefusalReason) : (refuse src kind r s).ll.capture = some { src := src, kind := kind, reason := r } :=
    rfl
@[simp] theorem refuse_ll_refusals (src kind : Byte) (r : RefusalReason) : (refuse src kind r s).ll.refusals = min 65535 (s.ll.refusals + 1) :=
    rfl
@[simp] theorem refuse_ll_own (src kind : Byte) (r : RefusalReason) : (refuse src kind r s).ll.own = s.ll.own := rfl
@[simp] theorem refuse_ll_portA (src kind : Byte) (r : RefusalReason) : (refuse src kind r s).ll.portA = s.ll.portA := rfl
@[simp] theorem refuse_ll_portB (src kind : Byte) (r : RefusalReason) : (refuse src kind r s).ll.portB = s.ll.portB := rfl
@[simp] theorem refuse_ll_straps (src kind : Byte) (r : RefusalReason) : (refuse src kind r s).ll.straps = s.ll.straps := rfl
@[simp] theorem refuse_ll_resetting (src kind : Byte) (r : RefusalReason) : (refuse src kind r s).ll.resetting = s.ll.resetting :=
    rfl

/-! ### dropClass -/

@[simp] theorem dropClass_pending (c : OwnClass) : (dropClass c s).pending = s.pending := rfl
@[simp] theorem dropClass_lookFirst (c : OwnClass) : (dropClass c s).lookFirst = s.lookFirst := rfl
@[simp] theorem dropClass_machine (c : OwnClass) : (dropClass c s).machine = s.machine := rfl
@[simp] theorem dropClass_peers (c : OwnClass) : (dropClass c s).peers = s.peers := rfl
@[simp] theorem dropClass_pu (c : OwnClass) : (dropClass c s).pu = s.pu := rfl
@[simp] theorem dropClass_mt (c : OwnClass) : (dropClass c s).mt = s.mt := rfl
@[simp] theorem dropClass_ms (c : OwnClass) : (dropClass c s).ms = s.ms := rfl
@[simp] theorem dropClass_fq (c : OwnClass) : (dropClass c s).fq = s.fq := rfl
@[simp] theorem dropClass_lpt (c : OwnClass) : (dropClass c s).lpt = s.lpt := rfl
@[simp] theorem dropClass_knives (c : OwnClass) : (dropClass c s).knives = s.knives := rfl
@[simp] theorem dropClass_ss (c : OwnClass) : (dropClass c s).ss = s.ss := rfl
@[simp] theorem dropClass_sc (c : OwnClass) : (dropClass c s).sc = s.sc := rfl
@[simp] theorem dropClass_rs (c : OwnClass) : (dropClass c s).rs = s.rs := rfl
@[simp] theorem dropClass_nq (c : OwnClass) : (dropClass c s).nq = s.nq := rfl
@[simp] theorem dropClass_ll_own (c : OwnClass) : (dropClass c s).ll.own = s.ll.own.filter (fun f => f.cls != c) := rfl
@[simp] theorem dropClass_ll_portA (c : OwnClass) : (dropClass c s).ll.portA = s.ll.portA := rfl
@[simp] theorem dropClass_ll_portB (c : OwnClass) : (dropClass c s).ll.portB = s.ll.portB := rfl
@[simp] theorem dropClass_ll_resetting (c : OwnClass) : (dropClass c s).ll.resetting = s.ll.resetting := rfl

/-! ### discardWaiting -/

@[simp] theorem discardWaiting_pending : (discardWaiting s).pending = s.pending := rfl
@[simp] theorem discardWaiting_lookFirst : (discardWaiting s).lookFirst = s.lookFirst := rfl
@[simp] theorem discardWaiting_machine : (discardWaiting s).machine = s.machine := rfl
@[simp] theorem discardWaiting_peers : (discardWaiting s).peers = s.peers := rfl
@[simp] theorem discardWaiting_pu : (discardWaiting s).pu = s.pu := rfl
@[simp] theorem discardWaiting_mt : (discardWaiting s).mt = s.mt := rfl
@[simp] theorem discardWaiting_ms : (discardWaiting s).ms = s.ms := rfl
@[simp] theorem discardWaiting_fq : (discardWaiting s).fq = s.fq := rfl
@[simp] theorem discardWaiting_lpt : (discardWaiting s).lpt = s.lpt := rfl
@[simp] theorem discardWaiting_knives : (discardWaiting s).knives = s.knives := rfl
@[simp] theorem discardWaiting_ss : (discardWaiting s).ss = s.ss := rfl
@[simp] theorem discardWaiting_sc : (discardWaiting s).sc = s.sc := rfl
@[simp] theorem discardWaiting_rs : (discardWaiting s).rs = s.rs := rfl
@[simp] theorem discardWaiting_nq : (discardWaiting s).nq = s.nq := rfl
@[simp] theorem discardWaiting_ll_portA : (discardWaiting s).ll.portA = s.ll.portA := rfl
@[simp] theorem discardWaiting_ll_portB : (discardWaiting s).ll.portB = s.ll.portB := rfl
@[simp] theorem discardWaiting_ll_resetting : (discardWaiting s).ll.resetting = s.ll.resetting := rfl

/-! ### finishSending -/

@[simp] theorem finishSending_pending (p : Port) : (finishSending p s).pending = s.pending := rfl
@[simp] theorem finishSending_lookFirst (p : Port) : (finishSending p s).lookFirst = s.lookFirst := rfl
@[simp] theorem finishSending_machine (p : Port) : (finishSending p s).machine = s.machine := rfl
@[simp] theorem finishSending_peers (p : Port) : (finishSending p s).peers = s.peers := rfl
@[simp] theorem finishSending_pu (p : Port) : (finishSending p s).pu = s.pu := rfl
@[simp] theorem finishSending_mt (p : Port) : (finishSending p s).mt = s.mt := rfl
@[simp] theorem finishSending_ms (p : Port) : (finishSending p s).ms = s.ms := rfl
@[simp] theorem finishSending_fq (p : Port) : (finishSending p s).fq = s.fq := rfl
@[simp] theorem finishSending_lpt (p : Port) : (finishSending p s).lpt = s.lpt := rfl
@[simp] theorem finishSending_knives (p : Port) : (finishSending p s).knives = s.knives := rfl
@[simp] theorem finishSending_ss (p : Port) : (finishSending p s).ss = s.ss := rfl
@[simp] theorem finishSending_sc (p : Port) : (finishSending p s).sc = s.sc := rfl
@[simp] theorem finishSending_rs (p : Port) : (finishSending p s).rs = s.rs := rfl
@[simp] theorem finishSending_nq (p : Port) : (finishSending p s).nq = s.nq := rfl

/-! ### unlink -/

@[simp] theorem unlink_pending (p : Port) : (unlink p s).pending = s.pending := rfl
@[simp] theorem unlink_lookFirst (p : Port) : (unlink p s).lookFirst = s.lookFirst := rfl
@[simp] theorem unlink_machine (p : Port) : (unlink p s).machine = s.machine := rfl
@[simp] theorem unlink_peers (p : Port) : (unlink p s).peers = s.peers := rfl
@[simp] theorem unlink_pu (p : Port) : (unlink p s).pu = s.pu := rfl
@[simp] theorem unlink_mt (p : Port) : (unlink p s).mt = s.mt := rfl
@[simp] theorem unlink_ms (p : Port) : (unlink p s).ms = s.ms := rfl
@[simp] theorem unlink_fq (p : Port) : (unlink p s).fq = s.fq := rfl
@[simp] theorem unlink_lpt (p : Port) : (unlink p s).lpt = s.lpt := rfl
@[simp] theorem unlink_knives (p : Port) : (unlink p s).knives = s.knives := rfl
@[simp] theorem unlink_ss (p : Port) : (unlink p s).ss = s.ss := rfl
@[simp] theorem unlink_sc (p : Port) : (unlink p s).sc = s.sc := rfl
@[simp] theorem unlink_rs (p : Port) : (unlink p s).rs = s.rs := rfl
@[simp] theorem unlink_nq (p : Port) : (unlink p s).nq = s.nq := rfl

/-! ### Ports -/

@[simp] theorem LineLink.setPort_port (l : LineLink) (p : Port) (x : PortState) : (l.setPort p x).port p = x := by cases p <;> rfl

@[simp] theorem LineLink.setPort_other (l : LineLink) (p : Port) (x : PortState) :
    (l.setPort p x).port p.other = l.port p.other := by cases p <;> rfl

@[simp] theorem LineLink.setPort_straps (l : LineLink) (p : Port) (x : PortState) : (l.setPort p x).straps = l.straps := by cases p <;> rfl
@[simp] theorem LineLink.setPort_own (l : LineLink) (p : Port) (x : PortState) : (l.setPort p x).own = l.own := by cases p <;> rfl
@[simp] theorem LineLink.setPort_seq (l : LineLink) (p : Port) (x : PortState) : (l.setPort p x).seq = l.seq := by cases p <;> rfl
@[simp] theorem LineLink.setPort_capture (l : LineLink) (p : Port) (x : PortState) : (l.setPort p x).capture = l.capture := by cases p <;> rfl
@[simp] theorem LineLink.setPort_refusals (l : LineLink) (p : Port) (x : PortState) : (l.setPort p x).refusals = l.refusals := by cases p <;> rfl
@[simp] theorem LineLink.setPort_ordersDropped (l : LineLink) (p : Port) (x : PortState) : (l.setPort p x).ordersDropped = l.ordersDropped := by cases p <;> rfl
@[simp] theorem LineLink.setPort_resetting (l : LineLink) (p : Port) (x : PortState) : (l.setPort p x).resetting = l.resetting := by cases p <;> rfl
@[simp] theorem LineLink.setPort_voidRecord (l : LineLink) (p : Port) (x : PortState) : (l.setPort p x).voidRecord = l.voidRecord := by cases p <;> rfl
@[simp] theorem LineLink.setPort_voidNotice (l : LineLink) (p : Port) (x : PortState) : (l.setPort p x).voidNotice = l.voidNotice := by cases p <;> rfl

@[simp] theorem OwnFrame.setStage_stage (f : OwnFrame) (p : Port) (x : Stage) : (f.setStage p x).stage p = x := by cases p <;> rfl

@[simp] theorem OwnFrame.setStage_other (f : OwnFrame) (p : Port) (x : Stage) :
    (f.setStage p x).stage p.other = f.stage p.other := by cases p <;> rfl

/-! ### The Set Controller's counted marks and K_cut -/

section SetController

variable (t : SetController) (k : Nat) (u : Int)

@[simp] theorem SetController.mark_state : (t.mark k u).state = t.state := rfl
@[simp] theorem SetController.mark_num : (t.mark k u).num = t.num := rfl
@[simp] theorem SetController.mark_mode : (t.mark k u).mode = t.mode := rfl
@[simp] theorem SetController.mark_pStart : (t.mark k u).pStart = t.pStart := rfl
@[simp] theorem SetController.mark_kBase : (t.mark k u).kBase = t.kBase := rfl
@[simp] theorem SetController.mark_x : (t.mark k u).x = t.x := rfl
@[simp] theorem SetController.mark_xFrozen : (t.mark k u).xFrozen = t.xFrozen := rfl
@[simp] theorem SetController.mark_kCut : (t.mark k u).kCut = t.kCut := rfl
@[simp] theorem SetController.mark_frozenCut : (t.mark k u).frozenCut = t.frozenCut := rfl
@[simp] theorem SetController.mark_lastKCut : (t.mark k u).lastKCut = t.lastKCut := rfl
@[simp] theorem SetController.mark_removed : (t.mark k u).removed = t.removed := rfl
@[simp] theorem SetController.mark_held : (t.mark k u).held = t.held := rfl
@[simp] theorem SetController.mark_counted : (t.mark k u).counted = { k := k, u := u } :: t.counted := rfl
@[simp] theorem SetController.mark_cutMark : (t.mark k u).cutMark = if t.kCut = some k then some u else t.cutMark := rfl

@[simp] theorem SetController.aimCut_state : (t.aimCut k).state = t.state := rfl
@[simp] theorem SetController.aimCut_num : (t.aimCut k).num = t.num := rfl
@[simp] theorem SetController.aimCut_mode : (t.aimCut k).mode = t.mode := rfl
@[simp] theorem SetController.aimCut_pStart : (t.aimCut k).pStart = t.pStart := rfl
@[simp] theorem SetController.aimCut_kBase : (t.aimCut k).kBase = t.kBase := rfl
@[simp] theorem SetController.aimCut_x : (t.aimCut k).x = t.x := rfl
@[simp] theorem SetController.aimCut_xFrozen : (t.aimCut k).xFrozen = t.xFrozen := rfl
@[simp] theorem SetController.aimCut_kCut : (t.aimCut k).kCut = some k := rfl
@[simp] theorem SetController.aimCut_frozenCut : (t.aimCut k).frozenCut = t.frozenCut := rfl
@[simp] theorem SetController.aimCut_lastKCut : (t.aimCut k).lastKCut = t.lastKCut := rfl
@[simp] theorem SetController.aimCut_removed : (t.aimCut k).removed = t.removed := rfl
@[simp] theorem SetController.aimCut_held : (t.aimCut k).held = t.held := rfl
@[simp] theorem SetController.aimCut_counted : (t.aimCut k).counted = t.counted := rfl

/-- A K_cut whose mark is counted after it took its value has that mark's position (R146). -/
theorem SetController.cutMark_mark_aimCut : ((t.aimCut k).mark k u).cutMark = some u := by simp

/-- A K_cut whose mark was the last one counted has its position at once (R146). -/
theorem SetController.cutMark_aimCut_mark : ((t.mark k u).aimCut k).cutMark = some u := by simp [SetController.aimCut]

end SetController

end Sys2Proof.Machine
end

