-- ==== Sys2Proof/Laws/Arriving.lean ====
section
/-! SUPPORT. What an arriving frame comes to, once its header has been judged: the words of the statements tied to the shared
operations, once for all commands; and fields read back from their own bytes. -/

namespace Sys2Proof.Laws

open Sys2Proof.Machine Sys2Proof.Claims

/-- A four-byte field from its own bytes. -/
theorem wordOf_wordBytes (w : Word) : wordOf (w.extractLsb' 24 8) (w.extractLsb' 16 8) (w.extractLsb' 8 8) (w.extractLsb' 0 8) = w := by
  unfold wordOf
  have h1 : w.extractLsb' 24 8 ++ w.extractLsb' 16 8 = w.extractLsb' 16 16 := BitVec.extractLsb'_append_extractLsb'_eq_extractLsb' (by omega)
  have h2 : w.extractLsb' 16 16 ++ w.extractLsb' 8 8 = w.extractLsb' 8 24 := BitVec.extractLsb'_append_extractLsb'_eq_extractLsb' (by omega)
  have h3 : w.extractLsb' 8 24 ++ w.extractLsb' 0 8 = w.extractLsb' 0 32 := BitVec.extractLsb'_append_extractLsb'_eq_extractLsb' (by omega)
  have h4 : w.extractLsb' 0 32 = w := by simp
  rw [h1, h2]; exact h3.trans h4

/-- A two-byte field from its own bytes. -/
theorem halfOf_halfBytes (h : Half) : halfOf (h.extractLsb' 8 8) (h.extractLsb' 0 8) = h := by
  have h3 : h.extractLsb' 8 8 ++ h.extractLsb' 0 8 = h.extractLsb' 0 16 := BitVec.extractLsb'_append_extractLsb'_eq_extractLsb' (by omega)
  exact h3.trans (by simp)

/-- The words of a request from their own bytes. -/
theorem wordsOf_wordBytes (l : List Word) : wordsOf (l.flatMap wordBytes) = some l := by
  induction l with
  | nil => rfl
  | cons w l ih => simp [wordBytes, wordsOf, wordOf_wordBytes] at ih ⊢; exact ih

/-- The entries of a map block from their own bytes. -/
theorem mapItemsOf_bytes (l : List MapItem) : mapItemsOf (l.flatMap mapItemBytes) = some l := by
  induction l with
  | nil => rfl
  | cons m l ih =>
    simp only [List.flatMap_cons, mapItemBytes, wordBytes, halfBytes, List.cons_append, List.nil_append, mapItemsOf] at ih ⊢
    rw [ih]
    simp only [Option.map_some, wordOf_wordBytes, halfOf_halfBytes]

/-- A number below 2^32 from its word. -/
theorem wNat_toNat (n : Nat) (h : n < 4294967296) : (wNat n).toNat = n := by simp [wNat, Nat.mod_eq_of_lt h]

/-- A refusal is the one that the statements name (R178). -/
theorem refuse_eq_refused (a b : Byte) (r) (s : State) : refuse a b r s = refused a b r s := by
  have : min 65535 (s.ll.refusals + 1) = if s.ll.refusals < 65535 then s.ll.refusals + 1 else 65535 := by split <;> omega
  simp only [refuse, refused, this]

/-- Forwarding is as the statements name it (R174, R179). -/
theorem forward_eq_forwarded (p : Port) (f : Frame) (s : State) : forward p f s = forwarded p f s := by
  unfold forward forwarded withPassing
  cases p <;> dsimp only [LineLink.port, LineLink.setPort] <;> split <;> rename_i h <;> simp [h] <;> split <;> rename_i k <;> simp_all [Config.passingMax]
  
/-- A broadcast sent on changes one port, whose link stands. -/
theorem passedOn_rest (rx p) (s : State) : ∃ q a, passedOn rx p s = { s with ll := s.ll.setPort q a } ∧ a.link = (s.ll.port q).link := by
  unfold passedOn
  split
  · refine ⟨_, _, forward_rest _ _ _, ?_⟩
    unfold forward; dsimp only
    split <;> [split;skip] <;> simp
  · refine ⟨.a, s.ll.portA, ?_, rfl⟩; rfl

/-- An addressed frame is refused for its content or judged by its source (R177). -/
theorem arrive_taken {s : State} {rx : Rx} {p : Payload} (h : Addressed s rx) :
    arrive rx p s = (match p.judged with
      | .error reason => refuse rx.src p.kindByte reason (passedOn rx p s)
      | .ok q => judgeSource (frameOf rx p) q (passedOn rx p s)) := by
  obtain ⟨own, h1, h2, h3, h4⟩ := h
  unfold arrive
  rw [receive_taken (f := frameOf rx p) _ h1 h2 h3]
  unfold takeFrame
  obtain ⟨q, a, hq, _⟩ := passedOn_rest rx p s
  have : (if (frameOf rx p).dst.toNat = 63 then forward rx.port.other (Frame.line (frameOf rx p)) s else s) = passedOn rx p s := rfl
  rw [this, if_neg (by rw [hq]; simp [h4])]
  rfl

/-- A frame from its role's station is handed over. -/
theorem arrive_from {s : State} {rx : Rx} {p : Payload} {role} (h : From role s rx) (hj : p.judged = .ok p) (hr : ∀ t, p.role t = role t) :
    arrive rx p s = handOver rx.src rx.tag p (passedOn rx p s) := by
  rw [arrive_taken h.1, hj]
  obtain ⟨t, ht, hs⟩ := h.2
  obtain ⟨q, a, hq, _⟩ := passedOn_rest rx p s
  dsimp only
  unfold judgeSource
  have : (passedOn rx p s).peers = some t := by rw [hq]; exact ht
  rw [this]; dsimp only
  rw [if_pos (by rw [hr]; exact hs)]; rfl

/-- A request from a station that may ask reaches the Request Handler. -/
theorem arrive_request {s : State} {rx : Rx} {line code body} (ha : Addressed s rx) (h : ∀ t, s.peers = some t → rx.src.toNat = t.lineController) :
    arrive rx (.request line code body) s = request rx.src rx.tag line code body (passedOn rx (.request line code body) s) := by
  rw [arrive_taken ha]
  obtain ⟨q, a, hq, _⟩ := passedOn_rest rx (.request line code body) s
  dsimp only [Payload.judged]
  unfold judgeSource
  have : (passedOn rx (.request line code body) s).peers = s.peers := by rw [hq]
  rw [this]
  cases hp : s.peers with
  | none => rfl
  | some t =>
    have hh : (frameOf rx (.request line code body)).src.toNat = (Payload.request line code body).role t := h t hp
    dsimp only; rw [if_pos hh]; rfl

/-- A request that has room for its reply is executed and answered once. -/
theorem arrive_asked {s : State} {rx : Rx} {line code body} (h : Asked s rx) :
    arrive rx (.request line code body) s =
      let a := execute line code body (passedOn rx (.request line code body) s)
      markResetting a.resets (reply rx.src rx.tag code a) := by
  rw [arrive_request h.1 h.2.1]
  unfold request
  obtain ⟨q, a, hq, _⟩ := passedOn_rest rx (.request line code body) s
  rw [if_pos]
  have := h.2.2
  rw [hq]; simp [LineLink.room, LineLink.count, OwnClass.capacity] at this ⊢; exact this

/-- A reply can be queued and has room. -/
def Ready (s : State) : Prop := s.canQueue = true ∧ s.ll.room .reply = true

/-- What keeps the replies and the lines leaves the part able to answer. -/
theorem Ready.kept {s t : State} (h : Ready s) (k : Keeps s t) : Ready t := by
  have hl := k.lines
  have hc : t.ll.count .reply = s.ll.count .reply := congrArg List.length k.replies
  simp only [State.lines, Prod.mk.injEq] at hl
  refine ⟨?_, ?_⟩
  · have := h.1; simp only [State.canQueue, State.station, hl.1, hl.2.1] at this ⊢; exact this
  · have := h.2; unfold LineLink.room at this ⊢; simp only [hc]; exact this

/-- A request that is asked can be answered. -/
theorem ready_of {s : State} {rx p} (h : Asked s rx) : Ready (passedOn rx p s) := by
  obtain ⟨q, a, hq, _⟩ := passedOn_rest rx p s
  obtain ⟨⟨own, h1, _, _, h4⟩, _, h3⟩ := h
  constructor
  · rw [hq]; simp [State.canQueue, State.station] at h1 ⊢; exact ⟨h1.1, h4⟩
  · rw [hq]; simp [LineLink.room, LineLink.count, OwnClass.capacity] at h3 ⊢; exact h3

/-- A reply queued is the one that the statements name (R180). -/
theorem queueOwn_eq_answered {s : State} (h : Ready s) (rx : Rx) (code : Byte) (st i b) :
    queueOwn .reply rx.src.toNat (some rx.tag) (.reply code st i b) s = answered rx code st i b s := by
  obtain ⟨h1, h2⟩ := h
  simp only [queueOwn, h1, h2, if_true, answered, replyTo, queued, linked, PortState.newStage, OwnFrame.out]
  by_cases ha : s.ll.portA.link <;> by_cases hb : s.ll.portB.link <;> simp [ha, hb]

/-- What a request that is asked leaves, from what its execution leaves. -/
theorem arrive_answered {s : State} {rx : Rx} {line : Bool} {code : Byte} {body} (h : Asked s rx) {st i b x}
    (he : execute line (some code) body (passedOn rx (.request line (some code) body) s) = { status := st, index := i, body := b, state := x, resets := false })
    (hx : Ready x) :
    arrive rx (.request line (some code) body) s = answered rx code st i b x := by
  rw [arrive_asked h, he]
  exact queueOwn_eq_answered hx ..

/-- A request that is denied changes nothing but the replies. -/
theorem arrive_denied {s : State} {rx : Rx} {line : Bool} {code : Byte} {body} (h : Asked s rx) {st i} 
    (he : execute line (some code) body (passedOn rx (.request line (some code) body) s) = deny st i (passedOn rx (.request line (some code) body) s)) :
    done (arrive rx (.request line (some code) body) s) = .next (endEvent (answered rx code st i .empty (passedOn rx (.request line (some code) body) s))) := by
  rw [arrive_answered h he (ready_of h)]; rfl

end Sys2Proof.Laws
end

