-- ==== Sys2Proof/Laws/Expansion.lean ====
section
/-! SUPPORT. What one mark's expansion, the report of a free count and a check of requests leave standing, and the attempt to expand
as a recursion on the frontier (R33, R38, R39). -/

namespace Sys2Proof.Machine

/-- The machine table, the tracker, the current header and the frontier stand from `s` to `t`. -/
def SameFrontier (s t : State) : Prop :=
  t.machine = s.machine ∧ t.mt = s.mt ∧ t.ms.current = s.ms.current ∧ t.ms.frontier = s.ms.frontier

theorem SameFrontier.refl (s : State) : SameFrontier s s := ⟨rfl, rfl, rfl, rfl⟩

theorem SameFrontier.trans {s t u : State} (h : SameFrontier s t) (h' : SameFrontier t u) : SameFrontier s u :=
  ⟨h'.1.trans h.1, h'.2.1.trans h.2.1, h'.2.2.1.trans h.2.2.1, h'.2.2.2.trans h.2.2.2⟩

theorem SameFrontier.foldl {α : Type} {f : State → α → State} (hf : ∀ s x, SameFrontier s (f s x)) (l : List α) :
    ∀ s, SameFrontier s (l.foldl f s) := by
  induction l with
  | nil => exact SameFrontier.refl
  | cons x l ih => exact fun s => (hf s x).trans (ih _)

theorem sameFrontier_queueNotice (k v0 v1 v2) (s : State) : SameFrontier s (queueNotice k v0 v1 v2 s) := by
  unfold queueNotice
  dsimp only
  split
  · split <;> exact ⟨rfl, rfl, rfl, rfl⟩
  · exact SameFrontier.refl s

theorem sameFrontier_requestBlock (roll : Word) (b : Nat) (s : State) : SameFrontier s (requestBlock roll b s) := by
  unfold requestBlock
  split
  · exact SameFrontier.refl s
  · split
    · rcases queueOwn_cases .blockRequest (s.role (·.mapServer)) none (.blockRequest roll b) s with
        ⟨_, _, f, _, h⟩ | ⟨_, _, h⟩ | ⟨_, h⟩
      · rw [h]; exact ⟨rfl, rfl, rfl, rfl⟩
      · rw [h, if_neg (by decide)]; exact ⟨rfl, rfl, rfl, rfl⟩
      · rw [h]; exact ⟨rfl, rfl, rfl, rfl⟩
    · exact SameFrontier.refl s

theorem sameFrontier_checkRequests (s : State) : SameFrontier s (checkRequests s) := by
  unfold checkRequests
  split
  · exact SameFrontier.foldl (fun s b => sameFrontier_requestBlock _ b s) _ s
  · exact SameFrontier.refl s

theorem sameFrontier_reportFree (s : State) : SameFrontier s (reportFree s) := by
  have key : ∀ (p : Bool) (k v), SameFrontier s (queueNotice k v 0 0 { s with ms := { s.ms with paused := p } }) := fun p k v =>
    SameFrontier.trans (t := { s with ms := { s.ms with paused := p } }) ⟨rfl, rfl, rfl, rfl⟩ (sameFrontier_queueNotice ..)
  unfold reportFree
  split
  · exact SameFrontier.refl s
  · split
    · exact key ..
    · split
      · exact key ..
      · exact SameFrontier.refl s

/-- A mark's expansion moves the frontier one on; the machine table and the tracker stand (R38). -/
theorem expandOne_frontier (h : Header) (f b : Nat) (l : List PressEntry) (s : State) :
    (expandOne h f b l s).machine = s.machine ∧ (expandOne h f b l s).mt = s.mt ∧ (expandOne h f b l s).ms.frontier = some (f + 1) := by
  have h1 : SameFrontier s (l.foldl (fun s e => joinForecast h e s) s) :=
    SameFrontier.foldl (f := fun s e => joinForecast h e s) (fun s e => ⟨rfl, rfl, rfl, rfl⟩) l s
  unfold expandOne
  dsimp only
  generalize l.foldl (fun s e => joinForecast h e s) s = t at h1
  obtain ⟨a, b, _, d⟩ := (sameFrontier_reportFree _).trans (sameFrontier_checkRequests
    (reportFree { t with ms := { t.ms.use b with run := false, frontier := some (f + 1) } }))
  exact ⟨a.trans h1.1, b.trans h1.2.1, d⟩

/-- An attempt where the frontier's mark cannot expand changes nothing (R38). -/
theorem expand_none (s : State) (h : s.expandable = none) : expand s = s := by
  unfold expand
  split
  · rfl
  · rename_i m _
    cases s.lookahead m + 1 - s.ms.frontier.getD 0 with
    | zero => rfl
    | succ n => unfold expandFor; rw [h]

/-- An attempt where it can expands it and goes on with the next (R38). -/
theorem expand_next {s : State} {h : Header} {f b : Nat} {l : List PressEntry} (he : s.expandable = some (h, f, b, l)) :
    expand s = expand (expandOne h f b l s) := by
  obtain ⟨m, hm, hf, hl⟩ : ∃ m, s.machine = some m ∧ s.ms.frontier = some f ∧ f ≤ s.lookahead m := by
    have he' := he
    unfold State.expandable at he'
    split at he'
    · rename_i m h' f' hm _ hf
      split at he'
      · rename_i hc
        refine ⟨m, hm, ?_⟩
        have : f' = f := by
          split at he'
          · cases he'
          · split at he'
            · cases he'
            · split at he'
              · simp only [Option.some.injEq, Prod.mk.injEq] at he'; exact he'.2.1
              · cases he'
        rw [← this]
        exact ⟨hf, hc.2⟩
      · cases he'
    · cases he'
  obtain ⟨h1, h2, h3⟩ := expandOne_frontier h f b l s
  have hk : (expandOne h f b l s).lookahead m = s.lookahead m := by unfold State.lookahead; rw [h2]
  conv_lhs => unfold expand
  conv_rhs => unfold expand
  rw [h1, hm]
  dsimp only
  rw [hk, h3, hf, Option.getD_some, Option.getD_some, show s.lookahead m + 1 - f = s.lookahead m + 1 - (f + 1) + 1 by omega]
  conv_lhs => unfold expandFor
  rw [he]

end Sys2Proof.Machine
end

