-- ==== Sys2Proof/Machine/Outbound.lean ====
section
/-! DEFINITION. The part's own frames as they stand on the wire (10.4): the kind and the body of every outbound frame, and the
common header it leaves under. -/

namespace Sys2Proof.Machine

def byteOf (n : Nat) : Byte := BitVec.ofNat 8 n

def halfNat (n : Nat) : List Byte := halfBytes (BitVec.ofNat 16 n)

def wordNat (n : Nat) : List Byte := wordBytes (wNat n)

def wordInt (i : Int) : List Byte := wordBytes (wInt i)

/-- A flag as a byte: set 1, clear 0. -/
def flagByte (b : Bool) : Byte := if b then 1 else 0

/-- The stop kind in a stop order: 0 DEFECT, 1 CUT. -/
def StopKind.byte : StopKind → Byte
  | .defect => 0
  | .cut => 1

/-- An event in a reel record, 16 bytes. -/
def Event.bytes (e : Event) : List Byte :=
  [byteOf e.kind.code, byteOf (e.cls.getD 255), byteOf (originByte e.origin), byteOf e.attributes] ++ wordNat e.gross ++
    wordNat e.len ++ wordBytes (wOptNat e.rep)

/-- The fragment summary, 40 bytes (R167). -/
def summaryBytes (r : ReelRecord) (fragment : Nat) (last : Bool) (carried : Nat) : List Byte :=
  let t := r.totals.getD { gross := 0, removed := 0, net := 0, repeats := 0 }
  halfNat r.set ++ [byteOf r.lane, byteOf (fragment + (if last then 128 else 0))] ++ wordBytes r.job ++ wordBytes r.roll ++
    wordNat t.gross ++ wordNat t.removed ++ wordNat t.net ++ wordNat t.repeats ++ halfNat r.statuses.bits ++
    halfNat r.events.length ++ wordNat r.notStored ++ [byteOf carried, 0, 0, 0]

/-- The body of a reply after its kind, status and field index (10.4). -/
def ReplyBody.bytes : ReplyBody → List Byte
  | .empty => []
  | .status items => items.flatMap wordBytes
  | .row selector index items => [byteOf selector] ++ halfNat index ++ items.flatMap wordBytes

/-- The body of a notice (R189). -/
def Notice.bytes (n : Notice) (dropped : Bool) : List Byte :=
  [byteOf n.kind.code, byteOf n.kind.priority, flagByte dropped] ++ wordInt n.u ++ wordBytes n.v0 ++ wordBytes n.v1 ++
    wordBytes n.v2

/-- The frame kind of an own frame (10.4). -/
def OwnBody.kindByte : OwnBody → Byte
  | .stop _ _ _ _ => 0x30
  | .cancel => 0x30
  | .jog _ => 0x31
  | .speed _ => 0x32
  | .cut _ _ _ _ => 0x33
  | .flag _ _ _ _ => 0x34
  | .knife _ _ => 0x35
  | .blockRequest _ _ => 0x36
  | .record _ _ _ _ => 0x37
  | .notice _ _ => 0x38
  | .reply _ _ _ _ => 0x39

/-- The body of an own frame (10.4); a park order's target field is free (notes/assumptions/20.md). -/
def OwnBody.bytes : OwnBody → List Byte
  | .stop kind target late overshoot => [0, kind.byte] ++ wordInt target ++ [flagByte late] ++ wordInt overshoot
  | .cancel => [1, 0] ++ wordNat 0 ++ [0] ++ wordNat 0
  | .jog distance => wordInt distance
  | .speed limit => halfNat limit
  | .cut set lanes position haltError => halfNat set ++ [byteOf lanes] ++ wordInt position ++ wordInt haltError
  | .flag set lanes position lateness =>
    halfNat set ++ [byteOf lanes.length] ++ lanes.map byteOf ++ wordInt position ++ wordInt lateness
  | .knife k (.pos n) => [byteOf k, 0] ++ halfNat n
  | .knife k .park => [byteOf k, 1] ++ halfBytes Config.knifeOrderParkField
  | .blockRequest roll block => wordBytes roll ++ wordNat block
  | .record r fragment last events => summaryBytes r fragment last events.length ++ events.flatMap Event.bytes
  | .notice n dropped => n.bytes dropped
  | .reply kind status index body => [kind, byteOf status.code] ++ halfNat index ++ body.bytes

/-- An own frame of a part with this station number, as it leaves (10.4, R175). -/
def OwnFrame.line (station : Nat) (f : OwnFrame) : LineFrame :=
  { dst := byteOf f.dst, src := byteOf station, kind := f.body.kindByte, len := BitVec.ofNat 16 f.body.bytes.length, tag := f.tag
    rest := f.body.bytes }

end Sys2Proof.Machine
end

