-- ==== Sys2Proof/Tests/Slice0.lean ====
section
/-! SUPPORT. Tests of single steps against figures the manual works out, the ill-formed terms that WellFormed refuses, and for
every obligation with hypotheses a concrete state that meets them. Each test names the place its figures come from. -/

namespace Sys2Proof.Tests

-- One test at a time: many evaluations at once take a thread and its stack each.
set_option Elab.async false

open Sys2Proof.Machine Sys2Proof.Claims

/-! ### Small states -/

def peerTable : PeerTable :=
  { drive := 2, markSensor := 3, inspection := 4, knifePositioner := 5, lineController := 6, mapServer := 7, recordReceiver := 8 }

/-- The machine table of 11.1. -/
def machineTable : MachineTable :=
  { ppm := 40000, dMax := 65535, sEnc := 10, dCam := 1500, dKn := 4000, dSt := 32000, dFl := 36000, dNip := 38000, wMk := 50
    aD := 2500, mSt := 5000, tPos := 50, wTab := 2000, vApp := 2000, mMd := 300, mCd := 40, g := 20, fMin := 1000, h := 256
    p := 3, pLo := 64, pHi := 192, tKnife := 2000, rc := 1, kTol := 20, flagStation := 9 }

/-- A lane of bank A (11.1): class 4 is STOP, everything else LOG. -/
def lane (quota : Nat) : LanePlan :=
  { actions := List.replicate 4 .log ++ .stop :: List.replicate 11 .log, splice := .log, quota := quota }

/-- Bank A (11.1). -/
def bankA : Bank :=
  { job := 111, n := 6, nSet := 400, nApp := 12, cOff := 3700, makeUp := true, xMax := 4
    knives := [800, 2600, 4400, 6200, 8000, 9800, 11600], lanes := [150, 150, 130, 150, 150, 150].map lane }

/-- The roll header of 11.1. -/
def header : Header :=
  { rollId := 777, nT := 50000, rNom := 3600, reversed := true, mirror := true, w := 12400, f := 49987, l := 35 }

/-- Every table loaded, no roll current. -/
def loaded : State :=
  { State.reset with machine := some machineTable, peers := some peerTable, lpt := { active := some bankA, pending := none }
                     ms := { MapStore.init with next := some header } }

/-- A roll runs: the baseline and position of 1.4's example, a tracker 3,605 short of its next mark. -/
def web : State :=
  { loaded with
    ms := { MapStore.init with current := some header, frontier := some 986, outstanding := [1531, 1530, 1529] }
    pu := { PositionUnit.init with enc := .tracking, cPrev := 1000000, u := 3533000, acc := 20000, v := 5000, dir := .forward
                                   silence := some 10 }
    mt := { state := .locked, last := some { k := 979, u := 3529515 }, lastReal := true, miss := 0, e := 1250, rExp := 3605 }
    sc := { SetController.init with state := .running, mode := some .thread, pStart := some 8000, kBase := some 900
                                    kCut := some 1300 } }

/-- A frame from a station. -/
def rx (src : Nat) : Rx := { port := .a, dst := 1, src := BitVec.ofNat 8 src, tag := 7 }

/-- The state after a command. -/
def after (c : Instr) (s : State) : State :=
  match exec c s with
  | .next t => t
  | _ => s

/-- The replies waiting: status and field index. -/
def replies (s : State) : List (ReplyStatus × Nat) :=
  s.ll.own.filterMap (fun f => match f.body with
    | .reply _ status index _ => some (status, index)
    | _ => none)

def orders (s : State) : List OwnBody := (s.ll.own.filter (fun f => f.cls == .order)).map (·.body)

def words (l : List Int) : List Byte := l.flatMap (fun i => wordBytes (wInt i))

/-- A knife channel confirmed at a position. -/
def knifeAt (state : KnifeState) (n : Nat) : KnifeChannel :=
  { KnifeChannel.init with state := state, target := some (.pos n), reported := some n }

/-- A channel's place. -/
def withKnife (j : Nat) (c : KnifeChannel) (s : State) : State := { s with knives := s.knives.set j c }

/-- A Settled entry of class 4 with a slitter extent. -/
def entry (num : Nat) (p x0 x1 : Int) (knife : Bool) (items : List LaneItem) : Settled :=
  { feat := { num := num, origin := .inline, kind := .defect 4, len := 90, press := none, slit := some { x0 := x0, x1 := x1 }
              rep := none, suspect := false, served := false }
    p := p, items := items, knife := knife, table := false, flag := false, nip := false }

def item (n : Nat) (a : Action) : LaneItem := { lane := n, action := a, notRemoved := false, outcome := .none }

/-- 11.3: halted with entry 40 served on the table. -/
def halted : State :=
  { web with
    pu := { web.pu with u := 755690, acc := 0, v := 0, dir := .standstill }
    mt := { web.mt with last := some { k := 209, u := 753910 } }
    fq := { web.fq with settled := [{ entry 40 723668 5000 5200 true [item 2 .stop] with
      table := true, feat := { (entry 40 723668 5000 5200 true []).feat with served := true } }] }
    ss := { web.ss with state := .halted, kind := some .defect, aim := some (.entry 40), uT := some 755648, pW := some 723648
                        haltError := some 42 }
    sc := { web.sc with kBase := some 0, kCut := some 400 } }

/-- 11.7: the set is cut and waits for the doff. -/
def changing : State :=
  { web with
    pu := { web.pu with u := 1491390, acc := 0, v := 0, dir := .standstill }
    mt := { web.mt with last := some { k := 413, u := 1489320 } }
    sc := { web.sc with state := .changing, kBase := some 0, kCut := some 403, x := 3, xFrozen := true
                        frozenCut := some 1453370 }
    lpt := { active := some bankA, pending := some { bankA with job := 222 } } }

/-! ### Well-formed commands, and decoding -/

theorem test_wf_station_zero_refused : (Instr.countFrame { rx 0 with dst := 1 } 0 0).wf = false := by decide

theorem test_wf_destination_64_refused : (Instr.markFrame { rx 3 with dst := 64 } 0).wf = false := by decide

theorem test_wf_source_63_refused : (Instr.resume (rx 63) []).wf = false := by decide

theorem test_wf_block_count_refused : (Instr.mapBlock (rx 7) 777 0 0 1 []).wf = false := by decide

theorem test_wf_known_kind_refused : (Instr.unknownRequest (rx 6) false 9 []).wf = false := by decide

theorem test_wf_unknown_kind_accepted : (Instr.unknownRequest (rx 6) true 9 []).wf = true := by decide

theorem test_wf_welzuna_foreign_refused : (Instr.passingFrame .a (.foreign 0x88B5 [])).wf = false := by decide

theorem test_wf_knife_25_refused : (Instr.confirmTimerExpiry 25).wf = false := by decide

theorem test_wf_long_body_refused : bodyFits 65536 = false ∧ bodyFits 65535 = true := by decide

/-- spec/opcode_table.json gives no row a bit. -/
theorem test_no_word_spells_a_command : decodeTableWord 32 0x10 = none ∧ decodeTableWord 0 0 = none := ⟨rfl, rfl⟩

/-! ### One step of each command -/

/-- R175: a strap value of 63 gives no station number; R156: the set number is 1. -/
theorem test_power_on : (after (.powerOn 63) web).station = none ∧ (after (.powerOn 5) web).station = some 5 ∧
    (after (.powerOn 5) web).sc.num = 1 := by decide +kernel

/-- R179: a port that loses its link discards its passing frames. -/
theorem test_link_lost : (after (.portLinkChange .b false) (forward .b (.foreign 1 []) web)).ll.portB.passing = [] := by decide +kernel

/-- R174: a frame of another Ethertype entering on port A waits at port B. -/
theorem test_foreign_frame_forwarded : (after (.passingFrame .a (.foreign 0x0800 [1])) web).ll.portB.passing =
    [.foreign 0x0800 [1]] := by decide +kernel

/-- R174 and R178: a frame of the part's own number is refused as OWN_SOURCE. -/
theorem test_own_source_refused :
    (after (.passingFrame .a (.line { dst := 9, src := 1, kind := 0x10, len := 0, tag := 0, rest := [] })) web).ll.capture =
      some { src := 1, kind := 0x10, reason := .ownSource } := by decide +kernel

/-- R179: orders go out before replies, whichever was queued first. -/
theorem test_orders_before_replies :
    ((after (.portIdle .a) (driveOrder .cancel (queueOwn .reply 6 (some 7) (.reply 1 .accepted 0 .empty) web))).ll.own.map
      (fun f => (f.cls, f.a))) = [(.reply, .waiting), (.order, .sending)] := by decide +kernel

/-- 1.2's example, frames 1 and 3: 1,234 pulses from acc 0 advance 308 and leave 20,000; -3 pulses advance -1 and leave 10,000. -/
theorem test_count_carries_remainder :
    let s : State := { loaded with pu := { PositionUnit.init with enc := .tracking, cPrev := 100 } }
    ((after (.countFrame (rx 2) 1334 1000) s).pu.u, (after (.countFrame (rx 2) 1334 1000) s).pu.acc) = (308, 20000) ∧
      ((after (.countFrame (rx 2) 97 1000) s).pu.u, (after (.countFrame (rx 2) 97 1000) s).pu.acc) = (-1, 10000) := by
  decide +kernel

/-- 1.3's example: 1,333 dmm in 8,000 µs are 16,663 mm/s: seven intervals of 167 dmm, and the frame's own of 164. -/
theorem test_count_speed :
    let s : State := { loaded with pu := { PositionUnit.init with
      enc := .tracking, hist := List.replicate 8 { adv := 167, time := 1000 } } }
    ((after (.countFrame (rx 2) 656 1000) s).pu.v, (after (.countFrame (rx 2) 656 1000) s).pu.dir) = (16663, .forward) := by
  decide +kernel

/-- 1.4's and 1.5's examples: C_x = 1,000,480 lies at 3,533,120; a repeat of 3,605 takes E from 1,250 to 1,267, R_exp 3,605. -/
theorem test_mark_counted : (after (.markFrame (rx 3) 1000480) web).mt =
    { state := .locked, last := some { k := 980, u := 3533120 }, lastReal := true, miss := 0, e := 1267, rExp := 3605 } := by
  decide +kernel

/-- R10: a mark in REVERSE is discarded without a refusal. -/
theorem test_mark_in_reverse : (after (.markFrame (rx 3) 1000480) { web with pu := { web.pu with dir := .reverse } }).mt = web.mt ∧
    (after (.markFrame (rx 3) 1000480) { web with pu := { web.pu with dir := .reverse } }).ll.refusals = 0 := by decide +kernel

/-- 11.4's figures: U = 1,001,520 at 10,000 mm/s. -/
def fast : State :=
  { web with pu := { web.pu with u := 1001520, acc := 0, cPrev := 5006080, v := 10000 }
             mt := { web.mt with last := some { k := 270, u := 1000900 } }, sc := { web.sc with kBase := some 0, kCut := some 402 } }

/-- 11.4: the sighting joins at 1,000,000 and is ordered at once, LATE by 174,520, and served. -/
theorem test_late_sighting :
    let t := after (.sightingFrame (rx 4) 5006000 0 4 90 8600 8700) fast
    (t.ss.state, t.ss.uT, t.ss.late, t.ss.overshoot, t.ss.pW) = (.requested, some 1032000, true, 174520, some 1000000) ∧
      t.fq.settled.map (fun e => (e.feat.num, e.p, e.feat.served)) = [(0, 1000000, true)] := by decide +kernel

/-- R54: a sighting whose extent is out of order is refused with RANGE. -/
theorem test_sighting_range : ((after (.sightingFrame (rx 4) 5006000 0 4 90 8700 8600) fast).ll.capture.map (·.reason)) =
    some .range := by decide +kernel

/-- 5.3's example: a DONE report at 9,615 for the target 9,600 confirms. -/
theorem test_knife_confirmed :
    ((after (.knifeReport (rx 5) 4 0 9615 0) (withKnife 4 { knifeAt .moving 9600 with timer := some 2000 } loaded)).knives[4]?).map
      (fun c => (c.state, c.reported, c.timer)) = some (.inPosition, some 9615, none) := by decide +kernel

/-- 5.4's example: a STATUS report at 8,030 for the target 8,000 finds knife 4 DRIFTED, and edge 4 is 8,030. -/
theorem test_knife_drifts :
    let t := after (.knifeReport (rx 5) 4 2 8030 0) (withKnife 4 (knifeAt .inPosition 8000) web)
    (t.knives[4]?).map (·.state) = some .drifted ∧ t.edge bankA 4 = 8030 ∧ (t.nq.inFlight.map (fun n => (n.kind, n.v0, n.v1))) =
      some (.knifeDrift, 4, 8030) := by decide +kernel

/-- 2.3's example: repeat 49,000 at 1,200 for 40 anchors on (986, 2,360), and at 3,580 its length is clamped to 20 and its offset
is 0; block 1,531 lies in set 3. -/
theorem test_block_expands :
    let e : MapItem := { rep := 49000, off := 1200, len := 40, x0 := 5100, x1 := 5160, cls := 4, flags := 0 }
    let t := after (.mapBlock (rx 7) 777 1531 0 2 [e, { e with off := 3580 }]) web
    ((t.fq.forecast.filter (fun f => f.k == 986)).map (fun f => (f.off, f.feat.len))) = [(0, 20), (2360, 40)] ∧
      ((t.ms.slots[6]?).join.map (fun b => (b.num, b.clamped))) = some (1531, 1) := by decide +kernel

/-- R34: the block of passed repeats is LATE. -/
theorem test_block_late : ((after (.mapBlock (rx 7) 777 1532 0 0 []) web).ll.capture.map (·.reason)) = some .late := by decide +kernel

/-- R170. -/
theorem test_record_flow : (after (.recordHold (rx 8)) web).rs.held = true ∧
    (after (.recordRelease (rx 8)) (after (.recordHold (rx 8)) web)).rs.held = false := by decide +kernel

/-- R182: the first item of the status body is the station number. -/
theorem test_status_reply : ((after (.readStatus (rx 6) []) web).ll.own.filterMap (fun f => match f.body with
    | .reply 1 .accepted 0 (.status l) => l.head?
    | _ => none)) = [1] := by decide +kernel

/-- R183: an index outside its table fails as field 2. -/
theorem test_table_index : replies (after (.readTable (rx 6) (words [1, 16])) web) = [(.invalid, 2)] ∧
    replies (after (.readTable (rx 6) (words [1, 15])) web) = [(.accepted, 0)] := by decide +kernel

/-- R181: K_tol, field 25, is at least 5; in its range the table is replaced. -/
theorem test_load_machine :
    replies (after (.loadMachine (rx 6) (machineBytes false { machineTable with kTol := 4 })) loaded) = [(.invalid, 25)] ∧
      (after (.loadMachine (rx 6) (machineBytes true { machineTable with kTol := 5 })) loaded).machine =
        some { machineTable with kTol := 5 } := by decide +kernel

/-- R176: station 63 fails as its field; two roles may share a station. -/
theorem test_load_peers : replies (after (.loadPeers (rx 6) (peerBytes { peerTable with drive := 63 })) loaded) = [(.invalid, 1)] ∧
    (after (.loadPeers (rx 6) (peerBytes { peerTable with drive := 3 })) loaded).peers = some { peerTable with drive := 3 } := by
  decide +kernel

/-- R68 and R71: ACTIVE outside NO_SET is BUSY; in NO_SET it is replaced. -/
theorem test_load_active : replies (after (.loadBankActive (rx 6) (bankBytes bankA)) web) = [(.busy, 0)] ∧
    (after (.loadBankActive (rx 6) (bankBytes { bankA with job := 5 })) loaded).lpt.active = some { bankA with job := 5 } := by
  decide +kernel

/-- 4.1's example: knife 5 at 8,120 fails as field 14; quotas of 200 in lanes 0..4 and 300 in lane 5 fail as field 123. -/
theorem test_load_pending :
    replies (after (.loadBankPending (rx 6)
      (bankBytes { bankA with knives := [800, 2600, 4400, 6200, 8000, 8120, 11600] })) web) = [(.invalid, 14)] ∧
      replies (after (.loadBankPending (rx 6) (bankBytes { bankA with lanes := [200, 200, 200, 200, 200, 300].map lane })) web) =
        [(.invalid, 123)] := by decide +kernel

/-- R73. -/
theorem test_cancel_pending : (after (.cancelPending (rx 6) []) changing).lpt = { active := some bankA, pending := none } := by
  decide +kernel

/-- R23 and R24: L is clamped to 2,000; the current header stands. -/
theorem test_load_header :
    let t := after (.loadRollHeader (rx 6) (headerBytes { header with l := 2001 })) web
    t.ms.next = some { header with l := 2000 } ∧ t.ms.current = some header := by decide +kernel

/-- 2.4's example: with L = -10 the press extent [5,100, 5,160] is [7,230, 7,290] on the slitter. -/
theorem test_lateral_offset :
    ((after (.setLateralOffset (rx 6) (words [-10])) web).ms.current.map (fun h => h.slitterExtent { x0 := 5100, x1 := 5160 })) =
      some { x0 := 7230, x1 := 7290 } := by decide +kernel

/-- R184: the reply is alone, and the blocks keep their state. -/
theorem test_reset_taken : ((after (.reset (rx 6) []) (driveOrder .cancel web)).ll.own.map (·.cls)) = [.reply] ∧
    (after (.reset (rx 6) []) web).mt = web.mt := by decide +kernel

/-- R180. -/
theorem test_unknown_request : replies (after (.unknownRequest (rx 6) true 9 [1]) web) = [(.unknown, 0)] := by decide +kernel

/-- 11.2: U is 0, H_cam is -1,500, and blocks 1,562, 1,561 and 1,560 are requested; 25 knife orders go out. -/
theorem test_roll_start :
    let t := after (.rollStart (rx 6) []) loaded
    t.pu.u = 0 ∧ t.fq.hCam = some (-1500) ∧ t.ms.outstanding = [1562, 1561, 1560] ∧ (orders t).length = 25 := by decide +kernel

/-- R186: a second ROLL_END is BUSY. -/
theorem test_roll_end : (after (.rollEnd (rx 6) []) web).sc.state = .noSet ∧
    replies (after (.rollEnd (rx 6) []) (after (.rollEnd (rx 6) []) web)) = [(.accepted, 0), (.busy, 0)] := by decide +kernel

/-- R21: in a reversed roll F = m + k_last. -/
theorem test_resync : ((after (.markResync (rx 6) (words [49000])) web).ms.current.map (·.f)) = some 49979 ∧
    (after (.markResync (rx 6) (words [49000])) web).ms.frontier = some 980 := by decide +kernel

/-- R150, by hand: d_s = 55,000, so 3,529,515 + 6 × 3,605 + 100 + 38,000 - 3,533,000 = 56,245 is the first at or above it. -/
theorem test_doff_now : (after (.doffNow (rx 6) []) web).sc.kCut = some 985 ∧
    (after (.doffNow (rx 6) []) web).sc.state = .cutStop := by decide +kernel

/-- 11.7: the set number becomes 2, the PENDING plan is active, the set prepares in THREAD mode. -/
theorem test_doff_complete :
    let t := after (.doffComplete (rx 6) []) changing
    (t.sc.num, t.sc.state, t.sc.mode) = (2, .preparing, some .thread) ∧ t.lpt = { active := some { bankA with job := 222 }
                                                                                  pending := none } := by decide +kernel

/-- 11.3: removed_2 is 5,000, X is 2, K_cut is 402; entry 40 leaves and the scheduler is idle. -/
theorem test_removal_report :
    let t := after (.removalReport (rx 6) (removalBytes [(2, 5000)])) halted
    (t.sc.removed[2]?, t.sc.x, t.sc.kCut) = (some 5000, 2, some 402) ∧ t.fq.settled = [] ∧ t.ss.state = .idle := by decide +kernel

/-- R134: no defect stop is HALTED. -/
theorem test_removal_not_halted : replies (after (.removalReport (rx 6) (removalBytes [(2, 5000)])) web) = [(.notHalted, 0)] := by
  decide +kernel

/-- R137: RESUME leaves the item as LOG with not removed set, and no removal sum changes. -/
theorem test_resume :
    let t := after (.resume (rx 6) []) halted
    (t.fq.settled.map (fun e => (e.feat.served, e.items))) = [(false, [{ item 2 .log with notRemoved := true }])] ∧
      t.sc.removed = List.replicate 24 0 := by decide +kernel

/-- 11.7: KNIFE_RETRY moves channel 3 again with no retries used. -/
theorem test_knife_retry :
    ((after (.knifeRetry (rx 6) [3]) (withKnife 3 { knifeAt .fault 7400 with retries := 1, cause := .timeout } loaded)).knives[3]?).map
      (fun c => (c.state, c.retries, c.cause, c.timer)) = some (.moving, 0, .none, some 2000) := by decide +kernel

/-- R5: at speed the expiry makes the encoder SILENT, at v = 0 it stays TRACKING. -/
theorem test_silence : (after .silenceTimerExpiry web).pu.enc = .silent ∧
    (after .silenceTimerExpiry { web with pu := { web.pu with v := 0 } }).pu.enc = .tracking := by decide +kernel

/-- 5.3's example with RC = 1: at 2,000 ms channel 3 is sent again, at 4,000 ms it is in FAULT, TIMEOUT. -/
theorem test_confirm_timer :
    let s := withKnife 3 { knifeAt .moving 7400 with timer := some 2000 } loaded
    let t := after (.confirmTimerExpiry 3) s
    ((t.knives[3]?).map (fun c => (c.state, c.retries))) = some (.moving, 1) ∧
      (((after (.confirmTimerExpiry 3) t).knives[3]?).map (fun c => (c.state, c.cause))) = some (.fault, .timeout) := by
  decide +kernel

/-- A closed record of one lane, its last fragment in flight. -/
def record : ReelRecord :=
  { set := 1, lane := 0, job := 111, roll := 777, quota := 150, totals := some { gross := 100, removed := 0, net := 100, repeats := 1 }
    statuses := { reject := false, short := false, unverified := false, removalMissed := false, edgeDrift := false
                  truncated := false, rollEnd := false }
    events := [], notStored := 0, fragments := 0 }

def sending : State :=
  { web with rs := { web.rs with headers := web.rs.headers.set 0 (some record), sendList := [0]
                                 inFlight := some { header := 0, fragment := 0, last := true } } }

/-- R169: after the last fragment the header is free again. -/
theorem test_record_sent : (after .reelRecordSent sending).rs.freeHeaders = 96 ∧ (after .reelRecordSent sending).rs.sendList = [] := by
  decide +kernel

def notice (k : NoticeKind) : Notice := { kind := k, u := 0, v0 := 0, v1 := 0, v2 := 0 }

/-- R187: the oldest notice of the highest priority follows. -/
theorem test_notice_sent :
    ((after .noticeSent { web with nq := { waiting := [notice .uncertainOn, notice .stopLate], inFlight := some (notice .setReady)
                                           dropped := false } }).nq.inFlight) = some (notice .stopLate) := by decide +kernel

/-- R184: the tables are empty once the reset has taken effect, and not before. -/
theorem test_reset_takes_effect : (after (.resetTakesEffect 5) (after (.reset (rx 6) []) web)).machine = none ∧
    (after (.reset (rx 6) []) web).machine = some machineTable := by decide +kernel

/-! ### Witnesses: states that meet the hypotheses of the obligations, at the ends of their ranges -/

theorem addressed_of {s : State} {r : Rx} (h : (decide (s.station = some 1) && (decide (r.src.toNat ≠ 1) &&
    ((decide (r.dst.toNat = 1) || decide (r.dst.toNat = 63)) && !s.ll.resetting))) = true) : Addressed s r := by
  simp only [Bool.and_eq_true, Bool.or_eq_true, decide_eq_true_eq, Bool.not_eq_true'] at h
  exact ⟨1, h.1, h.2.1, h.2.2.1, h.2.2.2⟩

theorem from_of {role : PeerTable → Nat} {s : State} {r : Rx} (ha : Addressed s r)
    (h : s.peers.any (fun t => r.src.toNat == role t) = true) : From role s r := by
  obtain ⟨t, ht⟩ := Option.isSome_iff_exists.1 (show s.peers.isSome = true by cases hp : s.peers <;> simp_all)
  exact ⟨ha, t, ht, by simpa [ht] using h⟩

theorem asked_of {s : State} {r : Rx} (ha : Addressed s r) (h : s.peers.all (fun t => r.src.toNat == t.lineController) = true)
    (hr : s.ll.count .reply < 16) : Asked s r :=
  ⟨ha, fun t ht => by simpa [ht] using h, hr⟩

/-- The commands of a state that runs. -/
def withCommand (c : Instr) (s : State) : State := { s with pending := [c] }

theorem addressed_web (n : Nat) (h : n = 2 ∨ n = 3 ∨ n = 4 ∨ n = 5 ∨ n = 6 ∨ n = 7 ∨ n = 8) : Addressed web (rx n) := by
  rcases h with rfl | rfl | rfl | rfl | rfl | rfl | rfl <;> exact addressed_of (by decide +kernel)

theorem asked_web : Asked web (rx 6) := asked_of (addressed_web 6 (by simp)) (by decide +kernel) (by decide +kernel)

theorem asked_loaded : Asked loaded (rx 6) :=
  asked_of (addressed_of (by decide +kernel)) (by decide +kernel) (by decide +kernel)

/-- Anyone may ask while the peer table is empty, and fifteen replies leave room for one. -/
theorem asked_at_the_ends :
    Asked State.reset { rx 62 with dst := 63 } ∧
      Asked { web with ll := { web.ll with own := List.replicate 15 (queued .reply 6 7 (.reply 1 .accepted 0 .empty) web) } } (rx 6) :=
  ⟨asked_of (addressed_of (by decide +kernel)) (by decide +kernel) (by decide +kernel),
    asked_of (addressed_of (by decide +kernel)) (by decide +kernel) (by decide +kernel)⟩

theorem witness_StepRunsTheFrontCommand : (withCommand .noticeSent web).pending = [.noticeSent] ∧ web.pending = [] := ⟨rfl, rfl⟩

theorem witness_ResetTakesEffect : (after (.reset (rx 6) []) web).ll.resetting = true ∧ web.ll.resetting = false := by
  decide +kernel

theorem witness_ResetQueuesItsReplyAlone : Asked web (rx 6) := asked_web

/-- A step of each state that the invariants start from. -/
theorem witness_a_step (s : State) : ∃ t, step (withCommand (.resetTakesEffect 5) s) = .next t := ⟨_, rfl⟩

theorem witness_StepsKeepPositionRanges :
    ({ web.pu with u := 2147483647, v := 20000, acc := 39999, hist := List.replicate 8 { adv := 1, time := 1 } } :
      PositionUnit).lawful (some machineTable) :=
  ⟨by decide, by decide, by decide, by decide, fun m h => by cases h; decide⟩

theorem witness_StepsKeepTrackerRanges :
    ({ web.mt with state := .coasting, miss := 2, e := 20000 } : MarkTracker).lawful ∧
      ({ web.mt with state := .lost, miss := 3, e := -20000 } : MarkTracker).lawful :=
  ⟨⟨by decide, by decide, by decide, fun _ => by decide⟩, ⟨by decide, by decide, by decide, fun h => by cases h⟩⟩

def twoForecasts : List Forecast :=
  [{ feat := (entry 1 0 5000 5200 false []).feat, k := 986, off := 0 }, { feat := (entry 1023 0 5000 5200 false []).feat
                                                                          k := 986, off := 2360 }]

theorem witness_StepsKeepQueueInOrder :
    ({ halted.fq with forecast := twoForecasts, settled := entry 0 723668 0 0 false [] :: halted.fq.settled } :
      FeatureQueue).lawful := by
  unfold FeatureQueue.lawful; decide +kernel

theorem web_slot_none (i : Nat) (x : Block) : web.ms.slots[i]? ≠ some (some x) := by
  show (List.replicate 16 (none : Option Block))[i]? ≠ _
  rw [List.getElem?_replicate]
  split <;> simp

theorem web_ms_lawful : web.ms.lawful :=
  ⟨rfl, rfl, by decide, by decide, fun i x h => absurd h (web_slot_none i x), fun i _ x _ h => absurd h (web_slot_none i x),
    fun i x h => absurd h (web_slot_none i x)⟩

theorem witness_StepsKeepMapStoreLaw : web.ms.lawful ∧ web.ms.outstanding = [1531, 1530, 1529] := ⟨web_ms_lawful, rfl⟩

theorem witness_StepsKeepCapacities :
    ({ web.nq with waiting := List.replicate 32 (notice .stopLate) } : NoticeQueue).lawful ∧
      ({ web.ll with own := List.replicate 64 (queued .order 2 0 .cancel web) } : LineLink).ownLawful ∧
      ({ web.ll with refusals := 65535, portA := { web.ll.portA with passing := List.replicate 8 (.foreign 1 []) } } :
        LineLink).portsLawful := by
  refine ⟨by unfold NoticeQueue.lawful; decide, fun c => by cases c <;> decide +kernel, fun p => by cases p <;> decide, by decide⟩

theorem witness_StepsKeepRecordQuotas : sending.rs.lawful := by
  refine ⟨by decide, fun r h => ?_⟩
  rcases List.mem_or_eq_of_mem_set h with h | h
  · simp [web, loaded, State.reset, RecordStore.init] at h
  · cases h; decide

theorem witness_StepsKeepSetNumber : ({ web.sc with num := 65535 } : SetController).lawful := by
  unfold SetController.lawful; decide

theorem bankA_lawful : bankA.lawful := by unfold Bank.lawful; decide +kernel

theorem witness_StepsKeepBanksLawful : web.lpt.lawful :=
  ⟨fun b h => by cases h; exact bankA_lawful, fun b h => by cases h⟩

/-- A Welzuna frame of kind and body from a station to a station. -/
def raw (src dst kind : Byte) (len : Half) (rest : List Byte) : LineFrame :=
  { dst := dst, src := src, kind := kind, len := len, tag := 7, rest := rest }

theorem witness_PassingFrameIsForwarded : Passes web (.foreign 0x0800 []) ∧ Passes web (.line (raw 2 62 0x10 0 [])) ∧
    Passes { web with ll := { web.ll with straps := 63 } } (.line (raw 2 1 0x10 0 [])) ∧
    Passes { web with ll := { web.ll with straps := 0 } } (.line (raw 2 63 0x10 0 [])) := by
  refine ⟨trivial, fun own h => ?_, fun own h => ?_, fun own h => ?_⟩
  · have : web.station = some 1 := by decide +kernel
    rw [this] at h; cases h; decide
  · have : ({ web with ll := { web.ll with straps := 63 } } : State).station = none := by decide +kernel
    rw [this] at h; cases h
  · have : ({ web with ll := { web.ll with straps := 0 } } : State).station = none := by decide +kernel
    rw [this] at h; cases h

theorem witness_UnfitFrameIsRefused : web.station = some (1 : Byte).toNat ∧ Addressed web (headerOf .a (raw 2 1 0x15 0 [])) ∧
    ((0x15 : Byte) ∉ [0x10, 0x11, 0x12, 0x13, 0x14, 0x20, 0x21, 0x22]) ∧ [(0 : Byte)].length < (2 : Half).toNat ∧
    fixedLength 0x10 = some 8 ∧ (9 : Half).toNat ≠ 8 ∧ judgeFrame (raw 3 1 0x22 1 [0]) = .ok (.flow 0) ∧ web.peers = some peerTable ∧
    (3 : Byte).toNat ≠ (Payload.flow 0).role peerTable ∧ Addressed State.reset (headerOf .a (raw 2 63 0x22 1 [0])) ∧
    State.reset.peers = none :=
  ⟨by decide +kernel, addressed_of (by decide +kernel), by decide, by decide, by decide, by decide, by decide +kernel, rfl, by decide,
    addressed_of (by decide +kernel), rfl⟩

/-- A frame command at the ends of the header's ranges, with fields whose bytes all differ. -/
theorem witness_CommandIsItsFrameBytes :
    let r : Rx := { port := .b, dst := 63, src := 62, tag := 0xFFFF }
    let e : MapItem := { rep := 0x01020304, off := 0x0506, len := 0x0708, x0 := 0x090A, x1 := 0x0B0C, cls := 0x0D, flags := 0x0E }
    (Instr.mapBlock r 0x11223344 0x55667788 0x99 1 [e]).wf = true ∧
      contentOf (.mapBlock r 0x11223344 0x55667788 0x99 1 [e]) = some (r, .block 0x11223344 0x55667788 0x99 1 [e]) ∧
      (frameOf r (.block 0x11223344 0x55667788 0x99 1 [e])).rest =
        [0x11, 0x22, 0x33, 0x44, 0x55, 0x66, 0x77, 0x88, 0x99, 1, 1, 2, 3, 4, 5, 6, 7, 8, 9, 10, 11, 12, 13, 14] := by
  decide +kernel

/-- A reply queued before an order. -/
def replyThenOrder : State := driveOrder .cancel (queueOwn .reply 6 (some 7) (.reply 1 .accepted 0 .empty) web)

theorem witness_PortIdleServesByClass :
    (replyThenOrder.ll.port .a).link = true ∧
      (∃ pre f post, replyThenOrder.ll.own = pre ++ f :: post ∧ pre ≠ [] ∧ ServedNext .a pre f post) ∧
      (∀ f ∈ web.ll.own, f.stage .a ≠ .waiting) ∧
      ((after (.portLinkChange .a false) web).ll.port .a).link = false := by
  refine ⟨by decide +kernel, ⟨[queued .reply 6 7 (.reply 1 .accepted 0 .empty) web], queued .order 2 1 .cancel web, [], ?_, ?_, ?_⟩,
    ?_, by decide +kernel⟩
  · decide +kernel
  · simp
  · unfold ServedNext; decide +kernel
  · intro f h; cases h

theorem witness_LinkChangeMovesThePort : (web.ll.port .a).link = true ∧
    ((after (.portLinkChange .a false) web).ll.port .a).link = false ∧
    (let s := queueOwn .notice 6 none (.notice (notice .setReady) false) web;
      s.ll.own ≠ [] ∧ ∀ f ∈ s.ll.own, f.cls = .notice ∨ f.cls = .record → (f.setStage .a .gone).out = false) := by
  decide +kernel

/-- Orders that fill their class but for some places. -/
def withOrders (n : Nat) (s : State) : State :=
  { s with ll := { s.ll with own := List.replicate n (queued .order 2 0 .cancel s) } }

/-- A part neither of whose ports has link. -/
def dark (s : State) : State := after (.portLinkChange .b false) (after (.portLinkChange .a false) s)

theorem witness_OwnFrameJoinsItsClass :
    web.station.isSome = true ∧ web.ll.resetting = false ∧ (withOrders 63 web).ll.count .order < OwnClass.order.capacity ∧
      linked (withOrders 63 web) = true ∧ linked (dark web) = false ∧
      OwnClass.order.capacity ≤ (withOrders 64 web).ll.count .order ∧
      ({ web with ll := { web.ll with straps := 0 } } : State).station = none ∧
      (after (.reset (rx 6) []) web).ll.resetting = true := by decide +kernel

/-- Notices of several priorities, the first URGENT one in second place. -/
def noticed : State :=
  { web with nq := { waiting := [notice .uncertainOn, notice .stopLate, notice .setReady, notice .stopMissed]
                     inFlight := none, dropped := true } }

theorem witness_EventEndPassesTheHeadNotice :
    noticed.nq.waiting = [notice .uncertainOn] ++ notice .stopLate :: [notice .setReady, notice .stopMissed] ∧
      (∀ x ∈ [notice .uncertainOn], (notice .stopLate).kind.priority < x.kind.priority) ∧
      (∀ x ∈ [notice .setReady, notice .stopMissed], (notice .stopLate).kind.priority ≤ x.kind.priority) ∧
      noticed.nq.inFlight = none ∧ noticed.station.isSome = true ∧ noticed.ll.resetting = false ∧ ownOf .notice noticed = [] ∧
      linked noticed = true := by decide +kernel

theorem witness_FullNoticeQueueDisplaces :
    let w := List.replicate 15 (notice .setReady) ++ notice .uncertainOff :: List.replicate 16 (notice .setReady)
    web.canQueue = true ∧ w.length = 32 ∧ (∀ y ∈ w, y.kind.priority ≤ (notice .uncertainOff).kind.priority) ∧
      (∀ y ∈ List.replicate 16 (notice .setReady), y.kind.priority < (notice .uncertainOff).kind.priority) ∧
      NoticeKind.setReady.priority < (notice .uncertainOff).kind.priority ∧
      (∀ y ∈ w, y.kind.priority ≤ NoticeKind.uncertainOn.priority) ∧ linked web = true ∧ ownOf .notice web = [] := by decide +kernel

theorem witness_SentNoticeIsGone :
    ({ web with nq := { web.nq with inFlight := some (notice .setReady) } } : State).nq.inFlight = some (notice .setReady) ∧
      web.ll.voidNotice = false := by decide +kernel

theorem from_web {role : PeerTable → Nat} (n : Nat) (h : n = 2 ∨ n = 3 ∨ n = 4 ∨ n = 5 ∨ n = 6 ∨ n = 7 ∨ n = 8)
    (hr : n = role peerTable) : From role web (rx n) :=
  from_of (addressed_web n h) (by
    show ((rx n).src.toNat == role peerTable) = true
    rw [← hr]; rcases h with rfl | rfl | rfl | rfl | rfl | rfl | rfl <;> decide)

theorem witness_CountFrameSetsBaseline :
    From (·.drive) loaded (rx 2) ∧ loaded.machine = some machineTable ∧ loaded.pu.enc = .noBase ∧
      From (·.drive) { loaded with machine := none } { rx 2 with dst := 63 } :=
  ⟨from_of (addressed_of (by decide +kernel)) (by decide +kernel), rfl, rfl,
    from_of (addressed_of (by decide +kernel)) (by decide +kernel)⟩

/-- The encoder has been silent. -/
def silent (s : State) : State := { s with pu := { s.pu with enc := .silent } }

/-- d = D_max, and 64 × D_max when SILENT (R2). -/
theorem witness_CountFrameMovesTheWeb :
    From (·.drive) web (rx 2) ∧ web.machine = some machineTable ∧ 0 < machineTable.ppm ∧ Applies machineTable 1065535 web ∧
      Applies machineTable 5194240 (silent web) :=
  ⟨from_web 2 (by simp) rfl, rfl, by decide, by unfold Applies; decide +kernel, by unfold Applies; decide +kernel⟩

/-- One pulse more; and one dmm beyond the range of U (R2, R3). -/
theorem witness_CountFrameJumpKeepsTheWeb :
    From (·.drive) web (rx 2) ∧ web.pu.enc ≠ .noBase ∧ jumpLimit machineTable web.pu.enc < (pulses 1065536 web.pu.cPrev).natAbs ∧
      jumpLimit machineTable .silent < (pulses 5194241 web.pu.cPrev).natAbs ∧
      (let s : State := { web with pu := { web.pu with u := 2147483647, acc := 0 } };
        (pulses 1000004 s.pu.cPrev).natAbs ≤ jumpLimit machineTable s.pu.enc ∧ ¬ Applies machineTable 1000004 s) ∧
      NoticesWait { web with nq := { web.nq with inFlight := some (notice .setReady) } } :=
  ⟨from_web 2 (by simp) rfl, by decide, by decide +kernel, by decide +kernel, by unfold Applies; decide +kernel,
    by unfold NoticesWait; decide +kernel⟩

theorem witness_LatchedPositionIgnoresFrameOrder :
    From (·.drive) web (rx 2) ∧ Applies machineTable 1000240 web ∧ exec (.countFrame (rx 2) 1000240 1000) web =
      .next (after (.countFrame (rx 2) 1000240 1000) web) ∧ web.latched 1000480 = some 3533120 ∧
      (after (.countFrame (rx 2) 1000240 1000) web).latched 1000480 = some 3533120 :=
  ⟨from_web 2 (by simp) rfl, by unfold Applies; decide +kernel, rfl, by decide +kernel, by decide +kernel⟩

theorem witness_SilenceTimerExpires : web.pu.silence = some 10 ∧ web.ll.resetting = false ∧ 0 < web.pu.v ∧
    ({ web with pu := { web.pu with v := 0 } } : State).pu.v = 0 := by decide +kernel

/-- A mark at either end of the window, in LOST one dmm past the last mark, and the first mark of a roll (R10, R11). -/
theorem witness_MarkInWindowIsCounted :
    From (·.markSensor) web (rx 3) ∧ web.machine = some machineTable ∧ web.ms.current = some header ∧
      web.latched 1000278 = some 3533070 ∧ windowFrom machineTable web.mt { k := 979, u := 3529515 } = 3533070 ∧
      web.latched 1000678 = some 3533170 ∧ (3533170 : Int) = 3529515 + web.mt.rExp + machineTable.wMk ∧
      web.pu.dir ≠ .reverse ∧ web.mt.state ≠ .seeking ∧
      windowFrom machineTable { web.mt with state := .lost } { k := 979, u := 3529515 } = 3529516 ∧
      web.pu.dir = .forward ∧ MarkTracker.init.state = .seeking ∧ MarkTracker.init.last = none :=
  ⟨from_web 3 (by simp) rfl, rfl, rfl, by decide +kernel, by decide +kernel, by decide +kernel, by decide +kernel, by decide, by decide,
    by decide +kernel, rfl, rfl, rfl⟩

theorem witness_MarkOutsideWindowIsDropped :
    From (·.markSensor) web (rx 3) ∧ loaded.pu.enc = .noBase ∧ machineTable.dMax * 64 < (pulses 5194241 web.pu.cPrev).natAbs ∧
      ({ web with ms := MapStore.init } : State).latched 1000480 = some 3533120 ∧ MapStore.init.current = none ∧
      web.latched 1000277 = some 3533069 ∧ (3533069 : Int) < windowFrom machineTable web.mt { k := 979, u := 3529515 } :=
  ⟨from_web 3 (by simp) rfl, rfl, by decide +kernel, by decide +kernel, rfl, by decide +kernel, by decide +kernel⟩

theorem witness_AnchorMeetsItsPressRepeat : 49000 < header.nT ∧ header.slitterIndex (header.anchorMark 49000) = 986 ∧
    header.slitterIndex (header.anchorMark 49986) = 0 ∧ header.slitterIndex (header.anchorMark 49987) = -1 := by decide +kernel

theorem not_passed : ¬ WhollyPassed header 986 1531 := fun h => by
  have := h 49000 (by decide) (by decide) (by decide) (by decide)
  revert this; decide

/-- Block 1,532 holds the repeats 49,024..49,055, met at the marks 931..962. -/
theorem passed : WhollyPassed header 986 1532 := by
  intro r h1 h2 h3 _
  simp only [Header.slitterIndex, Header.anchorMark, header]
  simp
  omega

theorem witness_MapBlockIsStored :
    From (·.mapServer) web (rx 7) ∧ web.ms.lawful ∧ web.ms.current = some header ∧ (777 : Word) = header.rollId ∧
      (96 : Byte).toNat = (List.replicate 96 ({ rep := 49000, off := 0, len := 1, x0 := 0, x1 := 1, cls := 0, flags := 0 } : MapItem)).length ∧
      ¬ WhollyPassed header (web.ms.frontier.getD 0) (1531 : Word).toNat ∧ (1531 : Word).toNat ∈ web.ms.outstanding :=
  ⟨from_web 7 (by simp) rfl, web_ms_lawful, rfl, rfl, by decide, not_passed, by decide⟩

theorem witness_MapBlockRefusalsInOrder :
    From (·.mapServer) web (rx 7) ∧ loaded.ms.current = none ∧ (776 : Word) ≠ header.rollId ∧ (97 : Byte).toNat = 97 ∧
      WhollyPassed header (web.ms.frontier.getD 0) (1532 : Word).toNat ∧
      (¬ WhollyPassed header (web.ms.frontier.getD 0) (0 : Word).toNat ∧ (0 : Word).toNat ∉ web.ms.outstanding) :=
  ⟨from_web 7 (by simp) rfl, rfl, by decide, rfl, passed, fun h => by
    have := h 0 (by decide) (by decide) (by decide) (by decide)
    revert this; decide, by decide⟩

/-- Both ends of every field of the header. -/
theorem witness_RollHeaderIsLoaded : Asked web (rx 6) ∧
    (let h : Header := { header with nT := 2000000, rNom := 20000, w := 30000, f := 1999999, l := 2147483647 };
      1 ≤ h.nT ∧ h.nT ≤ 2000000 ∧ 500 ≤ h.rNom ∧ h.rNom ≤ 20000 ∧ 1000 ≤ h.w ∧ h.w ≤ 30000 ∧ h.f < h.nT ∧ -2 ^ 31 ≤ h.l ∧ h.l < 2 ^ 31) ∧
    (let h : Header := { header with nT := 1, rNom := 500, w := 1000, f := 0, l := -2147483648 };
      1 ≤ h.nT ∧ h.nT ≤ 2000000 ∧ 500 ≤ h.rNom ∧ h.rNom ≤ 20000 ∧ 1000 ≤ h.w ∧ h.w ≤ 30000 ∧ h.f < h.nT ∧ -2 ^ 31 ≤ h.l ∧ h.l < 2 ^ 31) ∧
    (headerBytes header ++ [0]).length ≠ 32 := ⟨asked_web, by decide, by decide, by decide +kernel⟩

theorem witness_LateralOffsetIsReplaced : Asked State.reset (rx 6) ∧ State.reset.ms.current = none ∧ State.reset.ms.next = none ∧
    Asked loaded (rx 6) ∧ loaded.ms.current = none ∧ loaded.ms.next = some header ∧ Asked web (rx 6) ∧ web.ms.current = some header :=
  ⟨asked_of (addressed_of (by decide +kernel)) (by decide +kernel) (by decide +kernel), rfl, rfl, asked_loaded, rfl, rfl, asked_web, rfl⟩

theorem witness_MarkResyncSetsF : Asked web (rx 6) ∧ web.mt.state = .locked ∧ web.mt.last = some { k := 979, u := 3529515 } ∧
    web.ms.current = some header ∧ (49020 : Word).toNat < header.nT ∧
    ((49999 : Nat) : Int) = (if header.reversed then ((49020 : Word).toNat : Int) + 979 else (49020 : Word).toNat - 979) ∧
    49999 < header.nT := ⟨asked_web, rfl, rfl, rfl, by decide, by decide, by decide⟩

theorem witness_SightingJoinsAsInline :
    From (·.inspection) fast (rx 4) ∧ fast.machine = some machineTable ∧ fast.ms.current.isSome = true ∧
      fast.latched 5006000 = some 1001500 ∧ fast.fq.lawful ∧ (4 : Byte).toNat ≤ 15 ∧ (8600 : Half).toNat ≤ (8700 : Half).toNat ∧
      (8700 : Half).toNat ≤ 30000 ∧ fast.fq.settled = [] ∧ fast.fq.hCam = none ∧
      fast.fq.forecast.length + fast.fq.settled.length < 1024 ∧ fast.pu.u - machineTable.dKn < (1001500 : Int) - machineTable.dCam :=
  ⟨from_of (addressed_of (by decide +kernel)) (by decide +kernel), rfl, rfl, by decide +kernel, by unfold FeatureQueue.lawful; decide +kernel,
    by decide, by decide, by decide, rfl, rfl, by decide, by decide⟩

theorem witness_SightingIsRefusedOrReread :
    From (·.inspection) fast (rx 4) ∧ fast.machine = some machineTable ∧
      ¬ ((0 : Byte).toNat ≤ 1 ∧ ((0 : Byte) = 0 → (16 : Byte).toNat ≤ 15) ∧ (0 : Half).toNat ≤ (30000 : Half).toNat ∧
        (30000 : Half).toNat ≤ 30000) ∧
      machineTable.dMax * 64 < (pulses 9200321 fast.pu.cPrev).natAbs ∧ fast.latched 5006000 = some 1001500 ∧
      (let s : State := { fast with fq := { fast.fq with hCam := some 1000300 } };
        s.fq.hCam = some 1000300 ∧ (1001500 : Int) - machineTable.dCam ≤ 1000300 - machineTable.mMd ∧ s.fq.settled = [] ∧
          s.ms.current.isSome = true) ∧
      loaded.ms.current = none :=
  ⟨from_of (addressed_of (by decide +kernel)) (by decide +kernel), rfl, by decide, by decide +kernel, by decide +kernel, by decide +kernel, rfl⟩

/-- The queue with one entry past its knife station. -/
def passing (items : List LaneItem) : State := { fast with fq := { fast.fq with settled := [entry 61 8000 3000 3100 true items] } }

/-- The entry lies at P_start itself. -/
theorem witness_TableStationDowngradesStops :
    let e := entry 61 8000 3000 3100 true [item 1 .stop]
    e.feat.served = false ∧ (passing e.items).fq.lawful ∧ e ∈ (passing e.items).fq.settled ∧
      (e.items.filter (fun i => i.action == .stop)).map (·.lane) = [1] ∧ (passing e.items).sc.state = .running ∧
      (passing e.items).sc.pStart = some e.p ∧ (passing []).fq.lawful := by unfold FeatureQueue.lawful; decide +kernel

theorem bankA_good : GoodPlan bankA := ⟨bankA_lawful, by decide, by decide, by decide, by decide +kernel⟩

/-- Twenty-four lanes with quotas of 1,024 in all, and a plan at the least of its ranges. -/
theorem good_plans_at_the_ends :
    GoodPlan { job := 0, n := 24, nSet := 65535, nApp := 65535, cOff := 65535, makeUp := false, xMax := 64
               knives := (List.range 25).map (fun i => 26400 + 150 * i), lanes := (List.range 24).map (fun i => lane (if i < 23 then 42 else 58)) } ∧
      GoodPlan { job := 0, n := 1, nSet := 1, nApp := 0, cOff := 0, makeUp := true, xMax := 0, knives := [0, 150], lanes := [lane 1] } := by
  unfold GoodPlan Bank.lawful; decide +kernel

theorem witness_BankLoadReplacesTheBank : Asked web (rx 6) ∧ GoodPlan bankA ∧ web.sc.state ≠ .noSet ∧ Asked loaded (rx 6) ∧
    loaded.sc.state = .noSet := ⟨asked_web, bankA_good, by decide, asked_loaded, rfl⟩

theorem asked_changing : Asked changing (rx 6) :=
  asked_of (addressed_of (by decide +kernel)) (by decide +kernel) (by decide +kernel)

theorem asked_unarmed : Asked { changing with lpt := web.lpt } (rx 6) :=
  asked_of (addressed_of (by decide +kernel)) (by decide +kernel) (by decide +kernel)

theorem witness_CancelPendingEmptiesTheBank : Asked web (rx 6) ∧ Asked { changing with lpt := web.lpt } (rx 6) ∧
    changing.sc.state = .changing ∧ web.lpt.pending = none := ⟨asked_web, asked_unarmed, rfl, rfl⟩

theorem witness_BanksStandThroughRolls : (after (.reset (rx 6) []) web).ll.resetting = true ∧ Asked State.reset (rx 6) ∧
    State.reset.sc.state = .noSet ∧ State.reset.machine = none ∧ Asked changing (rx 6) ∧ changing.sc.state = .changing ∧
    changing.lpt.pending.isSome = true :=
  ⟨by decide +kernel, asked_of (addressed_of (by decide +kernel)) (by decide +kernel) (by decide +kernel), rfl, rfl, asked_changing, rfl, rfl⟩

/-- 4.3's example: the confirmed entry at [7,985, 7,995] takes lanes 3 and 4, and lane 3 alone once knife 4 has drifted to 8,030; an
extent in the trim takes none. -/
theorem witness_LanesAreResolvedByTheirEdges :
    web.machine = some machineTable ∧ web.lpt.active = some bankA ∧ GoodPlan bankA ∧ web.knives.length = 25 ∧
      web.resolve (entry 17 0 7985 7995 false []).feat = [(3, .stop), (4, .stop)] ∧
      (withKnife 4 { knifeAt .drifted 8000 with reported := some 8030 } web).resolve (entry 17 0 7985 7995 false []).feat = [(3, .stop)] ∧
      web.resolve (entry 17 0 11700 11800 false []).feat = [] :=
  ⟨rfl, rfl, bankA_good, by decide, by decide +kernel, by decide +kernel, by decide +kernel⟩

/-- A report at K_tol and one beyond it, and a parked one for PARK. -/
theorem witness_KnifeReportSettlesAMove :
    From (·.knifePositioner) web (rx 5) ∧ (withKnife 4 (knifeAt .moving 9600) web).knives[4]? = some (knifeAt .moving 9600) ∧
      Meets machineTable.kTol (some (.pos 9600)) 9620 0 ∧ ¬ Meets machineTable.kTol (some (.pos 9600)) 9621 0 ∧
      Meets machineTable.kTol (some .park) 0 1 ∧ ¬ Meets machineTable.kTol (some .park) 0 0 ∧
      ¬ ((25 : Byte).toNat ≤ 24 ∧ (2 : Byte).toNat ≤ 2 ∧ (30000 : Half).toNat ≤ 30000 ∧ (1 : Byte).toNat ≤ 1) := by
  refine ⟨from_web 5 (by simp) rfl, by decide +kernel, .inl ⟨_, rfl, rfl, by decide⟩, ?_, .inr ⟨rfl, rfl⟩, ?_, by decide⟩
  · rintro (⟨n, h, _, h'⟩ | ⟨h, _⟩)
    · cases h; revert h'; decide
    · cases h
  · rintro (⟨n, h, _⟩ | ⟨_, h⟩) <;> cases h

theorem witness_ConfirmTimerExpires :
    let c : KnifeChannel := { knifeAt .moving 7400 with timer := some 2000 }
    (withKnife 24 c loaded).knives[24]? = some c ∧ c.timer.isSome = true ∧ c.target = some (.pos 7400) ∧ c.retries < machineTable.rc ∧
      machineTable.rc ≤ ({ c with retries := 1 } : KnifeChannel).retries ∧ loaded.ll.resetting = false := by decide +kernel

theorem witness_KnifeRetryMovesAFaultedKnife :
    Asked (withKnife 24 (knifeAt .fault 7400) loaded) (rx 6) ∧
      (withKnife 24 (knifeAt .fault 7400) loaded).knives[(24 : Byte).toNat]? = some (knifeAt .fault 7400) ∧
      loaded.knives[(0 : Byte).toNat]? = some KnifeChannel.init ∧ loaded.knives[(25 : Byte).toNat]? = none :=
  ⟨asked_of (addressed_of (by decide +kernel)) (by decide +kernel) (by decide +kernel), by decide +kernel, by decide +kernel, by decide +kernel⟩

/-- 7.3's example: 16,663 mm/s give 560,312, 2,000 give 13,000 and 0 gives 5,000. -/
theorem witness_LookFormsTheStopDistance :
    let at_ := fun v => ({ web with pu := { web.pu with v := v } } : State).stopDistance machineTable
    web.machine = some machineTable ∧ 0 < machineTable.aD ∧ at_ 16663 = 560312 ∧ at_ 2000 = 13000 ∧ at_ 0 = 5000 := by
  decide +kernel

theorem asked_halted : Asked halted (rx 6) :=
  asked_of (addressed_of (by decide +kernel)) (by decide +kernel) (by decide +kernel)

theorem witness_RemovalReportEndsTheStop : Asked halted (rx 6) ∧ halted.machine = some machineTable ∧ halted.lpt.active = some bankA ∧
    halted.ss.state = .halted ∧ halted.ss.kind = some .defect ∧ GoodPairs bankA.n [(5, 100000), (0, 0)] ∧ GoodPairs bankA.n [] ∧
    GoodPairs bankA.n [(2, 5000)] ∧ bankA.n ≤ 24 ∧ halted.sc.state.open = true ∧ halted.sc.pStart = some 8000 ∧
    2 < halted.sc.removed.length ∧ web.ss.state ≠ .halted :=
  ⟨asked_halted, rfl, rfl, rfl, rfl, by unfold GoodPairs; decide, by unfold GoodPairs; decide, by unfold GoodPairs; decide, by decide, rfl, rfl,
    by decide, by decide⟩

theorem witness_RollStartSetsTheBlocks : Asked loaded (rx 6) ∧ loaded.sc.state = .noSet ∧ loaded.machine = some machineTable ∧
    loaded.peers.isSome = true ∧ loaded.lpt.active = some bankA ∧ loaded.ms.next = some header :=
  ⟨asked_loaded, rfl, rfl, rfl, rfl, rfl⟩

theorem witness_RollEndClearsTheBlocks :
    let s : State := { halted with ss := { halted.ss with state := .requested } }
    Asked s (rx 6) ∧ s.sc.state ≠ .noSet ∧ s.ss.state = .requested ∧ s.ll.count .order < 64 ∧ linked s = true ∧
      SetState.preparing ≠ .noSet :=
  ⟨asked_of (addressed_of (by decide +kernel)) (by decide +kernel) (by decide +kernel), by decide, rfl, by decide +kernel, by decide +kernel, by decide⟩

theorem witness_DoffNowCutsAtTheNearestMark : Asked web (rx 6) ∧ web.sc.state = .running ∧ web.machine = some machineTable ∧
    web.lpt.active = some bankA ∧ web.ms.current = some header ∧ web.mt.last = some { k := 979, u := 3529515 } ∧ 0 < web.mt.rExp ∧
    web.stopDistance machineTable = 55000 ∧ toCutAt machineTable bankA header { k := 979, u := 3529515 } 985 web = 56245 :=
  ⟨asked_web, rfl, rfl, rfl, rfl, rfl, by decide, by decide +kernel, by decide +kernel⟩

theorem witness_DoffCompleteChangesTheSet : Asked changing (rx 6) ∧ changing.sc.state = .changing ∧ changing.lpt.pending.isSome = true ∧
    Asked { changing with lpt := web.lpt } (rx 6) ∧ numberAfter 65535 = 1 ∧ numberAfter 65534 = 65535 :=
  ⟨asked_changing, rfl, rfl, asked_unarmed, rfl, rfl⟩

/-- A record of 65 events waits, none is in flight. -/
def long : ReelRecord :=
  { record with
    events := List.replicate 65 { kind := .defect, cls := some 4, gross := 0, len := 1, origin := none, rep := none, suspect := false
                                  confirmed := false, notRemoved := false, flagShared := false, rejectCause := false } }

def waiting : State :=
  { sending with rs := { sending.rs with headers := web.rs.headers.set 95 (some long), sendList := [95], inFlight := none, held := true } }

theorem witness_RecordFlowHoldsAndReleases :
    From (·.recordReceiver) web (rx 8) ∧ web.rs.sendList = [] ∧ sending.rs.inFlight ≠ none ∧
      From (·.recordReceiver) waiting (rx 8) ∧ waiting.rs.sendList = [95] ∧ waiting.rs.record 95 = some long ∧
      waiting.rs.inFlight = none ∧ ownOf .record waiting = [] ∧ linked waiting = true ∧
      nextFlight 95 long = { header := 95, fragment := 0, last := false } ∧
      nextFlight 95 { long with fragments := 1 } = { header := 95, fragment := 1, last := true } :=
  ⟨from_web 8 (by simp) rfl, rfl, by decide, from_of (addressed_of (by decide +kernel)) (by decide +kernel), rfl, by decide +kernel, rfl,
    by decide +kernel, by decide +kernel, by decide +kernel, by decide +kernel⟩

theorem witness_SentRecordIsGivenBack :
    let f : RecordInFlight := { header := 95, fragment := 0, last := false }
    let s : State := { waiting with rs := { waiting.rs with inFlight := some f, held := false } }
    sending.rs.inFlight = some { header := 0, fragment := 0, last := true } ∧ sending.ll.voidRecord = false ∧
      sending.sc.state ≠ .preparing ∧ (givenBack { header := 0, fragment := 0, last := true } sending.rs).sendList = [] ∧
      waiting.rs.held = true ∧ s.rs.held = false ∧ (givenBack f s.rs).sendList = [95] ∧
      (givenBack f s.rs).record 95 = some { long with fragments := 1 } ∧ s.station.isSome = true ∧ s.ll.resetting = false ∧
      linked s = true := by decide +kernel

theorem witness_ReadRequestsChangeNothing : Asked web (rx 6) ∧ 3 < (4 : Word).toNat ∧ knownKind true 9 = false ∧ knownKind true 8 = true ∧
    knownKind false 0 = false ∧ knownKind false 10 = false ∧ knownKind false 9 = true :=
  ⟨asked_web, by decide, by decide, by decide, by decide, by decide, by decide⟩

theorem witness_MachineTableIsLoaded : Asked loaded (rx 6) ∧ loaded.station = some 1 ∧ loaded.sc.state = .noSet ∧
    GoodMachine 1 machineTable ∧
    GoodMachine 1 { ppm := 2000, dMax := 1, sEnc := 1, dCam := 100, dKn := 101, dSt := 102, dFl := 103, dNip := 103, wMk := 10, aD := 100
                    mSt := 0, tPos := 5, wTab := 100, vApp := 100, mMd := 0, mCd := 0, g := 0, fMin := 0, h := 1, p := 1, pLo := 16
                    pHi := 17, tKnife := 100, rc := 0, kTol := 5, flagStation := 2 } ∧
    GoodMachine 1 { ppm := 200000, dMax := 65535, sEnc := 100, dCam := 199997, dKn := 199998, dSt := 199999, dFl := 200000
                    dNip := 200000, wMk := 2000, aD := 10000, mSt := 50000, tPos := 500, wTab := 20000, vApp := 20000, mMd := 2000
                    mCd := 500, g := 200, fMin := 50000, h := 4096, p := 7, pLo := 512, pHi := 1008, tKnife := 30000, rc := 7
                    kTol := 200, flagStation := 62 } :=
  ⟨asked_loaded, by decide +kernel, rfl, by unfold GoodMachine; decide, by unfold GoodMachine; decide, by unfold GoodMachine; decide⟩

theorem witness_PeerTableIsLoaded : Asked loaded (rx 6) ∧ loaded.station = some 1 ∧ loaded.sc.state = .noSet ∧
    (∀ n ∈ [2, 62, 2, 62, 2, 62, 2], GoodStation 1 n) ∧ ¬ GoodStation 1 (63 : Word).toNat ∧ ¬ GoodStation 1 (0 : Word).toNat ∧
    ¬ GoodStation 1 (1 : Word).toNat :=
  ⟨asked_loaded, by decide +kernel, rfl, by unfold GoodStation; decide, by unfold GoodStation; decide, by unfold GoodStation; decide,
    by unfold GoodStation; decide⟩

theorem witness_RequestsRefusedForTheState : Asked web (rx 6) ∧ web.sc.state ≠ .noSet ∧ web.sc.state ≠ .changing ∧ web.sc.state = .running ∧
    ({ web with mt := MarkTracker.init } : State).mt.last = none ∧ MarkTracker.init.state ≠ .locked ∧ Asked loaded (rx 6) ∧
    loaded.sc.state = .noSet ∧ ({ loaded with machine := none } : State).machine = none ∧
    ({ loaded with peers := none } : State).peers = none ∧ loaded.machine.isSome = true ∧ loaded.peers.isSome = true ∧
    loaded.lpt.active.isSome = true ∧ ({ loaded with ms := MapStore.init } : State).ms.next = none :=
  ⟨asked_web, by decide, by decide, rfl, rfl, by decide, asked_loaded, rfl, rfl, rfl, rfl, rfl, rfl, rfl⟩

theorem witness_RefusedRequestChangesNothing : (execute true (some 5) [] web).status = .busy ∧
    (execute true (some 1) [] State.reset).index = 1 ∧ (execute false none [] web).status = .unknown := by decide +kernel

theorem witness_EveryRequestGetsOneReply : 1 + (List.replicate 65534 (0 : Byte)).length < 65536 ∧ Asked web (rx 6) ∧ Addressed web (rx 6) ∧
    (∀ t, web.peers = some t → (rx 6).src.toNat = t.lineController) ∧
    16 ≤ ({ web with ll := { web.ll with own := List.replicate 16 (queued .reply 6 7 (.reply 1 .accepted 0 .empty) web) } } : State).ll.count
      .reply :=
  ⟨by rw [List.length_replicate]; decide, asked_web, addressed_web 6 (by simp), fun t h => by cases h; decide, by decide +kernel⟩

/-! ### Witnesses of the clauses beside -/

/-- A part that waits for a RESET, and map blocks whose length is not their entry count's (R177, R184). -/
theorem witness_UnfitFrameIsRefused_waiting :
    (let s := after (.reset (rx 6) []) web;
      s.station = some 1 ∧ s.ll.resetting = true ∧ (raw 2 1 0x10 0 []).src.toNat ≠ 1 ∧ (raw 2 1 0x10 0 []).dst.toNat = 1 ∧
        (raw 2 63 0x10 0 []).dst.toNat = 63) ∧
      Addressed web (headerOf .a (raw 7 1 0x14 24 [])) ∧ ((raw 7 1 0x14 9 []).len.toNat < 10) ∧
      (raw 7 1 0x14 24 (List.replicate 9 0 ++ 0 :: List.replicate 14 0)).rest[9]? = some 0 ∧ (24 : Half).toNat ≠ 10 + 14 * (0 : Byte).toNat :=
  ⟨by decide +kernel, addressed_of (by decide +kernel), by decide, by decide, by decide⟩

/-- The web at the top of the first window, and one dmm above it; and a web that has run back (R14, R19). -/
theorem witness_CountFrameMovesTheWeb_marks :
    web.mt.last = some { k := 979, u := 3529515 } ∧ web.mt.state ≠ .seeking ∧ 0 < web.mt.rExp ∧
      (after (.countFrame (rx 2) 1000680 1000) web).pu.u = 3533170 ∧ PassesWindows machineTable web.mt { k := 979, u := 3529515 } 3533170 0 ∧
      (after (.countFrame (rx 2) 1000684 1000) web).pu.u = 3533171 ∧ PassesWindows machineTable web.mt { k := 979, u := 3529515 } 3533171 1 ∧
      (after (.countFrame (rx 2) 999000 1000) web).pu.u < web.pu.u ∧ Applies machineTable 999000 web := by
  refine ⟨rfl, by decide, by decide, by decide +kernel, ?_, by decide +kernel, ?_, by decide +kernel, ?_⟩
  · unfold PassesWindows; decide +kernel
  · unfold PassesWindows; decide +kernel
  · unfold Applies; decide +kernel

/-- A mark one dmm above the window, which is then below the next, and one at the foot of the next (R11, R14). -/
theorem witness_MarkInWindowIsCounted_above :
    let l : LastMark := { k := 979, u := 3529515 }
    let low := windowFrom machineTable (synthesized 1 l web.mt) (markAfter 1 l web.mt)
    web.latched 1000682 = some 3533171 ∧ PassesWindows machineTable web.mt l 3533171 1 ∧ 3533171 < low ∧
      web.latched 1014698 = some 3536675 ∧ PassesWindows machineTable web.mt l 3536675 1 ∧ low ≤ 3536675 := by
  refine ⟨by decide +kernel, ?_, by decide +kernel, by decide +kernel, ?_, by decide +kernel⟩
  · unfold PassesWindows; decide +kernel
  · unfold PassesWindows; decide +kernel

/-- Two entries wait for mark 986 below the frontier, ahead of every station (R49). -/
theorem witness_EntriesSettleOnTheirMark :
    let s : State := { web with fq := { web.fq with forecast := twoForecasts }, ms := { web.ms with frontier := some 987 } }
    s.machine = some machineTable ∧ s.ms.current = some header ∧ s.fq.lawful ∧ (∀ f, s.ms.frontier = some f → 986 < f) ∧
      (∃ y ∈ s.fq.forecast, y.k = 986 ∧ Ahead machineTable s.pu.u (settlesAt 3554750 s.mt.e y)) ∧
      (false = true ↔ Doubtful s.mt.state) ∧ (true = true ↔ Doubtful TrackState.coasting) := by
  refine ⟨rfl, rfl, by unfold FeatureQueue.lawful; decide +kernel, fun f h => by cases h; decide, ⟨_, List.mem_cons_self, rfl, ?_⟩, ?_, ?_⟩
  · unfold Ahead; decide +kernel
  · simp [Doubtful, web]
  · simp [Doubtful]

/-- The foremost place at which no station is due; another entry stands already (R98, R100). -/
theorem witness_EntriesJoinTheSettledList :
    let s : State := { web with fq := { web.fq with settled := [entry 0 3529001 5000 5200 false []] } }
    let e := entry 1023 3529001 5000 5200 false []
    s.machine = some machineTable ∧ s.fq.lawful ∧ e.feat.num ∉ s.fq.nums ∧ Ahead machineTable s.pu.u e.p ∧
      Stands (entry 0 0 5000 5200 false []).feat 3529001 s := by
  refine ⟨rfl, by unfold FeatureQueue.lawful; decide +kernel, by decide +kernel, by unfold Ahead; decide +kernel, ?_⟩
  exact ⟨_, List.mem_cons_self, rfl, rfl, rfl, rfl, rfl, rfl⟩

/-- A store that holds block 1,531 with one entry of repeat 49,000. -/
def stored : State :=
  { web with ms := { web.ms with slots := web.ms.slots.set 6 (some
    { num := 1531, dense := false, clamped := 0, dropped := 0
      entries := [{ rep := 49000, off := 0, len := 60, ext := { x0 := 0, x1 := 1 }, kind := .splice }] }) } }

/-- A queue without a free slot. -/
def crowded (s : State) : State :=
  { s with fq := { s.fq with settled := [], forecast := List.replicate 1024 { feat := (entry 0 0 0 0 false []).feat, k := 0, off := 0 } } }

/-- The marks below the frontier and at it, the last repeat of its block and a mark outside the roll (R28, R37, R40). -/
theorem witness_LateMarksAreServed :
    (979 : Nat) < 986 ∧ header.pressRepeat 49987 = none ∧ header.pressRepeat 986 = some 49000 ∧ web.ms.frontier = some 986 ∧
      stored.ms.block (49000 / 32) ≠ none ∧ 1 ≤ stored.fq.free ∧ (crowded stored).fq.free = 0 ∧ web.ms.block (49000 / 32) = none ∧
      header.pressRepeat 994 = some 48992 ∧ 48992 = 32 * (48992 / 32) := by decide +kernel

/-- The lookahead at its last mark and one beyond, with a mark counted and without; a repeat whose entries just fit and one without
room; the block absent; a mark outside the roll; a dense block's one entry (R27, R38). -/
theorem witness_AttemptsExpand :
    let cold : State := { stored with mt := { stored.mt with last := none } }
    let one : State := { stored with fq := { stored.fq with forecast := List.replicate 1023 { feat := (entry 0 0 0 0 false []).feat, k := 0, off := 0 } } }
    stored.machine = some machineTable ∧ 1 ≤ machineTable.h ∧ stored.ms.current = some header ∧ stored.ms.frontier = some 986 ∧
      stored.ms.paused = false ∧ header.pressRepeat 986 = some 49000 ∧ header.pressRepeat 49987 = none ∧
      (WithinLookahead machineTable stored 986 ∧ WithinLookahead machineTable stored 1235 ∧ ¬ WithinLookahead machineTable stored 1236) ∧
      (WithinLookahead machineTable cold 255 ∧ ¬ WithinLookahead machineTable cold 256) ∧
      (∃ blk, stored.ms.block (49000 / 32) = some blk ∧ (repeatEntries header blk 49000).length = 1 ∧ one.fq.free = 1 ∧
        (crowded stored).fq.free < (repeatEntries header blk 49000).length ∧
        (repeatEntries header { blk with dense := true } 49000).length = 1) ∧ web.ms.block (49000 / 32) = none := by
  refine ⟨rfl, by decide, rfl, rfl, rfl, by decide, by decide, ?_, ?_, ⟨_, rfl, by decide +kernel, by decide +kernel, by decide +kernel,
    by decide +kernel⟩, by decide +kernel⟩ <;> simp [WithinLookahead, stored, web, machineTable]

/-- A queue of `n` entries in the first slots. -/
def filled (n : Nat) (s : State) : State :=
  { s with fq := { s.fq with forecast := [], settled := (List.range n).map (fun i => entry i 0 0 0 false []) } }

/-- The four values at which the pacing turns, and entries that join and leave there, told of where a notice waits (R39). -/
theorem witness_PacingFollowsTheFreeCount :
    (pausedAt machineTable false 63 = true ∧ pausedAt machineTable false 64 = false ∧ pausedAt machineTable true 191 = true ∧
      pausedAt machineTable true 192 = false) ∧
      (let m : MachineTable := { machineTable with pHi := 1008 }
      let s : State := { filled 17 web with
        machine := some m, ms := { web.ms with paused := true }, nq := { web.nq with inFlight := some (notice .setReady) } }
      s.machine = some m ∧ (entry 0 0 0 0 false []).feat.suspect = false ∧ 0 < s.fq.free ∧ s.fq.lawful ∧
        entry 0 0 0 0 false [] ∈ s.fq.settled ∧ NoticesWait s ∧ pausedAt m true (s.fq.free + 1) = false ∧
        pausedAt m true ((filled 18 web).fq.free + 1) = true) ∧
      (filled 960 web).fq.free - 1 = 63 ∧ (filled 959 web).fq.free - 1 = 64 ∧ (filled 1023 web).fq.free = 1 := by
  refine ⟨by decide, ⟨rfl, rfl, by decide +kernel, ?_, by decide +kernel, by unfold NoticesWait; decide +kernel, by decide +kernel,
    by decide +kernel⟩, by decide +kernel, by decide +kernel, by decide +kernel⟩
  unfold FeatureQueue.lawful; decide +kernel

/-- The blocks wanted at both ends of the roll and between, and lists with room for one request and for none (R33). -/
theorem witness_RequestsAreChecked :
    web.machine = some machineTable ∧ web.ms.current = some header ∧ web.ms.frontier = some 986 ∧ header.pressRepeat 986 = some 49000 ∧
      header.pressRepeat 49987 = none ∧ wantedFrom header 49000 3 = [1531, 1530, 1529] ∧ wantedFrom header 32 3 = [1, 0] ∧
      wantedFrom { header with reversed := false } 49968 3 = [1561, 1562] ∧ requestPlaces web = 7 ∧
      (let asks := fun s : State => (checkRequests s).ms.outstanding
      asks { web with ms := { web.ms with outstanding := [1, 2, 3, 4, 5, 6] } } = [1, 2, 3, 4, 5, 6, 1531] ∧
        asks { web with ms := { web.ms with outstanding := [1, 2, 3, 4, 5, 6, 7] } } = [1, 2, 3, 4, 5, 6, 7] ∧
        asks { web with ms := { web.ms with outstanding := [1530] } } = [1530, 1531, 1529]) := by decide +kernel

/-- The pacing of MAP_BLOCK's attempt starts at P_lo free slots, or PAUSED. -/
theorem witness_MapBlockIsStored_pacing :
    web.ms.paused = false ∧ (filled 960 web).fq.free = machineTable.pLo ∧
      ({ web with ms := { web.ms with paused := true } } : State).ms.paused = true := ⟨rfl, by decide +kernel, rfl⟩

/-- A span that ends exactly W_mk before the new one, one a dmm farther off, and a full queue (R52, R53). -/
theorem witness_SpansExtendJoinOrAreLost :
    let e : Settled := { entry 3 1000 0 0 false [] with feat := { (entry 3 1000 0 0 false []).feat with kind := .blind, origin := .span } }
    TouchesSpan machineTable .blind 1140 3605 e ∧ ¬ TouchesSpan machineTable .blind 1141 3605 e ∧ 0 < web.fq.free ∧
      (crowded web).fq.free = 0 ∧ (crowded web).fq.settled = [] := by
  refine ⟨by unfold TouchesSpan; decide +kernel, by unfold TouchesSpan; decide +kernel, by decide +kernel, by decide +kernel, rfl⟩

/-- An entry of another block is dropped, and the notice has room (R26, R27). -/
theorem witness_MapBlockIsStored_faults :
    let i : MapItem := { rep := 0, off := 0, len := 1, x0 := 0, x1 := 1, cls := 0, flags := 0 }
    Screened header 1531 false [i] { num := 1531, dense := false, clamped := 0, dropped := 1, entries := [] } ∧
      NoticesWait { web with nq := { web.nq with inFlight := some (notice .setReady) } } := by
  refine ⟨⟨fun i => decide (i.rep.toNat / 32 = 1531 ∧ ¬ (header.nT ≤ i.rep.toNat ∨ header.rNom ≤ i.off.toNat ∨ i.x1.toNat < i.x0.toNat ∨
    30000 < i.x1.toNat ∨ (i.flags.getLsbD 0 = false ∧ 15 < i.cls.toNat))), fun i => ?_, rfl, rfl, by decide +kernel, by decide +kernel,
    by decide +kernel⟩, by unfold NoticesWait; decide +kernel⟩
  simp only [decide_eq_true_eq, Dropped]
  tauto

theorem witness_LateralOffsetIsReplaced_looks :
    ({ loaded with machine := none } : State).machine = none ∧ loaded.sc.state = .noSet ∧ loaded.ss.state = .idle ∧
      loaded.ss.cutHeld = false ∧ loaded.machine = some machineTable := ⟨rfl, rfl, rfl, rfl, rfl⟩

theorem witness_MarkResyncSetsF_empty : (∀ b ∈ web.ms.slots, b = none) ∧ (∀ b ∈ stored.ms.slots, b = none ∨ stored.ms.slots[6]? = some b) := by
  decide +kernel

/-- Entries M_md from the sighting: one of the map, and a streak whose end lies M_md before it (R56, R57). -/
theorem witness_SightingsMerge :
    let map : Settled := { entry 5 999700 8600 8700 false [] with feat := { (entry 5 0 8600 8700 false []).feat with origin := .map } }
    let streak : Settled := entry 6 999610 8740 8800 false []
    let ext : Extent := { x0 := 8600, x1 := 8700 }
    fast.latched 5006000 = some 1001500 ∧ (1001500 : Int) - machineTable.dCam = 1000000 ∧
      NearestOf 1000000 (Confirms fast machineTable 1000000 false ext) [] map [streak] ∧
      (∀ x ∈ [streak], ¬ Confirms fast machineTable 1000000 false ext x) ∧
      NearestOf 1000000 (Continues machineTable 1000000 4 ext) [] streak [] ∧ Ahead machineTable fast.pu.u map.p ∧
      Ahead machineTable fast.pu.u streak.p ∧ max ((1000000 : Int) + (90 : Half).toNat - streak.p) (streak.feat.len : Int) ≤ 65535 ∧
      streak.feat.slit = some { x0 := 8740, x1 := 8800 } ∧ (false = true ↔ Doubtful fast.mt.state ∨ fast.pu.enc = .silent) := by
  have h1 : ∀ x ∈ [entry 6 999610 8740 8800 false []], ¬ Confirms fast machineTable 1000000 false { x0 := 8600, x1 := 8700 } x := by
    intro x hx h; simp only [List.mem_singleton] at hx; subst hx; cases h.1
  refine ⟨by decide +kernel, by decide, ⟨⟨rfl, by decide, rfl, .inr ⟨rfl, ⟨_, rfl⟩, _, .inl rfl, ?_⟩⟩, by simp, fun x hx h => absurd h (h1 x hx)⟩,
    h1, ⟨⟨rfl, rfl, by decide, by decide, ⟨_, rfl, ?_⟩, rfl⟩, by simp, by simp⟩, ?_, ?_, by decide, rfl, ?_⟩
  · unfold Overlap; decide
  · unfold Overlap; decide
  · unfold Ahead; decide +kernel
  · unfold Ahead; decide +kernel
  · simp [Doubtful, fast, web]

theorem witness_SightingsAreLost :
    let s := crowded fast
    From (·.inspection) s (rx 4) ∧ s.machine = some machineTable ∧ s.ms.current.isSome = true ∧ s.latched 5006000 = some 1001500 ∧
      s.fq.settled = [] ∧ s.fq.hCam = none ∧ s.fq.forecast.length + s.fq.settled.length = 1024 :=
  ⟨from_of (addressed_of (by decide +kernel)) (by decide +kernel), rfl, rfl, by decide +kernel, rfl, rfl, by decide +kernel⟩

/-- A flag F_min before the entry, at P_start, and lanes that hold none (R106, R107). -/
theorem witness_FlagStation :
    let s : State := { passing [] with fq := { (passing []).fq with flags := (List.replicate 24 (none : Option Int)).set 1 (some 8000) } }
    let e := entry 61 9000 3000 3100 true [item 1 .flag, item 23 .flag, item 2 .log]
    s.fq.flags.length = 24 ∧ (∀ i ∈ e.items, i.lane < 24) ∧ s.fq.flags[1]? = some (some 8000) ∧ e.p - 8000 ≤ machineTable.fMin ∧
      s.sc.pStart = some 8000 ∧ s.pCut = some 1476860 := by decide +kernel

/-- The nip: at P_start in RUNNING, below and at the cut in CUT_STOP, at and below it in CHANGING (R113). -/
theorem witness_NipStation :
    OpenFrom fast 8000 ∧ fast.sc.pStart = some 8000 ∧
      (let s : State := { fast with sc := { fast.sc with state := .cutStop } }; OpenFrom s 1476859 ∧ s.pCut = some 1476860) ∧
      changing.sc.state = .changing ∧ changing.pCut = some 1453370 ∧ ¬ OpenFrom changing 1453369 ∧ ¬ OpenFrom fast 7999 := by
  refine ⟨⟨.inl rfl, _, rfl, by decide⟩, rfl, ⟨⟨.inr (.inr rfl), _, rfl, by decide⟩, by decide +kernel⟩, rfl, by decide +kernel, ?_, ?_⟩
  · rintro ⟨h | h | h, -⟩ <;> cases h
  · rintro ⟨-, q, hq, h⟩; cases hq; revert h; decide

theorem witness_ServedStationsWait :
    let e : Settled := { entry 61 8000 3000 3100 true [] with feat := { (entry 61 8000 3000 3100 true []).feat with served := true } }
    fast.machine = some machineTable ∧ (passing []).fq.findSettled 61 = some (entry 61 8000 3000 3100 true []) ∧
      ({ fast.fq with settled := [e] } : FeatureQueue).findSettled 61 = some e ∧
      (true = true ↔ OpenFrom (passing []) 8000) := by
  refine ⟨rfl, by decide +kernel, by decide +kernel, fun _ => ⟨.inl rfl, _, rfl, by decide⟩, fun _ => rfl⟩

/-- An open record of each lane 0..5, in the first headers; lane 1's is full. -/
def opened (i : Nat) : ReelRecord := { record with lane := i, totals := none, quota := if i = 1 then 0 else 150 }

def recording (s : State) : State :=
  { s with rs := { s.rs with headers := (List.range 6).map (fun i => some (opened i)) ++ List.replicate 90 none } }

theorem open_at (s : State) (i : Nat) (h : i < 6) : OpenAt (recording s).rs i i (opened i) := by
  refine ⟨?_, rfl, rfl, fun j x hj _ hl => ?_⟩
  · rcases i with _ | _ | _ | _ | _ | _ | i <;> first | rfl | omega
  · simp only [recording] at hj
    rcases Nat.lt_or_ge j 6 with h6 | h6
    · rw [List.getElem?_append_left (by simpa using h6)] at hj
      simp only [List.getElem?_map, List.getElem?_range h6, Option.map_some, Option.some.injEq] at hj
      subst hj; exact hl
    · rw [List.getElem?_append_right (by simpa using h6), List.getElem?_replicate] at hj
      split at hj <;> simp at hj

theorem no_record (j : Nat) (x : ReelRecord) : web.rs.headers[j]? ≠ some (some x) := by
  show (List.replicate 96 (none : Option ReelRecord))[j]? ≠ _
  rw [List.getElem?_replicate]
  split <;> simp

theorem witness_EventsGoToTheOpenRecord : OpenAt (recording web).rs 0 0 (opened 0) ∧ OpenAt (recording web).rs 1 1 (opened 1) ∧
    (opened 1).quota ≤ (opened 1).events.length ∧
    ∀ (j : Nat) (x : ReelRecord), web.rs.headers[j]? = some (some x) → x.totals = none → x.lane ≠ 3 :=
  ⟨open_at _ _ (by decide), open_at _ _ (by decide), by decide, fun j x h => absurd h (no_record j x)⟩

theorem not_meets (target : Option KnifeTarget) (p q : Nat) (h : (match target with
    | some (.pos n) => decide (q = 0 ∧ ((p : Int) - n).natAbs ≤ machineTable.kTol)
    | some .park => decide (q = 1)
    | none => false) = false) : ¬ Meets machineTable.kTol target p q := by
  rintro (⟨n, rfl, h1, h2⟩ | ⟨rfl, h1⟩) <;> simp_all

/-- A FAULT report, and a DONE one a dmm beyond K_tol (R88). -/
theorem witness_MoveFaultsAreNoticed :
    let s : State := { withKnife 4 (knifeAt .moving 9600) web with nq := { web.nq with inFlight := some (notice .setReady) } }
    From (·.knifePositioner) s (rx 5) ∧ KnifeInRange 4 1 0 0 ∧ KnifeInRange 24 0 30000 1 ∧ s.knives[4]? = some (knifeAt .moving 9600) ∧
      NoticesWait s ∧ ¬ Meets machineTable.kTol (some (.pos 9600)) 9621 0 := by
  refine ⟨from_of (addressed_of (by decide +kernel)) (by decide +kernel), by unfold KnifeInRange; decide, by unfold KnifeInRange; decide,
    by decide +kernel, by unfold NoticesWait; decide +kernel, not_meets _ _ _ (by decide)⟩

/-- A channel of each state at rest, with a report at K_tol and one beyond it (R91, R93). -/
theorem witness_KnivesAtRest :
    (withKnife 4 (knifeAt .inPosition 9600) changing).knives[4]? = some (knifeAt .inPosition 9600) ∧
      From (·.knifePositioner) (withKnife 4 (knifeAt .inPosition 9600) changing) (rx 5) ∧
      Meets machineTable.kTol (some (.pos 9600)) 9580 0 ∧ ¬ Meets machineTable.kTol (some (.pos 9600)) 9579 0 ∧
      ¬ Meets machineTable.kTol (some (.pos 9600)) 9600 1 ∧ Meets machineTable.kTol (some .park) 0 1 ∧
      changing.sc.state ≠ .running ∧ changing.sc.state ≠ .approach ∧ changing.sc.state ≠ .preparing ∧
      loaded.knives[4]? = some KnifeChannel.init ∧ KnifeChannel.init.state = .idle ∧
      (knifeAt .fault 9600).state ≠ .moving ∧ (knifeAt .drifted 9600).target = some (.pos 9600) := by
  refine ⟨by decide +kernel, from_of (addressed_of (by decide +kernel)) (by decide +kernel), .inl ⟨_, rfl, rfl, by decide⟩,
    not_meets _ _ _ (by decide), not_meets _ _ _ (by decide), .inr ⟨rfl, rfl⟩, by decide, by decide, by decide, by decide +kernel, rfl,
    by decide, rfl⟩

/-- A knife out of place in RUNNING beside open records, and one in PREPARING (R91, R92). -/
theorem witness_KnivesOutOfPlace :
    let s := recording (withKnife 1 (knifeAt .inPosition 2600) web)
    From (·.knifePositioner) s (rx 5) ∧ s.knives[1]? = some (knifeAt .inPosition 2600) ∧ s.sc.state = .running ∧
      ¬ Meets machineTable.kTol (some (.pos 2600)) 2621 0 ∧ s.lpt.active = some bankA ∧ s.sc.pStart = some 8000 ∧
      (∀ e ∈ s.fq.settled, e.feat.served = false) ∧ OpenAt s.rs 0 0 (opened 0) ∧ OpenAt s.rs 5 5 (opened 5) ∧
      ({ knifeAt .parked 0 with target := some .park } : KnifeChannel).target = some .park ∧ ¬ Meets machineTable.kTol (some .park) 0 0 ∧
      OrdersGo web := by
  refine ⟨from_of (addressed_of (by decide +kernel)) (by decide +kernel), by decide +kernel, rfl, not_meets _ _ _ (by decide), rfl, rfl, by decide +kernel,
    open_at _ _ (by decide), open_at _ _ (by decide), rfl, not_meets _ _ _ (by decide), by unfold OrdersGo; decide +kernel⟩

/-- One entry of lane 2, class 4, ahead of the knife station; `b` its served mark. -/
def ahead (num : Nat) (p : Int) (b : Bool) : Settled :=
  { entry num p 5000 5200 false [] with feat := { (entry num p 5000 5200 false []).feat with served := b } }

def holding (l : List Settled) : State := { fast with fq := { fast.fq with settled := l } }

theorem fast_span (l : List Settled) (p : Int) (h1 : 8000 ≤ p) (h2 : p < 1476860) : InStopSpan (holding l) p :=
  ⟨⟨.inl rfl, _, rfl, h1⟩, fun c h => by
    have : (holding l).pCut = some 1476860 := by
      show fast.pCut = _; decide +kernel
    rw [this] at h; cases h; exact h2⟩

/-- The entry is a candidate at P_start and just below the cut (R119). -/
theorem witness_SettledCandidate : SettledCandidate (holding [ahead 61 8000 false]) (ahead 61 8000 false) ∧
    SettledCandidate (holding [ahead 61 1476859 false]) (ahead 61 1476859 false) :=
  ⟨⟨rfl, rfl, fast_span _ _ (by decide) (by decide), .inr ⟨rfl, 2, by decide +kernel⟩⟩,
    ⟨rfl, rfl, fast_span _ _ (by decide) (by decide), .inr ⟨rfl, 2, by decide +kernel⟩⟩⟩

theorem one_lawful (num : Nat) (h : num < 1024) (p : Int) (b : Bool) : (holding [ahead num p b]).fq.lawful := by
  have hf : fast.fq.forecast = [] := by decide +kernel
  have hl : fast.fq.flags.length = Config.laneCount := by decide +kernel
  have hn : (holding [ahead num p b]).fq.nums = [num] := by simp [holding, FeatureQueue.nums, hf, ahead, entry]
  refine ⟨hn ▸ List.nodup_singleton _, fun n m => ?_, List.pairwise_singleton _ _, hf ▸ List.Pairwise.nil, hl⟩
  rw [hn, List.mem_singleton] at m; subst m; exact h

/-- No candidate; an aim one dmm outside d_s = 205,000, at it, and inside it; and the cut (R123). -/
theorem witness_IdleLooks :
    fast.machine = some machineTable ∧ fast.ss.state = .idle ∧ fast.targets machineTable = [] ∧
      Aims machineTable (holding [ahead 61 1174521 false]) (.entry 61) 1206521 ∧
      Aims machineTable (holding [ahead 61 1174520 false]) (.entry 61) 1206520 ∧ fast.stopDistance machineTable = 205000 ∧
      (1206521 : Int) - fast.pu.u = 205001 ∧ (holding [ahead 61 1174520 false]).fq.lawful ∧
      (false = true ↔ fast.ss.seenOutside = true ∧ fast.ss.aim = some (.entry 61) ∧ fast.ss.aimGone = false) ∧
      Aims machineTable { fast with ss := { fast.ss with cutHeld := true } } .cut 1514860 := by
  refine ⟨rfl, rfl, by decide +kernel, ⟨[], [], by decide +kernel, by simp, by simp⟩, ⟨[], [], by decide +kernel, by simp, by simp⟩,
    by decide +kernel, by decide, one_lawful _ (by decide) _ _, by decide, ⟨[], [], by decide +kernel, by simp, by simp⟩⟩

/-- A defect stop ordered for u with its aim served; the aim lies at 1,032,000. -/
def ordered (u : Int) : State :=
  let s := holding [ahead 61 1000000 true]
  { s with ss := { s.ss with state := .requested, kind := some .defect, aim := some (.entry 61), uT := some u, pW := some (u - 32000) } }

theorem ordered_kept (u v : Int) : StopStands .defect u (ordered u) ∧ NoneDropped (ordered u) ∧ (ordered u).fq.lawful ∧
    AimStands machineTable (ordered u) (.entry 61) 1032000 ∧ NoneNearer machineTable .defect (ordered u) v := by
  refine ⟨⟨rfl, rfl, rfl, fun _ => by show 0 < (ordered 0).fq.servedCount; decide +kernel⟩, ?_, one_lawful 61 (by decide) 1000000 true,
    ⟨rfl, .inr (.inl ⟨rfl, _, List.mem_cons_self, rfl, rfl, rfl⟩)⟩, ?_, (fun y hy => by cases hy), fun _ h => by cases h⟩
  · intro e he _ hk
    simp only [ordered, holding, List.mem_singleton] at he; subst he; cases hk
  · intro e he hc
    simp only [ordered, holding, List.mem_singleton] at he; subst he; cases hc.1

/-- An aim T_pos from the target ordered and one dmm more; a forecast aim; a cut; an aim that is gone (R126). -/
theorem witness_RequestedLooks :
    (StopStands .defect 1031950 (ordered 1031950) ∧ NoneDropped (ordered 1031950) ∧ (ordered 1031950).fq.lawful ∧
      AimStands machineTable (ordered 1031950) (.entry 61) 1032000 ∧ NoneNearer machineTable .defect (ordered 1031950) 1031950) ∧
      ¬ machineTable.tPos < ((1032000 : Int) - 1031950).natAbs ∧
      (StopStands .defect 1031949 (ordered 1031949) ∧ NoneDropped (ordered 1031949) ∧ (ordered 1031949).fq.lawful ∧
      AimStands machineTable (ordered 1031949) (.entry 61) 1032000 ∧ NoneNearer machineTable .defect (ordered 1031949) 1032000) ∧
      machineTable.tPos < ((1032000 : Int) - 1031949).natAbs ∧
      (let s : State := { fast with ss := { fast.ss with state := .requested, kind := some .cut, aim := some .cut, uT := some 1514860
                                                         cutHeld := true } };
        StopStands .cut 1514860 s ∧ AimStands machineTable s .cut 1514860) ∧
      (let y : Forecast := { feat := (ahead 7 0 true).feat, k := 280, off := 0 };
        Predicted fast y 1036950) ∧
      ({ ordered 1031950 with ss := { (ordered 1031950).ss with aimGone := true } } : State).ss.aimGone = true := by
  refine ⟨ordered_kept _ _, by decide, ordered_kept _ _, by decide, ⟨⟨rfl, rfl, rfl, nofun⟩, rfl,
    .inl ⟨rfl, rfl, 1476860, by decide +kernel, by decide⟩⟩, ⟨_, rfl, by decide +kernel⟩, rfl⟩

/-- A nearer defect; a served set that is empty; a served entry whose final lanes hold no STOP (R125, R127, R128). -/
theorem witness_OrdersGiveWay :
    (let s : State := { ordered 1032000 with fq := { fast.fq with settled := [ahead 60 990000 false, ahead 61 1000000 true] } };
      StopStands .defect 1032000 s ∧ s.targets machineTable = [(.entry 60, 1022000)] ∧
        NoneDue machineTable s.pu.u (ahead 61 1000000 true) ∧ (1022000 : Int) - machineTable.dSt + machineTable.wTab < 1000000) ∧
      (let s : State := { ordered 1532000 with
          fq := { fast.fq with settled := [ahead 61 1500000 true] }, ss := { (ordered 1532000).ss with cutHeld := true } };
        StopStands .defect 1532000 s ∧ s.targets machineTable = [(.cut, 1514860)]) ∧
      (holding []).fq.servedCount = 0 ∧
      (let e : Settled := { ahead 61 1000000 true with knife := true, items := [item 2 .log] };
        e.feat.served = true ∧ (∀ i ∈ e.items, i.action ≠ .stop) ∧ NoneDue machineTable (ordered 1032000).pu.u e) := by
  refine ⟨⟨⟨rfl, rfl, rfl, fun _ => by decide +kernel⟩, by decide +kernel, by unfold NoneDue; decide +kernel, by decide⟩,
    ⟨⟨rfl, rfl, rfl, fun _ => by decide +kernel⟩, by decide +kernel⟩, by decide +kernel, rfl, by decide, by unfold NoneDue; decide +kernel⟩

theorem witness_LooksAtRest :
    (let s : State := { ordered 1032000 with ss := { (ordered 1032000).ss with state := .correcting } };
      s.machine = some machineTable ∧ s.fq.lawful ∧ NoneDropped s ∧ s.ss.pW = some 1000000) ∧ halted.ss.state = .halted ∧
      halted.fq.lawful :=
  ⟨⟨rfl, (ordered_kept 1032000 0).2.2.1, (ordered_kept 1032000 0).2.1, rfl⟩, rfl, by unfold FeatureQueue.lawful; decide +kernel⟩

/-- An error of T_pos and one more, with three jogs and four (R130, R131). -/
theorem witness_Standstills : (ordered 1001470).ss.uT = some 1001470 ∧ ((ordered 1001470).pu.u - 1001470).natAbs = machineTable.tPos ∧
    machineTable.tPos < ((ordered 1001469).pu.u - 1001469).natAbs ∧ (ordered 1001469).ss.kind ≠ some .cut ∧ fast.ss.state = .idle := by
  decide +kernel

theorem witness_FramesLook :
    let s : State := { fast with sc := { fast.sc with state := .cutStop } }
    From (·.drive) s (rx 2) ∧ Applies machineTable 5006083 s ∧
      (s.pu.acc + pulses 5006083 s.pu.cPrev * 10000) / (machineTable.ppm : Int) = 0 ∧ s.sc.state ≠ .running ∧ s.sc.state ≠ .approach := by
  refine ⟨from_of (addressed_of (by decide +kernel)) (by decide +kernel), by unfold Applies; decide +kernel, by decide +kernel, by decide, by decide⟩

/-- 11.3's stop, of which nothing is left; its open record of lane 2; an entry whose lanes are not final (R135, R136). -/
theorem witness_RemovalReportEndsTheStop_ended :
    NothingLeft halted ∧ halted.fq.lawful ∧ (∀ e ∈ halted.fq.settled, e.feat.served = true ∧ NoneDue machineTable halted.pu.u e) ∧
      itemsLeft [2] (entry 40 723668 5000 5200 true [item 2 .stop]) = [] ∧
      itemsLeft [] (entry 40 723668 5000 5200 true [item 2 .stop]) ≠ [] ∧ NoNipDue machineTable halted ∧
      OpenAt (recording halted).rs 2 2 (opened 2) ∧ Asked (recording halted) (rx 6) ∧ halted.ss.pW = some 723648 ∧
      (false = true ↔ ∃ e ∈ halted.fq.settled, e.feat.served = true ∧ e.feat.suspect = true ∧ ∃ y ∈ e.items, y.lane = 2) ∧
      NoneDue machineTable halted.pu.u (ahead 41 753000 true) := by
  refine ⟨⟨by decide +kernel, rfl, rfl⟩, by unfold FeatureQueue.lawful; decide +kernel, by unfold NoneDue; decide +kernel, by decide, by decide,
    fun e he => .inr (.inl (by revert e he; decide +kernel)), open_at _ _ (by decide), asked_of (addressed_of (by decide +kernel)) (by decide +kernel)
      (by decide +kernel), rfl, by decide +kernel, by unfold NoneDue; decide +kernel⟩

/-- Every knife in place, for a set about to be opened. -/
def ready : State :=
  { web with
    sc := { SetController.init with state := .preparing, mode := some .thread, counted := [{ k := 400, u := 3533000 }] }
    mt := { web.mt with last := none }
    knives := (bankA.knives.map (fun k => knifeAt .inPosition k)) ++
      List.replicate 18 { knifeAt .parked 0 with target := some .park, reportedParked := true } }

theorem ready_knives : KnivesReady bankA ready := by
  intro j c h
  have : ∀ j : Fin 25, ∀ c, ready.knives[j.val]? = some c →
      (j.val ≤ 6 → c.state = .inPosition ∧ c.target = some (wantedOf bankA j.val)) ∧ (6 < j.val → c.state = .parked) := by
    intro j
    have hj : ∀ j : Fin 25, (ready.knives[j.val]?).all (fun c => (decide (j.val ≤ 6 → c.state = .inPosition ∧
      c.target = some (wantedOf bankA j.val))) && decide (6 < j.val → c.state = .parked)) = true := by decide +kernel
    intro c hc
    have := hj j
    rw [hc] at this
    simp only [Option.all_some, Bool.and_eq_true, decide_eq_true_eq] at this
    exact this
  have hj : j < 25 := by
    have := (List.getElem?_eq_some_iff.mp h).1
    simpa [ready, bankA] using this
  have := this ⟨j, hj⟩ c h
  split
  · rename_i h6; exact this.1 h6
  · rename_i h6; exact this.2 (by simpa [bankA] using h6)

/-- A gate that holds, in THREAD, with K_cut counted already; and more repeats left than N_app (R143 to R146). -/
theorem witness_GateOpensTheSet :
    ready.machine = some machineTable ∧ ready.lpt.active = some bankA ∧ ready.ms.current = some header ∧ ready.sc.state = .preparing ∧
      ready.ss.state = .idle ∧ ready.ss.cutHeld = false ∧ ready.fq.lawful ∧ bankA.lanes.length = bankA.n ∧ KnivesReady bankA ready ∧
      SlotsReady bankA ready ∧ HeadersReady bankA ready ∧ (bankA.nApp : Int) < bankA.nSet ∧
      ready.sc.counted = [] ++ { k := 400, u := 3533000 } :: [] ∧ NoneDue machineTable ready.pu.u (entry 1 3529001 0 0 false []) ∧
      (3529000 : Int) = ready.pu.u - machineTable.dKn := by
  refine ⟨rfl, rfl, rfl, rfl, rfl, rfl, by unfold FeatureQueue.lawful; decide +kernel, rfl, ready_knives, ?_, ?_, by decide, rfl, ?_, by decide⟩
  · unfold SlotsReady; decide +kernel
  · unfold HeadersReady; decide +kernel
  · unfold NoneDue; decide +kernel

/-- Knife 24 in FAULT holds the gate, and the notice names it (R144). -/
theorem witness_GateHeldIsAnnounced :
    let s : State := withKnife 24 (knifeAt .fault 0) { ready with nq := { web.nq with inFlight := some (notice .setReady) } }
    let applies : HeldReason → Bool := fun r => r == .knifeFault
    let value : HeldReason → Nat := fun r => match r with | .knifeFault => 24 | .recordSlots => 2048 | .recordHeaders => 96
    s.sc.state = .preparing ∧ ¬ KnivesReady bankA s ∧ (applies .knifeFault = true ↔ ∃ c ∈ s.knives, c.state = .fault) ∧
      (∀ j : Fin 25, (s.knives[j.val]?).any (fun c => decide (c.state = .fault)) = true → value .knifeFault = j.val) ∧
      (applies .recordSlots = true ↔ ¬ SlotsReady bankA s) ∧ value .recordSlots = 2048 - slotsHeld s.rs ∧
      (applies .recordHeaders = true ↔ ¬ HeadersReady bankA s) ∧
      value .recordHeaders = (s.rs.headers.filter (fun h => h == none)).length ∧ NoticesWait s := by
  refine ⟨rfl, fun h => ?_, by decide +kernel, by decide +kernel, ?_, by decide +kernel, ?_, by decide +kernel, ?_⟩
  · have := h 24 (knifeAt .fault 0) (by decide +kernel)
    revert this; decide
  · unfold SlotsReady; decide +kernel
  · unfold HeadersReady; decide +kernel
  · unfold NoticesWait; decide +kernel

theorem witness_RollStartSetsTheBlocks_requests : loaded.ll.count .blockRequest = 0 ∧ machineTable.p ≤ 7 ∧ 1 ≤ bankA.nSet ∧
    loaded.knives[24]? = some KnifeChannel.init ∧ firstRequests machineTable header = [1562, 1561, 1560] := by decide +kernel

/-- The gate at ROLL_START: every knife in place opens the roll's first set at the knife line, with K_base 0 (R153); knife 24 in FAULT
holds it, with no place in the web (R144, R156). -/
theorem witness_RollStartSetsTheBlocks_gate :
    (match exec (.rollStart (rx 6) []) { loaded with knives := ready.knives } with
      | .next x => decide (x.sc = { noneOpened .running 1 (some .thread) with
          pStart := some (-4000), kBase := some 0, kCut := some bankA.nSet })
      | _ => false) = true ∧
    (match exec (.rollStart (rx 6) []) { loaded with knives := ready.knives.set 24 (knifeAt .fault 0) } with
      | .next x => decide (x.sc = { noneOpened .preparing 1 (some .thread) with held := [.knifeFault] })
      | _ => false) = true := by decide +kernel

/-- The tables of R139 and R156 at ROLL_END. -/
theorem test_roll_end_values :
    (match exec (.rollEnd (rx 6) []) { halted with ss := { halted.ss with state := .requested } } with
      | .next x => decide (x.sc = noneOpened .noSet 2 none ∧ x.ss = noStop halted.ss.dS)
      | _ => false) = true := by decide +kernel

theorem gross_is (s : State) (h : ∀ i, removedOf s i = 0) (g : Nat) : GrossIs g s g :=
  ⟨Int.le_refl _, fun i => by rw [h]; exact Nat.zero_le _, fun y hy _ => by omega⟩

theorem none_removed (s : State) (h : s.sc.removed = List.replicate 24 0) (i : Nat) : removedOf s i = 0 := by
  unfold removedOf
  rw [h, List.getElem?_replicate]
  split <;> rfl

/-- Open records of every lane as the roll ends in RUNNING and in CHANGING, and as the set is doffed; the gross lengths of 11.3 and
8.9 (R152, R154). -/
theorem witness_SetClosed :
    (∀ i, i < bankA.n → ∃ r, OpenAt (recording halted).rs i i r) ∧ (∀ i, i < bankA.n → ∃ r, OpenAt (recording changing).rs i i r) ∧
      Asked (recording halted) (rx 6) ∧ Asked (recording changing) (rx 6) ∧ linked (recording changing) = true ∧
      halted.sc.state.open = true ∧ GrossIs (halted.pu.u - machineTable.dNip - 8000) halted 709690 ∧
      GrossIs ((1453370 : Int) - 8000) changing 1445370 ∧ changing.sc.frozenCut = some 1453370 ∧ changing.sc.kCut = some 403 ∧
      changing.sc.kBase = some 0 ∧ changing.sc.pStart = some 8000 ∧ ready.sc.state = .preparing := by
  refine ⟨fun i h => ⟨_, open_at _ i h⟩, fun i h => ⟨_, open_at _ i h⟩, asked_of (addressed_of (by decide +kernel)) (by decide +kernel)
      (by decide +kernel), asked_of (addressed_of (by decide +kernel)) (by decide +kernel) (by decide +kernel), by decide +kernel, rfl,
    gross_is halted (none_removed _ rfl) 709690, gross_is changing (none_removed _ rfl) 1445370, rfl, rfl, rfl, rfl, rfl⟩

/-- P_cut frozen, counted, predicted and none (R146). -/
theorem witness_CutPosition : changing.sc.frozenCut = some 1453370 ∧ web.sc.frozenCut = none ∧ ready.sc.kCut = none ∧
    web.sc.kCut = some 1300 ∧ web.mt.last = some { k := 979, u := 3529515 } ∧ web.sc.cutMark = none ∧
    ({ web.sc with cutMark := some 1453270 } : SetController).cutMark = some 1453270 := ⟨rfl, rfl, rfl, rfl, rfl, rfl, rfl⟩

/-- 321 repeats remain of `web`; with the last mark moved on N_app, one and none; and a cut that is near (R148, R149). -/
theorem witness_ApproachAndHandOver :
    let at_ := fun k : Nat => ({ web with mt := { web.mt with last := some { k := k, u := 3529515 } } } : State)
    RemainingIs bankA web 321 ∧ RemainingIs bankA (at_ 1288) 12 ∧ RemainingIs bankA (at_ 1299) 1 ∧ RemainingIs bankA (at_ 1300) 0 ∧
      ¬ CutNear machineTable web ∧ CutNear machineTable (at_ 1300) ∧ web.sc.state = .running := by
  refine ⟨⟨_, rfl, by decide +kernel⟩, ⟨_, rfl, by decide +kernel⟩, ⟨_, rfl, by decide +kernel⟩, ⟨_, rfl, by decide +kernel⟩, ?_,
    ⟨3529615, by decide +kernel, by decide +kernel⟩, rfl⟩
  rintro ⟨c, h, hc⟩
  have : web.pCut = some 4686820 := by decide +kernel
  rw [this] at h; cases h; revert hc; decide +kernel

/-- 11.7: the cut stop comes to rest 20 past its target. -/
theorem witness_CutIsMade :
    let s : State := { changing with
      sc := { changing.sc with state := .cutStop, frozenCut := none, cutMark := some 1453270 }
      ss := { web.ss with state := .requested, kind := some .cut, aim := some .cut, uT := some 1491370, cutHeld := true } }
    s.ss.uT = some 1491370 ∧ s.ss.kind = some .cut ∧ s.lpt.active = some bankA ∧ s.pCut = some 1453370 ∧
      (s.pu.u - 1491370).natAbs ≤ machineTable.tPos := by decide +kernel

/-! ### The review's repairs -/

/-- R14, R19: a web that runs back under a late first mark synthesizes nothing. -/
theorem test_reverse_frame_synthesizes_nothing :
    let s : State := { web with pu := { web.pu with u := 3534000, acc := 0 } }
    (after (.countFrame (rx 2) 999996 1000) s).mt = s.mt ∧ (after (.countFrame (rx 2) 1000004 1000) s).mt.last = some { k := 980, u := 3533120 } := by
  decide +kernel

/-- R127, R150: a cut that DOFF_NOW brings below an outstanding defect stop supersedes it, and the served entry is released. -/
theorem test_nearer_cut_supersedes :
    let s : State := { ordered 1532000 with
      fq := { fast.fq with settled := [ahead 61 1500000 true] }, sc := { fast.sc with state := .running } }
    let t := after (.doffNow (rx 6) []) s
    (t.ss.kind, t.ss.pW, t.fq.servedCount, t.sc.state) = (some .cut, none, 0, .cutStop) ∧ t.ss.uT.any (fun u => u < 1532000) := by
  decide +kernel

/-- A line so short that one frame carries the web from the mark sensor to the nip. -/
def shortLine : MachineTable := { machineTable with dKn := 100, dSt := 200, dFl := 300, dNip := 400 }

/-- An entry of lane 0 whose nip alone is still to be taken. -/
def atNip (num : Nat) (p : Int) : Settled :=
  { entry num p 1000 1200 true [item 0 .log] with feat := { (entry num p 1000 1200 false []).feat with kind := .splice }
                                                  table := true, flag := true }

/-- Two entries before the nip, and between them one that is to settle on mark 980 at 3,533,120. -/
def shortRun : State :=
  { recording web with
    machine := some shortLine
    fq := { web.fq with
      settled := [atNip 1 3533050, atNip 2 3533200]
      forecast := [{ feat := { (entry 3 0 0 0 false []).feat with kind := .splice, origin := .map, slit := none
                                                                  press := some { x0 := 10000, x1 := 10200 } }, k := 980, off := 0 }] } }

/-- R8, R116: a frame that supplies mark 980 and carries all three past the nip writes their events in ascending position. -/
theorem test_one_frame_writes_in_web_order :
    let t := after (.countFrame (rx 2) 1004000 1000) shortRun
    t.pu.u = 3534000 ∧ t.mt.last = some { k := 980, u := 3533120 } ∧ t.fq.settled = [] ∧
      (t.rs.headers.head?.join.map (fun r => r.events.map (·.gross))) = some [3525050, 3525120, 3525200] := by decide +kernel

/-- Three entries at the nip, of which the middle one is looked at; a web that has just brought the highest there (R116). -/
theorem witness_JoinsKeepTheWebOrder :
    let s : State := { shortRun with
      pu := { shortRun.pu with u := 3533600 }
      fq := { shortRun.fq with settled := [atNip 1 3533050, atNip 4 3533120, atNip 2 3533200] } }
    s.machine = some shortLine ∧ s.fq.lawful ∧
      s.fq.settled = [] ++ atNip 1 3533050 :: [] ++ atNip 4 3533120 :: [] ++ atNip 2 3533200 :: [] ∧
      NipDue shortLine s.pu.u (atNip 1 3533050) ∧ NipDue shortLine s.pu.u (atNip 4 3533120) ∧
      NipDue shortLine s.pu.u (atNip 2 3533200) ∧ ¬ NipDue shortLine s.pu.u (atNip 2 3533201) := by
  refine ⟨rfl, by unfold FeatureQueue.lawful; decide +kernel, rfl, ?_, ?_, ?_, ?_⟩ <;> (unfold NipDue; decide +kernel)

/-- A set in CUT_STOP before mark K_cut, with P_cut 3,533,220 for mark 980 and 3,536,825 for mark 981, and these entries. -/
def beforeCut (k : Nat) (l : List Settled) : State :=
  { shortRun with
    pu := { shortRun.pu with u := 3533700 }
    sc := { shortRun.sc with state := .cutStop, kCut := some k, xFrozen := true }
    fq := { shortRun.fq with settled := l, forecast := [] } }

/-- R98, R113: an entry at the nip is judged again as another joins with its knife station due, and as another's served mark clears: it is
held beyond the cut, and gone where P_cut has come to lie above it. -/
theorem test_held_entry_is_judged_again :
    let y := atNip 1 3533250
    let e := entry 2 3533550 1000 1200 false []
    let served : Settled := { entry 2 3533650 1000 1200 false [] with feat := { e.feat with served := true } }
    let left := fun s : State => s.fq.settled.map (·.feat.num)
    left (joinJudged false e (beforeCut 980 [y])) = [1, 2] ∧ left (joinJudged false e (beforeCut 981 [y])) = [2] ∧
      left (clearServed 2 (beforeCut 980 [y, served])) = [1, 2] ∧ left (clearServed 2 (beforeCut 981 [y, served])) = [2] := by
  decide +kernel

/-- An entry at the nip below one whose knife station is due, either first in the order of R99, and below a served one. -/
theorem witness_HeldEntriesAreJudgedAgain :
    let y := atNip 1 3533250
    let served : Settled := { entry 2 3533650 1000 1200 false [] with feat := { (entry 2 0 1000 1200 false []).feat with served := true } }
    NipDue shortLine 3533700 y ∧ KnifeDue shortLine 3533700 (entry 2 3533550 1000 1200 false []) ∧
      KnifeDue shortLine 3533700 (entry 2 3533549 1000 1200 false []) ∧ y.p + shortLine.dNip ≤ 3533550 + shortLine.dKn ∧
      (3533549 : Int) + shortLine.dKn < y.p + shortLine.dNip ∧ NoneDue shortLine 3533700 served ∧
      (beforeCut 981 [y, served]).fq.lawful ∧ (beforeCut 981 [y, entry 2 3533550 1000 1200 false []]).fq.lawful ∧
      NoNipDue shortLine (beforeCut 980 [y, served]) := by
  have h : (beforeCut 980 [atNip 1 3533250]).pCut = some 3533220 := by decide +kernel
  refine ⟨by unfold NipDue; decide +kernel, by unfold KnifeDue; decide +kernel, by unfold KnifeDue; decide +kernel, by decide, by decide,
    by unfold NoneDue; decide +kernel, by unfold FeatureQueue.lawful; decide +kernel, by unfold FeatureQueue.lawful; decide +kernel, ?_⟩
  intro e he
  rcases List.mem_cons.1 he with rfl | he
  · exact .inr (.inr ⟨rfl, rfl, .inl rfl, _, h, by decide⟩)
  · rw [List.mem_singleton.1 he]; exact .inr (.inl (by decide))

/-- An entry that joins between two, and one that settles, with the tracking state not doubtful. -/
theorem witness_JoinsAreJudgedAtOnce :
    shortRun.fq.lawful ∧ (atNip 4 3533100).feat.suspect = false ∧ shortRun.ms.paused = false ∧ shortLine.pLo ≤ shortRun.fq.free - 1 ∧
      (shortRun.fq.findForecast 3).isSome = true ∧ ¬ Doubtful shortRun.mt.state ∧
      (∀ e ∈ shortRun.fq.settled, NoneDue shortLine 3533449 e) := by
  refine ⟨by unfold FeatureQueue.lawful; decide +kernel, rfl, rfl, by decide +kernel, by decide +kernel, ?_, by unfold NoneDue; decide +kernel⟩
  unfold Doubtful; decide +kernel

/-- R126: a cut that moves down by T_pos leaves its order as it is. -/
theorem test_cut_does_not_supersede_itself :
    let s : State := { fast with ss := { fast.ss with state := .requested, kind := some .cut, aim := some .cut, uT := some 1514910
                                                      cutHeld := true } }
    (look s).ss.uT = some 1514910 ∧ (look s).ll.own = [] := by decide +kernel

/-- R146: a mark K_cut counted before its set opens gives P_cut at once, and it stands. -/
theorem test_counted_cut_mark_is_known : (judgeGate ready).sc.cutMark = some 3533000 ∧ (judgeGate ready).sc.kCut = some 400 := by
  decide +kernel

/-! ### Fields that fail, looks in a walk, and the make-up (R21, R23, R68, R69, R121, R134, R147, R170, R181) -/

/-- A record flow frame with byte 2 (R170). -/
theorem witness_UnfitFrameIsRefused_range : Addressed web (headerOf .a (raw 8 1 0x22 1 [2])) ∧ (raw 8 1 0x22 1 [2]).len.toNat = 1 ∧
    (raw 8 1 0x22 1 [2]).rest[0]? = some 2 ∧ 1 < (2 : Byte).toNat ∧ web.peers = some peerTable ∧
    (raw 8 1 0x22 1 [2]).src.toNat = peerTable.recordReceiver :=
  ⟨addressed_of (by decide +kernel), rfl, rfl, by decide, rfl, by decide⟩

/-- A repeat one beyond its range before a mirror that names nothing, and F at N_T (R23). -/
theorem witness_RollHeaderIsLoaded_fails : FirstFails (HeaderFieldPasses [777, 50000, 20001, 1, 2, 12400, 0, 0]) 3 ∧
    FirstFails (HeaderFieldPasses [777, 50000, 20000, 1, 1, 30000, 50000, 0]) 7 := by
  refine ⟨⟨?_, fun i hi => ?_⟩, ⟨?_, fun i hi => ?_⟩⟩
  · unfold HeaderFieldPasses; decide +kernel
  · interval_cases i <;> (unfold HeaderFieldPasses; decide +kernel)
  · unfold HeaderFieldPasses; decide +kernel
  · interval_cases i <;> (unfold HeaderFieldPasses; decide +kernel)

/-- Press marks at N_T, and such that F would be N_T (R21); with F at N_T - 1 the command is taken. -/
theorem witness_MarkResyncSetsF_invalid : header.nT ≤ (50000 : Word).toNat ∧ header.reversed = true ∧
    (header.nT : Int) ≤ ((49021 : Word).toNat : Int) + 979 ∧ ((49020 : Word).toNat : Int) + 979 < header.nT ∧
    ([0, 0, 0] : List Byte).length ≠ 4 := by decide

/-- The refused bank of 4.1: six lanes, knife 5 only 120 dmm beyond knife 4; its lane fields are not reached. -/
def narrowBank : List Word := [111, 6, 400, 12, 3700, 1, 4, 800, 2600, 4400, 6200, 8000, 8120, 11600] ++ List.replicate 108 1

theorem witness_BankLoadReplacesTheBank_fails : FirstFails (BankFieldPasses narrowBank) 14 ∧
    FirstFails (BankFieldPasses [111, 25]) 3 ∧ (([0, 0, 0, 0, 0] : List Byte).length % 4 ≠ 0) ∧ 1 < (2 : Word).toNat := by
  have h6 : wordAt narrowBank 1 = 6 := by decide +kernel
  refine ⟨⟨fun h => absurd (h.2.2.2.2.2.2.1 (by decide) (by decide)) (by decide +kernel), fun i hi => ?_⟩,
    ⟨fun h => absurd (h.1 rfl) (by decide +kernel), fun i hi => ?_⟩, by decide, by decide⟩
  · refine ⟨?_, ?_, ?_, ?_, ?_, ?_, ?_, fun j c hj hc h => ?_, fun j hj h => ?_⟩
    · interval_cases i <;> decide +kernel
    · interval_cases i <;> decide +kernel
    · interval_cases i <;> decide +kernel
    · interval_cases i <;> decide +kernel
    · interval_cases i <;> decide +kernel
    · interval_cases i <;> decide +kernel
    · interval_cases i <;> decide +kernel
    · simp only [h6] at h; omega
    · simp only [h6] at h; omega
  · refine ⟨by omega, by omega, by omega, by omega, by omega, by omega, by omega, fun j c hj hc h => ?_, fun j hj h => ?_⟩
    · omega
    · omega

/-- A lane at n, a lane named twice, an amount one beyond its bound, and a count without its pairs (R134). -/
theorem witness_RemovalReportEndsTheStop_fails : FirstFails (PairFieldPasses bankA.n 1 [(6, 5)]) 2 ∧
    FirstFails (PairFieldPasses bankA.n 1 [(5, 100001)]) 3 ∧ FirstFails (PairFieldPasses bankA.n 2 [(3, 100000), (3, 1)]) 4 ∧
    FirstFails (PairFieldPasses bankA.n 1 []) 1 ∧ ([] : List Byte).length % 5 ≠ 1 := by
  refine ⟨⟨fun h => absurd ((h.2 [] _ [] rfl).1 rfl).1 (by decide), fun i hi => ⟨fun _ => by decide +kernel, fun pre x post h => ?_⟩⟩,
    ⟨fun h => absurd ((h.2 [] _ [] rfl).2 rfl) (by decide +kernel), fun i hi => ⟨fun _ => by decide +kernel, fun pre x post h => ?_⟩⟩,
    ⟨fun h => ((h.2 [(3, 100000)] (3, 1) [] rfl).1 rfl).2 (3, 100000) (by simp) rfl, fun i hi => ⟨fun _ => by decide +kernel, fun pre x post h => ?_⟩⟩,
    ⟨fun h => absurd (h.1 rfl).2 (by decide), fun i hi => ⟨fun e => by omega, fun pre x post h => by simp at h⟩⟩, by decide⟩
  · exact ⟨fun e => by omega, fun e => by omega⟩
  · rcases pre with _ | ⟨y, pre⟩
    · cases h; exact ⟨fun _ => ⟨by decide, nofun⟩, fun e => by simp at e; omega⟩
    · exact ⟨fun e => by simp at e; omega, fun e => by simp at e; omega⟩
  · rcases pre with _ | ⟨y, pre⟩
    · cases h; exact ⟨fun _ => ⟨by decide, nofun⟩, fun _ => by decide +kernel⟩
    · exact ⟨fun e => by simp at e; omega, fun e => by simp at e; omega⟩

/-- The words of the machine table of 11.1. -/
def tableWords : List Word := [40000, 65535, 10, 1500, 4000, 32000, 36000, 38000, 50, 2500, 5000, 50, 2000, 2000, 300, 40, 20, 1000, 256,
  3, 64, 192, 2000, 1, 20, 9]

/-- PPM one below its range, D_kn at D_cam, P_lo absent with P_hi at P_lo's default, and the flag station the part's own (R181). -/
theorem witness_MachineTableIsLoaded_fails : FirstFails (MachineFieldPasses 1 (tableWords.set 0 1999)) 1 ∧
    FirstFails (MachineFieldPasses 1 (tableWords.set 4 1500)) 5 ∧
    FirstFails (MachineFieldPasses 1 ((tableWords.set 20 0xFFFFFFFF).set 21 64)) 22 ∧
    FirstFails (MachineFieldPasses 1 (tableWords.set 25 1)) 26 ∧ ([] : List Byte).length ≠ 104 := by
  refine ⟨⟨?_, fun i hi => ?_⟩, ⟨?_, fun i hi => ?_⟩, ⟨?_, fun i hi => ?_⟩, ⟨?_, fun i hi => ?_⟩, by decide⟩
  · unfold MachineFieldPasses; decide +kernel
  · interval_cases i; unfold MachineFieldPasses; decide +kernel
  · unfold MachineFieldPasses; decide +kernel
  · interval_cases i <;> (unfold MachineFieldPasses; decide +kernel)
  · unfold MachineFieldPasses; decide +kernel
  · interval_cases i <;> (unfold MachineFieldPasses; decide +kernel)
  · unfold MachineFieldPasses; decide +kernel
  · interval_cases i <;> (unfold MachineFieldPasses; decide +kernel)

/-- Entries at the knife line and one dmm ahead of it (R98, R121): none due, one, and two. -/
theorem witness_KnifeStationsLook :
    NoneDue machineTable fast.pu.u (ahead 61 997521 false) ∧ KnifeDue machineTable fast.pu.u (ahead 61 997520 false) ∧
      (holding [ahead 61 997520 false]).fq.lawful ∧ (holding [ahead 60 997510 false, ahead 61 997520 false]).fq.lawful ∧
      (∀ x ∈ (look (takeKnife (ahead 60 997510 false) (holding [ahead 60 997510 false, ahead 61 997520 false]))).fq.settled,
        x.feat.num = 61 → x.knife = false) := by
  refine ⟨by unfold NoneDue; decide +kernel, by unfold KnifeDue; decide +kernel, one_lawful 61 (by decide) 997520 false, ?_, by decide +kernel⟩
  unfold FeatureQueue.lawful; decide +kernel

/-- 11.3's report, under MAKE_UP with X not frozen: 3,600 dmm removed make one repeat of X and 3,601 two. -/
theorem witness_RemovalReportEndsTheStop_makeUp : halted.ms.current = some header ∧ 0 < header.rNom ∧ halted.sc.kBase = some 0 ∧
    bankA.makeUp = true ∧ halted.sc.xFrozen = false ∧
    MadeUp bankA header 0 (after (.removalReport (rx 6) (removalBytes [(2, 3600)])) halted) ∧
    MadeUp bankA header 0 (after (.removalReport (rx 6) (removalBytes [(2, 3601)])) halted) := by
  have one (a r : Nat) (x : State) (h1 : x.sc.removed = (List.replicate 24 0).set 2 a) (h2 : a ≤ r * header.rNom)
      (h3 : r * header.rNom < a + header.rNom) (h4 : x.sc.x = min bankA.xMax r) (h5 : x.sc.kCut = some (0 + bankA.nSet + x.sc.x))
      (h6 : x.sc.cutMark = none) : MadeUp bankA header 0 x := by
    refine ⟨a, r, fun i hi => ?_, .inr ⟨2, by decide, by simp [removedOf, h1]⟩, h2, h3, h4, h5, fun _ => h6⟩
    have : i < 6 := hi
    unfold removedOf; rw [h1]
    interval_cases i <;> simp
  refine ⟨rfl, by decide, rfl, rfl, rfl, ?_, ?_⟩
  · exact one 3600 1 _ (by decide +kernel) (by decide) (by decide) (by decide +kernel) (by decide +kernel) (by decide +kernel)
  · exact one 3601 2 _ (by decide +kernel) (by decide) (by decide) (by decide +kernel) (by decide +kernel) (by decide +kernel)

/-- R121, R125 to R128: two served entries lose their STOP lanes in one frame. The look at the first knife station drops the aimed one
and orders the stop anew for the other; the look at the second cancels it. -/
theorem test_each_knife_station_looks :
    let s : State := holding [ahead 60 997520 true, ahead 61 997720 true]
    let t := after (.countFrame (rx 2) 5007080 1000)
      { s with
        lpt := { s.lpt with active := some { bankA with lanes := List.replicate 6 { lane 150 with actions := List.replicate 16 .log } } }
        ss := { s.ss with state := .requested, kind := some .defect, aim := some (.entry 60), uT := some 1029520, pW := some 997520 }
        sc := { s.sc with kCut := some 500 } }
    t.ss.state = .idle ∧ orders t = [.stop .defect 1029720 false 0, .cancel] := by decide +kernel

end Sys2Proof.Tests
end

section
/-! PROOFS. The Map Store's law (R32): power-on values meet it, and every command keeps it. -/

namespace Sys2Proof.RollMap

open Sys2Proof Sys2Proof.Machine Sys2Proof.Claims

/-- The empty block store of power-on is lawful (R42). -/
theorem init_lawful : MapStore.init.lawful := by
  have none_valid : ∀ (i : Nat) (x : Block), MapStore.init.slots[i]? ≠ some (some x) := by
    intro i x hx
    have hmem : some x ∈ List.replicate 16 none := List.mem_of_getElem? hx
    exact absurd (List.eq_of_mem_replicate hmem) (by simp)
  refine ⟨rfl, rfl, List.nodup_nil, by decide, ?_, ?_, ?_⟩
  · exact fun i x hx => absurd hx (none_valid i x)
  · exact fun i _ x _ hx => absurd hx (none_valid i x)
  · exact fun i x hx => absurd hx (none_valid i x)

/-- What a command leaves keeps the Map Store's law where the state before the end of its event does (R187). -/
theorem done_keeps_map {s x t : State} (hx : s.ms.lawful → x.ms.lawful) (h : done x = .next t) :
    s.ms.lawful → t.ms.lawful := by
  have ht : endEvent x = t := Host.Outcome.next.inj h
  exact ht ▸ (kept_endEvent x).map ∘ hx

/-- A frame that arrives keeps the Map Store's law (R174). -/
theorem arrive_keeps_map {rx : Rx} {p : Payload} {s t : State} (h : done (arrive rx p s) = .next t) :
    s.ms.lawful → t.ms.lawful :=
  done_keeps_map (laws_receive ..).map h

/-- A RESET that takes effect leaves the store as it was or empty (R184). -/
theorem takeReset_keeps_map (straps : BitVec 6) (s : State) : s.ms.lawful → (takeReset straps s).ms.lawful := by
  unfold takeReset
  split
  · exact fun _ => init_lawful
  · exact id

/-- Every command keeps the Map Store's law (R32). -/
theorem exec_keeps_map (c : Instr) {s t : State} (h : exec c s = .next t) : s.ms.lawful → t.ms.lawful := by
  cases c with
  | powerOn straps => exact done_keeps_map (fun _ => init_lawful) h
  | portLinkChange port up => exact done_keeps_map (laws_changeLink port up s).map h
  | portIdle port => exact done_keeps_map (laws_idlePort port s).map h
  | silenceTimerExpiry => exact done_keeps_map (keeps_expireSilence s).map h
  | confirmTimerExpiry knife => exact done_keeps_map (keeps_expireConfirm knife s).map h
  | reelRecordSent => exact done_keeps_map (laws_reportRecord s).map h
  | noticeSent => exact done_keeps_map (laws_reportNotice s).map h
  | resetTakesEffect straps => exact done_keeps_map (takeReset_keeps_map straps s) h
  | passingFrame port f =>
    cases f with
    | foreign ethertype payload => exact done_keeps_map (keeps_forward ..).map h
    | line l => exact done_keeps_map (laws_receive ..).map h
  | countFrame | markFrame | sightingFrame | knifeReport | mapBlock | recordHold | recordRelease | readStatus | readTable
  | loadMachine | loadPeers | loadBankActive | loadBankPending | cancelPending | loadRollHeader | setLateralOffset | reset
  | unknownRequest | rollStart | rollEnd | markResync | doffNow | doffComplete | removalReport | resume | knifeRetry =>
    exact arrive_keeps_map h

/-- Settles O10: the command at the front keeps the law on the state with the queue's rest, whose Map Store is the same; an idle
step keeps the state. -/
theorem stepsKeepMapStoreLaw : Obligations.StepsKeepMapStoreLaw := by
  intro s t hs h
  unfold step at h
  split at h
  · have ht : s = t := Host.Outcome.next.inj h
    exact ht ▸ hs
  · exact exec_keeps_map _ h hs

end Sys2Proof.RollMap
end

section
/-! PROOFS. The mark of a press repeat (2.3), and the header request (R23). -/

namespace Sys2Proof.RollMap

open Sys2Proof Sys2Proof.Machine Sys2Proof.Claims Sys2Proof.Laws

/-! ### Marks and press repeats (R28, R29) -/

/-- Slitter mark j has press repeat r exactly when r lies in the roll and its anchor has slitter index j. -/
theorem pressRepeat_eq_some_iff (h : Header) (j r : Nat) :
    h.pressRepeat j = some r ↔ r < h.nT ∧ (j : Int) = h.slitterIndex (h.anchorMark r) := by
  have hrep : h.pressRepeat j = some r ↔ h.repeatOf j = r ∧ r < h.nT := by
    unfold Header.pressRepeat
    split
    · rw [Option.some.injEq]; omega
    · simp only [reduceCtorEq, false_iff]; omega
  rw [hrep]
  unfold Header.repeatOf Header.slitterIndex Header.anchorMark
  cases h.reversed <;> simp <;> omega

/-- Settles O31: both directions read the one equivalence of marks and repeats. -/
theorem anchorMeetsItsPressRepeat : Obligations.AnchorMeetsItsPressRepeat := by
  intro h r hr hidx
  refine ⟨(pressRepeat_eq_some_iff h _ r).2 ⟨hr, Int.toNat_of_nonneg hidx⟩, fun j hj => ?_⟩
  exact ((pressRepeat_eq_some_iff h j r).1 hj).2

/-! ### LOAD_ROLL_HEADER (R23, R180) -/

/-- A header's word that spells a yes or no reads back. -/
theorem wBool_eq_one (b : Bool) : decide (wBool b = 1) = b := by cases b <;> decide

/-- A yes or no is coded 0 or 1. -/
theorem within_wBool (b : Bool) : within 0 1 (wBool b).toNat = true := by cases b <;> decide

/-- A signed 32-bit value reads back from its word. -/
theorem wInt_toInt {i : Int} (h1 : -2 ^ 31 ≤ i) (h2 : i < 2 ^ 31) : (wInt i).toInt = i := by
  unfold wInt
  rw [BitVec.toInt_ofInt]
  exact Int.bmod_eq_of_le (by omega) (by omega)

/-- The lateral offset of a header's word is stored clamped (R23, R24). -/
theorem lateral_wInt {i : Int} (h1 : -2 ^ 31 ≤ i) (h2 : i < 2 ^ 31) : lateral (wInt i) = storedLateral i := by
  unfold lateral storedLateral clamp
  rw [wInt_toInt h1 h2]

/-- The words of a body are a quarter of its bytes. -/
theorem length_of_wordsOf : ∀ {body : List Byte} {ws : List Word}, wordsOf body = some ws → body.length = 4 * ws.length
  | [], ws, h => by cases h; rfl
  | b3 :: b2 :: b1 :: b0 :: rest, ws, h => by
    simp only [wordsOf, Option.map_eq_some_iff] at h
    obtain ⟨l, hl, rfl⟩ := h
    have := length_of_wordsOf hl
    simp only [List.length_cons]
    omega
  | [_], _, h => by cases h
  | [_, _], _, h => by cases h
  | [_, _, _], _, h => by cases h

/-- The header that eight bytes spell whose fields are in range is that header, its L clamped (R23). -/
theorem headerIn_headerBytes {h : Header} (hT1 : 1 ≤ h.nT) (hT2 : h.nT ≤ 2000000) (hR1 : 500 ≤ h.rNom) (hR2 : h.rNom ≤ 20000)
    (hW1 : 1000 ≤ h.w) (hW2 : h.w ≤ 30000) (hF : h.f < h.nT) (hL1 : -2 ^ 31 ≤ h.l) (hL2 : h.l < 2 ^ 31) :
    headerIn (headerBytes h) = .ok { h with l := storedLateral h.l } := by
  have hpass : firstFailing [(2, within 1 2000000 h.nT), (3, within 500 20000 h.rNom), (4, within 0 1 (wBool h.reversed).toNat),
      (5, within 0 1 (wBool h.mirror).toNat), (6, within 1000 30000 h.w), (7, decide (h.f < h.nT))] = none := by
    rw [firstFailing_none]
    have hrange : within 1 2000000 h.nT ∧ within 500 20000 h.rNom ∧ within 1000 30000 h.w := by
      simp [within, hT1, hT2, hR1, hR2, hW1, hW2]
    obtain ⟨hT, hR, hW⟩ := hrange
    simp [within_wBool, hT, hR, hW, hF]
  unfold headerIn headerBytes
  rw [wordsOf_wordBytes]
  dsimp only
  rw [wNat_toNat h.nT (by omega), wNat_toNat h.rNom (by omega), wNat_toNat h.w (by omega), wNat_toNat h.f (by omega), hpass]
  simp only [wBool_eq_one, lateral_wInt hL1 hL2]

/-- A body that is no eight words names field 0 (R180). -/
theorem headerIn_of_length_ne {body : List Byte} (hb : body.length ≠ 32) : headerIn body = .error 0 := by
  unfold headerIn
  split
  · rename_i hw
    exact absurd (length_of_wordsOf hw) hb
  · rfl

/-- The fields of eight header words with their tests, in ascending field number (R23). -/
def headerTests (ws : List Word) : List (Nat × Bool) :=
  [(2, within 1 2000000 (wordAt ws 1)), (3, within 500 20000 (wordAt ws 2)), (4, within 0 1 (wordAt ws 3)),
    (5, within 0 1 (wordAt ws 4)), (6, within 1000 30000 (wordAt ws 5)), (7, decide (wordAt ws 6 < wordAt ws 1))]

/-- Eight words of which a test fails name its field (R23). -/
theorem headerIn_of_fails {ws : List Word} {n : Nat} (hl : ws.length = 8) (hf : firstFailing (headerTests ws) = some n) :
    headerIn (ws.flatMap wordBytes) = .error n := by
  unfold headerIn
  rw [wordsOf_wordBytes]
  match ws, hl with
  | [w0, w1, w2, w3, w4, w5, w6, w7], _ =>
    dsimp only
    split
    · rename_i hm
      rw [Option.some.inj (hm.symm.trans hf)]
    · rename_i hm
      exact absurd (hm.symm.trans hf) (by simp)

/-- A field passes exactly when no test of its number fails (R23). -/
theorem headerFieldPasses_iff (ws : List Word) (n : Nat) :
    HeaderFieldPasses ws n ↔ ∀ x ∈ headerTests ws, x.1 = n → x.2 = true := by
  simp only [HeaderFieldPasses, headerTests, List.mem_cons, List.not_mem_nil, or_false, forall_eq_or_imp, forall_eq, within,
    Bool.and_eq_true, decide_eq_true_eq]
  constructor
  · rintro ⟨hT, hR, hflag, hW, hF⟩
    refine ⟨?_, ?_, ?_, ?_, ?_, ?_⟩ <;> rintro rfl
    · exact hT rfl
    · exact hR rfl
    · exact ⟨Nat.zero_le _, hflag (.inl rfl)⟩
    · exact ⟨Nat.zero_le _, hflag (.inr rfl)⟩
    · exact hW rfl
    · exact hF rfl
  · rintro ⟨hT, hR, hdir, hmir, hW, hF⟩
    refine ⟨?_, ?_, ?_, ?_, ?_⟩
    · rintro rfl; exact hT rfl
    · rintro rfl; exact hR rfl
    · rintro (rfl | rfl)
      · exact (hdir rfl).2
      · exact (hmir rfl).2
    · rintro rfl; exact hW rfl
    · rintro rfl; exact hF rfl

/-- Of tests whose fields ascend, the first failing one is that of the first field that fails (R180). -/
theorem firstFailing_of_firstFails {l : List (Nat × Bool)} {passes : Nat → Prop} {n : Nat}
    (hs : l.Pairwise (fun x y => x.1 < y.1)) (hp : ∀ k, passes k ↔ ∀ x ∈ l, x.1 = k → x.2 = true)
    (hf : FirstFails passes n) : firstFailing l = some n := by
  obtain ⟨hn, hbefore⟩ := hf
  cases hm : firstFailing l with
  | none => exact absurd ((hp n).2 (fun x hx _ => firstFailing_none.1 hm x hx)) hn
  | some m =>
    obtain ⟨a, b, rfl, ha⟩ := firstFailing_some hm
    have hm' : ¬ passes m := fun h => absurd ((hp m).1 h (m, false) (by simp) rfl) (by simp)
    have hle : n ≤ m := Nat.le_of_not_lt (fun h => hm' (hbefore m h))
    by_contra hne
    refine hn ((hp n).2 (fun x hx hxn => ?_))
    obtain ⟨-, hb, -⟩ := List.pairwise_append.1 hs
    rcases List.mem_append.1 hx with hx | hx
    · exact ha x hx
    · rcases List.mem_cons.1 hx with rfl | hx
      · exact absurd (congrArg some hxn) hne
      · have := (List.pairwise_cons.1 hb).1 x hx
        simp only at this
        omega

/-- LOAD_ROLL_HEADER is executed by the check of its fields (R23). -/
theorem execute_loadRollHeader (body : List Byte) (s : State) :
    execute false (some codeLoadRollHeader) body s = loadRollHeader body s := rfl

/-- A broadcast sent on leaves the Map Store (R174). -/
theorem passedOn_ms (rx : Rx) (p : Payload) (s : State) : (passedOn rx p s).ms = s.ms := by
  obtain ⟨q, a, hq, -⟩ := passedOn_rest rx p s
  rw [hq]

/-- A body that fails its check is INVALID with the failing field and changes nothing (R180). -/
theorem loadRollHeader_denied {rx : Rx} {s : State} {body : List Byte} {n : Nat} (ha : Asked s rx) (hb : headerIn body = .error n) :
    exec (.loadRollHeader rx body) s =
      .next (endEvent (answered rx 7 .invalid n .empty (passedOn rx (.request false (some 7) body) s))) := by
  refine arrive_denied ha ?_
  rw [execute_loadRollHeader, loadRollHeader, hb]

/-- A body that spells a header makes it the next roll's (R23). -/
theorem loadRollHeader_accepted {rx : Rx} {s : State} {body : List Byte} {h : Header} (ha : Asked s rx)
    (hb : headerIn body = .ok h) :
    exec (.loadRollHeader rx body) s = .next (endEvent (answered rx 7 .accepted 0 .empty
      { passedOn rx (.request false (some 7) body) s with ms := { s.ms with next := some h } })) := by
  have he : execute false (some codeLoadRollHeader) body (passedOn rx (.request false (some 7) body) s) =
      accept { passedOn rx (.request false (some 7) body) s with ms := { s.ms with next := some h } } := by
    rw [execute_loadRollHeader, loadRollHeader, hb]
    simp only [passedOn_ms]
  exact congrArg (fun x => Host.Outcome.next (endEvent x)) (arrive_answered ha he (ready_of ha))

/-- Settles O34: the three clauses are the header that reads back, the first field that fails, and the wrong length. -/
theorem rollHeaderIsLoaded : Obligations.RollHeaderIsLoaded := by
  intro rx s ha
  refine ⟨fun h hT1 hT2 hR1 hR2 hW1 hW2 hF hL1 hL2 => ?_, fun ws n hl hf => ?_, fun body hb => ?_⟩
  · exact loadRollHeader_accepted ha (headerIn_headerBytes hT1 hT2 hR1 hR2 hW1 hW2 hF hL1 hL2)
  · have ascending : (headerTests ws).Pairwise (fun x y => x.1 < y.1) := by simp [headerTests]
    exact loadRollHeader_denied ha
      (headerIn_of_fails hl (firstFailing_of_firstFails ascending (headerFieldPasses_iff ws) hf))
  · exact loadRollHeader_denied ha (headerIn_of_length_ne hb)

end Sys2Proof.RollMap
end

section
/-! PROOFS. A map block judged, screened and stored (2.2, 2.5): the words of the statements tied to the operations of the Map Store,
and the refusals in their order (R34). -/

namespace Sys2Proof.RollMap

open Sys2Proof Sys2Proof.Machine Sys2Proof.Claims Sys2Proof.Laws

/-! ### Screening (R26, R27) -/

/-- Screening finds bad exactly the entries that R26 drops. -/
theorem itemBad_iff (h : Header) (b : Nat) (i : MapItem) : itemBad h b i = true ↔ Dropped h b i := by
  simp only [itemBad, Dropped, itemSplice, blockOfRepeat, Bool.or_eq_true, Bool.and_eq_true, bne_iff_ne, decide_eq_true_eq,
    Bool.not_eq_true', or_assoc]

/-- A length clamped to what is left of the repeat is the length or that rest (R26). -/
theorem itemKept_eq (h : Header) (i : MapItem) : itemKept h i = keptAs h i := by
  have hlen : min i.len.toNat (h.rNom - i.off.toNat) =
      if h.rNom < i.off.toNat + i.len.toNat then h.rNom - i.off.toNat else i.len.toNat := by
    split <;> omega
  unfold itemKept keptAs
  rw [hlen]
  rfl

/-- The screened block is as R26 and R27 say. -/
theorem screenBlock_screened (h : Header) (b : Nat) (dense : Bool) (items : List MapItem) :
    Screened h b dense items (screenBlock h b dense items) := by
  refine ⟨fun i => !itemBad h b i, fun i => ?_, rfl, rfl, ?_, ?_, rfl⟩
  · rw [← itemBad_iff]; simp
  · exact List.map_congr_left (fun i _ => itemKept_eq h i)
  · simp [screenBlock]

/-- R26 and R27 leave one block. -/
theorem eq_screenBlock_of_screened {h : Header} {b : Nat} {dense : Bool} {items : List MapItem} {blk : Block}
    (hs : Screened h b dense items blk) : blk = screenBlock h b dense items := by
  obtain ⟨keep, hkeep, hnum, hdense, hentries, hdropped, hclamped⟩ := hs
  obtain ⟨keep', hkeep', hnum', hdense', hentries', hdropped', hclamped'⟩ := screenBlock_screened h b dense items
  have heq : keep = keep' := funext (fun i => Bool.eq_iff_iff.2 ((hkeep i).trans (hkeep' i).symm))
  subst heq
  exact Block.mk.injEq .. ▸ ⟨hnum.trans hnum'.symm, hdense.trans hdense'.symm, hentries.trans hentries'.symm,
    hclamped.trans hclamped'.symm, hdropped.trans hdropped'.symm⟩

/-! ### Storing (R35) -/

/-- The way chosen is the one that R35 names. -/
theorem victim_eq_wayFor (t : MapStore) (b : Nat) : t.victim b = wayFor t b := by
  unfold MapStore.victim wayFor
  cases h0 : t.slot b false with
  | none => rfl
  | some x =>
    cases h1 : t.slot b true with
    | none => rfl
    | some y =>
      cases t.frontierRepeat with
      | none => rfl
      | some r => cases (t.lru[b % 8]?).getD false <;> simp [h0, h1, blockOfRepeat]

/-- Storing a block is writing it, telling its faults, an attempt to expand and a check of the requests (R35). -/
theorem storeBlock_eq (blk : Block) (s : State) : storeBlock blk s = checkRequests (expand (storedAs blk s)) := by
  have hfault : (blk.clamped ≠ 0 ∨ blk.dropped ≠ 0) ↔ ¬ (blk.clamped = 0 ∧ blk.dropped = 0) := by omega
  simp only [storeBlock, storedAs, MapStore.store, victim_eq_wayFor, hfault, ite_not]
  rfl

/-! ### The tests of a map block (R34) -/

/-- Test 3 of R34 is met exactly by the blocks wholly passed. -/
theorem passed_iff (h : Header) (f b : Nat) : h.passed f b = true ↔ WhollyPassed h f b := by
  unfold Header.passed WhollyPassed
  rw [List.all_eq_true]
  constructor
  · intro hp r hlo hhi hr hj
    have hi := hp (r - 32 * b) (List.mem_range.2 (by omega))
    simpa [Nat.add_sub_cancel' hlo, hr, hj] using hi
  · intro hp i hi
    have hi := List.mem_range.1 hi
    dsimp only
    split
    · rename_i hc
      exact decide_eq_true (hp _ (by omega) (by omega) hc.1 hc.2)
    · rfl

/-- Test 2 of R34 in the entries that the frame carries. -/
theorem range_test_iff {flags count : Byte} {items : List MapItem} (hcount : count.toNat = items.length) :
    (96 < count.toNat ∨ (denseFlag flags = true ∧ count ≠ 0)) ↔
      (96 < items.length ∨ (flags.getLsbD 0 = true ∧ items ≠ [])) := by
  have hzero : count ≠ 0 ↔ items ≠ [] := by
    rw [← List.length_pos_iff, ← hcount]
    constructor <;> intro _ <;> bv_omega
  rw [hcount, hzero]
  rfl

/-- A block of at most 96 entries, and none of them in a dense block, passes test 2. -/
theorem range_test_passes {flags count : Byte} {items : List MapItem} (hcount : count.toNat = items.length)
    (hlen : items.length ≤ 96) (hdense : flags.getLsbD 0 = true → items = []) :
    ¬ (96 < count.toNat ∨ (denseFlag flags = true ∧ count ≠ 0)) := by
  rw [range_test_iff hcount]
  rintro (hlong | ⟨hflag, hitems⟩)
  · omega
  · exact hitems (hdense hflag)

section Judged

variable {src flags count : Byte} {roll block : Word} {items : List MapItem} {h : Header} {s : State}

/-- Test 1 of R34: without a roll, or for another one, a block is UNSOLICITED. -/
theorem takeBlock_other_roll (hc : s.ms.current = none ∨ ∃ h, s.ms.current = some h ∧ roll ≠ h.rollId) :
    takeBlock src roll block flags count items s = refused src 0x14 .unsolicited s := by
  rw [← refuse_eq_refused]
  unfold takeBlock
  obtain hc | ⟨h, hc, hne⟩ := hc
  · rw [hc]
  · rw [hc]
    exact if_pos (Ne.symm hne)

/-- Test 2 of R34: too many entries, or a dense block with entries, are out of RANGE. -/
theorem takeBlock_range (hc : s.ms.current = some h) (hroll : roll = h.rollId)
    (hr : 96 < count.toNat ∨ (denseFlag flags = true ∧ count ≠ 0)) :
    takeBlock src roll block flags count items s = refused src 0x14 .range s := by
  rw [← refuse_eq_refused]
  unfold takeBlock
  rw [hc]
  dsimp only
  rw [if_neg (not_not.2 hroll.symm), if_pos hr]

/-- Test 3 of R34: a block wholly passed is LATE. -/
theorem takeBlock_late (hc : s.ms.current = some h) (hroll : roll = h.rollId)
    (hr : ¬ (96 < count.toNat ∨ (denseFlag flags = true ∧ count ≠ 0))) (hp : WhollyPassed h (s.ms.frontier.getD 0) block.toNat) :
    takeBlock src roll block flags count items s = refused src 0x14 .late s := by
  rw [← refuse_eq_refused]
  unfold takeBlock
  rw [hc]
  dsimp only
  rw [if_neg (not_not.2 hroll.symm), if_neg hr, if_pos ((passed_iff ..).2 hp)]

/-- Test 4 of R34: a block that was not asked for is UNSOLICITED. -/
theorem takeBlock_not_asked (hc : s.ms.current = some h) (hroll : roll = h.rollId)
    (hr : ¬ (96 < count.toNat ∨ (denseFlag flags = true ∧ count ≠ 0))) (hp : ¬ WhollyPassed h (s.ms.frontier.getD 0) block.toNat)
    (ho : block.toNat ∉ s.ms.outstanding) :
    takeBlock src roll block flags count items s = refused src 0x14 .unsolicited s := by
  rw [← refuse_eq_refused]
  unfold takeBlock
  rw [hc]
  dsimp only
  rw [if_neg (not_not.2 hroll.symm), if_neg hr, if_neg (mt (passed_iff ..).1 hp), if_pos ho]

/-- A block that passes the four tests is screened and stored (R34, R35). -/
theorem takeBlock_stored (hc : s.ms.current = some h) (hroll : roll = h.rollId)
    (hr : ¬ (96 < count.toNat ∨ (denseFlag flags = true ∧ count ≠ 0))) (hp : ¬ WhollyPassed h (s.ms.frontier.getD 0) block.toNat)
    (ho : block.toNat ∈ s.ms.outstanding) :
    takeBlock src roll block flags count items s =
      checkRequests (expand (storedAs (screenBlock h block.toNat (flags.getLsbD 0) items) s)) := by
  rw [← storeBlock_eq]
  unfold takeBlock
  rw [hc]
  dsimp only
  rw [if_neg (not_not.2 hroll.symm), if_neg hr, if_neg (mt (passed_iff ..).1 hp), if_neg (not_not.2 ho)]
  rfl

end Judged

/-- A map block of the MAP_SERVER station whose count is that of its entries is judged by the Map Store (R177). -/
theorem exec_mapBlock {rx : Rx} {roll block : Word} {flags count : Byte} {items : List MapItem} {s : State}
    (hfrom : From (·.mapServer) s rx) (hcount : count.toNat = items.length) :
    exec (.mapBlock rx roll block flags count items) s = .next (endEvent (takeBlock rx.src roll block flags count items
      (passedOn rx (.block roll block flags count items) s))) := by
  have hj : (Payload.block roll block flags count items).judged = .ok (.block roll block flags count items) := if_pos hcount
  exact congrArg (fun x => Host.Outcome.next (endEvent x)) (arrive_from hfrom hj (fun _ => rfl))

/-- Settles O33: the tests in their order, on the Map Store that a broadcast sent on leaves alone. -/
theorem mapBlockRefusalsInOrder : Obligations.MapBlockRefusalsInOrder := by
  intro rx roll block flags count items s hfrom hcount answer
  have told : ∀ {reason}, takeBlock rx.src roll block flags count items (passedOn rx (.block roll block flags count items) s) =
      refused rx.src 0x14 reason (passedOn rx (.block roll block flags count items) s) → answer reason := by
    intro reason hr
    exact (exec_mapBlock hfrom hcount).trans (congrArg (fun x => Host.Outcome.next (endEvent x)) hr)
  rw [← passedOn_ms rx (.block roll block flags count items) s]
  refine ⟨fun hc => told (takeBlock_other_roll hc), fun h hc hroll => ⟨fun hr => ?_, fun hlen hdense => ?_⟩⟩
  · exact told (takeBlock_range hc hroll ((range_test_iff hcount).2 hr))
  · have hr := range_test_passes hcount hlen hdense
    exact ⟨fun hp => told (takeBlock_late hc hroll hr hp), fun hp ho => told (takeBlock_not_asked hc hroll hr hp ho)⟩

end Sys2Proof.RollMap
end

section
/-! PROOFS. The check of requests (R33): which blocks are wanted, and the requests that join the outstanding list, as one update. -/

namespace Sys2Proof.RollMap

open Sys2Proof Sys2Proof.Machine Sys2Proof.Claims Sys2Proof.Laws

/-! ### The blocks wanted -/

/-- Numbers picked and computed in one pass, or computed as signed numbers, picked and read back. -/
theorem filterMap_eq_map_filter_map {g : Nat → Option Nat} {k : Nat → Int} {q : Int → Bool}
    (hg : ∀ i, g i = if q (k i) then some (k i).toNat else none) (l : List Nat) :
    l.filterMap g = ((l.map k).filter q).map Int.toNat := by
  induction l with
  | nil => rfl
  | cons i l ih => cases hq : q (k i) <;> simp [hg i, hq, ih]

/-- The frontier's repeat is that of its mark in the current roll (R28). -/
theorem frontierRepeat_eq {t : MapStore} {h : Header} (hc : t.current = some h) :
    t.frontierRepeat = t.frontier.bind h.pressRepeat := by
  unfold MapStore.frontierRepeat
  rw [hc]
  cases t.frontier <;> rfl

/-- The blocks wanted are those of the statements (R33): the frontier's own block lies in the roll. -/
theorem wanted_eq {t : MapStore} {h : Header} {f r : Nat} (hc : t.current = some h) (hf : t.frontier = some f)
    (hr : h.pressRepeat f = some r) (p : Nat) : t.wanted p = wantedFrom h r p := by
  have hroll : r < h.nT := ((pressRepeat_eq_some_iff h f r).1 hr).1
  have hfr : t.frontierRepeat = some r := by rw [frontierRepeat_eq hc, hf]; exact hr
  unfold MapStore.wanted wantedFrom
  rw [hc, hfr]
  refine filterMap_eq_map_filter_map (fun i => ?_) _
  unfold blockOfRepeat Header.lastBlock
  cases h.reversed
  · simp only [Bool.false_eq_true, if_false, decide_eq_true_eq]
    split <;> rename_i hi
    · rw [if_pos (by omega)]; congr 1
    · rw [if_neg (by omega)]
  · simp only [if_true, decide_eq_true_eq]
    split <;> rename_i hi
    · rw [if_pos (by omega)]; congr 1; omega
    · rw [if_neg (by omega)]

/-- No block is wanted twice (R33). -/
theorem wanted_nodup (t : MapStore) (p : Nat) : (t.wanted p).Nodup := by
  unfold MapStore.wanted
  split
  · rename_i h r _ _
    refine List.Nodup.filterMap (fun i j b hi hj => ?_) List.nodup_range
    simp only [Option.mem_def] at hi hj
    split at hi <;> rename_i hrev <;> simp only [hrev, if_true, if_false, Bool.false_eq_true] at hj
    all_goals
      split at hi <;> [skip; cases hi]
      split at hj <;> [skip; cases hj]
      cases hi
      have := Option.some.inj hj
      omega
  · exact List.nodup_nil

/-! ### The requests that join -/

/-- The frames of requests for these blocks, under ascending sequence numbers; none stands where the part has no link (R33, R179). -/
def requestFrames (roll : Word) (asked : List Nat) (s : State) : List OwnFrame :=
  if linked s then asked.zipIdx.map (fun x =>
    queued .blockRequest (mapServerOf s) (s.ll.seq + BitVec.ofNat 16 x.2) (.blockRequest roll x.1) s) else []

/-- The state once these blocks have been requested, in this order: they are outstanding, and each has its frame queued under the
next sequence number (R33, R179). -/
def requested (roll : Word) (asked : List Nat) (s : State) : State :=
  { s with
    ms := { s.ms with outstanding := s.ms.outstanding ++ asked }
    ll := { s.ll with own := s.ll.own ++ requestFrames roll asked s, seq := s.ll.seq + BitVec.ofNat 16 asked.length } }

/-- No request changes nothing. -/
@[simp] theorem requested_nil (roll : Word) (s : State) : requested roll [] s = s := by
  simp [requested, requestFrames]

/-- The frames of a list of requests are those of the first and those of the rest after it. -/
theorem requestFrames_cons (roll : Word) (b : Nat) (l : List Nat) (s : State) :
    requestFrames roll (b :: l) s = requestFrames roll [b] s ++ requestFrames roll l (requested roll [b] s) := by
  have hseq (n : Nat) : s.ll.seq + BitVec.ofNat 16 (n + 1) = s.ll.seq + BitVec.ofNat 16 1 + BitVec.ofNat 16 n := by
    rw [BitVec.add_assoc, ← BitVec.ofNat_add, Nat.add_comm]
  have hlinked : linked (requested roll [b] s) = linked s := rfl
  unfold requestFrames
  rw [hlinked]
  split
  · rw [List.zipIdx_cons, List.zipIdx_succ, List.map_cons, List.map_map]
    refine congrArg (List.cons _) (List.map_congr_left (fun x _ => ?_))
    exact congrArg (fun q => queued .blockRequest (mapServerOf s) q (.blockRequest roll x.1) s) (hseq x.2)
  · rfl

/-- Requests one after another are requests together. -/
theorem requested_cons (roll : Word) (b : Nat) (l : List Nat) (s : State) :
    requested roll (b :: l) s = requested roll l (requested roll [b] s) := by
  have hout : s.ms.outstanding ++ b :: l = s.ms.outstanding ++ [b] ++ l := by simp
  have hseq : s.ll.seq + BitVec.ofNat 16 (b :: l).length = s.ll.seq + BitVec.ofNat 16 [b].length + BitVec.ofNat 16 l.length := by
    rw [BitVec.add_assoc, ← BitVec.ofNat_add, List.length_cons, List.length_singleton, Nat.add_comm]
  conv_lhs => unfold requested
  rw [hout, hseq, requestFrames_cons, ← List.append_assoc]
  rfl

/-- The block is neither VALID nor outstanding (R33). -/
def isMissing (s : State) (b : Nat) : Bool := (s.ms.block b).isNone && !s.ms.outstanding.contains b

/-- Requests for which there is a place, in the outstanding list and with the link (R32, R179). -/
def places (s : State) : Nat := min (7 - s.ms.outstanding.length) (requestPlaces s)

/-- A block is missing exactly when it is not VALID and not in the outstanding list. -/
theorem isMissing_iff (s : State) (b : Nat) : isMissing s b = true ↔ ¬ (s.ms.block b).isSome ∧ b ∉ s.ms.outstanding := by
  simp [isMissing]

/-- A request finds a place exactly where the outstanding list has room and the link takes the frame. -/
theorem places_pos_iff (s : State) :
    0 < places s ↔ ¬ Config.outstandingMax ≤ s.ms.outstanding.length ∧ s.canQueue = true ∧ s.ll.room .blockRequest = true := by
  unfold places requestPlaces LineLink.room OwnClass.capacity Config.outstandingMax
  by_cases h7 : s.ll.count .blockRequest < 7 <;> cases s.canQueue <;> cases linked s <;> simp [h7]

/-- A frame queued has gone out already exactly on a part without any link (R179). -/
theorem queued_out (c : OwnClass) (dst : Nat) (tag : Half) (body : OwnBody) (s : State) :
    (queued c dst tag body s).out = !linked s := by
  unfold queued OwnFrame.out linked
  by_cases ha : s.ll.portA.link <;> by_cases hb : s.ll.portB.link <;> simp [ha, hb]

/-- A block that is VALID or outstanding, or for which there is no place, is not requested (R33). -/
theorem requestBlock_skip {roll : Word} {b : Nat} {s : State} (hs : isMissing s b = false ∨ places s = 0) :
    requestBlock roll b s = s := by
  unfold requestBlock
  split
  · rfl
  · rename_i hn
    obtain ⟨hvalid, hout, hroom⟩ : ¬ _ ∧ ¬ _ ∧ ¬ _ := by simpa only [not_or] using hn
    have hmiss : isMissing s b = true := (isMissing_iff s b).2 ⟨hvalid, hout⟩
    refine if_neg (fun hlink => ?_)
    have hpos : 0 < places s := (places_pos_iff s).2 ⟨hroom, hlink⟩
    rcases hs with hs | hs
    · simp [hmiss] at hs
    · omega

/-- A block that is neither VALID nor outstanding, and for which there is a place, is requested (R33). -/
theorem requestBlock_join {roll : Word} {b : Nat} {s : State} (hs : isMissing s b = true) (hp : 0 < places s) :
    requestBlock roll b s = requested roll [b] s := by
  obtain ⟨hvalid, hout⟩ := (isMissing_iff s b).1 hs
  obtain ⟨hroom, hqueue, hplace⟩ := (places_pos_iff s).1 hp
  unfold requestBlock
  rw [if_neg (not_or.2 ⟨hvalid, not_or.2 ⟨hout, hroom⟩⟩), if_pos ⟨hqueue, hplace⟩]
  rcases queueOwn_cases .blockRequest (s.role (·.mapServer)) none (.blockRequest roll b) s with
    ⟨-, -, f, hf, h⟩ | ⟨-, hfull, -⟩ | ⟨hno, -⟩
  · have hq : f = queued .blockRequest (mapServerOf s) (s.ll.seq + BitVec.ofNat 16 0) (.blockRequest roll b) s := by
      rw [BitVec.add_zero]
      exact hf
    have hown : (if f.out then s.ll.own else s.ll.own ++ [f]) = s.ll.own ++ requestFrames roll [b] s := by
      rw [hq, queued_out]
      unfold requestFrames
      cases linked s
      · exact (List.append_nil _).symm
      · rfl
    rw [h, hown]
    rfl
  · rw [hplace] at hfull; cases hfull
  · rw [hqueue] at hno; cases hno

/-- One request takes one place, of the outstanding list and of the link. -/
theorem places_requested {roll : Word} {b : Nat} {s : State} (hp : 0 < places s) :
    places s = places (requested roll [b] s) + 1 := by
  have hq : (requested roll [b] s).canQueue = s.canQueue := rfl
  have hlinked : linked (requested roll [b] s) = linked s := rfl
  have hlen : (requested roll [b] s).ms.outstanding.length = s.ms.outstanding.length + 1 := by simp [requested]
  have hcount : (requested roll [b] s).ll.count .blockRequest = s.ll.count .blockRequest + (if linked s then 1 else 0) := by
    unfold requested requestFrames LineLink.count
    cases linked s <;> simp [queued]
  unfold places requestPlaces at hp ⊢
  rw [hq, hlinked, hlen, hcount]
  split at hp
  · omega
  · split at hp <;> split_ifs at hp ⊢ <;> omega

/-- Another block is missing after a request as it was before. -/
theorem isMissing_requested {roll : Word} {b x : Nat} {s : State} (hx : x ≠ b) :
    isMissing (requested roll [b] s) x = isMissing s x := by
  have hblock : (requested roll [b] s).ms.block x = s.ms.block x := rfl
  unfold isMissing
  rw [hblock]
  simp [requested, hx]

/-- Requests for a list of blocks, none twice: of those neither VALID nor outstanding as many join as there are places (R33). -/
theorem foldl_requestBlock (roll : Word) (l : List Nat) (hl : l.Nodup) : ∀ s : State,
    l.foldl (fun s b => requestBlock roll b s) s = requested roll ((l.filter (isMissing s)).take (places s)) s := by
  induction l with
  | nil => exact fun s => by simp
  | cons b l ih =>
    obtain ⟨hb, hl⟩ := List.nodup_cons.1 hl
    intro s
    rw [List.foldl_cons]
    cases hmiss : isMissing s b with
    | false => rw [requestBlock_skip (.inl hmiss), ih hl, List.filter_cons_of_neg (by simp [hmiss])]
    | true =>
      rw [List.filter_cons_of_pos hmiss]
      rcases Nat.eq_zero_or_pos (places s) with h0 | hpos
      · rw [requestBlock_skip (.inr h0), ih hl, h0, List.take_zero, List.take_zero]
      · have hrest : l.filter (isMissing (requested roll [b] s)) = l.filter (isMissing s) :=
          List.filter_congr (fun x hx => isMissing_requested (fun h => hb (h ▸ hx)))
        rw [requestBlock_join hmiss hpos, ih hl, hrest, places_requested (roll := roll) (b := b) hpos, List.take_succ_cons,
          ← requested_cons]

/-- A check of requests as the statements have it (R33, R179). -/
theorem requestsAreChecked : RequestsAreChecked := by
  intro m h s hm hc
  have hcheck : checkRequests s = (s.ms.wanted m.p).foldl (fun s b => requestBlock h.rollId b s) s := by
    unfold checkRequests
    rw [hm, hc]
  refine ⟨fun hend => ?_, fun f r hf hr => ?_⟩
  · have hnone : s.ms.frontierRepeat = none := by
      rw [frontierRepeat_eq hc]
      obtain hf | ⟨f, hf, hr⟩ := hend
      · rw [hf]; rfl
      · rw [hf]; exact hr
    have hwanted : s.ms.wanted m.p = [] := by
      unfold MapStore.wanted
      rw [hc, hnone]
    rw [hcheck, hwanted]
    rfl
  · rw [hcheck, foldl_requestBlock _ _ (wanted_nodup ..), wanted_eq hc hf hr]
    rfl

end Sys2Proof.RollMap
end

section
/-! PROOFS. The pacing of the expansion by the free count (R39, R43) and the attempt to expand (R38, R45, R48). -/

namespace Sys2Proof.RollMap

open Sys2Proof Sys2Proof.Machine Sys2Proof.Claims Sys2Proof.Laws

/-! ### The free count reported (R39) -/

/-- The report of a free count is the pacing of the statements. -/
theorem reportFree_eq_paced {m : MachineTable} {s : State} (hm : s.machine = some m) : reportFree s = paced m s := by
  unfold reportFree paced pausedAt
  rw [hm]
  cases hp : s.ms.paused
  · by_cases hlow : s.fq.free < m.pLo <;> simp [hlow]
  · by_cases hhigh : s.fq.free < m.pHi
    · simp [hhigh, Nat.not_le.2 hhigh]
    · simp [hhigh, Nat.not_lt.1 hhigh]

/-- The notice of a change of the expansion state at this free count, none where the state stands (R39). -/
def paceNotices (m : MachineTable) (s : State) (free : Nat) : List Notice :=
  if pausedAt m s.ms.paused free = s.ms.paused then []
  else [{ kind := if s.ms.paused then .expansionResumed else .expansionPaused, u := s.pu.u, v0 := wNat free, v1 := 0, v2 := 0 }]

/-- A report of the free count changes the expansion state and the Notice Queue. -/
theorem paced_rest (m : MachineTable) (s : State) :
    paced m s = { s with ms := { s.ms with paused := pausedAt m s.ms.paused s.fq.free }, nq := (paced m s).nq } := by
  unfold paced
  dsimp only
  split
  · rename_i hstands
    rw [hstands]
  · rw [queueNotice_rest]

/-- The report writes the expansion state of the Map Store and nothing else of it (R39). -/
theorem paced_ms (m : MachineTable) (s : State) :
    (paced m s).ms = { s.ms with paused := pausedAt m s.ms.paused s.fq.free } := by rw [paced_rest]

/-- The report leaves the lists of features. -/
theorem paced_fq (m : MachineTable) (s : State) : (paced m s).fq = s.fq := by rw [paced_rest]

/-- A queue with room takes the notice of the change at its end (R187). -/
theorem paced_nq {m : MachineTable} {s : State} (hq : s.canQueue = true) (hr : s.nq.waiting.length < Config.noticeMax) :
    (paced m s).nq = { s.nq with waiting := s.nq.waiting ++ paceNotices m s s.fq.free } := by
  unfold paced paceNotices
  dsimp only
  split
  · exact (congrArg (fun l => { s.nq with waiting := l }) (List.append_nil _)).symm
  · rename_i hchange
    have hflip : pausedAt m s.ms.paused s.fq.free = !s.ms.paused := Bool.eq_not_of_ne hchange
    rw [queueNotice_room]
    · rw [hflip]
      cases s.ms.paused <;> rfl
    · exact hq
    · exact hr

/-! ### Entries that join and leave (R43) -/

/-- A tagged count that stands queues no notice (R63). -/
theorem noticeTags_stands {before : Nat} {s : State} (h : s.fq.tagged = before) : noticeTags before s = s := by
  unfold noticeTags
  rw [if_neg (by omega), if_neg (by omega)]

/-- The Feature Queue with a Settled entry that has joined. -/
def joined (e : Settled) (q : FeatureQueue) : FeatureQueue := { q with settled := insertSettled e q.settled }

/-- An entry that joins takes one slot (R43). -/
theorem joined_free (e : Settled) (q : FeatureQueue) : (joined e q).free = q.free - 1 := by
  have hlen := (insertSettled_perm e q.settled).length_eq
  simp only [joined, FeatureQueue.free, hlen, List.length_cons]
  omega

/-- An entry without the tag leaves the tagged count (R63). -/
theorem joined_tagged {e : Settled} (he : e.feat.suspect = false) (q : FeatureQueue) : (joined e q).tagged = q.tagged := by
  have hlen := ((insertSettled_perm e q.settled).filter (·.feat.suspect)).length_eq
  rw [List.filter_cons_of_neg (by simp [he])] at hlen
  simp only [joined, FeatureQueue.tagged, hlen]

/-- An entry without the tag joins, and the free count is reported. -/
theorem joinSettled_eq {m : MachineTable} {e : Settled} {s : State} (hm : s.machine = some m) (he : e.feat.suspect = false) :
    joinSettled e s = paced m { s with fq := joined e s.fq } := by
  have htags : noticeTags s.fq.tagged { s with fq := joined e s.fq } = { s with fq := joined e s.fq } :=
    noticeTags_stands (joined_tagged he s.fq)
  exact (congrArg reportFree htags).trans (reportFree_eq_paced hm)

/-- The Feature Queue once the entry of this number has left. -/
def without (num : Nat) (q : FeatureQueue) : FeatureQueue :=
  { q with forecast := q.forecast.filter (fun x => x.feat.num != num), settled := q.settled.filter (fun x => x.feat.num != num) }

/-- A lawful queue has no more entries than slots (R43). -/
theorem size_le_entrySlots {q : FeatureQueue} (hq : q.lawful) : q.size ≤ Config.entrySlots := by
  obtain ⟨hnodup, hslots, -⟩ := hq
  have hsub : q.nums ⊆ List.range Config.entrySlots := fun n hn => List.mem_range.2 (hslots n hn)
  rw [← q.nums_length]
  exact (hnodup.subperm hsub).length_le.trans (List.length_range ..).le

/-- The entry of a slot is one entry: its slot is free once it has left. -/
theorem without_nums {q : FeatureQueue} (hq : q.lawful) (num : Nat) : (without num q).nums = q.nums.erase num := by
  obtain ⟨hnodup, -⟩ := hq
  rw [hnodup.erase_eq_filter]
  simp only [without, FeatureQueue.nums, List.filter_append, List.filter_map, Function.comp_def]

/-- An entry that leaves frees its one slot (R43). -/
theorem without_free {q : FeatureQueue} {e : Settled} (hq : q.lawful) (he : e ∈ q.settled) :
    (without e.feat.num q).free = q.free + 1 := by
  have hmem : e.feat.num ∈ q.nums := List.mem_append_right _ (List.mem_map_of_mem he)
  have hlen : (without e.feat.num q).size + 1 = q.size := by
    rw [← FeatureQueue.nums_length, ← FeatureQueue.nums_length, without_nums hq]
    exact List.length_erase_add_one hmem
  have hle := size_le_entrySlots hq
  simp only [FeatureQueue.size] at hlen hle
  simp only [FeatureQueue.free]
  omega

/-- An entry without the tag that leaves, leaves the tagged count (R63). -/
theorem without_tagged {q : FeatureQueue} {e : Settled} (hq : q.lawful) (he : e ∈ q.settled) (hs : e.feat.suspect = false) :
    (without e.feat.num q).tagged = q.tagged := by
  obtain ⟨hnodup, -⟩ := hq
  obtain ⟨-, hsettled, hdisjoint⟩ := List.nodup_append.1 hnodup
  have hforecast : q.forecast.filter (fun x => x.feat.num != e.feat.num) = q.forecast := by
    refine List.filter_eq_self.2 (fun x hx => bne_iff_ne.2 ?_)
    exact hdisjoint _ (List.mem_map_of_mem hx) _ (List.mem_map_of_mem he)
  have hentry : (q.settled.filter (fun x => x.feat.num != e.feat.num)).filter (·.feat.suspect) = q.settled.filter (·.feat.suspect) := by
    rw [List.filter_filter]
    refine List.filter_congr (fun x hx => ?_)
    by_cases hnum : x.feat.num = e.feat.num
    · have hxe : x = e := List.inj_on_of_nodup_map hsettled hx he hnum
      simp [hxe, hs]
    · simp [hnum]
  simp only [without, FeatureQueue.tagged, hforecast, hentry]

/-- The Stop Scheduler once that entry has left: an aim at it stands for an entry that is gone (R65). -/
def aimAfter (num : Nat) (y : StopScheduler) : StopScheduler :=
  if y.aim = some (.entry num) then { y with aimGone := true } else y

/-- A Settled entry without the tag leaves, and the free count is reported. -/
theorem leave_eq {m : MachineTable} {e : Settled} {s : State} (hm : s.machine = some m) (hq : s.fq.lawful) (he : e ∈ s.fq.settled)
    (hs : e.feat.suspect = false) :
    leave e.feat.num s = paced m { s with fq := without e.feat.num s.fq, ss := aimAfter e.feat.num s.ss } := by
  unfold leave
  dsimp only
  rw [reportFree_eq_paced (by exact hm)]
  refine noticeTags_stands ?_
  rw [paced_fq]
  exact without_tagged hq he hs

/-- The pacing as the statements have it (R39, R43). -/
theorem pacingFollowsTheFreeCount : PacingFollowsTheFreeCount := by
  intro m e s hm hs told
  have noticed : ∀ t : State, t.canQueue = s.canQueue → t.nq = s.nq → t.ms = s.ms → t.pu = s.pu → NoticesWait s →
      (paced m t).nq.waiting = s.nq.waiting ++ told t.fq.free := by
    rintro t hc hnq hms hpu ⟨hq, -, hlen⟩
    rw [paced_nq (hc.trans hq) (by rw [hnq, Config.noticeMax]; omega), hnq]
    simp only [paceNotices, hms, hpu]
    rfl
  refine ⟨fun _ => ?_, fun hq he => ?_⟩
  · rw [joinSettled_eq hm hs, paced_fq, paced_ms, ← joined_free e s.fq]
    exact ⟨rfl, rfl, noticed { s with fq := joined e s.fq } rfl rfl rfl rfl⟩
  · rw [leave_eq hm hq he hs, paced_fq, paced_ms, ← without_free hq he]
    exact ⟨rfl, rfl, noticed { s with fq := without e.feat.num s.fq, ss := aimAfter e.feat.num s.ss } rfl rfl rfl rfl⟩

/-! ### One mark's expansion (R38) -/

/-- Insertion in order is the insertion of the statements (R45). -/
theorem insertForecast_eq_inOrder (e : Forecast) (l : List Forecast) : insertForecast e l = inOrder e l := by
  have hle (x : Forecast) : x.le e = decide (x.k < e.k ∨ x.k = e.k ∧ x.off ≤ e.off) := by simp [Forecast.le, Bool.beq_eq_decide_eq]
  induction l with
  | nil => rfl
  | cons x l ih =>
    unfold insertForecast inOrder
    dsimp only
    rw [hle, List.takeWhile_cons, List.dropWhile_cons]
    split
    · rw [ih]; rfl
    · rfl

/-- The entries of a repeat are of that repeat (R27, R38). -/
theorem rep_of_mem_entries {h : Header} {blk : Block} {r : Nat} {x : PressEntry} (hx : x ∈ repeatEntries h blk r) : x.rep = r := by
  unfold repeatEntries at hx
  split at hx
  · rw [List.mem_singleton.1 hx]
  · simpa using (List.mem_filter.1 hx).2

/-- An entry of the frontier's repeat is anchored on the frontier's mark (R29). -/
theorem forecastOf_eq {h : Header} {f r : Nat} {x : PressEntry} (hr : h.pressRepeat f = some r) (hx : x.rep = r) (num : Nat) :
    h.forecastOf num x = forecastAs h f num x := by
  have hmark : (f : Int) = h.slitterIndex (h.anchorMark r) := ((pressRepeat_eq_some_iff h f r).1 hr).2
  unfold Header.forecastOf forecastAs
  rw [hx, ← hmark, Int.toNat_natCast]

/-- The entries of a repeat join one after another, each in the lowest free slot (R48). -/
theorem foldl_joinForecast {h : Header} {f r : Nat} (hr : h.pressRepeat f = some r) (l : List PressEntry)
    (hl : ∀ x ∈ l, x.rep = r) : ∀ s : State, l.foldl (fun s e => joinForecast h e s) s =
      { s with fq := l.foldl (fun q x => { q with forecast := inOrder (forecastAs h f q.freeSlot x) q.forecast }) s.fq } := by
  induction l with
  | nil => exact fun _ => rfl
  | cons x l ih =>
    intro s
    have hjoin : joinForecast h x s =
        { s with fq := { s.fq with forecast := inOrder (forecastAs h f s.fq.freeSlot x) s.fq.forecast } } := by
      unfold joinForecast
      rw [insertForecast_eq_inOrder, forecastOf_eq hr (hl x (List.mem_cons_self ..))]
    rw [List.foldl_cons, hjoin, ih (fun y hy => hl y (List.mem_cons_of_mem _ hy))]
    rfl

/-- The way of a VALID block is marked used: the set's LRU mark names the other way (R32). -/
theorem use_eq {t : MapStore} {b : Nat} {blk : Block} (hb : t.block b = some blk) :
    t.use b = { t with lru := t.lru.set (b % 8) ((t.slot b false).any (fun x => x.num == b)) } := by
  unfold MapStore.block at hb
  unfold MapStore.use
  unfold MapStore.wayOf at hb ⊢
  cases h0 : (t.slot b false).any (fun x => x.num == b) with
  | true => rfl
  | false =>
    cases h1 : (t.slot b true).any (fun x => x.num == b) with
    | true => rfl
    | false => simp [h0, h1] at hb

/-- The mark's expansion and the check of requests after it, as the statements have them (R38). -/
theorem expandOne_eq {m : MachineTable} {h : Header} {f r : Nat} {blk : Block} {s : State} (hm : s.machine = some m)
    (hr : h.pressRepeat f = some r) (hb : s.ms.block (r / 32) = some blk) :
    expandOne h f (r / 32) (repeatEntries h blk r) s = checkRequests (expandedAt m h f r (repeatEntries h blk r) s) := by
  unfold expandOne expandedAt
  rw [foldl_joinForecast hr _ (fun x => rep_of_mem_entries)]
  dsimp only
  rw [use_eq hb, reportFree_eq_paced (by exact hm)]

/-! ### The conditions of R38 -/

/-- The lookahead of the statements, for a table whose H is in its range. -/
theorem withinLookahead_iff {m : MachineTable} (hh : 1 ≤ m.h) (s : State) (f : Nat) :
    WithinLookahead m s f ↔ f ≤ s.lookahead m := by
  unfold WithinLookahead State.lookahead
  cases s.mt.last
  · dsimp only; omega
  · exact Iff.rfl

section Conditions

variable {m : MachineTable} {h : Header} {f : Nat} {s : State}

/-- Without a machine table, a current roll or a frontier nothing expands. -/
theorem expandable_none_of_missing (hn : s.machine = none ∨ s.ms.current = none ∨ s.ms.frontier = none) : s.expandable = none := by
  unfold State.expandable
  split
  · rename_i hm hc hf
    rw [hm, hc, hf] at hn
    simp at hn
  · rfl

/-- PAUSED, beyond the lookahead, and at end of map nothing expands. -/
theorem expandable_none_of_stopped (hm : s.machine = some m) (hc : s.ms.current = some h) (hf : s.ms.frontier = some f)
    (hn : s.ms.paused = true ∨ ¬ f ≤ s.lookahead m ∨ h.pressRepeat f = none) : s.expandable = none := by
  unfold State.expandable
  rw [hm, hc, hf]
  dsimp only
  split
  · rename_i hgo
    obtain ⟨hp, hl⟩ := hgo
    rw [show h.pressRepeat f = none by simpa [hp, hl] using hn]
  · rfl

/-- A repeat whose block is not VALID does not expand. -/
theorem expandable_none_of_invalid {r : Nat} (hm : s.machine = some m) (hc : s.ms.current = some h) (hf : s.ms.frontier = some f)
    (hr : h.pressRepeat f = some r) (hb : s.ms.block (r / 32) = none) : s.expandable = none := by
  unfold State.expandable
  rw [hm, hc, hf]
  dsimp only
  rw [hr]
  dsimp only [blockOfRepeat]
  rw [hb]
  exact ite_self _

/-- A repeat without room for its entries does not expand (R48). -/
theorem expandable_none_of_full {r : Nat} {blk : Block} (hm : s.machine = some m) (hc : s.ms.current = some h)
    (hf : s.ms.frontier = some f) (hr : h.pressRepeat f = some r) (hb : s.ms.block (r / 32) = some blk)
    (hroom : s.fq.free < (repeatEntries h blk r).length) : s.expandable = none := by
  unfold State.expandable
  rw [hm, hc, hf]
  dsimp only
  rw [hr]
  dsimp only [blockOfRepeat]
  rw [hb]
  have hno : ¬ (blk.entriesOf h r).length ≤ s.fq.free := Nat.not_le.2 hroom
  dsimp only
  rw [if_neg hno, ite_self]

/-- Where every condition holds, the frontier's repeat expands with its entries. -/
theorem expandable_some {r : Nat} {blk : Block} (hm : s.machine = some m) (hc : s.ms.current = some h)
    (hf : s.ms.frontier = some f) (hr : h.pressRepeat f = some r) (hb : s.ms.block (r / 32) = some blk)
    (hp : s.ms.paused = false) (hl : f ≤ s.lookahead m) (hroom : (repeatEntries h blk r).length ≤ s.fq.free) :
    s.expandable = some (h, f, r / 32, repeatEntries h blk r) := by
  unfold State.expandable
  rw [hm, hc, hf]
  dsimp only
  rw [if_pos ⟨hp, hl⟩, hr]
  dsimp only [blockOfRepeat]
  rw [hb]
  exact if_pos hroom

end Conditions

/-- The slot taken next is free, the lowest, and one of the 1,024 while one is free (R43). -/
theorem freeSlot_lowest (q : FeatureQueue) :
    q.freeSlot ∉ q.nums ∧ (∀ j, j < q.freeSlot → j ∈ q.nums) ∧ (0 < q.free → q.freeSlot < 1024) := by
  obtain ⟨hfree, hsize⟩ := q.freeSlot_spec
  obtain ⟨hlower, -⟩ := firstUnused_spec q.nums q.nums.length 0
  refine ⟨hfree, fun j hj => hlower j (Nat.zero_le j) hj, fun hpos => ?_⟩
  simp only [FeatureQueue.free, FeatureQueue.size, Config.entrySlots] at hpos hsize
  omega

/-- An attempt to expand as the statements have it (R38, R45, R48). -/
theorem attemptsExpand : AttemptsExpand := by
  refine ⟨fun s hn => expand_none s (expandable_none_of_missing hn), freeSlot_lowest, fun m h f s hm hh hc hf => ?_⟩
  refine ⟨fun hn => ?_, fun r hr => ⟨fun hb => ?_, fun blk hb => ⟨fun hroom => ?_, fun hp hl hroom => ?_⟩⟩⟩
  · rw [withinLookahead_iff hh] at hn
    exact expand_none s (expandable_none_of_stopped hm hc hf hn)
  · exact expand_none s (expandable_none_of_invalid hm hc hf hr hb)
  · exact expand_none s (expandable_none_of_full hm hc hf hr hb hroom)
  · rw [withinLookahead_iff hh] at hl
    rw [expand_next (expandable_some hm hc hf hr hb hp hl hroom), expandOne_eq hm hr hb]

end Sys2Proof.RollMap
end

section
/-! PROOFS. A map block stored (R35): what the storing, the attempt to expand and the check of requests leave standing, which notices
they queue, and the state they end in. -/

namespace Sys2Proof.RollMap

open Sys2Proof Sys2Proof.Machine Sys2Proof.Claims Sys2Proof.Laws

/-! ### The notices of an attempt to expand (R39) -/

/-- A check of requests asks for some blocks, perhaps none (R33). -/
theorem checkRequests_requested (s : State) : ∃ roll asked, checkRequests s = requested roll asked s := by
  unfold checkRequests
  split
  · exact ⟨_, _, foldl_requestBlock _ _ (wanted_nodup ..) s⟩
  · exact ⟨0, [], (requested_nil 0 s).symm⟩

/-- Entries that join the Forecast list change nothing else (R48). -/
theorem foldl_joinForecast_rest (h : Header) (l : List PressEntry) : ∀ s : State,
    ∃ q, l.foldl (fun s e => joinForecast h e s) s = { s with fq := q } := by
  induction l with
  | nil => exact fun s => ⟨s.fq, rfl⟩
  | cons x l ih =>
    intro s
    obtain ⟨q, hq⟩ := ih (joinForecast h x s)
    exact ⟨q, hq⟩

/-- Marking a way used leaves the expansion state. -/
theorem use_paused (b : Nat) (t : MapStore) : (t.use b).paused = t.paused := by
  unfold MapStore.use
  split <;> rfl

/-- The notice that the expansion has been paused at this free count (R39). -/
def pausedNotice (s : State) (free : Nat) : Notice := { kind := .expansionPaused, u := s.pu.u, v0 := wNat free, v1 := 0, v2 := 0 }

/-- The free count reported under EXPANDING, and the requests checked: the state is PAUSED exactly below P_lo, and the Notice Queue,
where it has room, is told so (R33, R39). -/
theorem reported_paced {m : MachineTable} {y : State} (hm : y.machine = some m) (hp : y.ms.paused = false) :
    let t := checkRequests (reportFree y)
    (t.ms.paused = true ↔ t.fq.free < m.pLo) ∧
      (y.canQueue = true → y.nq.waiting.length < Config.noticeMax → t.nq = { y.nq with
        waiting := y.nq.waiting ++ if t.ms.paused then [pausedNotice y t.fq.free] else [] }) := by
  obtain ⟨roll, asked, hasked⟩ := checkRequests_requested (paced m y)
  intro t
  have ht : t = requested roll asked (paced m y) := by rw [← hasked, ← reportFree_eq_paced hm]
  have hpaused : t.ms.paused = decide (y.fq.free < m.pLo) := by
    have hms : t.ms.paused = (paced m y).ms.paused := by rw [ht]; rfl
    rw [hms, paced_ms, hp]
    rfl
  have hfq : t.fq = y.fq := by rw [ht, ← paced_fq m y]; rfl
  have hnq : t.nq = (paced m y).nq := by rw [ht]; rfl
  rw [hpaused, hfq]
  refine ⟨decide_eq_true_iff, fun hcan hroom => ?_⟩
  have hnotices : paceNotices m y y.fq.free =
      if decide (y.fq.free < m.pLo) then [pausedNotice y y.fq.free] else [] := by
    unfold paceNotices pausedAt pausedNotice
    rw [hp]
    by_cases hlow : y.fq.free < m.pLo <;> simp [hlow]
  rw [hnq, paced_nq hcan hroom, hnotices]

/-- A mark's expansion under EXPANDING pauses it exactly below P_lo, and tells so where the queue has room (R38, R39). -/
theorem expandOne_paced {m : MachineTable} {s : State} (hm : s.machine = some m) (hp : s.ms.paused = false) (h : Header)
    (f b : Nat) (l : List PressEntry) :
    let t := expandOne h f b l s
    (t.ms.paused = true ↔ t.fq.free < m.pLo) ∧
      (s.canQueue = true → s.nq.waiting.length < Config.noticeMax → t.nq = { s.nq with
        waiting := s.nq.waiting ++ if t.ms.paused then [pausedNotice s t.fq.free] else [] }) := by
  obtain ⟨q, hq⟩ := foldl_joinForecast_rest h l s
  unfold expandOne
  rw [hq]
  exact reported_paced (y := { s with fq := q, ms := { s.ms.use b with run := false, frontier := some (f + 1) } }) hm
    ((use_paused b s.ms).trans hp)

/-- While PAUSED nothing expands (R38). -/
theorem expandable_none_of_paused {s : State} (hp : s.ms.paused = true) : s.expandable = none := by
  unfold State.expandable
  split
  · exact if_neg (fun hgo => by simp [hp] at hgo)
  · rfl

/-- While PAUSED no mark expands, however many are tried (R38). -/
theorem expandFor_paused {s : State} (hp : s.ms.paused = true) (n : Nat) : expandFor n s = s := by
  cases n with
  | zero => rfl
  | succ n => unfold expandFor; rw [expandable_none_of_paused hp]

/-- What decides whether the part queues stands through an attempt. -/
theorem canQueue_of_expandsOnly {s t : State} (h : ExpandsOnly s t) : t.canQueue = s.canQueue := by
  rw [h.rest]
  rfl

/-- An attempt under EXPANDING, with the free count not below P_lo, ends PAUSED exactly with it below P_lo (R39). -/
theorem expandFor_paused_iff {m : MachineTable} (n : Nat) : ∀ {s : State}, s.machine = some m → s.ms.paused = false →
    m.pLo ≤ s.fq.free → ((expandFor n s).ms.paused = true ↔ (expandFor n s).fq.free < m.pLo) := by
  induction n with
  | zero => intro s _ hp hfree; simp [expandFor, hp, hfree]
  | succ n ih =>
    intro s hm hp hfree
    unfold expandFor
    split
    · simp [hp, hfree]
    · rename_i h f b l _
      obtain ⟨hiff, -⟩ := expandOne_paced hm hp h f b l
      have hm' : (expandOne h f b l s).machine = some m := (expandOne_frontier h f b l s).1.trans hm
      cases hp' : (expandOne h f b l s).ms.paused with
      | true => rw [expandFor_paused hp']; exact hiff
      | false => exact ih hm' hp' (by rw [hp'] at hiff; simpa using hiff)

/-- An attempt under EXPANDING queues one notice where it ends PAUSED and none otherwise, where the queue has room (R39). -/
theorem expandFor_nq {m : MachineTable} (n : Nat) : ∀ {s : State}, s.machine = some m → s.ms.paused = false →
    s.canQueue = true → s.nq.waiting.length < Config.noticeMax → (expandFor n s).nq = { s.nq with
      waiting := s.nq.waiting ++ if (expandFor n s).ms.paused then [pausedNotice s (expandFor n s).fq.free] else [] } := by
  induction n with
  | zero => intro s _ hp _ _; simp [expandFor, hp]
  | succ n ih =>
    intro s hm hp hcan hroom
    unfold expandFor
    split
    · simp [hp]
    · rename_i h f b l _
      obtain ⟨-, hnq⟩ := expandOne_paced hm hp h f b l
      have hnq := hnq hcan hroom
      have honly := expandsOnly_expandOne h f b l s
      have hm' : (expandOne h f b l s).machine = some m := (expandOne_frontier h f b l s).1.trans hm
      have hpu : (expandOne h f b l s).pu = s.pu := by rw [honly.rest]
      cases hp' : (expandOne h f b l s).ms.paused with
      | true => rw [expandFor_paused hp']; exact hnq
      | false =>
        have hstands : (expandOne h f b l s).nq = s.nq := by rw [hnq, hp']; simp
        have hrest := ih hm' hp' ((canQueue_of_expandsOnly honly).trans hcan) (by rw [hstands]; exact hroom)
        rw [hstands] at hrest
        simpa only [pausedNotice, hpu] using hrest

/-- While PAUSED an attempt changes nothing (R38). -/
theorem expand_paused {s : State} (hp : s.ms.paused = true) : expand s = s := expand_none s (expandable_none_of_paused hp)

/-- Whatever an attempt does, it queues the notice of its pausing or none, where the queue has room (R39). -/
theorem expand_nq {s : State} (hcan : s.canQueue = true) (hroom : s.nq.waiting.length < Config.noticeMax) :
    ∃ told, (expand s).nq = { s.nq with waiting := s.nq.waiting ++ told } ∧
      (s.ms.paused = false → (expand s).ms.paused = true → pausedNotice s (expand s).fq.free ∈ told) := by
  cases hp : s.ms.paused with
  | true =>
    rw [expand_paused hp]
    exact ⟨[], by simp, nofun⟩
  | false =>
    unfold expand
    cases hm : s.machine with
    | none => exact ⟨[], by simp, fun _ hp' => by simp [hp] at hp'⟩
    | some m => exact ⟨_, expandFor_nq _ hm hp hcan hroom, fun _ hp' => by simp [hp']⟩

/-! ### Storing a block -/

/-- The state with the block written into the store (R35). -/
def stored (blk : Block) (s : State) : State := { s with ms := s.ms.store blk }

/-- The statements' storing is the model's, with the faults told (R26, R35). -/
theorem storedAs_eq (blk : Block) (s : State) : storedAs blk s =
    if blk.clamped = 0 ∧ blk.dropped = 0 then stored blk s
    else queueNotice .blockFault (wNat blk.num) (wNat blk.clamped) (wNat blk.dropped) (stored blk s) := by
  unfold storedAs stored MapStore.store
  rw [victim_eq_wayFor]
  rfl

/-- Storing changes the Map Store and the Notice Queue. -/
theorem storedAs_rest (blk : Block) (s : State) :
    storedAs blk s = { s with ms := s.ms.store blk, nq := (storedAs blk s).nq } := by
  rw [storedAs_eq]
  split
  · rfl
  · rw [queueNotice_rest]
    rfl

/-- A block with faults tells them at the end of a queue with room (R26, R187); one without tells nothing. -/
theorem storedAs_nq {blk : Block} {s : State} (hcan : s.canQueue = true) (hroom : s.nq.waiting.length < Config.noticeMax) :
    (storedAs blk s).nq = { s.nq with waiting := s.nq.waiting ++ if blk.clamped = 0 ∧ blk.dropped = 0 then [] else
      [{ kind := .blockFault, u := s.pu.u, v0 := wNat blk.num, v1 := wNat blk.clamped, v2 := wNat blk.dropped }] } := by
  rw [storedAs_eq]
  split
  · simp [stored]
  · rw [queueNotice_room _ _ _ _ (stored blk s) hcan hroom]
    rfl

/-- The state at the end of the event that stores a block. -/
def afterBlock (blk : Block) (s : State) : State := endEvent (checkRequests (expand (storedAs blk s)))

/-- Beside the block written, storing changes only what an attempt to expand may change. -/
theorem expandsOnly_afterBlock (blk : Block) (s : State) : ExpandsOnly (stored blk s) (afterBlock blk s) := by
  have hstored : ExpandsOnly (stored blk s) (storedAs blk s) := by
    rw [storedAs_rest]
    exact ⟨rfl, rfl, rfl, rfl⟩
  have hended : ∀ t, ExpandsOnly t (endEvent t) := by
    intro t
    rw [(noticesOnly_endEvent t).rest]
    exact ⟨rfl, rfl, rfl, rfl⟩
  exact ((hstored.trans (expandsOnly_expand _)).trans (expandsOnly_checkRequests _)).trans (hended _)

/-- The end of the event and the check of requests leave the lists of features and the expansion state (R33, R187). -/
theorem afterBlock_expansion (blk : Block) (s : State) : (afterBlock blk s).fq = (expand (storedAs blk s)).fq ∧
    (afterBlock blk s).ms.frontier = (expand (storedAs blk s)).ms.frontier ∧
    (afterBlock blk s).ms.paused = (expand (storedAs blk s)).ms.paused := by
  unfold afterBlock
  rw [(noticesOnly_endEvent _).rest]
  obtain ⟨roll, asked, hasked⟩ := checkRequests_requested (expand (storedAs blk s))
  rw [hasked]
  exact ⟨rfl, rfl, rfl⟩

/-- While PAUSED a stored block expands nothing (R38). -/
theorem afterBlock_paused {blk : Block} {s : State} (hp : s.ms.paused = true) :
    (afterBlock blk s).fq = s.fq ∧ (afterBlock blk s).ms.frontier = s.ms.frontier ∧ (afterBlock blk s).ms.paused = true := by
  obtain ⟨hfq, hfrontier, hpaused⟩ := afterBlock_expansion blk s
  have hrest := storedAs_rest blk s
  have hp' : (storedAs blk s).ms.paused = true := by rw [hrest]; exact hp
  rw [expand_paused hp'] at hfq hfrontier hpaused
  exact ⟨hfq.trans (by rw [hrest]), hfrontier.trans (by rw [hrest]; rfl), hpaused.trans hp'⟩

/-- From EXPANDING, with the free count not below P_lo, the event ends PAUSED exactly with it below P_lo (R39). -/
theorem afterBlock_paused_iff {m : MachineTable} {blk : Block} {s : State} (hm : s.machine = some m) (hp : s.ms.paused = false)
    (hfree : m.pLo ≤ s.fq.free) : (afterBlock blk s).ms.paused = true ↔ (afterBlock blk s).fq.free < m.pLo := by
  obtain ⟨hfq, -, hpaused⟩ := afterBlock_expansion blk s
  have hrest := storedAs_rest blk s
  have hm' : (storedAs blk s).machine = some m := by rw [hrest]; exact hm
  have hp' : (storedAs blk s).ms.paused = false := by rw [hrest]; exact hp
  have hfree' : m.pLo ≤ (storedAs blk s).fq.free := by rw [hrest]; exact hfree
  rw [hfq, hpaused]
  unfold expand
  rw [hm']
  exact expandFor_paused_iff _ hm' hp' hfree'

/-- Where another notice is in flight, the faults of the block and the pausing are told and wait (R26, R39, R187). -/
theorem afterBlock_waiting {blk : Block} {s : State} (hw : NoticesWait s) :
    ∃ told, (afterBlock blk s).nq.waiting = s.nq.waiting ++ (if blk.clamped = 0 ∧ blk.dropped = 0 then [] else
        [{ kind := .blockFault, u := s.pu.u, v0 := wNat blk.num, v1 := wNat blk.clamped, v2 := wNat blk.dropped }]) ++ told ∧
      (s.ms.paused = false → (afterBlock blk s).ms.paused = true → pausedNotice s (afterBlock blk s).fq.free ∈ told) := by
  obtain ⟨hcan, hflight, hlen⟩ := hw
  obtain ⟨hfq, -, hpaused⟩ := afterBlock_expansion blk s
  have hrest := storedAs_rest blk s
  have hnq := storedAs_nq (blk := blk) hcan (by simp only [Config.noticeMax]; omega)
  have hroom : (storedAs blk s).nq.waiting.length < Config.noticeMax := by
    rw [hnq, Config.noticeMax, List.length_append]
    split <;> simp <;> omega
  have hcan' : (storedAs blk s).canQueue = true := by rw [hrest]; exact hcan
  have hp' : (storedAs blk s).ms.paused = s.ms.paused := by rw [hrest]; rfl
  have hpu : (storedAs blk s).pu = s.pu := by rw [hrest]
  obtain ⟨told, htold, hpausing⟩ := expand_nq hcan' hroom
  obtain ⟨roll, asked, hasked⟩ := checkRequests_requested (expand (storedAs blk s))
  have hnq' : (checkRequests (expand (storedAs blk s))).nq = (expand (storedAs blk s)).nq := by rw [hasked]; rfl
  have hended : afterBlock blk s = checkRequests (expand (storedAs blk s)) := by
    refine endEvent_busy _ ?_
    rw [hnq', htold, hnq]
    exact hflight
  refine ⟨told, ?_, ?_⟩
  · rw [hended, hnq', htold, hnq]
  · rw [hfq, hpaused, ← hp']
    simpa only [pausedNotice, hpu] using hpausing

/-- The block just stored is not requested again: it stands in the store, and the store is lawful (R32, R33). -/
theorem not_outstanding_afterBlock {blk : Block} {s : State} (hl : s.ms.lawful) (ho : blk.num ∈ s.ms.outstanding) :
    blk.num ∉ (afterBlock blk s).ms.outstanding := by
  have hlaw : (afterBlock blk s).ms.lawful := by
    refine (kept_endEvent _).map ((kept_checkRequests _).map ((upholds_expand _).map ?_))
    rw [storedAs_rest]
    exact MapStore.store_lawful blk s.ms ho hl
  obtain ⟨hslots, -⟩ := hl
  obtain ⟨-, -, -, -, -, -, hout⟩ := hlaw
  have hlt : slotOf blk.num (s.ms.victim blk.num) < s.ms.slots.length := by
    rw [hslots]
    unfold slotOf
    split <;> omega
  refine hout (slotOf blk.num (s.ms.victim blk.num)) blk ?_
  rw [(expandsOnly_afterBlock blk s).slots]
  exact List.getElem?_set_self hlt

/-! ### The statement -/

/-- The tables, the roll headers and every block but the Map Store's own and the Forecast list stand, from the state in which the
frame is judged (R35). -/
theorem afterBlock_frame (rx : Rx) (p : Payload) (blk : Block) (s : State) :
    let x := afterBlock blk (passedOn rx p s)
    SameTables s x ∧ SameLink (passedOn rx p s) x ∧ x.pu = s.pu ∧ x.mt = s.mt ∧ x.fq.settled = s.fq.settled ∧ x.fq.hCam = s.fq.hCam ∧
      x.knives = s.knives ∧ x.ss = s.ss ∧ x.sc = s.sc ∧ x.rs = s.rs := by
  intro x
  obtain ⟨hrest, -, hcurrent, hnext⟩ := expandsOnly_afterBlock blk (passedOn rx p s)
  obtain ⟨q, a, hport, -⟩ := passedOn_rest rx p s
  have hx : x = _ := hrest
  have hcurrent' : (passedOn rx p s).ms.current = s.ms.current := by rw [passedOn_ms]
  have hnext' : (passedOn rx p s).ms.next = s.ms.next := by rw [passedOn_ms]
  have hblocks : x.pending = s.pending ∧ x.machine = s.machine ∧ x.peers = s.peers ∧ x.lpt = s.lpt := by
    rw [hx, hport]
    exact ⟨rfl, rfl, rfl, rfl⟩
  obtain ⟨hpending, hmachine, hpeers, hplans⟩ := hblocks
  refine ⟨⟨hpending, hmachine, hpeers, hplans, hcurrent.trans hcurrent', hnext.trans hnext'⟩, ?_, ?_⟩
  · rw [hx]
    exact ⟨rfl, rfl, rfl, rfl, rfl, rfl, rfl, rfl⟩
  · rw [hx, hport]
    exact ⟨rfl, rfl, rfl, rfl, rfl, rfl, rfl, rfl⟩

/-- A broadcast sent on leaves the waiting notices and what decides whether more can join. -/
theorem noticesWait_passedOn {rx : Rx} {p : Payload} {s : State} (hw : NoticesWait s) : NoticesWait (passedOn rx p s) := by
  obtain ⟨q, a, hport, -⟩ := passedOn_rest rx p s
  obtain ⟨hcan, hflight, hlen⟩ := hw
  rw [hport]
  refine ⟨?_, hflight, hlen⟩
  simpa [State.canQueue, State.station] using hcan

/-- Settles O32: the block's own clauses are those of `afterBlock`; the attempt to expand, the pacing and the check of requests have
been stated on every state above. -/
theorem mapBlockIsStored : Obligations.MapBlockIsStored := by
  refine ⟨?_, attemptsExpand, pacingFollowsTheFreeCount, requestsAreChecked⟩
  intro rx roll block flags count items h s hfrom hl hc hroll hcount hlen hdense hp ho
  generalize hblk : screenBlock h block.toNat (flags.getLsbD 0) items = blk
  generalize hS : passedOn rx (.block roll block flags count items) s = S
  have hms : S.ms = s.ms := by rw [← hS, passedOn_ms]
  have hnum : blk.num = block.toNat := by rw [← hblk]; rfl
  have hstored : exec (.mapBlock rx roll block flags count items) s = .next (afterBlock blk S) := by
    have hr := range_test_passes hcount hlen hdense
    rw [exec_mapBlock hfrom hcount, hS, takeBlock_stored (by rw [hms]; exact hc) hroll hr (by rw [hms]; exact hp)
      (by rw [hms]; exact ho), hblk]
    rfl
  have hframe := afterBlock_frame rx (.block roll block flags count items) blk s
  have hwaits : NoticesWait s → NoticesWait S := fun hw => hS ▸ noticesWait_passedOn hw
  obtain ⟨hmachine, hfq⟩ : S.machine = s.machine ∧ S.fq = s.fq := by
    obtain ⟨q, a, hport, -⟩ := passedOn_rest rx (.block roll block flags count items) s
    rw [← hS, hport]
    exact ⟨rfl, rfl⟩
  rw [hS] at hframe
  obtain ⟨htables, hlink, hpu, hmt, hsettled, hcam, hknives, hss, hsc, hrs⟩ := hframe
  refine ⟨afterBlock blk S, hstored, ?_, ?_, ?_, ?_, htables, hlink, hpu, hmt, hsettled, hcam, hknives, hss, hsc, hrs, rfl, ?_, ?_⟩
  · rw [(expandsOnly_afterBlock blk S).slots, ← hms, ← victim_eq_wayFor, ← hnum]
    rfl
  · exact hblk ▸ screenBlock_screened ..
  · intro blk' hscreened hfaults hw
    rw [eq_screenBlock_of_screened hscreened, hblk] at hfaults ⊢
    obtain ⟨told, hwaiting, -⟩ := afterBlock_waiting (blk := blk) (hwaits hw)
    rw [if_neg (by omega)] at hwaiting
    refine ⟨_, by rw [hwaiting]; exact List.mem_append_left _ (List.mem_append_right _ (List.mem_singleton_self _)), rfl, ?_, rfl, rfl⟩
    rw [hnum]
    exact BitVec.ofNat_toNat 32 block
  · rw [← hnum]
    exact not_outstanding_afterBlock (hms ▸ hl) (by rw [hnum, hms]; exact ho)
  · intro hpaused
    rw [← hfq, ← hms]
    exact afterBlock_paused (by rw [hms]; exact hpaused)
  · intro m hm hpaused hfree
    have hpaused' : S.ms.paused = false := by rw [hms]; exact hpaused
    refine ⟨afterBlock_paused_iff (hmachine.trans hm) hpaused' (by rw [hfq]; exact hfree), fun hw hx => ?_⟩
    obtain ⟨told, hwaiting, hpausing⟩ := afterBlock_waiting (blk := blk) (hwaits hw)
    exact ⟨_, by rw [hwaiting]; exact List.mem_append_right _ (hpausing hpaused' hx), rfl, rfl⟩

end Sys2Proof.RollMap
end

section
/-! PROOFS. The laws of every block at once: the power-on values meet them, and every command keeps them; with them the Feature
Queue's order (R43, R45). -/

namespace Sys2Proof.EveryBlock

open Sys2Proof Sys2Proof.Machine Sys2Proof.Claims

/-! ### Power-on values -/

/-- The empty queue of power-on is lawful (R67, R117). -/
theorem init_queue_lawful : FeatureQueue.init.lawful :=
  ⟨List.nodup_nil, fun _ hn => absurd hn List.not_mem_nil, List.Pairwise.nil, List.Pairwise.nil, List.length_replicate ..⟩

/-- The records of power-on are lawful: no header holds one (R173). -/
theorem init_records_lawful : RecordStore.init.lawful :=
  ⟨List.length_replicate .., fun _ hr => absurd (List.eq_of_mem_replicate hr) (Option.some_ne_none _)⟩

/-- The Position Unit of power-on is lawful while no machine table is loaded (R9). -/
theorem init_position_lawful : PositionUnit.init.lawful none :=
  ⟨by decide, by decide, Nat.zero_le _, Nat.zero_le _, fun _ hm => absurd hm.symm (Option.some_ne_none _)⟩

/-- The tracker of power-on is lawful (R22). -/
theorem init_tracker_lawful : MarkTracker.init.lawful := by unfold MarkTracker.lawful; decide

/-- The set of power-on is lawful (R156). -/
theorem init_set_lawful : SetController.init.lawful := ⟨Nat.le_refl 1, by decide, List.length_replicate ..⟩

/-- The banks of power-on are lawful: they hold no plan (R77). -/
theorem init_plans_lawful : LanePlans.init.lawful :=
  ⟨fun _ hb => absurd hb.symm (Option.some_ne_none _), fun _ hb => absurd hb.symm (Option.some_ne_none _)⟩

/-- Power-on keeps the laws of every block, since its values are lawful whatever stood before (R190). -/
theorem laws_powerOn (straps : BitVec 6) (s : State) : KeepsLaws s (powerOnState straps s) where
  pu _ := init_position_lawful
  mt _ := init_tracker_lawful
  queue _ := init_queue_lawful
  map _ := RollMap.init_lawful
  notices _ := Nat.zero_le _
  own _ := fun _ => Nat.zero_le _
  ports _ := ⟨fun p => by cases p <;> exact Nat.zero_le _, Nat.zero_le _⟩
  records _ := init_records_lawful
  sets _ := init_set_lawful
  plans _ := init_plans_lawful
  pending := rfl

/-- A RESET that takes effect keeps the laws: beside the power-on values it leaves the frame that each port is sending (R179, R184). -/
theorem laws_takeReset (straps : BitVec 6) (s : State) : KeepsLaws s (takeReset straps s) := by
  unfold takeReset
  split
  · obtain ⟨pu, mt, queue, map, notices, own, ports, records, sets, plans, pending⟩ := laws_powerOn straps s
    refine ⟨pu, mt, queue, map, notices, own, fun h => ⟨fun p => ?_, (ports h).2⟩, records, sets, plans, pending⟩
    cases p
    · exact (ports h).1 .a
    · exact (ports h).1 .b
  · exact KeepsLaws.refl s

/-! ### Every command -/

/-- A command keeps the laws where what it does before the end of its event does (R187). -/
theorem laws_done {s x t : State} (hx : KeepsLaws s x) (h : done x = .next t) : KeepsLaws s t := by
  have ht : endEvent x = t := Host.Outcome.next.inj h
  exact ht ▸ hx.trans (kept_endEvent x).keeps.toKeepsLaws

/-- A frame that arrives as its bytes stand keeps the laws (R174). -/
theorem laws_arriveRaw (p : Port) (f : Frame) (s : State) : KeepsLaws s (arriveRaw p f s) := by
  cases f with
  | foreign ethertype payload => exact (keeps_forward ..).toKeepsLaws
  | line l => exact laws_receive ..

/-- Every command keeps the laws of every block. -/
theorem exec_keepsLaws (c : Instr) {s t : State} (h : exec c s = .next t) : KeepsLaws s t := by
  cases c with
  | powerOn straps => exact laws_done (laws_powerOn straps s) h
  | portLinkChange port up => exact laws_done (laws_changeLink port up s) h
  | portIdle port => exact laws_done (laws_idlePort port s) h
  | passingFrame port f => exact laws_done (laws_arriveRaw port f s) h
  | silenceTimerExpiry => exact laws_done (keeps_expireSilence s).toKeepsLaws h
  | confirmTimerExpiry knife => exact laws_done (keeps_expireConfirm knife s).toKeepsLaws h
  | reelRecordSent => exact laws_done (laws_reportRecord s) h
  | noticeSent => exact laws_done (laws_reportNotice s) h
  | resetTakesEffect straps => exact laws_done (laws_takeReset straps s) h
  | countFrame | markFrame | sightingFrame | knifeReport | mapBlock | recordHold | recordRelease | readStatus | readTable
  | loadMachine | loadPeers | loadBankActive | loadBankPending | cancelPending | loadRollHeader | setLateralOffset | reset
  | unknownRequest | rollStart | rollEnd | markResync | doffNow | doffComplete | removalReport | resume | knifeRetry =>
    exact laws_done (laws_receive ..) h

/-- A step keeps the laws of every block from the state that its command is run on: the state itself, with the queue's rest. -/
theorem step_keepsLaws {s t : State} (h : step s = .next t) : ∃ rest, KeepsLaws { s with pending := rest } t := by
  unfold step at h
  split at h
  · have ht : s = t := Host.Outcome.next.inj h
    exact ⟨s.pending, ht ▸ KeepsLaws.refl s⟩
  · exact ⟨_, exec_keepsLaws _ h⟩

/-- Settles O9: the queue's law is one of those that every step keeps, and the commands waiting are no part of it. -/
theorem stepsKeepQueueInOrder : Obligations.StepsKeepQueueInOrder := by
  intro s t hs h
  obtain ⟨rest, hkeeps⟩ := step_keepsLaws h
  exact hkeeps.queue hs

end Sys2Proof.EveryBlock
end

section
/-! PROOFS. Entries of which no station is due: no look of the Stop Scheduler takes a station of them or moves them (R98, R121). -/

namespace Sys2Proof.Standing

open Sys2Proof Sys2Proof.Machine Sys2Proof.Claims

/-! ### What leaves the Feature Queue -/

theorem queueNotice_fq (k : NoticeKind) (a b c : Word) (s : State) : (queueNotice k a b c s).fq = s.fq := by
  rw [queueNotice_rest]

theorem queueOwn_fq (c : OwnClass) (dst : Nat) (tag : Option Half) (body : OwnBody) (s : State) :
    (queueOwn c dst tag body s).fq = s.fq := by
  unfold queueOwn
  split_ifs <;> rfl

theorem driveOrder_fq (body : OwnBody) (s : State) : (driveOrder body s).fq = s.fq := queueOwn_fq ..

theorem noticeTags_fq (before : Nat) (s : State) : (noticeTags before s).fq = s.fq := by
  unfold noticeTags
  split_ifs
  · exact queueNotice_fq ..
  · exact queueNotice_fq ..
  · rfl

theorem reportFree_fq (s : State) : (reportFree s).fq = s.fq := by
  cases hm : s.machine with
  | none => unfold reportFree; rw [hm]
  | some m => rw [RollMap.reportFree_eq_paced hm, RollMap.paced_fq]

theorem writeEvents_fq (pStart : Int) (e : Settled) (s : State) : (writeEvents pStart e s).fq = s.fq := by
  unfold writeEvents
  generalize e.items = items
  induction items generalizing s with
  | nil => rfl
  | cons i items ih => exact ih _

theorem halt_fq (m : MachineTable) (e : Int) (s : State) : (halt m e s).fq = s.fq := by
  unfold halt cutHalt formDs
  dsimp only
  split_ifs
  · exact driveOrder_fq ..
  · rfl

theorem standstillCheck_fq (m : MachineTable) (s : State) : (standstillCheck m s).fq = s.fq := by
  unfold standstillCheck
  split
  · rfl
  · dsimp only
    generalize (if s.ss.state = .requested then 0 else s.ss.jogs) = jogs
    split_ifs
    · exact halt_fq ..
    · exact driveOrder_fq ..
    · exact halt_fq ..
    · rfl

theorem cancelStop_fq (s : State) : (cancelStop s).fq = s.fq := driveOrder_fq ..

theorem reviseOrder_fq (m : MachineTable) (s : State) : (reviseOrder m s).fq = s.fq := by
  unfold reviseOrder
  dsimp only
  split
  · split
    · exact driveOrder_fq ..
    · rfl
  · rfl

/-! ### One entry of the Settled list -/

/-- A change of an entry that may be seen in its lane items and its served mark alone. -/
def Unmoved (g : Settled → Settled) : Prop :=
  ∀ e, (g e).feat = { e.feat with served := (g e).feat.served } ∧ (g e).p = e.p ∧ (g e).knife = e.knife ∧ (g e).table = e.table ∧
    (g e).flag = e.flag ∧ (g e).nip = e.nip

theorem unmoved_setServed (b : Bool) : Unmoved (Settled.setServed b) := fun _ => ⟨rfl, rfl, rfl, rfl, rfl, rfl⟩

/-- What stands in the Settled list stands in any state with that list. -/
theorem stands_of_settled {f : Feature} {p : Int} {s t : State} (h : t.fq.settled = s.fq.settled) (hs : Stands f p s) :
    Stands f p t := by
  unfold Stands at hs ⊢
  rwa [h]

/-- A change of one number leaves the entries of the others, and its own entry where the change does not move it. -/
theorem stands_changeSettled {f : Feature} {p : Int} {num : Nat} {g : Settled → Settled} {s : State}
    (h : f.num ≠ num ∨ Unmoved g) (hs : Stands f p s) : Stands f p (changeSettled num g s) := by
  obtain ⟨e, he, hf, hp, hk, ht, hfl, hn⟩ := hs
  refine ⟨if e.feat.num = num then g e else e, List.mem_map_of_mem he, ?_⟩
  split
  · rename_i hnum
    have hsame : f.num = num := by rw [← hnum, hf]
    obtain ⟨hgf, hgp, hgk, hgt, hgfl, hgn⟩ := h.resolve_left (not_not_intro hsame) e
    refine ⟨?_, hgp.trans hp, hgk.trans hk, hgt.trans ht, hgfl.trans hfl, hgn.trans hn⟩
    rw [hgf, hf]
  · exact ⟨hf, hp, hk, ht, hfl, hn⟩

/-- The entry that has been changed stands where it was. -/
theorem changed_mem {e : Settled} {g : Settled → Settled} {s : State} (he : e ∈ s.fq.settled) :
    g e ∈ (changeSettled e.feat.num g s).fq.settled :=
  List.mem_map.2 ⟨e, he, if_pos rfl⟩

/-- An entry that leaves leaves the others. -/
theorem stands_leave {f : Feature} {p : Int} {num : Nat} {s : State} (h : f.num ≠ num) (hs : Stands f p s) :
    Stands f p (leave num s) := by
  obtain ⟨e, he, hf, hrest⟩ := hs
  have hnum : e.feat.num ≠ num := by rw [hf]; exact h
  refine ⟨e, ?_, hf, hrest⟩
  unfold leave
  rw [noticeTags_fq, reportFree_fq]
  exact List.mem_filter.2 ⟨he, bne_iff_ne.2 hnum⟩

/-- A slot has one entry (R43): the entry of a number is the one found under it. -/
theorem findSettled_of_mem {q : FeatureQueue} (hq : q.lawful) {e : Settled} (he : e ∈ q.settled) :
    q.findSettled e.feat.num = some e := by
  obtain ⟨hnodup, -⟩ := hq
  obtain ⟨-, hsettled, -⟩ := List.nodup_append.1 hnodup
  unfold FeatureQueue.findSettled
  cases hfound : q.settled.find? (fun x => x.feat.num == e.feat.num) with
  | none => exact absurd (List.find?_eq_none.1 hfound e he) (by simp)
  | some x =>
    have hnum : x.feat.num = e.feat.num := by simpa using List.find?_some hfound
    exact congrArg some (List.inj_on_of_nodup_map hsettled (List.mem_of_find?_eq_some hfound) he hnum)

theorem num_of_findSettled {q : FeatureQueue} {num : Nat} {e : Settled} (h : q.findSettled num = some e) : e.feat.num = num := by
  simpa using List.find?_some h

/-! ### Stations -/

/-- No station is due of an entry that lies ahead of all four (R98). -/
theorem not_due_of_ahead {m : MachineTable} {u : Int} {e : Settled} (h : Ahead m u e.p) (st : Station) : e.due u m st = false := by
  obtain ⟨hkn, hst, hfl, hnip⟩ := h
  have hlt : u - m.distance st < e.p := by
    cases st with
    | knife => exact hkn
    | table => exact hst
    | flag => exact hfl
    | nip => exact hnip
  simp [Settled.due, Int.not_le.2 hlt]

theorem stands_missStops {f : Feature} {p : Int} {s : State} (e : Settled) (hs : Stands f p s) : Stands f p (missStops e s) := by
  have h := stands_changeSettled (num := e.feat.num) (g := fun x => { x with items := x.items.map LaneItem.downgrade })
    (.inr fun _ => ⟨rfl, rfl, rfl, rfl, rfl, rfl⟩) hs
  unfold missStops
  dsimp only
  split
  · exact stands_of_settled (by rw [queueNotice_fq]) h
  · exact h

/-- A station taken of one entry leaves every other entry (R99). -/
theorem stands_takeStation {f : Feature} {p : Int} {num : Nat} {s : State} (cleared : Bool) (st : Station) (hnum : f.num ≠ num)
    (hs : Stands f p s) : Stands f p (takeStation cleared st num s) := by
  unfold takeStation
  split
  · rename_i m e hm he
    have hother : f.num ≠ e.feat.num := by rw [num_of_findSettled he]; exact hnum
    cases st with
    | knife =>
      dsimp only [takeKnife]
      split
      · exact stands_leave hother hs
      · exact stands_changeSettled (.inl hother) hs
    | table =>
      have h := stands_changeSettled (g := fun x => { x with table := true }) (.inl hother) hs
      dsimp only [takeTable]
      split
      · exact h
      · exact stands_missStops e h
    | flag =>
      dsimp only [takeFlag]
      split
      · exact hs
      · have h := stands_changeSettled (g := fun x => { x with items := e.items.map (s.flagItem m (!cleared && s.recordsAt e.p) e.p)
                                                               flag := true }) (.inl hother) hs
        split
        · exact stands_of_settled (by rw [queueOwn_fq]) h
        · exact h
    | nip =>
      dsimp only [takeNip]
      split
      · exact hs
      · split
        · exact stands_leave hother (stands_of_settled (by rw [writeEvents_fq]) hs)
        · exact hs
        · exact stands_leave hother hs
  · exact hs

/-! ### What spares the entries ahead -/

/-- From `s` to `t` nothing fixed moves and no entry joins, and what lies ahead of every station in a lawful queue stands. -/
structure Spares (s t : State) : Prop extends Kept s t where
  ahead : ∀ m f p, s.machine = some m → s.fq.lawful → Ahead m s.pu.u p → Stands f p s → Stands f p t

theorem Spares.refl (s : State) : Spares s s := ⟨Kept.refl s, fun _ _ _ _ _ _ => id⟩

theorem Spares.trans {s t u : State} (h : Spares s t) (k : Spares t u) : Spares s u := by
  have hmachine : t.machine = s.machine := congrArg Fixed.machine h.fixed
  have hpu : t.pu = s.pu := congrArg Fixed.pu h.fixed
  refine ⟨h.toKept.trans k.toKept, fun m f p hm hq ha hs => ?_⟩
  exact k.ahead m f p (hmachine.trans hm) (h.queue hq) (by rw [hpu]; exact ha) (h.ahead m f p hm hq ha hs)

theorem Spares.foldl {α : Type} (f : State → α → State) (h : ∀ s x, Spares s (f s x)) (l : List α) : ∀ s, Spares s (l.foldl f s) := by
  induction l with
  | nil => exact Spares.refl
  | cons x l ih => exact fun s => (h s x).trans (ih _)

theorem Spares.of_settled {s t : State} (h : Kept s t) (ht : t.fq.settled = s.fq.settled) : Spares s t :=
  ⟨h, fun _ _ _ _ _ _ => stands_of_settled ht⟩

theorem Spares.of_fq {s t : State} (h : Kept s t) (ht : t.fq = s.fq) : Spares s t := .of_settled h (by rw [ht])

/-- An update of the Stop Scheduler's own registers. -/
theorem Spares.stop (s : State) (x : StopScheduler) : Spares s { s with ss := x } := .of_fq (Kept.stop s x) rfl

/-- The stations of one look: those of an entry ahead are not due, and those of the others leave it (R98, R99). -/
theorem spares_takeAll {m : MachineTable} (cleared : Option Nat) (l : List DueStation) :
    ∀ {s : State}, s.machine = some m → Spares s (takeAll m cleared l s) := by
  induction l with
  | nil => exact fun _ => Spares.refl _
  | cons d l ih =>
    intro s hm
    have hone : Spares s (takeAll m cleared [d] s) := by
      refine ⟨kept_takeAll .., fun m' f p hm' hq ha hs => ?_⟩
      obtain rfl : m' = m := Option.some.inj (hm'.symm.trans hm)
      dsimp only [takeAll, List.foldl_cons, List.foldl_nil]
      split
      · rename_i hdue
        refine stands_takeStation _ _ (fun hnum => ?_) hs
        obtain ⟨e, he, hf, hp, -⟩ := hs
        have hfound : s.fq.findSettled d.num = some e := by
          rw [← hnum, show f.num = e.feat.num by rw [hf]]
          exact findSettled_of_mem hq he
        rw [hfound, Option.any_some, not_due_of_ahead (by rw [hp]; exact ha)] at hdue
        exact Bool.false_ne_true hdue
      · exact hs
    have hmachine : (takeAll m cleared [d] s).machine = s.machine := congrArg Fixed.machine hone.fixed
    exact hone.trans (ih (hmachine.trans hm))

theorem spares_walkCleared (num : Nat) (s : State) : Spares s (walkCleared num s) := by
  unfold walkCleared
  split
  · exact spares_takeAll _ _ ‹_›
  · exact Spares.refl s

theorem spares_missStops (e : Settled) (s : State) : Spares s (missStops e s) :=
  ⟨kept_missStops e s, fun _ _ _ _ _ _ => stands_missStops e⟩

theorem spares_setServed (num : Nat) (b : Bool) (s : State) : Spares s (changeSettled num (Settled.setServed b) s) :=
  ⟨kept_changeSettled num (Settled.setServed b) (fun _ => ⟨rfl, rfl⟩) s, fun _ _ _ _ _ _ => stands_changeSettled (.inr (unmoved_setServed b))⟩

theorem spares_clearServed (num : Nat) (s : State) : Spares s (clearServed num s) := by
  unfold clearServed
  split
  · exact Spares.refl s
  · dsimp only
    refine (spares_setServed num false s).trans (Spares.trans ?_ (spares_walkCleared num _))
    split
    · exact spares_missStops ..
    · exact Spares.refl _

/-! ### The Stop Scheduler -/

theorem spares_serve (num : Nat) (s : State) : Spares s (serve num s) :=
  ⟨kept_serve num s, fun m f p hm hq ha hs => stands_of_settled rfl ((spares_setServed num true s).ahead m f p hm hq ha hs)⟩

theorem spares_serveWindow (m : MachineTable) (s : State) : Spares s (serveWindow m s) :=
  Spares.foldl (fun s (x : Nat × Int) => serve x.1 s) (fun s _ => spares_serve _ s) _ s

theorem spares_dropServed (s : State) : Spares s (dropServed s) :=
  Spares.foldl (fun s (e : Settled) => clearServed e.feat.num s) (fun s _ => spares_clearServed _ s) _ s

theorem spares_releaseAll (s : State) : Spares s (releaseAll s) := by
  have hforecast : Kept s { s with fq := { s.fq with forecast := s.fq.forecast.map (Forecast.setServed false) } } :=
    Kept.queueOf s _ rfl (fun h => by
      simpa using s.fq.lawful_map (Forecast.setServed false) id (fun _ => ⟨rfl, rfl, rfl⟩) (fun _ => ⟨rfl, rfl⟩) h)
      (by simp [FeatureQueue.size])
  exact (Spares.of_settled hforecast rfl).trans
    (Spares.foldl (fun s (e : Settled) => clearServed e.feat.num s) (fun s _ => spares_clearServed _ s) _ _)

/-- A stop order sent serves candidates of its window and leaves the queue otherwise (R123, R124). -/
theorem spares_sendStop (m : MachineTable) (aim : Aim) (target : Int) (late : Bool) (s : State) :
    Spares s (sendStop m aim target late s) := by
  unfold sendStop
  extract_lets ds extra kind _ s1 s2 s3
  have h1 : Spares s s1 := (Spares.stop s _).trans (.of_fq (kept_driveOrder ..) (driveOrder_fq ..))
  have h2 : Spares s1 s2 := by
    unfold s2
    split
    · exact spares_serveWindow m s1
    · exact Spares.refl s1
  have h3 : Spares s2 s3 := by
    unfold s3
    split
    · exact .of_fq (kept_queueNotice ..) (queueNotice_fq ..)
    · exact Spares.refl s2
  refine (h1.trans (h2.trans h3)).trans ?_
  split
  · exact .of_fq (kept_standstillCheck m s3) (standstillCheck_fq m s3)
  · exact Spares.refl s3

theorem spares_idleLook (m : MachineTable) (s : State) : Spares s (idleLook m s) := by
  unfold idleLook
  split
  · exact Spares.stop s _
  · dsimp only
    split
    · exact Spares.stop s _
    · exact (Spares.stop s _).trans (spares_sendStop ..)

theorem spares_requestedLook (m : MachineTable) (s : State) : Spares s (requestedLook m s) := by
  unfold requestedLook
  extract_lets s1 s2
  have h1 : Spares s s1 := spares_dropServed s
  have h2 : Spares s s2 := h1.trans (.of_fq (kept_reviseOrder m s1) (reviseOrder_fq m s1))
  split
  · exact (h1.trans (.of_fq (kept_cancelStop s1) (cancelStop_fq s1))).trans (spares_idleLook m _)
  · split
    · exact ((h2.trans (spares_releaseAll s2)).trans (Spares.stop _ _)).trans (spares_sendStop ..)
    · split
      · exact h2.trans (spares_serveWindow m s2)
      · exact h2

/-- A look of the Stop Scheduler, whatever it drops, revises, supersedes or serves, leaves the entries ahead (R121). -/
theorem spares_look (s : State) : Spares s (look s) := by
  unfold look
  split
  · exact Spares.refl s
  · rename_i m _
    extract_lets s0 s1
    have h0 : Spares s s0 := .of_fq (kept_formDs m s) rfl
    split
    · exact h0.trans (spares_idleLook m s0)
    · exact h0.trans (spares_requestedLook m s0)
    · have h1 : Spares s s1 := h0.trans (spares_dropServed s0)
      split
      · exact h1.trans (spares_serveWindow m s1)
      · exact h1
    · exact h0

/-! ### Joining -/

/-- An entry that joins with no station due is judged without a walk (R98, R100). -/
theorem walkJoined_ahead {m : MachineTable} {e : Settled} {s : State} (frame : Bool) (hm : s.machine = some m) (hq : s.fq.lawful)
    (he : e ∈ s.fq.settled) (ha : Ahead m s.pu.u e.p) : walkJoined frame e.feat.num s = s := by
  have hnone : e.dueStations s.pu.u m 0 = [] := by
    unfold Settled.dueStations
    rw [List.filter_eq_nil_iff.2 (fun st _ => by rw [not_due_of_ahead ha st]; exact Bool.false_ne_true), List.map_nil]
  unfold walkJoined
  rw [hm, findSettled_of_mem hq he]
  exact if_pos hnone

/-- An entry that joins ahead of every station stands in the queue once it has been judged (R100, R121). -/
theorem stands_joinJudged {m : MachineTable} {f : Feature} {p : Int} {s : State} (frame : Bool) (hm : s.machine = some m)
    (hq : s.fq.lawful) (hn : f.num = s.fq.freeSlot) (hr : s.fq.size < Config.entrySlots) (ha : Ahead m s.pu.u p) :
    Stands f p (joinJudged frame (freshSettled f p) s) := by
  obtain ⟨hjoin, -⟩ := upholds_joinSettled (freshSettled f p) s hn hr
  have hmem : freshSettled f p ∈ (joinSettled (freshSettled f p) s).fq.settled := by
    unfold joinSettled
    rw [reportFree_fq, noticeTags_fq]
    exact (insertSettled_perm ..).mem_iff.2 List.mem_cons_self
  have hmachine : (joinSettled (freshSettled f p) s).machine = some m := (congrArg Fixed.machine hjoin.fixed).trans hm
  have hahead : Ahead m (joinSettled (freshSettled f p) s).pu.u p := by
    rw [show (joinSettled (freshSettled f p) s).pu = s.pu from congrArg Fixed.pu hjoin.fixed]
    exact ha
  unfold joinJudged
  rw [walkJoined_ahead frame hmachine (hjoin.queue hq) hmem hahead]
  exact (spares_look _).ahead m f p hmachine (hjoin.queue hq) hahead ⟨_, hmem, rfl, rfl, rfl, rfl, rfl, rfl⟩

/-- The attempt to expand and the passing of notices at the end of an event leave the Settled list (R38, R187). -/
theorem stands_ended {f : Feature} {p : Int} {s : State} (hs : Stands f p s) : Stands f p (endEvent (expand s)) := by
  refine stands_of_settled ?_ hs
  rw [(noticesOnly_endEvent _).rest, (expandsOnly_expand s).rest]

end Sys2Proof.Standing
end

section
/-! PROOFS. SIGHTING_FRAME (3.4): the tests of a sighting tied to the words of the statements, and what becomes of a sighting that
confirms, grows, joins or is lost (R54 to R60). -/

namespace Sys2Proof.Sightings

open Sys2Proof Sys2Proof.Machine Sys2Proof.Claims Sys2Proof.Laws Sys2Proof.Standing

/-! ### The tests of a sighting -/

theorem overlaps_iff (mCd : Nat) (a b : Extent) : overlaps mCd a b = true ↔ Overlap mCd a b := by
  simp [overlaps, Overlap]

/-- The extent of the lane resolution is the one that the entry uses (R31, R56). -/
theorem extentOf_iff (s : State) (f : Feature) (x : Extent) : s.extentOf f = some x ↔ UsesExtent s f x := by
  unfold State.extentOf UsesExtent
  cases f.slit with
  | some y => simp
  | none =>
    cases f.press with
    | none => simp
    | some y =>
      cases s.ms.current with
      | none => simp
      | some h => simp [eq_comm]

/-- What the sighting frame says that it saw (R54). -/
def sightedKind (kind cls : Byte) : FeatKind := if kind = 1 then .splice else .defect cls.toNat

/-- The sighting of a frame whose latched count gives the web position u (R54). -/
def sightingAt (m : MachineTable) (u : Int) (kind cls : Byte) (len x0 x1 : Half) (taint : Bool) : Sighting :=
  { p := u - m.dCam, kind := sightedKind kind cls, len := len.toNat, ext := { x0 := x0.toNat, x1 := x1.toNat }, taint := taint }

theorem sightedKind_eq (kind cls : Byte) : sightedKind kind cls = if decide (kind = 1) then .splice else .defect cls.toNat := by
  simp [sightedKind]

/-- The model's test of a confirmation is that of the statements (R56, R59). -/
theorem confirmable_iff (s : State) (m : MachineTable) (g : Sighting) {splice : Bool} {c : Nat}
    (hg : g.kind = if splice then .splice else .defect c) (e : Settled) :
    s.confirmable m g e = true ↔ Confirms s m g.p splice g.ext e := by
  unfold State.confirmable Confirms
  rw [hg]
  cases splice with
  | true => cases e.feat.kind <;> simp [and_assoc]
  | false => cases e.feat.kind <;> simp [and_assoc, Option.any_eq_true, extentOf_iff, overlaps_iff]

/-- The model's first three tests of streak growth are those of the statements (R57). -/
theorem streakCandidate_iff (m : MachineTable) (g : Sighting) {c : Nat} (hg : g.kind = .defect c) (e : Settled) :
    streakCandidate m g e = true ↔ Continues m g.p c g.ext e := by
  simp [streakCandidate, Continues, hg, Option.any_eq_true, overlaps_iff, and_assoc]

/-! ### The nearest entry -/

theorem nearest_mem {p : Int} {l : List Settled} {e : Settled} (h : nearest p l = some e) : e ∈ l := by
  induction l with
  | nil => exact absurd h (by simp [nearest])
  | cons x l ih =>
    unfold nearest at h
    split at h
    · rename_i y hy
      split at h
      · exact List.mem_cons_of_mem _ (ih (hy.trans h))
      · exact Option.some.inj h ▸ List.mem_cons_self
    · exact Option.some.inj h ▸ List.mem_cons_self

/-- An entry nearer than all before it and as near as all behind it is the nearest of those that pass the test, the earliest where two
are as near (R56, R57). -/
theorem nearest_filter {p : Int} {test : Settled → Bool} {pre post : List Settled} {e : Settled}
    (h : NearestOf p (fun x => test x = true) pre e post) : nearest p ((pre ++ e :: post).filter test) = some e := by
  obtain ⟨he, hpre, hpost⟩ := h
  induction pre with
  | nil =>
    rw [List.nil_append, List.filter_cons_of_pos he]
    unfold nearest
    split
    · rename_i y hy
      obtain ⟨hmem, htest⟩ := List.mem_filter.1 (nearest_mem hy)
      exact if_neg (Nat.not_lt.2 (hpost y hmem htest))
    · rfl
  | cons x pre ih =>
    have hrest := ih (fun y hy => hpre y (List.mem_cons_of_mem _ hy))
    by_cases hx : test x = true
    · rw [List.cons_append, List.filter_cons_of_pos hx]
      unfold nearest
      rw [hrest]
      exact if_pos (hpre x List.mem_cons_self hx)
    · rw [List.cons_append, List.filter_cons_of_neg hx]
      exact hrest

/-- Where no entry passes the test there is none nearest. -/
theorem nearest_filter_none {p : Int} {test : Settled → Bool} {l : List Settled} (h : ∀ x ∈ l, test x = false) :
    nearest p (l.filter test) = none := by
  rw [List.filter_eq_nil_iff.2 (fun x hx => by rw [h x hx]; exact Bool.false_ne_true)]
  rfl

/-! ### A sighting handled in the order of R55 -/

section Handled

variable {m : MachineTable} {g : Sighting} {s : State}

/-- The entry nearest among those it can confirm is confirmed (R56, R59). -/
theorem handleSighting_confirms {pre post : List Settled} {e : Settled} (hq : s.fq.settled = pre ++ e :: post)
    (h : NearestOf g.p (fun x => s.confirmable m g x = true) pre e post) :
    handleSighting m g s = merge g e.feat.num (Settled.confirm g) s := by
  unfold handleSighting
  rw [hq, nearest_filter h]

/-- A DEFECT sighting that confirms none grows the nearest streak that it continues, within the length's range (R57). -/
theorem handleSighting_grows {pre post : List Settled} {e : Settled} {c : Nat} (hq : s.fq.settled = pre ++ e :: post)
    (hkind : g.kind = .defect c) (hnone : ∀ x ∈ s.fq.settled, s.confirmable m g x = false)
    (h : NearestOf g.p (fun x => streakCandidate m g x = true) pre e post) (hlen : grownLength g e ≤ 65535) :
    handleSighting m g s = merge g e.feat.num (Settled.grow g) s := by
  have hstreak : s.streak m g = some e := by
    unfold State.streak
    rw [hkind, hq]
    dsimp only
    rw [nearest_filter h, Option.filter_some, if_pos (decide_eq_true hlen)]
  unfold handleSighting
  rw [nearest_filter_none hnone, hstreak]

/-- A sighting that confirms and grows none and lies above the farthest camera position less M_md joins or is lost (R55, R58, R60). -/
theorem handleSighting_new (hnone : ∀ x ∈ s.fq.settled, s.confirmable m g x = false)
    (hstreak : ∀ c, g.kind = .defect c → ∀ x ∈ s.fq.settled, streakCandidate m g x = false)
    (hcam : ∀ hc, s.fq.hCam = some hc → hc - m.mMd < g.p) : handleSighting m g s = joinInline g s := by
  have hgrows : s.streak m g = none := by
    unfold State.streak
    cases hkind : g.kind with
    | defect c =>
      dsimp only
      rw [nearest_filter_none (hstreak c hkind)]
      rfl
    | splice | unmapped | blind => rfl
  have hfresh : s.reread m g.p = false := by
    unfold State.reread
    cases hc : s.fq.hCam with
    | none => rfl
    | some hc' => exact decide_eq_false (Int.not_le.2 (hcam hc' hc))
  unfold handleSighting
  rw [nearest_filter_none hnone, hgrows, hfresh]
  exact if_neg Bool.false_ne_true

end Handled

/-! ### The frame reaches its block -/

/-- The taint of a sighting is that of the statements (R54). -/
theorem taint_iff (s : State) : s.taint = true ↔ Doubtful s.mt.state ∨ s.pu.enc = .silent := by
  unfold State.taint Doubtful
  cases s.mt.state <;> simp [TrackState.doubtful]

/-- The content tests of a sighting frame passed (R54). -/
theorem sightingInRange_of {kind cls : Byte} {x0 x1 : Half} (hkind : kind.toNat ≤ 1) (hcls : kind = 0 → cls.toNat ≤ 15)
    (hx : x0.toNat ≤ x1.toNat) (hx1 : x1.toNat ≤ 30000) : sightingInRange kind cls x0 x1 = true := by
  have hkinds : kind.toNat = 1 ∨ cls.toNat ≤ 15 := by
    rcases Nat.le_one_iff_eq_zero_or_eq_one.1 hkind with h0 | h1
    · exact .inr (hcls (BitVec.eq_of_toNat_eq h0))
    · exact .inl h1
  simp [sightingInRange, hkind, hkinds, hx, hx1]

/-- The kind byte 0 is DEFECT (10.4). -/
theorem sightedKind_zero {kind : Byte} (h : kind = 0) (cls : Byte) : sightedKind kind cls = .defect cls.toNat := by
  rw [h]
  rfl

/-- A kind byte of 0 or 1 that is not SPLICE is DEFECT, code 0 (10.4). -/
theorem kind_eq_zero {kind cls : Byte} {c : Nat} (hkind : kind.toNat ≤ 1) (h : sightedKind kind cls = .defect c) : kind = 0 := by
  rcases Nat.le_one_iff_eq_zero_or_eq_one.1 hkind with h0 | h1
  · exact BitVec.eq_of_toNat_eq h0
  · rw [show kind = 1 from BitVec.eq_of_toNat_eq h1] at h
    exact absurd h (by simp [sightedKind])

/-- A broadcast sent on changes the Line Link Interface alone (R174). -/
theorem passedOn_eq (rx : Rx) (p : Payload) (s : State) : passedOn rx p s = { s with ll := (passedOn rx p s).ll } := by
  obtain ⟨q, a, hport, -⟩ := passedOn_rest rx p s
  rw [hport]

/-- A sighting frame that is taken while a roll is current is handled, and an attempt to expand ends its event (R54, R55). -/
theorem exec_sightingFrame {rx : Rx} {cDet : Word} {kind cls : Byte} {len x0 x1 : Half} {m : MachineTable} {u : Int} {s : State}
    (hfrom : From (·.inspection) s rx) (hm : s.machine = some m) (hc : s.ms.current.isSome = true) (hu : s.latched cDet = some u)
    (hr : sightingInRange kind cls x0 x1 = true) :
    exec (.sightingFrame rx cDet kind cls len x0 x1) s = .next (endEvent (expand (handleSighting m
      (sightingAt m u kind cls len x0 x1 s.taint) (passedOn rx (.sighting cDet kind cls len x0 x1) s)))) := by
  have harrive : arrive rx (.sighting cDet kind cls len x0 x1) s =
      takeSighting rx.src cDet kind cls len x0 x1 (passedOn rx (.sighting cDet kind cls len x0 x1) s) :=
    arrive_from hfrom rfl (fun _ => rfl)
  have htake : ∀ ll, takeSighting rx.src cDet kind cls len x0 x1 { s with ll := ll } =
      expand (handleSighting m (sightingAt m u kind cls len x0 x1 s.taint) { s with ll := ll }) := by
    intro ll
    unfold takeSighting
    rw [if_pos hr, show State.latched { s with ll := ll } cDet = some u from hu]
    dsimp only
    rw [hm]
    exact if_pos hc
  show done (arrive rx (.sighting cDet kind cls len x0 x1) s) = _
  rw [harrive, passedOn_eq, htake]
  rfl

/-- What upholds from the state in which the frame is judged leaves the position, the tracker, the tables, the ports and the knives. -/
theorem frame_of_upholds {rx : Rx} {p : Payload} {s x : State} (h : Upholds (passedOn rx p s) x) :
    x.pu = s.pu ∧ x.mt = s.mt ∧ SameTables s x ∧ SameLink (passedOn rx p s) x ∧ x.knives = s.knives := by
  obtain ⟨q, a, hport, -⟩ := passedOn_rest rx p s
  have hf : x.fixed = (passedOn rx p s).fixed := h.fixed
  have hlink : SameLink (passedOn rx p s) x :=
    ⟨congrArg Fixed.straps hf, congrArg Fixed.portA hf, congrArg Fixed.portB hf, congrArg Fixed.capture hf,
      congrArg Fixed.refusals hf, congrArg Fixed.resetting hf, congrArg Fixed.voidRecord hf, congrArg Fixed.voidNotice hf⟩
  rw [hport] at hf
  exact ⟨congrArg Fixed.pu hf, congrArg Fixed.mt hf, ⟨congrArg Fixed.pending hf, congrArg Fixed.machine hf, congrArg Fixed.peers hf,
    congrArg Fixed.lpt hf, congrArg Fixed.current hf, congrArg Fixed.next hf⟩, hlink, congrArg Fixed.knives hf⟩

/-- A sighting handled, with the rest of its event, upholds the laws (R55). -/
theorem upholds_sighted (m : MachineTable) (g : Sighting) (s : State) : Upholds s (endEvent (expand (handleSighting m g s))) :=
  ((upholds_handleSighting m g s).trans (upholds_expand _)).trans (kept_endEvent _).toUpholds

/-! ### Merging (R56, R57, R59) -/

/-- An entry ahead of every station into which a sighting merges stands as the merging makes it, with the tag of a tainted
sighting. -/
theorem stands_merge {m : MachineTable} {g : Sighting} {f : Settled → Settled} {e : Settled} {s : State} (hm : s.machine = some m)
    (hq : s.fq.lawful) (he : e ∈ s.fq.settled) (ha : Ahead m s.pu.u e.p) (hk : e.knife = false) (ht : e.table = false)
    (hfl : e.flag = false) (hn : e.nip = false) (hf : ∀ x, ∃ y, y.num = x.feat.num ∧ f x = { x with feat := y }) :
    Stands { (f e).feat with suspect := (f e).feat.suspect || g.taint } e.p (merge g e.feat.num f s) := by
  have hplace : ∀ x, (f x).feat.num = x.feat.num ∧ (f x).p = x.p := by
    intro x
    obtain ⟨y, hy, hx⟩ := hf x
    rw [hx]
    exact ⟨hy, rfl⟩
  have hmem : f e ∈ (changeSettled e.feat.num f s).fq.settled := changed_mem he
  have hkept := kept_changeSettled e.feat.num f hplace s
  obtain ⟨y, hy, hfe⟩ := hf e
  rw [hfe] at hmem ⊢
  unfold merge
  dsimp only
  cases g.taint
  · refine (spares_look _).ahead m _ _ hm (hkept.queue hq) ha ⟨_, hmem, ?_, rfl, hk, ht, hfl, hn⟩
    rw [Bool.or_false]
  · have htagged : Settled.tag { e with feat := y } ∈ (tagSettled e.feat.num (changeSettled e.feat.num f s)).fq.settled := by
      unfold tagSettled
      rw [noticeTags_fq, ← hy]
      rw [← hy] at hmem
      exact changed_mem hmem
    have htag := kept_tagSettled e.feat.num (changeSettled e.feat.num f s)
    have hpu : (tagSettled e.feat.num (changeSettled e.feat.num f s)).pu = s.pu := congrArg Fixed.pu htag.fixed
    refine (spares_look _).ahead m _ _ ((congrArg Fixed.machine htag.fixed).trans hm) (htag.queue (hkept.queue hq))
      (by rw [if_pos rfl, hpu]; exact ha) ⟨_, htagged, ?_, rfl, hk, ht, hfl, hn⟩
    rw [Bool.or_true]
    rfl

/-- The grown length is the greater end, counted from the entry's position (R57). -/
theorem grownLength_eq (g : Sighting) (e : Settled) : grownLength g e = (max (g.p + g.len - e.p) (e.feat.len : Int)).toNat := by
  unfold grownLength
  omega

/-- SIGHTING_FRAME merges into the entry that answers it (R55 to R57, R59). -/
theorem sightingsMerge : SightingsMerge := by
  intro rx cDet kind cls len x0 x1 m u taint pre post e s hfrom hm hc hu hq hkind hcls hx hx1 htaint hsplit ha htable hflag hnip
    p ext splice becomes
  have htaint' : s.taint = taint := Bool.eq_iff_iff.2 ((taint_iff s).trans htaint.symm)
  have hexec := exec_sightingFrame (len := len) hfrom hm hc hu (sightingInRange_of hkind hcls hx hx1)
  have hS := passedOn_eq rx (.sighting cDet kind cls len x0 x1) s
  rw [htaint'] at hexec
  let g : Sighting := sightingAt m u kind cls len x0 x1 taint
  have hmem : e ∈ s.fq.settled := by rw [hsplit]; exact List.mem_append_right _ List.mem_cons_self
  have hconfirm : ∀ x, s.confirmable m g x = true ↔ Confirms s m p splice ext x :=
    confirmable_iff s m g (sightedKind_eq kind cls)
  -- Whatever the merging makes of the entry stands to the end of the event.
  have hbecomes : ∀ f : Settled → Settled, e.knife = false → (∀ x, ∃ y, y.num = x.feat.num ∧ f x = { x with feat := y }) →
      (∀ ll, handleSighting m g { s with ll := ll } = merge g e.feat.num f { s with ll := ll }) →
      becomes { (f e).feat with suspect := (f e).feat.suspect || taint } := by
    intro f hknife hf hmerge
    obtain ⟨hpu, hmt, htables, hlink, hknives⟩ :=
      frame_of_upholds (upholds_sighted m g (passedOn rx (.sighting cDet kind cls len x0 x1) s))
    refine ⟨_, hexec, stands_ended ?_, hpu, hmt, htables, hlink, hknives⟩
    rw [hS, hmerge]
    exact stands_merge hm hq hmem ha hknife htable hflag hnip hf
  refine ⟨fun hnearest => ?_, fun hk0 hnone hnearest hlen y hy => ?_⟩
  · have ⟨⟨_, _, hknife, _⟩, _⟩ := hnearest
    have htest : (fun x => s.confirmable m g x = true) = Confirms s m p splice ext := funext fun x => propext (hconfirm x)
    exact hbecomes (Settled.confirm g) hknife (fun x => ⟨{ x.feat with origin := .both, slit := some g.ext }, rfl, rfl⟩)
      (fun ll => handleSighting_confirms hsplit (show NearestOf p _ pre e post from htest ▸ hnearest))
  · have ⟨⟨_, _, _, _, _, hknife⟩, _⟩ := hnearest
    have hdefect : g.kind = .defect cls.toNat := sightedKind_zero hk0 cls
    have htest : (fun x => streakCandidate m g x = true) = Continues m p cls.toNat ext :=
      funext fun x => propext (streakCandidate_iff m g hdefect x)
    have hnone' : ∀ x ∈ s.fq.settled, s.confirmable m g x = false :=
      fun x hx => Bool.eq_false_iff.2 (fun h => hnone x hx ((hconfirm x).1 h))
    have hgrown : grownLength g e = (max (p + len.toNat - e.p) (e.feat.len : Int)).toNat := grownLength_eq g e
    have hgrow := hbecomes (Settled.grow g) hknife (fun x => ⟨(Settled.grow g x).feat, rfl, rfl⟩)
      (fun ll => handleSighting_grows hsplit hdefect hnone' (show NearestOf p _ pre e post from htest ▸ hnearest) (by omega))
    simp only [Settled.grow, hgrown, hy] at hgrow
    exact hgrow

/-! ### Joining and losing (R60) -/

/-- What a sighting joins as (R44, R60). -/
def inlineFeature (g : Sighting) (num : Nat) : Feature :=
  { num := num, origin := .inline, kind := g.kind, len := g.len, press := none, slit := some g.ext, rep := none, suspect := g.taint
    served := false }

/-- A sighting that joins ahead of every station stands as an INLINE entry in the free slot (R43, R60). -/
theorem stands_joinInline {m : MachineTable} {g : Sighting} {s : State} (hm : s.machine = some m) (hq : s.fq.lawful)
    (hr : s.fq.size < Config.entrySlots) (ha : Ahead m s.pu.u g.p) : Stands (inlineFeature g s.fq.freeSlot) g.p (joinInline g s) := by
  have hfree : s.fq.free ≠ 0 := Nat.sub_ne_zero_of_lt hr
  unfold joinInline
  rw [if_pos hfree]
  exact stands_joinJudged false hm hq rfl hr ha

/-- The records marked UNVERIFIED are those of the statements (R162). -/
theorem markUnverified_eq (s : State) : markUnverified s = { s with rs := unverified s.rs } := by
  simp only [markUnverified, RecordStore.mapOpen, unverified, ReelRecord.isOpen, Option.isNone_iff_eq_none]

/-- A sighting that finds no slot free disturbs no entry: open records take UNVERIFIED and QUEUE_FULL is queued (R60). -/
theorem joinInline_full {g : Sighting} {s : State} (hfull : s.fq.size = Config.entrySlots) :
    joinInline g s = queueNotice .queueFull (wInt g.p) 0 0 { s with rs := unverified s.rs } := by
  have hfree : s.fq.free = 0 := Nat.sub_eq_zero_of_le hfull.ge
  unfold joinInline
  rw [if_neg (not_not_intro hfree), markUnverified_eq]

/-- SIGHTING_FRAME that finds no slot free is lost (R60). -/
theorem sightingsAreLost : SightingsAreLost := by
  intro rx cDet kind cls len x0 x1 m u s hfrom hm hc hu hkind hcls hx hx1 p ext hnone hcam hfull
  let g : Sighting := sightingAt m u kind cls len x0 x1 s.taint
  have hconfirm : ∀ x ∈ s.fq.settled, s.confirmable m g x = false := fun x hx =>
    Bool.eq_false_iff.2 (fun h => (hnone x hx).1 ((confirmable_iff s m g (sightedKind_eq kind cls) x).1 h))
  have hstreak : ∀ c, g.kind = .defect c → ∀ x ∈ s.fq.settled, streakCandidate m g x = false := by
    intro c hc x hx
    have hk0 : kind = 0 := kind_eq_zero hkind hc
    exact Bool.eq_false_iff.2 (fun h => (hnone x hx).2 hk0 ((streakCandidate_iff m g (sightedKind_zero hk0 cls) x).1 h))
  have hlost : ∀ ll, handleSighting m g { s with ll := ll } =
      queueNotice .queueFull (wInt g.p) 0 0 { s with ll := ll, rs := unverified s.rs } := fun ll =>
    (handleSighting_new (s := { s with ll := ll }) hconfirm hstreak hcam).trans (joinInline_full hfull)
  rw [exec_sightingFrame hfrom hm hc hu (sightingInRange_of hkind hcls hx hx1), passedOn_eq rx, hlost]
  rfl

/-- Settles O37: the frame is handled on the state from which a broadcast has been sent on; a sighting that nothing answers joins where
a slot is free. -/
theorem sightingJoinsAsInline : Obligations.SightingJoinsAsInline := by
  refine ⟨?_, sightingsMerge, sightingsAreLost⟩
  intro rx cDet kind cls len x0 x1 m u s hfrom hm hc hu hq hkind hcls hx hx1 g hnone hcam hroom hkn hst hfl hnip
  have htaint : s.taint = g.taint := by
    show s.taint = (s.mt.state == .coasting || s.mt.state == .lost || s.mt.state == .relocking || s.pu.enc == .silent)
    unfold State.taint
    cases s.mt.state <;> rfl
  have hexec := exec_sightingFrame (len := len) hfrom hm hc hu (sightingInRange_of hkind hcls hx hx1)
  rw [htaint, show sightingAt m u kind cls len x0 x1 g.taint = g from rfl] at hexec
  have hjoins : ∀ ll, handleSighting m g { s with ll := ll } = joinInline g { s with ll := ll } := fun ll =>
    handleSighting_new (fun x hx => (hnone x hx).1) (fun c hc x hx => (hnone x hx).2 (kind_eq_zero hkind hc)) hcam
  have hstands : Stands (inlineFeature g s.fq.freeSlot) g.p
      (endEvent (expand (handleSighting m g (passedOn rx (.sighting cDet kind cls len x0 x1) s)))) := by
    rw [passedOn_eq, hjoins]
    exact stands_ended (stands_joinInline hm hq hroom ⟨hkn, hst, hfl, hnip⟩)
  obtain ⟨e, he, hfeat, hp, hknife, -⟩ := hstands
  obtain ⟨hfree, hlower, -⟩ := RollMap.freeSlot_lowest s.fq
  refine ⟨_, hexec, ⟨e, he, ?_⟩, hfree, hlower, frame_of_upholds (upholds_sighted ..)⟩
  rw [hfeat]
  exact ⟨rfl, hp, rfl, rfl, rfl, rfl, rfl, rfl, hknife⟩

end Sys2Proof.Sightings
end

section
/-! PROOFS. The banks (4.1, 4.2, R77): every step keeps them lawful. -/

namespace Sys2Proof.LanePlan

open Sys2Proof Sys2Proof.Machine Sys2Proof.Claims Sys2Proof.EveryBlock

/-- Settles O14: the banks' law is one of those that every step keeps; a bank is replaced by one that has passed the checks of LOAD_BANK. -/
theorem stepsKeepBanksLawful : Obligations.StepsKeepBanksLawful := by
  intro s t hs h
  obtain ⟨rest, hkeeps⟩ := step_keepsLaws h
  exact hkeeps.plans hs

end Sys2Proof.LanePlan
end

section
/-! PROOFS. What stands once a request has been answered and its event has ended (R180, R187), and the lane plans through
requests: CANCEL_PENDING, ROLL_START, ROLL_END and DOFF_COMPLETE (R73, R74, R77). -/

namespace Sys2Proof.LanePlan

open Sys2Proof Sys2Proof.Machine Sys2Proof.Claims Sys2Proof.Laws Sys2Proof.Sightings

/-! ### A request answered -/

/-- The reply queued and the notices passed at the end of the event change the own frames, their numbering and the Notice Queue
alone. -/
theorem ended_rest (rx : Rx) (code : Byte) (st : ReplyStatus) (i : Nat) (b : ReplyBody) (y : State) :
    ∃ nq own seq, endEvent (answered rx code st i b y) = { y with nq := nq, ll := { y.ll with own := own, seq := seq } } :=
  ⟨_, _, _, (noticesOnly_endEvent (answered rx code st i b y)).rest⟩

theorem ended_lpt (rx : Rx) (code : Byte) (st : ReplyStatus) (i : Nat) (b : ReplyBody) (y : State) :
    (endEvent (answered rx code st i b y)).lpt = y.lpt := by
  obtain ⟨nq, own, seq, h⟩ := ended_rest rx code st i b y
  rw [h]

theorem queueOwn_lpt (c : OwnClass) (dst : Nat) (tag : Option Half) (body : OwnBody) (s : State) :
    (queueOwn c dst tag body s).lpt = s.lpt := by
  unfold queueOwn
  split_ifs <;> rfl

/-- A request whose execution leaves the banks leaves them however its frame is judged (R174, R177, R180). -/
theorem arrive_request_lpt {line : Bool} {code : Option Byte} {body : List Byte}
    (h : ∀ y, (execute line code body y).state.lpt = y.lpt) (rx : Rx) (s : State) :
    (arrive rx (.request line code body) s).lpt = s.lpt := by
  have hrequest : ∀ src tag y, (request src tag line code body y).lpt = y.lpt := by
    intro src tag y
    unfold request
    split
    · dsimp only [markResetting, reply]
      split <;> exact (queueOwn_lpt ..).trans (h y)
    · rfl
  have hjudged : ∀ f y, (takeFrame f (.ok (.request line code body)) y).lpt = y.lpt := by
    intro f y
    dsimp only [takeFrame, judgeSource]
    split
    · rfl
    · split
      · split
        · exact hrequest ..
        · rfl
      · exact hrequest ..
  have hforward : ∀ p f y, (forward p f y).lpt = y.lpt := fun p f y => by rw [forward_rest]
  show (receive rx.port (frameOf rx (.request line code body)) (.ok (.request line code body)) s).lpt = s.lpt
  unfold receive
  split
  · exact hforward ..
  · split_ifs
    · rfl
    · exact hjudged ..
    · exact (hjudged ..).trans (hforward ..)
    · exact hforward ..

/-! ### The banks through the life of a roll -/

/-- The banks after a set change: an armed plan is activated, and without one they stand (R74). -/
def afterDoff (t : LanePlans) : LanePlans :=
  match t.pending with
  | some b => { active := some b, pending := none }
  | none => t

theorem activate_lpt (s : State) : (activate s).lpt = afterDoff s.lpt := by
  unfold activate afterDoff
  cases s.lpt.pending <;> rfl

theorem lpt_of_but {s t : State} (h : UpholdsBut s t) : t.lpt = s.lpt := by
  obtain ⟨ks, h⟩ := h
  exact congrArg Fixed.lpt h.fixed

theorem closeSet_lpt (gross repeats : Nat) (rollEnd : Bool) (s : State) : (closeSet gross repeats rollEnd s).lpt = s.lpt :=
  congrArg Fixed.lpt (kept_sendRecords _).fixed

/-- The set change activates what is armed, and nothing else of it touches the banks (R74, R152). -/
theorem completeDoff_lpt (s : State) : (completeDoff s).lpt = afterDoff s.lpt := by
  unfold completeDoff
  extract_lets gross s1
  have hprepare : ∀ y, (expand (lookPreparing (enterPreparing y))).lpt = y.lpt := fun y =>
    lpt_of_but (((but_enterPreparing y).trans (kept_lookPreparing _).but).trans (upholds_expand _).but)
  rw [hprepare, activate_lpt, show s1.lpt = s.lpt from closeSet_lpt ..]

theorem startRoll_lpt (m : MachineTable) (h : Header) (s : State) : (startRoll m h s).lpt = s.lpt := by
  have htail : ∀ y, UpholdsBut y (expand (enterPreparing (expand (checkRequests y)))) := fun y =>
    (((kept_checkRequests y).toUpholds.trans (upholds_expand _)).but.trans (but_enterPreparing _)).trans (upholds_expand _).but
  exact (lpt_of_but (htail _)).trans (congrArg Fixed.lpt (kept_clearQueue s).fixed)

theorem endRoll_lpt (s : State) : (endRoll s).lpt = s.lpt := by
  have hclose : (closeAtEnd s).lpt = s.lpt := by
    unfold closeAtEnd
    split
    · rfl
    · rfl
    · exact closeSet_lpt ..
  have hclear : Kept (closeAtEnd s) (clearQueue (cancelAtEnd (closeAtEnd s))) := (kept_cancelAtEnd _).trans (kept_clearQueue _)
  exact (congrArg Fixed.lpt hclear.fixed).trans hclose

theorem bare_lpt {body : List Byte} {s : State} {go : State → State} (h : (go s).lpt = s.lpt) : (bare body s go).state.lpt = s.lpt := by
  unfold bare
  split
  · exact h
  · rfl

/-- ROLL_START, taken or denied, leaves the banks (R77, R185). -/
theorem rollStart_lpt (body : List Byte) (s : State) : (rollStart body s).state.lpt = s.lpt := by
  unfold rollStart
  split
  · split
    · rfl
    · split
      · exact bare_lpt (startRoll_lpt ..)
      · rfl
  · rfl

/-- ROLL_END, taken or denied, leaves the banks (R77, R186). -/
theorem rollEnd_lpt (body : List Byte) (s : State) : (rollEnd body s).state.lpt = s.lpt := by
  unfold rollEnd
  split
  · rfl
  · exact bare_lpt (endRoll_lpt s)

/-! ### DOFF_COMPLETE and CANCEL_PENDING -/

/-- DOFF_COMPLETE in CHANGING is executed whole and answered ACCEPTED (R152, R180). -/
theorem exec_doffComplete {rx : Rx} {s : State} (ha : Asked s rx) (hs : s.sc.state = .changing) :
    exec (.doffComplete rx []) s =
      .next (endEvent (answered rx 5 .accepted 0 .empty (completeDoff (passedOn rx (.request true (some 5) []) s)))) := by
  have hstate : (passedOn rx (.request true (some 5) []) s).sc.state = .changing := by rw [passedOn_eq]; exact hs
  have he : execute true (some codeDoffComplete) [] (passedOn rx (.request true (some 5) []) s) =
      accept (completeDoff (passedOn rx (.request true (some 5) []) s)) :=
    if_pos hstate
  have hready := (ready_of (p := .request true (some 5) []) ha).kept (keeps_completeDoff _)
  exact congrArg (fun x => Host.Outcome.next (endEvent x)) (arrive_answered ha he hready)

/-- DOFF_COMPLETE in CHANGING leaves the banks as the set change makes them. -/
theorem doffComplete_lpt {rx : Rx} {s : State} (ha : Asked s rx) (hs : s.sc.state = .changing) :
    ∃ x, exec (.doffComplete rx []) s = .next x ∧ x.lpt = afterDoff s.lpt := by
  refine ⟨_, exec_doffComplete ha hs, ?_⟩
  rw [ended_lpt, completeDoff_lpt, passedOn_eq]

/-- Settles O41: the request executed empties PENDING alone, and a set change without an armed plan leaves the banks. -/
theorem cancelPendingEmptiesTheBank : Obligations.CancelPendingEmptiesTheBank := by
  intro rx s ha
  refine ⟨?_, fun hs hp => ?_⟩
  · have he : execute false (some codeCancelPending) [] (passedOn rx (.request false (some 6) []) s) =
        accept { passedOn rx (.request false (some 6) []) s with lpt := { active := s.lpt.active, pending := none } } := by
      rw [passedOn_eq]
      rfl
    exact congrArg (fun x => Host.Outcome.next (endEvent x)) (arrive_answered ha he (ready_of ha))
  · obtain ⟨x, hx, hlpt⟩ := doffComplete_lpt ha hs
    refine ⟨x, hx, hlpt.trans ?_⟩
    unfold afterDoff
    rw [hp]

/-! ### The banks at each reset -/

/-- ROLL_START in NO_SET without one of the items it needs is denied for the first that is missing (R185). -/
theorem rollStart_denied {s : State} (hs : s.sc.state = .noSet)
    (h : s.machine = none ∨ s.peers = none ∨ s.lpt.active = none ∨ s.ms.next = none) :
    ∃ i, rollStart [] s = deny .notReady i s := by
  have hmissing : ∃ i, s.missing = some i := by
    unfold State.missing
    split_ifs
    · exact ⟨_, rfl⟩
    · exact ⟨_, rfl⟩
    · exact ⟨_, rfl⟩
    · exact ⟨_, rfl⟩
    · simp_all
  obtain ⟨i, hi⟩ := hmissing
  refine ⟨i, ?_⟩
  unfold rollStart
  rw [if_pos hs, hi]

/-- Settles O42: power-on and RESET give the power-on values, and no other event of a roll's life but the set change touches the
banks. -/
theorem banksStandThroughRolls : Obligations.BanksStandThroughRolls := by
  refine ⟨rfl, fun straps s => ?_, fun straps s hr => ?_, fun rx body s => ⟨?_, ?_⟩, fun rx s ha => ⟨fun hs h => ?_, fun b hs hb => ?_⟩⟩
  · refine ⟨powerOnState straps s, ?_, rfl, rfl, rfl⟩
    exact congrArg Host.Outcome.next (endEvent_empty _ rfl)
  · refine ⟨resetState straps s, ?_, rfl, rfl, rfl⟩
    have hreset : takeReset straps s = resetState straps s := if_pos hr
    show done (takeReset straps s) = _
    rw [hreset]
    exact congrArg Host.Outcome.next (endEvent_empty _ rfl)
  · refine ⟨_, rfl, (congrArg Fixed.lpt (kept_endEvent _).fixed).trans ?_⟩
    exact arrive_request_lpt (line := true) (code := some codeRollStart) (fun y => rollStart_lpt body y) rx s
  · refine ⟨_, rfl, (congrArg Fixed.lpt (kept_endEvent _).fixed).trans ?_⟩
    exact arrive_request_lpt (line := true) (code := some codeRollEnd) (fun y => rollEnd_lpt body y) rx s
  · have hdenied : ∃ i, rollStart [] (passedOn rx (.request true (some 1) []) s) =
        deny .notReady i (passedOn rx (.request true (some 1) []) s) := by
      apply rollStart_denied <;> rw [passedOn_eq] <;> assumption
    obtain ⟨i, hi⟩ := hdenied
    exact ⟨i, arrive_denied ha hi⟩
  · obtain ⟨x, hx, hlpt⟩ := doffComplete_lpt ha hs
    refine ⟨x, hx, hlpt.trans ?_⟩
    unfold afterDoff
    rw [hb]

end Sys2Proof.LanePlan
end

section
/-! PROOFS. Lane resolution (4.3, 4.4): the lanes an entry touches tied to the words of the statements, and what the knife station
writes (R78 to R82, R101, R102). -/

namespace Sys2Proof.LaneResolution

open Sys2Proof Sys2Proof.Machine Sys2Proof.Claims Sys2Proof.Sightings

/-! ### The edges of a lane (R78) -/

/-- A knife with a channel and a place in the plan has one edge, the part's own. -/
theorem edgeAt_iff {s : State} {b : Bank} {j : Nat} (hs : j < s.knives.length) (hb : j < b.knives.length) (x : Int) :
    EdgeAt s b j x ↔ x = s.edge b j := by
  have hedge : s.edge b j =
      if s.knives[j].state = .drifted then ((s.knives[j].reported.getD b.knives[j] : Nat) : Int) else b.knives[j] := by
    simp only [State.edge, List.getElem?_eq_getElem hs, List.getElem?_eq_getElem hb, Option.getD_some]
  simp only [EdgeAt, List.getElem?_eq_getElem hs, List.getElem?_eq_getElem hb, Option.some.injEq]
  constructor
  · rintro ⟨c, k, rfl, rfl, rfl⟩
    exact hedge.symm
  · rintro rfl
    exact ⟨_, _, rfl, rfl, hedge⟩

/-! ### The lanes touched (R79) -/

theorem isSpan_iff (k : FeatKind) : k.isSpan = true ↔ k = .unmapped ∨ k = .blind := by
  cases k <;> simp [FeatKind.isSpan]

/-- A lane is covered where its edges differ and the widened extent overlaps what lies between them. -/
theorem covers_iff (s : State) (b : Bank) (g : Nat) (e : Extent) (i : Nat) :
    s.covers b g e i = true ↔ s.edge b i ≠ s.edge b (i + 1) ∧ e.x0 - g < max (s.edge b i) (s.edge b (i + 1)) ∧
      min (s.edge b i) (s.edge b (i + 1)) ≤ e.x1 + g := by
  unfold State.covers
  simp only [Bool.and_eq_true, decide_eq_true_eq]
  omega

/-- A lane of the plan is covered by a feature exactly when the feature touches it (R31, R78, R79). -/
theorem coversFeature_iff {s : State} {m : MachineTable} {b : Bank} {i : Nat} (f : Feature) (hs : i + 1 < s.knives.length)
    (hb : i + 1 < b.knives.length) : s.coversFeature b m f i = true ↔ Touches s m b f i := by
  unfold State.coversFeature Touches
  simp only [Bool.or_eq_true, isSpan_iff, Option.any_eq_true, covers_iff, extentOf_iff, or_assoc]
  refine or_congr_right (or_congr_right (exists_congr fun e => ?_))
  simp only [edgeAt_iff (by omega : i < s.knives.length) (by omega : i < b.knives.length), edgeAt_iff hs hb]
  constructor
  · rintro ⟨he, hne, hlow, hhigh⟩
    exact ⟨_, _, he, rfl, rfl, hne, hlow, hhigh⟩
  · rintro ⟨p, q, he, rfl, rfl, hne, hlow, hhigh⟩
    exact ⟨he, hne, hlow, hhigh⟩

/-! ### The resolution (R82) -/

/-- A lane's plan with its sixteen class actions gives a feature one action (R82). -/
theorem chooses_iff {l : LanePlan} {k : FeatKind} (hl : l.actions.length = 16) (hk : ∀ c, k = .defect c → c < 16) (a : Action) :
    Chooses l k a ↔ a = l.actionFor k := by
  cases k with
  | defect c =>
    have hc : c < l.actions.length := hl ▸ hk c rfl
    simp only [Chooses, LanePlan.actionFor, List.getElem?_eq_getElem hc, Option.some.injEq, Option.getD_some, eq_comm]
  | splice => exact Iff.rfl
  | unmapped => exact Iff.rfl
  | blind => exact Iff.rfl

theorem resolve_of_empty {s : State} (h : s.lpt.active = none) (f : Feature) : s.resolve f = [] := by
  unfold State.resolve
  rw [h]
  cases s.machine <;> rfl

/-- What one lane of the plan gives a feature: the lane with its action, or nothing (R79, R82). -/
def laneAction (s : State) (m : MachineTable) (b : Bank) (f : Feature) (i : Nat) : Option (Nat × Action) :=
  match b.lanes[i]? with
  | none => none
  | some l => if s.coversFeature b m f i ∧ l.actionFor f.kind ≠ .ignore then some (i, l.actionFor f.kind) else none

theorem resolve_eq {s : State} {m : MachineTable} {b : Bank} (hm : s.machine = some m) (hb : s.lpt.active = some b) (f : Feature) :
    s.resolve f = (List.range b.n).filterMap (laneAction s m b f) := by
  unfold State.resolve
  rw [hm, hb]
  rfl

theorem laneAction_eq_some_iff (s : State) (m : MachineTable) (b : Bank) (f : Feature) (i : Nat) (x : Nat × Action) :
    laneAction s m b f i = some x ↔ x.1 = i ∧ x.2 ≠ .ignore ∧ s.coversFeature b m f i = true ∧
      ∃ l, b.lanes[i]? = some l ∧ x.2 = l.actionFor f.kind := by
  obtain ⟨lane, action⟩ := x
  unfold laneAction
  cases b.lanes[i]? with
  | none => simp
  | some l =>
    simp only [Option.some.injEq, exists_eq_left', Option.ite_none_right_eq_some, Prod.mk.injEq]
    constructor
    · rintro ⟨⟨hcov, hact⟩, rfl, rfl⟩
      exact ⟨rfl, hact, hcov, rfl⟩
    · rintro ⟨rfl, hact, hcov, rfl⟩
      exact ⟨⟨hcov, hact⟩, rfl, rfl⟩

/-- The lanes of a resolution ascend: each lane gives at most its own item. -/
theorem resolve_ascends {s : State} {m : MachineTable} {b : Bank} (hm : s.machine = some m) (hb : s.lpt.active = some b)
    (f : Feature) : (s.resolve f).Pairwise (fun x y => x.1 < y.1) := by
  rw [resolve_eq hm hb, List.pairwise_filterMap]
  refine List.pairwise_lt_range.imp (fun {i j} hij x hx y hy => ?_)
  obtain ⟨hxi, -⟩ := (laneAction_eq_some_iff s m b f i x).1 hx
  obtain ⟨hyj, -⟩ := (laneAction_eq_some_iff s m b f j y).1 hy
  rw [hxi, hyj]
  exact hij

/-- A resolution holds the lanes touched with their plans' actions, IGNORE left out. -/
theorem mem_resolve_iff {s : State} {m : MachineTable} {b : Bank} {f : Feature} (hm : s.machine = some m)
    (hb : s.lpt.active = some b) (hplan : GoodPlan b) (hs : s.knives.length = 25) (hk : ∀ c, f.kind = .defect c → c < 16)
    (i : Nat) (a : Action) : (i, a) ∈ s.resolve f ↔
      i < b.n ∧ a ≠ .ignore ∧ Touches s m b f i ∧ ∃ l, b.lanes[i]? = some l ∧ Chooses l f.kind a := by
  obtain ⟨⟨-, hn, hknives, -⟩, -, -, -, hactions⟩ := hplan
  simp only [resolve_eq hm hb, List.mem_filterMap, List.mem_range, laneAction_eq_some_iff]
  have hlane : i < b.n → (s.coversFeature b m f i = true ↔ Touches s m b f i) := fun hi =>
    coversFeature_iff f (by simp only [Config.laneCount] at hn; omega) (by omega)
  have hchoose : ∀ l, b.lanes[i]? = some l → (Chooses l f.kind a ↔ a = l.actionFor f.kind) := fun l hl =>
    chooses_iff (hactions l (List.mem_of_getElem? hl)) hk a
  constructor
  · rintro ⟨j, hj, rfl, ha, hcov, l, hl, hact⟩
    exact ⟨hj, ha, (hlane hj).1 hcov, l, hl, (hchoose l hl).2 hact⟩
  · rintro ⟨hi, ha, htouch, l, hl, hact⟩
    exact ⟨i, hi, rfl, ha, (hlane hi).2 htouch, l, hl, (hchoose l hl).1 hact⟩

/-! ### The knife station (R101, R102) -/

/-- A resolution with lanes is written into the entry, and nothing else changes (R101). -/
theorem takeKnife_writes {s : State} {e : Settled} (h : s.resolve e.feat ≠ []) :
    takeKnife e s = { s with fq := { s.fq with settled := s.fq.settled.map (fun x => if x.feat.num = e.feat.num then { x with
      knife := true
      items := (s.resolve e.feat).map (fun r => { lane := r.1, action := r.2, notRemoved := false, outcome := .none }) } else x) } } := by
  unfold takeKnife
  exact if_neg (by simpa using h)

/-- An entry whose resolution is empty leaves, and the other Settled entries stay (R102). -/
theorem takeKnife_discards {s : State} {e : Settled} (h : s.resolve e.feat = []) (x : Settled) :
    x ∈ (takeKnife e s).fq.settled ↔ x ∈ s.fq.settled ∧ x.feat.num ≠ e.feat.num := by
  have hleave : takeKnife e s = leave e.feat.num s := by
    unfold takeKnife
    exact if_pos (by rw [h]; rfl)
  rw [hleave]
  unfold leave
  rw [Standing.noticeTags_fq, Standing.reportFree_fq, List.mem_filter, bne_iff_ne]

/-- Settles O43: the lanes and actions of a resolution, their order, and the knife station's two cases. -/
theorem lanesAreResolvedByTheirEdges : Obligations.LanesAreResolvedByTheirEdges := by
  intro f s
  refine ⟨fun h => resolve_of_empty h f, fun m b hm hb hplan hs hk => ⟨resolve_ascends hm hb f, fun i a => ?_, ?_⟩⟩
  · exact mem_resolve_iff hm hb hplan hs hk i a
  · rintro e rfl
    exact ⟨takeKnife_writes, fun h x => takeKnife_discards h x⟩

end Sys2Proof.LaneResolution
end

section
/-! PROOFS. The fields of LOAD_BANK (4.1, R68, R69): the tests of its words in ascending field number, tied to the words of the
statements, and the plan that reads back from its own fields. -/

namespace Sys2Proof.BankFields

open Sys2Proof Sys2Proof.Machine Sys2Proof.Claims Sys2Proof.Laws Sys2Proof.RollMap

/-! ### Knife positions -/

/-- The knife positions are numbered one by one. -/
theorem knifeTests_numbers (l : List Nat) : ∀ (f : Nat) (prev : Option Nat), (knifeTests f prev l).map Prod.fst = List.range' f l.length := by
  induction l with
  | nil => exact fun _ _ => rfl
  | cons k l ih => exact fun f prev => congrArg (f :: ·) (ih (f + 1) (some k))

/-- The test of knife position j: its range, and its distance from the position before it, if it has one. -/
theorem mem_knifeTests_iff (l : List Nat) : ∀ (f : Nat) (prev : Option Nat) (x : Nat × Bool), x ∈ knifeTests f prev l ↔
    ∃ j k, l[j]? = some k ∧
      x = (f + j, within 0 30000 k && (if j = 0 then prev else l[j - 1]?).all (fun p => p + 150 ≤ k)) := by
  induction l with
  | nil => simp [knifeTests]
  | cons k l ih =>
    intro f prev x
    simp only [knifeTests, List.mem_cons, ih]
    constructor
    · rintro (rfl | ⟨j, k', hk', rfl⟩)
      · exact ⟨0, k, rfl, rfl⟩
      · refine ⟨j + 1, k', hk', ?_⟩
        cases j with
        | zero => rfl
        | succ j => simp; omega
    · rintro ⟨j, k', hk', rfl⟩
      cases j with
      | zero =>
        obtain rfl : k = k' := by simpa using hk'
        exact .inl rfl
      | succ j =>
        refine .inr ⟨j, k', hk', ?_⟩
        cases j with
        | zero => rfl
        | succ j => simp; omega

/-! ### Lanes -/

/-- The words of lane i are the eighteen from word 18 i on. -/
theorem laneWords_eq (n : Nat) : ∀ ws : List Word, laneWords n ws = (List.range n).map (fun i => (ws.drop (18 * i)).take 18) := by
  induction n with
  | zero => exact fun _ => rfl
  | succ n ih =>
    intro ws
    simp only [laneWords, ih, List.range_succ_eq_map, List.map_cons, List.map_map, Nat.mul_zero, List.drop_zero, Function.comp_def,
      List.drop_drop, Nat.mul_succ, Nat.add_comm]

/-- The tests of one lane's fields, numbered from field `f` on, after lanes whose quotas sum to `sum`. -/
def laneFieldTests (f sum : Nat) (ws : List Word) : List (Nat × Bool) :=
  (ws.take 17).zipIdx.map (fun x => (f + x.2, (actionOf x.1).isSome)) ++
    [(f + 17, within 0 1024 (laneQuota ws) && decide (sum + laneQuota ws ≤ 1024))]

theorem laneTests_cons (f sum : Nat) (ws : List Word) (l : List (List Word)) :
    laneTests f sum (ws :: l) = laneFieldTests f sum ws ++ laneTests (f + 18) (sum + laneQuota ws) l := by
  simp only [laneTests, laneFieldTests, List.append_assoc, List.singleton_append]

theorem actionOf_isSome (w : Word) : (actionOf w).isSome = decide (w.toNat ≤ 4) := by
  unfold actionOf
  match w.toNat with
  | 0 | 1 | 2 | 3 | 4 => rfl
  | n + 5 => simp

theorem wordAt_eq {ws : List Word} {i : Nat} (h : i < ws.length) : wordAt ws i = ws[i].toNat := by
  rw [wordAt, List.getElem?_eq_getElem h, Option.getD_some]

/-- The tests of a lane's eighteen words: sixteen class actions and the splice action, then the quota. -/
theorem laneFieldTests_eq {ws : List Word} (hws : ws.length = 18) (f sum : Nat) : laneFieldTests f sum ws =
    (List.range 17).map (fun c => (f + c, decide (wordAt ws c ≤ 4))) ++
      [(f + 17, decide (wordAt ws 17 ≤ 1024 ∧ sum + wordAt ws 17 ≤ 1024))] := by
  have hactions : (ws.take 17).zipIdx.map (fun x => (f + x.2, (actionOf x.1).isSome)) =
      (List.range 17).map (fun c => (f + c, decide (wordAt ws c ≤ 4))) :=
    List.ext_getElem (by simp [hws]) fun c hc _ => by
      have hlt : c < ws.length := by simp at hc; omega
      simp [actionOf_isSome, wordAt_eq hlt]
  have hquota : laneQuota ws = wordAt ws 17 := rfl
  unfold laneFieldTests within
  rw [hactions, hquota]
  simp

theorem laneFieldTests_numbers {ws : List Word} (hws : ws.length = 18) (f sum : Nat) :
    (laneFieldTests f sum ws).map Prod.fst = List.range' f 18 := by
  rw [laneFieldTests_eq hws, List.map_append, List.map_map, List.range'_eq_map_range, List.range_succ (n := 17), List.map_append]
  rfl

/-- The fields of the lanes are numbered one by one, eighteen to a lane. -/
theorem laneTests_numbers (l : List (List Word)) (hl : ∀ ws ∈ l, ws.length = 18) : ∀ f sum : Nat,
    (laneTests f sum l).map Prod.fst = List.range' f (18 * l.length) := by
  induction l with
  | nil => exact fun _ _ => rfl
  | cons ws l ih =>
    intro f sum
    rw [laneTests_cons, List.map_append, laneFieldTests_numbers (hl ws List.mem_cons_self),
      ih (fun ws h => hl ws (List.mem_cons_of_mem _ h)), List.range'_append_1, List.length_cons, Nat.mul_succ, Nat.add_comm]

/-- The tests of the lanes are those of each lane, after the quotas of the lanes before it. -/
theorem mem_laneTests_iff (l : List (List Word)) : ∀ (f sum : Nat) (x : Nat × Bool), x ∈ laneTests f sum l ↔
    ∃ i ws, l[i]? = some ws ∧ x ∈ laneFieldTests (f + 18 * i) (sum + ((l.take i).map laneQuota).sum) ws := by
  induction l with
  | nil => simp [laneTests]
  | cons ws l ih =>
    intro f sum x
    rw [laneTests_cons, List.mem_append, ih]
    constructor
    · rintro (hx | ⟨i, ws', hws', hx⟩)
      · exact ⟨0, ws, rfl, hx⟩
      · refine ⟨i + 1, ws', hws', ?_⟩
        simpa only [List.take_succ_cons, List.map_cons, List.sum_cons, Nat.mul_succ, Nat.add_assoc, Nat.add_comm 18] using hx
    · rintro ⟨i, ws', hws', hx⟩
      cases i with
      | zero =>
        obtain rfl : ws = ws' := by simpa using hws'
        exact .inl hx
      | succ i =>
        refine .inr ⟨i, ws', hws', ?_⟩
        simpa only [List.take_succ_cons, List.map_cons, List.sum_cons, Nat.mul_succ, Nat.add_assoc, Nat.add_comm 18] using hx

/-- A lane passes field n when the class or splice action of that number is one and the quotas up to its own are within range. -/
theorem laneFieldTests_pass_iff {ws : List Word} (hws : ws.length = 18) (f sum n : Nat) :
    (∀ x ∈ laneFieldTests f sum ws, x.1 = n → x.2 = true) ↔
      (∀ c, c ≤ 16 → n = f + c → wordAt ws c ≤ 4) ∧ (n = f + 17 → wordAt ws 17 ≤ 1024 ∧ sum + wordAt ws 17 ≤ 1024) := by
  rw [laneFieldTests_eq hws]
  simp only [List.mem_append, List.mem_map, List.mem_range, List.mem_singleton]
  constructor
  · intro h
    exact ⟨fun c hc hn => by simpa using h _ (.inl ⟨c, by omega, rfl⟩) hn.symm, fun hn => by simpa using h _ (.inr rfl) hn.symm⟩
  · rintro ⟨hactions, hquota⟩ x (⟨c, hc, rfl⟩ | rfl) hn
    · exact decide_eq_true (hactions c (by omega) hn.symm)
    · exact decide_eq_true (hquota hn.symm)

/-! ### The words of LOAD_BANK, from field 2 on -/

/-- The knife positions among the words. -/
def knifeWords (ws : List Word) : List Nat := ((ws.drop 7).take (wordAt ws 1 + 1)).map (·.toNat)

/-- The lanes among the words. -/
def bankLanes (ws : List Word) : List (List Word) := laneWords (wordAt ws 1) (ws.drop (wordAt ws 1 + 8))

/-- The tests of fields 4 to 8. -/
def headTests (ws : List Word) : List (Nat × Bool) :=
  [(4, within 1 65535 (wordAt ws 2)), (5, decide (wordAt ws 3 ≤ wordAt ws 2)), (6, within 0 65535 (wordAt ws 4)),
    (7, within 0 1 (wordAt ws 5)), (8, within 0 64 (wordAt ws 6))]

/-- The fields after the lane count with their tests, in ascending field number (R68, R69). -/
def bankTests (ws : List Word) : List (Nat × Bool) :=
  headTests ws ++ knifeTests 9 none (knifeWords ws) ++ laneTests (10 + wordAt ws 1) 0 (bankLanes ws)

/-- The lane count is in range and calls for the number of words there are: field 3. -/
def Counted (ws : List Word) : Prop :=
  1 ≤ wordAt ws 1 ∧ wordAt ws 1 ≤ 24 ∧ ws.length + 1 = 8 + (wordAt ws 1 + 1) + 18 * wordAt ws 1

section Words

variable {ws : List Word}

theorem knifeWords_length (h : Counted ws) : (knifeWords ws).length = wordAt ws 1 + 1 := by
  obtain ⟨-, -, hlen⟩ := h
  simp only [knifeWords, List.length_map, List.length_take, List.length_drop]
  omega

theorem knifeWords_getElem? (h : Counted ws) (j : Nat) :
    (knifeWords ws)[j]? = if j ≤ wordAt ws 1 then some (wordAt ws (7 + j)) else none := by
  obtain ⟨-, -, hlen⟩ := h
  simp only [knifeWords, List.getElem?_map, List.getElem?_take, List.getElem?_drop, Nat.lt_succ_iff]
  split
  · have hj : 7 + j < ws.length := by omega
    rw [List.getElem?_eq_getElem hj, wordAt_eq hj]
    rfl
  · rfl

/-- The eighteen words of lane i. -/
def bankLane (ws : List Word) (i : Nat) : List Word := (ws.drop (wordAt ws 1 + 8 + 18 * i)).take 18

theorem bankLanes_eq (ws : List Word) : bankLanes ws = (List.range (wordAt ws 1)).map (bankLane ws) := by
  simp only [bankLanes, laneWords_eq, List.drop_drop]
  rfl

theorem bankLane_length (h : Counted ws) {i : Nat} (hi : i < wordAt ws 1) : (bankLane ws i).length = 18 := by
  obtain ⟨-, -, hlen⟩ := h
  simp only [bankLane, List.length_take, List.length_drop]
  omega

theorem wordAt_bankLane {i c : Nat} (hc : c < 18) : wordAt (bankLane ws i) c = wordAt ws (wordAt ws 1 + 8 + 18 * i + c) := by
  unfold bankLane
  rw [wordAt, List.getElem?_take, if_pos hc, List.getElem?_drop]
  rfl

/-- The quotas of the lanes up to lane i, as they stand among the words. -/
theorem quotas_upTo {i : Nat} (hi : i < wordAt ws 1) : (((bankLanes ws).take i).map laneQuota).sum + wordAt (bankLane ws i) 17 =
    ((List.range (i + 1)).map (fun l => wordAt ws (wordAt ws 1 + 8 + 18 * l + 17))).sum := by
  have hquota : ∀ l, laneQuota (bankLane ws l) = wordAt ws (wordAt ws 1 + 8 + 18 * l + 17) := fun l => wordAt_bankLane (by omega)
  rw [bankLanes_eq, ← List.map_take, List.take_range, Nat.min_eq_left (Nat.le_of_lt hi), List.map_map, List.range_succ,
    List.map_append, List.sum_append, wordAt_bankLane (by omega)]
  simp [Function.comp_def, hquota]

/-! ### The order of the tests -/

theorem bankTests_numbers (h : Counted ws) : (bankTests ws).map Prod.fst = List.range' 4 (6 + 19 * wordAt ws 1) := by
  have hlanes : ∀ l ∈ bankLanes ws, l.length = 18 := by
    intro l hl
    rw [bankLanes_eq] at hl
    obtain ⟨i, hi, rfl⟩ := List.mem_map.1 hl
    exact bankLane_length h (List.mem_range.1 hi)
  have hcount : (bankLanes ws).length = wordAt ws 1 := laneWords_length ..
  have hhead : (headTests ws).map Prod.fst = List.range' 4 5 := rfl
  unfold bankTests
  rw [List.map_append, List.map_append, hhead, knifeTests_numbers, knifeWords_length h, laneTests_numbers _ hlanes, hcount,
    List.range'_append_1, show 10 + wordAt ws 1 = 4 + (5 + (wordAt ws 1 + 1)) by omega, List.range'_append_1]
  congr 1
  omega

theorem bankTests_ascend (h : Counted ws) : (bankTests ws).Pairwise (fun x y => x.1 < y.1) := by
  have hsorted := List.pairwise_lt_range' (s := 4) (n := 6 + 19 * wordAt ws 1) 1
  rw [← bankTests_numbers h] at hsorted
  exact List.pairwise_map.1 hsorted

/-! ### What each field has to pass -/

theorem headTests_pass_iff (ws : List Word) (n : Nat) : (∀ x ∈ headTests ws, x.1 = n → x.2 = true) ↔
    (n = 4 → 1 ≤ wordAt ws 2 ∧ wordAt ws 2 ≤ 65535) ∧ (n = 5 → wordAt ws 3 ≤ wordAt ws 2) ∧ (n = 6 → wordAt ws 4 ≤ 65535) ∧
      (n = 7 → wordAt ws 5 ≤ 1) ∧ (n = 8 → wordAt ws 6 ≤ 64) := by
  simp only [headTests, List.mem_cons, List.not_mem_nil, or_false, forall_eq_or_imp, forall_eq, within, Nat.zero_le, decide_true,
    Bool.true_and, Bool.and_eq_true, decide_eq_true_eq, eq_comm (b := n)]

theorem knifeTests_pass_iff (h : Counted ws) (n : Nat) : (∀ x ∈ knifeTests 9 none (knifeWords ws), x.1 = n → x.2 = true) ↔
    (9 ≤ n → n ≤ 9 + wordAt ws 1 → wordAt ws (n - 2) ≤ 30000 ∧ (9 < n → wordAt ws (n - 1 - 2) + 150 ≤ wordAt ws (n - 2))) := by
  simp only [mem_knifeTests_iff, knifeWords_getElem? h]
  constructor
  · intro hall h9 hn
    obtain ⟨j, rfl⟩ : ∃ j, n = 9 + j := ⟨n - 9, by omega⟩
    have hj : j ≤ wordAt ws 1 := by omega
    have htest := hall _ ⟨j, wordAt ws (7 + j), if_pos hj, rfl⟩ rfl
    simp only [within, Nat.zero_le, decide_true, Bool.true_and, Bool.and_eq_true, decide_eq_true_eq] at htest
    obtain ⟨hrange, hgap⟩ := htest
    rw [show 9 + j - 2 = 7 + j by omega]
    refine ⟨hrange, fun h0 => ?_⟩
    rw [if_neg (by omega), if_pos (by omega), Option.all_some, decide_eq_true_eq] at hgap
    rwa [show 9 + j - 1 - 2 = 7 + (j - 1) by omega]
  · rintro hall x ⟨j, k, hk, rfl⟩ hn
    obtain rfl : n = 9 + j := hn.symm
    obtain ⟨hj, hk⟩ := Option.ite_none_right_eq_some.1 hk
    obtain rfl := Option.some.inj hk
    obtain ⟨hrange, hgap⟩ := hall (by omega) (by omega)
    rw [show 9 + j - 2 = 7 + j by omega] at hrange hgap
    simp only [within, Nat.zero_le, decide_true, Bool.true_and, Bool.and_eq_true, decide_eq_true_eq]
    refine ⟨hrange, ?_⟩
    by_cases h0 : j = 0
    · rw [if_pos h0]
      rfl
    · rw [if_neg h0, if_pos (by omega), Option.all_some, decide_eq_true_eq]
      have := hgap (by omega)
      rwa [show 9 + j - 1 - 2 = 7 + (j - 1) by omega] at this

theorem bankLanes_getElem?_iff (i : Nat) (l : List Word) : (bankLanes ws)[i]? = some l ↔ i < wordAt ws 1 ∧ l = bankLane ws i := by
  rw [bankLanes_eq, List.getElem?_map]
  by_cases hi : i < wordAt ws 1
  · simp [hi, eq_comm]
  · simp [hi]

theorem laneTests_pass_iff (h : Counted ws) (n : Nat) :
    (∀ x ∈ laneTests (10 + wordAt ws 1) 0 (bankLanes ws), x.1 = n → x.2 = true) ↔
      (∀ i c, i < wordAt ws 1 → c ≤ 16 → n = 10 + wordAt ws 1 + 18 * i + c → wordAt ws (n - 2) ≤ 4) ∧
      (∀ i, i < wordAt ws 1 → n = 27 + wordAt ws 1 + 18 * i → wordAt ws (n - 2) ≤ 1024 ∧
        ((List.range (i + 1)).map (fun l => wordAt ws (27 + wordAt ws 1 + 18 * l - 2))).sum ≤ 1024) := by
  have hlane : ∀ i, i < wordAt ws 1 → ((∀ x ∈ laneFieldTests (10 + wordAt ws 1 + 18 * i)
        (0 + (((bankLanes ws).take i).map laneQuota).sum) (bankLane ws i), x.1 = n → x.2 = true) ↔
      (∀ c, c ≤ 16 → n = 10 + wordAt ws 1 + 18 * i + c → wordAt ws (n - 2) ≤ 4) ∧
      (n = 27 + wordAt ws 1 + 18 * i → wordAt ws (n - 2) ≤ 1024 ∧
        ((List.range (i + 1)).map (fun l => wordAt ws (27 + wordAt ws 1 + 18 * l - 2))).sum ≤ 1024)) := by
    intro i hi
    rw [laneFieldTests_pass_iff (bankLane_length h hi), Nat.zero_add, quotas_upTo hi]
    have hplace : ∀ l, wordAt ws 1 + 8 + 18 * l + 17 = 27 + wordAt ws 1 + 18 * l - 2 := fun l => by omega
    simp only [hplace]
    refine and_congr (forall_congr' fun c => forall_congr' fun hc => forall_congr' fun hn => ?_) ?_
    · rw [wordAt_bankLane (by omega), show n - 2 = wordAt ws 1 + 8 + 18 * i + c by omega]
    · rw [show 10 + wordAt ws 1 + 18 * i + 17 = 27 + wordAt ws 1 + 18 * i by omega]
      refine forall_congr' fun hn => ?_
      rw [wordAt_bankLane (by omega), hplace, hn]
  simp only [mem_laneTests_iff, bankLanes_getElem?_iff]
  constructor
  · intro hall
    have hfields : ∀ i, i < wordAt ws 1 → _ := fun i hi => (hlane i hi).1 fun x hx => hall x ⟨i, _, ⟨hi, rfl⟩, hx⟩
    exact ⟨fun i c hi => (hfields i hi).1 c, fun i hi => (hfields i hi).2⟩
  · rintro ⟨hactions, hquotas⟩ x ⟨i, l, ⟨hi, rfl⟩, hx⟩
    exact (hlane i hi).2 ⟨fun c => hactions i c hi, hquotas i hi⟩ x hx

/-- Where the lane count calls for the words there are, a field passes exactly when no test of its number fails (R68, R69). -/
theorem bankFieldPasses_iff (h : Counted ws) (n : Nat) :
    BankFieldPasses ws n ↔ ∀ x ∈ bankTests ws, x.1 = n → x.2 = true := by
  have hsplit : (∀ x ∈ bankTests ws, x.1 = n → x.2 = true) ↔ (∀ x ∈ headTests ws, x.1 = n → x.2 = true) ∧
      (∀ x ∈ knifeTests 9 none (knifeWords ws), x.1 = n → x.2 = true) ∧
      (∀ x ∈ laneTests (10 + wordAt ws 1) 0 (bankLanes ws), x.1 = n → x.2 = true) := by
    simp only [bankTests, List.mem_append, or_imp, forall_and, and_assoc]
  rw [hsplit, headTests_pass_iff, knifeTests_pass_iff h, laneTests_pass_iff h]
  constructor
  · rintro ⟨-, hset, happ, hoff, hpol, hmax, hknives, hactions, hquotas⟩
    exact ⟨⟨hset, happ, hoff, hpol, hmax⟩, hknives, hactions, hquotas⟩
  · rintro ⟨⟨hset, happ, hoff, hpol, hmax⟩, hknives, hactions, hquotas⟩
    exact ⟨fun _ => h, hset, happ, hoff, hpol, hmax, hknives, hactions, hquotas⟩

/-- The bank of words whose lane count calls for them: the first field that fails, or the plan they spell (R68). -/
theorem bankIn_counted (h : Counted ws) : bankIn (ws.flatMap wordBytes) = match firstFailing (bankTests ws) with
    | some f => .error f
    | none => .ok { job := (ws[0]?).getD 0, n := wordAt ws 1, nSet := wordAt ws 2, nApp := wordAt ws 3, cOff := wordAt ws 4
                    makeUp := (ws[5]?).getD 0 = 1, xMax := wordAt ws 6, knives := knifeWords ws
                    lanes := (bankLanes ws).map lanePlanOf } := by
  obtain ⟨hlow, hhigh, hlen⟩ := h
  match ws, hlen with
  | job :: wn :: wSet :: wApp :: wOff :: wPol :: wMax :: rest, hlen =>
    have hn : wordAt (job :: wn :: wSet :: wApp :: wOff :: wPol :: wMax :: rest) 1 = wn.toNat := rfl
    rw [hn] at hlow hhigh hlen
    simp only [List.length_cons] at hlen
    unfold bankIn
    rw [wordsOf_wordBytes]
    dsimp only
    rw [if_pos ⟨by simp [within, hlow, hhigh], by simp only [List.length_cons]; omega⟩]
    rfl
  | [], hlen | [_], hlen | [_, _], hlen | [_, _, _], hlen | [_, _, _, _], hlen | [_, _, _, _, _], hlen
  | [_, _, _, _, _, _], hlen => simp only [List.length_cons, List.length_nil] at hlen; omega

/-- Words whose lane count is out of range or calls for another number of words fail in field 3 (R68). -/
theorem bankIn_not_counted (h : ¬ Counted ws) : bankIn (ws.flatMap wordBytes) = .error 3 := by
  unfold bankIn
  rw [wordsOf_wordBytes]
  split
  · rename_i job wn rest hws
    obtain rfl := Option.some.inj hws
    refine if_neg (fun hc => h ?_)
    obtain ⟨hn, hlen⟩ := hc
    simp only [within, Bool.and_eq_true, decide_eq_true_eq] at hn
    have hwn : wordAt (job :: wn :: rest) 1 = wn.toNat := rfl
    refine ⟨hn.1, hn.2, ?_⟩
    rw [hwn]
    simp only [List.length_cons]
    omega
  · rfl

/-- The field that LOAD_BANK names is the first that fails (R68, R69, R180). -/
theorem bankIn_of_firstFails {n : Nat} (hf : FirstFails (BankFieldPasses ws) n) : bankIn (ws.flatMap wordBytes) = .error n := by
  have hbelow : ∀ k, k < 3 → BankFieldPasses ws k := by
    intro k hk
    refine ⟨?_, ?_, ?_, ?_, ?_, ?_, ?_, ?_, ?_⟩ <;> intros <;> omega
  have hthree : BankFieldPasses ws 3 ↔ Counted ws := by
    refine ⟨fun hp => hp.1 rfl, fun hc => ⟨fun _ => hc, ?_, ?_, ?_, ?_, ?_, ?_, ?_, ?_⟩⟩ <;> intros <;> omega
  by_cases h : Counted ws
  · rw [bankIn_counted h, firstFailing_of_firstFails (bankTests_ascend h) (bankFieldPasses_iff h) hf]
  · obtain ⟨hn, hbefore⟩ := hf
    have hle : n ≤ 3 := Nat.le_of_not_lt (fun hlt => h (hthree.1 (hbefore 3 hlt)))
    have hge : 3 ≤ n := Nat.le_of_not_lt (fun hlt => hn (hbelow n hlt))
    rw [bankIn_not_counted h, Nat.le_antisymm hle hge]

end Words

/-! ### A plan read back from its own fields -/

section Plan

variable {b : Bank}

theorem actionOf_actionCode (a : Action) : actionOf (wNat (actionCode a)) = some a := by cases a <;> rfl

theorem laneFields_length {l : LanePlan} (hl : l.actions.length = 16) : (laneFields l).length = 18 := by
  simp [laneFields, hl]

theorem laneQuota_laneFields {l : LanePlan} (hl : l.actions.length = 16) (hq : l.quota ≤ 1024) : laneQuota (laneFields l) = l.quota := by
  simp only [laneQuota, laneFields]
  rw [List.getElem?_append_right (by simp [hl])]
  simpa [hl] using wNat_toNat l.quota (by omega)

/-- A lane with its sixteen class actions reads back from its own fields. -/
theorem lanePlanOf_laneFields {l : LanePlan} (hl : l.actions.length = 16) (hq : l.quota ≤ 1024) : lanePlanOf (laneFields l) = l := by
  have hactions : ((laneFields l).take 16).map (fun w => (actionOf w).getD .ignore) = l.actions := by
    rw [laneFields, List.take_left' (by simp [hl])]
    simp [Function.comp_def, actionOf_actionCode]
  have hsplice : (laneFields l)[16]? = some (wNat (actionCode l.splice)) := by
    rw [laneFields, List.getElem?_append_right (by simp [hl])]
    simp [hl]
  unfold lanePlanOf
  rw [hactions, hsplice, Option.getD_some, actionOf_actionCode, Option.getD_some, laneQuota_laneFields hl hq]

/-- The words of the lanes, eighteen for each, are the fields of the lanes. -/
theorem laneWords_laneFields (l : List LanePlan) (hl : ∀ p ∈ l, p.actions.length = 16) :
    laneWords l.length (l.flatMap laneFields) = l.map laneFields := by
  induction l with
  | nil => rfl
  | cons p l ih =>
    have hp : (laneFields p).length = 18 := laneFields_length (hl p List.mem_cons_self)
    rw [List.flatMap_cons, List.length_cons, laneWords, List.take_left' hp, List.drop_left' hp,
      ih (fun q hq => hl q (List.mem_cons_of_mem _ hq)), List.map_cons]

/-- The fields of LOAD_BANK from field 2 on that spell a plan. -/
def bankWords (b : Bank) : List Word :=
  [b.job, wNat b.n, wNat b.nSet, wNat b.nApp, wNat b.cOff, wBool b.makeUp, wNat b.xMax] ++ b.knives.map wNat ++ b.lanes.flatMap laneFields

theorem quota_le (hb : GoodPlan b) {l : LanePlan} (hl : l ∈ b.lanes) : l.quota ≤ 1024 := by
  obtain ⟨⟨-, -, -, -, -, -, hsum, -⟩, -⟩ := hb
  exact Nat.le_trans (List.le_sum_of_mem (List.mem_map_of_mem hl)) hsum

theorem wordAt_bankWords (hb : GoodPlan b) : wordAt (bankWords b) 1 = b.n ∧ wordAt (bankWords b) 2 = b.nSet ∧
    wordAt (bankWords b) 3 = b.nApp ∧ wordAt (bankWords b) 4 = b.cOff ∧ wordAt (bankWords b) 6 = b.xMax := by
  obtain ⟨⟨-, hn, -, -, -, -, -, happ, hmax⟩, -, hset, hoff, -⟩ := hb
  simp only [Config.laneCount] at hn
  exact ⟨wNat_toNat b.n (by omega), wNat_toNat b.nSet (by omega), wNat_toNat b.nApp (by omega), wNat_toNat b.cOff (by omega),
    wNat_toNat b.xMax (by omega)⟩

theorem knifeWords_bankWords (hb : GoodPlan b) : knifeWords (bankWords b) = b.knives := by
  obtain ⟨hcount, -⟩ := wordAt_bankWords hb
  obtain ⟨⟨-, -, hknives, -, -, hrange, -⟩, -⟩ := hb
  have hwords : (bankWords b).drop 7 = b.knives.map wNat ++ b.lanes.flatMap laneFields := rfl
  have hback : ∀ k ∈ b.knives, (wNat k).toNat = k := fun k hk => wNat_toNat k (by have := hrange k hk; omega)
  rw [knifeWords, hcount, hwords, List.take_left' (by simpa using hknives), List.map_map]
  exact (List.map_congr_left hback).trans (List.map_id _)

theorem bankLanes_bankWords (hb : GoodPlan b) : bankLanes (bankWords b) = b.lanes.map laneFields := by
  obtain ⟨hcount, -⟩ := wordAt_bankWords hb
  obtain ⟨⟨-, -, hknives, hlanes, -⟩, -, -, -, hactions⟩ := hb
  have hwords : (bankWords b).drop (b.n + 1 + 7) = b.lanes.flatMap laneFields := by
    rw [Nat.add_comm, ← List.drop_drop]
    exact List.drop_left' (by simpa using hknives)
  rw [bankLanes, hcount, show b.n + 8 = b.n + 1 + 7 from rfl, hwords, ← hlanes, laneWords_laneFields b.lanes hactions]

theorem counted_bankWords (hb : GoodPlan b) : Counted (bankWords b) := by
  obtain ⟨hcount, -⟩ := wordAt_bankWords hb
  obtain ⟨⟨hlow, hhigh, hknives, hlanes, -⟩, -, -, -, hactions⟩ := hb
  have hfields : (b.lanes.flatMap laneFields).length = 18 * b.n := by
    rw [List.length_flatMap, List.map_congr_left (fun l hl => laneFields_length (hactions l hl)), List.map_const', List.sum_replicate,
      hlanes, smul_eq_mul, Nat.mul_comm]
  refine ⟨by rw [hcount]; exact hlow, by rw [hcount]; exact hhigh, ?_⟩
  rw [hcount, bankWords, List.length_append, List.length_append, hfields, List.length_map, hknives]
  simp only [List.length_cons, List.length_nil]
  omega

/-- Knife positions in range and 150 apart pass (R69). -/
theorem knifeTests_of_apart {l : List Nat} (hgap : l.Pairwise (fun x y => x + 150 ≤ y)) (hrange : ∀ k ∈ l, k ≤ 30000) (f : Nat) :
    ∀ x ∈ knifeTests f none l, x.2 = true := by
  intro x hx
  obtain ⟨j, k, hk, rfl⟩ := (mem_knifeTests_iff l f none x).1 hx
  simp only [within, Nat.zero_le, decide_true, Bool.true_and, Bool.and_eq_true, decide_eq_true_eq]
  refine ⟨hrange k (List.mem_of_getElem? hk), ?_⟩
  cases j with
  | zero => rfl
  | succ j =>
    obtain ⟨hj, rfl⟩ := List.getElem?_eq_some_iff.1 hk
    have hbefore : l[j] + 150 ≤ l[j + 1] := List.pairwise_iff_getElem.1 hgap j (j + 1) (by omega) hj (by omega)
    simpa [List.getElem?_eq_getElem (by omega : j < l.length)] using hbefore

/-- The words of a lane's actions are codes of actions. -/
theorem wordAt_laneFields_le {l : LanePlan} (hl : l.actions.length = 16) {c : Nat} (hc : c ≤ 16) : wordAt (laneFields l) c ≤ 4 := by
  have hfields : laneFields l = (l.actions ++ [l.splice]).map (fun a => wNat (actionCode a)) ++ [wNat l.quota] := by simp [laneFields]
  have hlt : c < (l.actions ++ [l.splice]).length := by simp; omega
  rw [wordAt, hfields, List.getElem?_append_left (by simpa using hlt), List.getElem?_map, List.getElem?_eq_getElem hlt]
  generalize (l.actions ++ [l.splice])[c] = a
  cases a <;> decide

/-- Lanes with their sixteen class actions and quotas within range together pass (R69). -/
theorem laneTests_of_within (l : List LanePlan) (hl : ∀ p ∈ l, p.actions.length = 16) : ∀ f sum : Nat,
    sum + (l.map (·.quota)).sum ≤ 1024 → ∀ x ∈ laneTests f sum (l.map laneFields), x.2 = true := by
  induction l with
  | nil => exact fun _ _ _ x hx => absurd hx List.not_mem_nil
  | cons p l ih =>
    intro f sum hsum x hx
    rw [List.map_cons, List.sum_cons] at hsum
    have hp : p.actions.length = 16 := hl p List.mem_cons_self
    have hquota : laneQuota (laneFields p) = p.quota := laneQuota_laneFields hp (by omega)
    rw [List.map_cons, laneTests_cons, List.mem_append, hquota] at hx
    rcases hx with hx | hx
    · refine (laneFieldTests_pass_iff (laneFields_length hp) f sum x.1).2 ⟨fun c hc _ => ?_, fun _ => ?_⟩ x hx rfl
      · exact wordAt_laneFields_le hp hc
      · rw [show wordAt (laneFields p) 17 = p.quota from hquota]
        omega
    · exact ih (fun q hq => hl q (List.mem_cons_of_mem _ hq)) _ _ (by omega) x hx

/-- A plan with every field in its range reads back from its own fields (R68, R69). -/
theorem bankIn_bankBytes (hb : GoodPlan b) : bankIn (bankBytes b) = .ok b := by
  obtain ⟨hn, hset, happ, hoff, hmax⟩ := wordAt_bankWords hb
  have hcounted := counted_bankWords hb
  have hquotas : ∀ l ∈ b.lanes, l.quota ≤ 1024 := fun l hl => quota_le hb hl
  have hknives := knifeWords_bankWords hb
  have hlanes := bankLanes_bankWords hb
  obtain ⟨⟨-, -, -, -, hgap, hrange, hsum, hle, hxMax⟩, hlow, hhigh, hoff', hactions⟩ := hb
  have hpass : firstFailing (bankTests (bankWords b)) = none := by
    rw [firstFailing_none]
    intro x hx
    simp only [bankTests, List.mem_append, hknives, hlanes] at hx
    rcases hx with (hx | hx) | hx
    · refine (headTests_pass_iff (bankWords b) x.1).2 ?_ x hx rfl
      rw [hset, happ, hoff, hmax]
      refine ⟨fun _ => ⟨hlow, hhigh⟩, fun _ => hle, fun _ => hoff', fun _ => ?_, fun _ => hxMax⟩
      show (wBool b.makeUp).toNat ≤ 1
      cases b.makeUp <;> decide
    · exact knifeTests_of_apart hgap hrange 9 x hx
    · exact laneTests_of_within b.lanes hactions _ _ (by rw [Nat.zero_add]; exact hsum) x hx
  have hback : (b.lanes.map laneFields).map lanePlanOf = b.lanes := by
    rw [List.map_map]
    exact (List.map_congr_left (fun l hl => lanePlanOf_laneFields (hactions l hl) (hquotas l hl))).trans (List.map_id _)
  rw [show bankBytes b = (bankWords b).flatMap wordBytes from rfl, bankIn_counted hcounted, hpass]
  dsimp only
  rw [hn, hset, happ, hoff, hmax, hknives, hlanes, hback]
  have hpolicy : decide (((bankWords b)[5]?).getD 0 = 1) = b.makeUp := wBool_eq_one b.makeUp
  rw [hpolicy]
  rfl

end Plan

end Sys2Proof.BankFields
end

section
/-! PROOFS. LOAD_BANK (R68, R69, R71, R72): the bank replaced, or the request denied. -/

namespace Sys2Proof.LanePlan

open Sys2Proof Sys2Proof.Machine Sys2Proof.Claims Sys2Proof.Laws Sys2Proof.Sightings Sys2Proof.BankFields

/-! ### The request executed, by its selector -/

theorem wordBytes_append (w : Word) (body : List Byte) : wordBytes w ++ body =
    w.extractLsb' 24 8 :: w.extractLsb' 16 8 :: w.extractLsb' 8 8 :: w.extractLsb' 0 8 :: body := rfl

/-- The selector PENDING with a plan: the bank is replaced in every set state (R72). -/
theorem loadBank_pending_ok {body : List Byte} {b : Bank} (hb : bankIn body = .ok b) (s : State) :
    loadBank (wordBytes 1 ++ body) s = accept { s with lpt := { s.lpt with pending := some b } } := by
  rw [wordBytes_append, loadBank, wordOf_wordBytes, if_neg (by decide), if_pos rfl, hb]

/-- The selector PENDING with a field that fails (R68). -/
theorem loadBank_pending_error {body : List Byte} {n : Nat} (hb : bankIn body = .error n) (s : State) :
    loadBank (wordBytes 1 ++ body) s = deny .invalid n s := by
  rw [wordBytes_append, loadBank, wordOf_wordBytes, if_neg (by decide), if_pos rfl, hb]

/-- The selector ACTIVE with a plan in NO_SET: the bank is replaced (R71). -/
theorem loadBank_active_ok {s : State} (hs : s.sc.state = .noSet) {body : List Byte} {b : Bank} (hb : bankIn body = .ok b) :
    loadBank (wordBytes 0 ++ body) s = accept { s with lpt := { s.lpt with active := some b } } := by
  rw [wordBytes_append, loadBank, wordOf_wordBytes, if_pos rfl, if_pos hs, hb]

/-- The selector ACTIVE in NO_SET with a field that fails (R68). -/
theorem loadBank_active_error {s : State} (hs : s.sc.state = .noSet) {body : List Byte} {n : Nat} (hb : bankIn body = .error n) :
    loadBank (wordBytes 0 ++ body) s = deny .invalid n s := by
  rw [wordBytes_append, loadBank, wordOf_wordBytes, if_pos rfl, if_pos hs, hb]

/-- The selector ACTIVE outside NO_SET is BUSY, whatever the fields (R71). -/
theorem loadBank_busy {s : State} (hs : s.sc.state ≠ .noSet) (body : List Byte) :
    loadBank (wordBytes 0 ++ body) s = deny .busy 0 s := by
  rw [wordBytes_append, loadBank, wordOf_wordBytes, if_pos rfl, if_neg hs]

/-- A selector that names no bank fails as field 1 (R68). -/
theorem loadBank_selector {w : Word} (hw : 1 < w.toNat) (body : List Byte) (s : State) :
    loadBank (wordBytes w ++ body) s = deny .invalid 1 s := by
  have h0 : w ≠ 0 := by rintro rfl; simp at hw
  have h1 : w ≠ 1 := by rintro rfl; simp at hw
  rw [wordBytes_append, loadBank, wordOf_wordBytes, if_neg h0, if_neg h1]

/-- A body that fails a field, or is no whole number of words, names the field (R68, R180). -/
theorem bankIn_fails {body : List Byte} {n : Nat} (h : body.length % 4 ≠ 0 ∧ n = 3 ∨
    ∃ ws : List Word, body = ws.flatMap wordBytes ∧ FirstFails (BankFieldPasses ws) n) : bankIn body = .error n := by
  rcases h with ⟨hlen, rfl⟩ | ⟨ws, rfl, hf⟩
  · unfold bankIn
    split
    · rename_i hws
      exact absurd (RollMap.length_of_wordsOf hws) (by omega)
    · rfl
  · exact bankIn_of_firstFails hf

/-! ### The request answered -/

section Answered

variable {rx : Rx} {s : State} {w : Word} {body : List Byte}

/-- LOAD_BANK that is accepted in every state with these banks and this set replaces the banks, and answers once. -/
theorem loadBank_answered (ha : Asked s rx) {p : LanePlans}
    (h : ∀ y : State, y.lpt = s.lpt → y.sc = s.sc → loadBank (wordBytes w ++ body) y = accept { y with lpt := p }) :
    done (arrive rx (.request false (some codeLoadBank) (wordBytes w ++ body)) s) = .next (endEvent (answered rx 5 .accepted 0 .empty
      { passedOn rx (.request false (some 5) (wordBytes w ++ body)) s with lpt := p })) := by
  have hlpt : (passedOn rx (.request false (some codeLoadBank) (wordBytes w ++ body)) s).lpt = s.lpt := by rw [passedOn_eq]
  have hsc : (passedOn rx (.request false (some codeLoadBank) (wordBytes w ++ body)) s).sc = s.sc := by rw [passedOn_eq]
  exact congrArg (fun x => Host.Outcome.next (endEvent x)) (arrive_answered ha (h _ hlpt hsc) (ready_of ha))

/-- LOAD_BANK that is denied in every state with this set changes neither bank, and answers once. -/
theorem loadBank_denied (ha : Asked s rx) {st : ReplyStatus} {i : Nat}
    (h : ∀ y : State, y.sc = s.sc → loadBank (wordBytes w ++ body) y = deny st i y) :
    done (arrive rx (.request false (some codeLoadBank) (wordBytes w ++ body)) s) = .next (endEvent (answered rx 5 st i .empty
      (passedOn rx (.request false (some 5) (wordBytes w ++ body)) s))) :=
  arrive_denied ha (h _ (by rw [passedOn_eq]))

end Answered

/-- Settles O40: the plan reads back from its own fields, the first field that fails is named, and the selector and the set state
choose the bank. -/
theorem bankLoadReplacesTheBank : Obligations.BankLoadReplacesTheBank := by
  intro rx b s ha hb
  have hback : bankIn (bankBytes b) = .ok b := bankIn_bankBytes hb
  refine ⟨?_, fun hs => ?_, fun hs => ?_, fun body n hfails => ⟨?_, fun hs => ?_⟩, fun w body hw => ?_⟩
  · exact loadBank_answered (w := 1) ha fun y hlpt _ => by rw [loadBank_pending_ok hback, hlpt]
  · exact loadBank_answered (w := 0) ha fun y hlpt hsc => by rw [loadBank_active_ok (by rw [hsc]; exact hs) hback, hlpt]
  · exact loadBank_denied (w := 0) ha fun y hsc => loadBank_busy (by rw [hsc]; exact hs) _
  · exact loadBank_denied (w := 1) ha fun y _ => loadBank_pending_error (bankIn_fails hfails) y
  · exact loadBank_denied (w := 0) ha fun y hsc =>
      loadBank_active_error (by rw [hsc]; exact hs) (bankIn_fails hfails)
  · have hdenied : execute false (some 5) (wordBytes w ++ body) s = deny .invalid 1 s := loadBank_selector hw body s
    rw [hdenied]
    exact ⟨rfl, rfl, rfl⟩

end Sys2Proof.LanePlan
end

section
/-! PROOFS. The records of a set as they close (9.2): each lane's open record takes its totals and joins the send list, lanes
ascending (R163 to R165). -/

namespace Sys2Proof.Closing

open Sys2Proof Sys2Proof.Machine Sys2Proof.Claims

/-! ### One lane's open record -/

theorem openFor_iff (lane : Nat) (x : Option ReelRecord) :
    openFor lane x = true ↔ ∃ r, x = some r ∧ r.totals = none ∧ r.lane = lane := by
  cases x <;> simp [openFor, ReelRecord.isOpen]

/-- The header that holds a lane's open record is the one found for the lane (R159). -/
theorem openIndex_of_openAt {t : RecordStore} {lane i : Nat} {r : ReelRecord} (h : OpenAt t lane i r) :
    t.openIndex lane = some i := by
  obtain ⟨hi, htotals, hlane, honly⟩ := h
  obtain ⟨hlt, hget⟩ := List.getElem?_eq_some_iff.1 hi
  refine List.findIdx?_eq_some_iff_getElem.2 ⟨hlt, (openFor_iff lane _).2 ⟨r, hget, htotals, hlane⟩, fun j hj hopen => ?_⟩
  obtain ⟨x, hx, hxt, hxl⟩ := (openFor_iff lane _).1 hopen
  have := honly j x (List.getElem?_eq_some_iff.2 ⟨_, hx⟩) hxt hxl
  omega

/-- The first header that passes a test is the one changed. -/
theorem modifyFirst_eq_modify {p : Option ReelRecord → Bool} (f : ReelRecord → ReelRecord) {l : List (Option ReelRecord)} :
    ∀ {i : Nat}, l.findIdx? p = some i → modifyFirst p f l = l.modify i (Option.map f) := by
  induction l with
  | nil => intro i h; cases h
  | cons x l ih =>
    intro i h
    rw [List.findIdx?_cons] at h
    unfold modifyFirst
    split at h
    · obtain rfl := Option.some.inj h
      rw [if_pos ‹_›]
      rfl
    · obtain ⟨j, hj, rfl⟩ := Option.map_eq_some_iff.1 h
      rw [if_neg ‹_›, ih hj, List.modify_succ_cons]

/-- A lane's open record closes in its header and joins the end of the send list (R163 to R165). -/
theorem closeLane_of_openAt {t : RecordStore} {lane i : Nat} {r : ReelRecord} (h : OpenAt t lane i r) (gross removed repeats : Nat)
    (short rollEnd : Bool) : closeLane gross removed repeats short rollEnd lane t =
      { t with headers := t.headers.set i (some (closedAs gross removed repeats short rollEnd r)), sendList := t.sendList ++ [i] } := by
  have hindex := openIndex_of_openAt h
  have hclose : ∀ f : ReelRecord → ReelRecord, modifyFirst (openFor lane) f t.headers = t.headers.set i (some (f r)) := by
    intro f
    rw [modifyFirst_eq_modify f hindex, List.modify_eq_set_getElem?, h.1]
    rfl
  unfold closeLane
  rw [hindex, hclose]
  rfl

/-! ### Every lane's -/

section Lanes

variable {t : RecordStore} {at_ : Nat → Nat} {n : Nat} (gross repeats : Nat) (rollEnd : Bool) (removed : Nat → Nat) (short : Nat → Bool)

/-- The records once those of the lanes below k have closed. -/
def closedBelow (k : Nat) (t : RecordStore) : RecordStore :=
  (List.range k).foldl (fun t i => closeLane gross (removed i) repeats (short i) rollEnd i t) t

theorem closedBelow_succ (k : Nat) (t : RecordStore) : closedBelow gross repeats rollEnd removed short (k + 1) t =
    closeLane gross (removed k) repeats (short k) rollEnd k (closedBelow gross repeats rollEnd removed short k t) := by
  simp only [closedBelow, List.range_succ, List.foldl_append, List.foldl_cons, List.foldl_nil]

/-- The lanes' open records close one after another: the first k are on the send list and closed, and the others still open. -/
theorem closedBelow_spec (hopen : ∀ i, i < n → ∃ r, OpenAt t i (at_ i) r) (k : Nat) : k ≤ n →
    let x := closedBelow gross repeats rollEnd removed short k t
    x.sendList = t.sendList ++ (List.range k).map at_ ∧
    (∀ i r, i < k → OpenAt t i (at_ i) r →
      x.headers[at_ i]? = some (some (closedAs gross (removed i) repeats (short i) rollEnd r))) ∧
    (∀ i r, k ≤ i → i < n → OpenAt t i (at_ i) r → OpenAt x i (at_ i) r) := by
  induction k with
  | zero => exact fun _ => ⟨by simp [closedBelow], fun _ _ h => absurd h (Nat.not_lt_zero _), fun _ _ _ _ h => h⟩
  | succ k ih =>
    intro hk
    obtain ⟨hlist, hclosed, hrest⟩ := ih (by omega)
    obtain ⟨r, hr⟩ := hopen k (by omega)
    have hnow := hrest k r (Nat.le_refl k) (by omega) hr
    dsimp only
    rw [closedBelow_succ, closeLane_of_openAt hnow]
    generalize closedBelow gross repeats rollEnd removed short k t = x at hlist hclosed hrest hnow
    obtain ⟨hhead, htotals, hlane, honly⟩ := hnow
    have hlt : at_ k < x.headers.length := (List.getElem?_eq_some_iff.1 hhead).1
    refine ⟨?_, fun i y hi hy => ?_, fun i y hki hi hy => ?_⟩
    · simp only [hlist, List.range_succ, List.map_append, List.map_cons, List.map_nil, List.append_assoc]
    · by_cases hik : i = k
      · subst hik
        obtain rfl : r = y := by simpa using hr.1.symm.trans hy.1
        exact List.getElem?_set_self hlt
      · have hold := hclosed i y (by omega) hy
        have hne : at_ k ≠ at_ i := by
          intro he
          rw [← he, hhead] at hold
          have := congrArg ReelRecord.totals (Option.some.inj (Option.some.inj hold))
          rw [htotals] at this
          cases this
        exact (List.getElem?_set_ne hne).trans hold
    · obtain ⟨hyhead, hytotals, hylane, hyonly⟩ := hrest i y (by omega) hi hy
      have hne : at_ k ≠ at_ i := by
        intro he
        rw [he, hyhead] at hhead
        have := congrArg ReelRecord.lane (Option.some.inj (Option.some.inj hhead))
        omega
      refine ⟨(List.getElem?_set_ne hne).trans hyhead, hytotals, hylane, fun j z hz hzt hzl => ?_⟩
      dsimp only at hz
      by_cases hj : at_ k = j
      · subst hj
        rw [List.getElem?_set_self hlt] at hz
        obtain rfl := Option.some.inj (Option.some.inj hz)
        cases hzt
      · rw [List.getElem?_set_ne hj] at hz
        exact hyonly j z hz hzt hzl

end Lanes

/-! ### The gross length -/

theorem foldl_max_le_iff (l : List Nat) : ∀ m y : Nat, l.foldl max m ≤ y ↔ m ≤ y ∧ ∀ x ∈ l, x ≤ y := by
  induction l with
  | nil => simp
  | cons x l ih =>
    intro m y
    simp only [List.foldl_cons, ih, List.mem_cons, forall_eq_or_imp, Nat.max_le, and_assoc]

/-- The greatest removal sum is the least number not below any lane's (R152). -/
theorem maxRemoved_le_iff (s : State) (y : Nat) : s.sc.maxRemoved ≤ y ↔ ∀ i, removedOf s i ≤ y := by
  unfold SetController.maxRemoved removedOf
  rw [foldl_max_le_iff]
  constructor
  · rintro ⟨-, h⟩ i
    cases hi : s.sc.removed[i]? with
    | none => exact Nat.zero_le y
    | some x => exact h x (List.mem_of_getElem? hi)
  · refine fun h => ⟨Nat.zero_le y, fun x hx => ?_⟩
    obtain ⟨i, hi⟩ := List.getElem?_of_mem hx
    have := h i
    rwa [hi] at this

/-- The gross length as it is closed is the one of the statements (R152, R154). -/
theorem grossOf_eq {measured : Int} {s : State} {gross : Nat} (h : GrossIs measured s gross) : s.sc.grossOf measured = gross := by
  obtain ⟨hlow, hremoved, hleast⟩ := h
  have hmax : s.sc.maxRemoved ≤ gross := (maxRemoved_le_iff s gross).2 hremoved
  have hupper := hleast (s.sc.grossOf measured) (by unfold SetController.grossOf; omega)
    ((maxRemoved_le_iff s _).1 (by unfold SetController.grossOf; omega))
  unfold SetController.grossOf at hupper ⊢
  omega

end Sys2Proof.Closing
end

section
/-! PROOFS. What a set keeps while its cycle goes on (8.1, 9.2): its number and start mode, a set state other than NO_SET, the send
list and the closed records; no look, walk or judgement of the gate touches them. -/

namespace Sys2Proof.UnderWay

open Sys2Proof Sys2Proof.Machine Sys2Proof.Claims

/-- From `s` to `t` the set number and the start mode stand, no set falls back to NO_SET, and the send list and every closed record
stand. -/
structure GoesOn (s t : State) : Prop where
  num : t.sc.num = s.sc.num
  mode : t.sc.mode = s.sc.mode
  state : s.sc.state ≠ .noSet → t.sc.state ≠ .noSet
  sendList : t.rs.sendList = s.rs.sendList
  closed : ∀ (j : Nat) (r : ReelRecord), s.rs.headers[j]? = some (some r) → r.totals ≠ none → t.rs.headers[j]? = some (some r)

theorem GoesOn.refl (s : State) : GoesOn s s := ⟨rfl, rfl, id, rfl, fun _ _ h _ => h⟩

theorem GoesOn.trans {s t u : State} (h : GoesOn s t) (k : GoesOn t u) : GoesOn s u :=
  ⟨k.num.trans h.num, k.mode.trans h.mode, k.state ∘ h.state, k.sendList.trans h.sendList,
    fun j r hr ht => k.closed j r (h.closed j r hr ht) ht⟩

theorem GoesOn.foldl {α : Type} (f : State → α → State) (h : ∀ s x, GoesOn s (f s x)) (l : List α) : ∀ s, GoesOn s (l.foldl f s) := by
  induction l with
  | nil => exact GoesOn.refl
  | cons x l ih => exact fun s => (h s x).trans (ih _)

/-- An operation that touches neither the Set Controller nor the Record Store. -/
theorem GoesOn.of_same {s t : State} (hsc : t.sc = s.sc) (hrs : t.rs = s.rs) : GoesOn s t :=
  ⟨by rw [hsc], by rw [hsc], by rw [hsc]; exact id, by rw [hrs], by rw [hrs]; exact fun _ _ h _ => h⟩

/-- An update of the Set Controller that leaves its number and start mode and its place outside NO_SET. -/
theorem GoesOn.set (s : State) (x : SetController) (y : StopScheduler) (hnum : x.num = s.sc.num) (hmode : x.mode = s.sc.mode)
    (hstate : s.sc.state ≠ .noSet → x.state ≠ .noSet) : GoesOn s { s with sc := x, ss := y } :=
  ⟨hnum, hmode, hstate, rfl, fun _ _ h _ => h⟩

/-! ### Queuing and the Feature Queue -/

theorem goesOn_queueOwn (c : OwnClass) (dst : Nat) (tag : Option Half) (body : OwnBody) (s : State) :
    GoesOn s (queueOwn c dst tag body s) := by
  unfold queueOwn
  split_ifs <;> exact .of_same rfl rfl

theorem goesOn_driveOrder (body : OwnBody) (s : State) : GoesOn s (driveOrder body s) := goesOn_queueOwn ..

theorem goesOn_queueNotice (k : NoticeKind) (a b c : Word) (s : State) : GoesOn s (queueNotice k a b c s) := by
  rw [queueNotice_rest]
  exact .of_same rfl rfl

theorem goesOn_noticeTags (before : Nat) (s : State) : GoesOn s (noticeTags before s) := by
  unfold noticeTags
  split_ifs
  · exact goesOn_queueNotice ..
  · exact goesOn_queueNotice ..
  · exact GoesOn.refl s

theorem goesOn_expandsOnly {s t : State} (h : ExpandsOnly s t) : GoesOn s t :=
  .of_same (by rw [h.rest]) (by rw [h.rest])

theorem goesOn_changeSettled (num : Nat) (f : Settled → Settled) (s : State) : GoesOn s (changeSettled num f s) := .of_same rfl rfl

theorem goesOn_leave (num : Nat) (s : State) : GoesOn s (leave num s) := by
  unfold leave
  extract_lets _ _ s1
  have h1 : GoesOn s s1 := .of_same rfl rfl
  exact (h1.trans (goesOn_expandsOnly (expandsOnly_reportFree s1))).trans (goesOn_noticeTags ..)

/-! ### Records -/

/-- A change of the first header that passes a test leaves what does not pass it. -/
theorem modifyFirst_other {p : Option ReelRecord → Bool} (f : ReelRecord → ReelRecord) {x : Option ReelRecord} (hx : p x = false)
    (l : List (Option ReelRecord)) : ∀ j : Nat, l[j]? = some x → (modifyFirst p f l)[j]? = some x := by
  induction l with
  | nil => exact fun _ h => h
  | cons y l ih =>
    intro j h
    unfold modifyFirst
    cases j with
    | zero =>
      obtain rfl : y = x := by simpa using h
      rw [if_neg (by rw [hx]; exact Bool.false_ne_true)]
      rfl
    | succ j =>
      split
      · exact h
      · exact ih j h

/-- An event goes to an open record, and leaves the closed ones (R159). -/
theorem goesOn_handEvent (lane : Nat) (e : Event) (s : State) : GoesOn s (handEvent lane e s) := by
  refine ⟨rfl, rfl, id, rfl, fun j r hr ht => modifyFirst_other _ ?_ _ j hr⟩
  cases htot : r.totals with
  | none => exact absurd htot ht
  | some x => simp [openFor, ReelRecord.isOpen, htot]

/-- A record that opens takes a free header (R158). -/
theorem takeHeader_other (r x : ReelRecord) (l : List (Option ReelRecord)) :
    ∀ j : Nat, l[j]? = some (some x) → (takeHeader r l)[j]? = some (some x) := by
  induction l with
  | nil => exact fun _ h => h
  | cons y l ih =>
    intro j h
    cases j with
    | zero =>
      obtain rfl : y = some x := by simpa using h
      rfl
    | succ j =>
      cases y with
      | none => exact h
      | some y => exact ih j h

theorem goesOn_openRecords (set : Nat) (roll : Word) (b : Bank) (s : State) : GoesOn s (openRecords set roll b s) := by
  refine ⟨rfl, rfl, id, rfl, fun j r hr _ => ?_⟩
  have hfold : ∀ (l : List (LanePlan × Nat)) (hs : List (Option ReelRecord)), hs[j]? = some (some r) →
      (l.foldl (fun hs p => takeHeader (newRecord set roll b p.2 p.1.quota) hs) hs)[j]? = some (some r) := by
    intro l
    induction l with
    | nil => exact fun _ h => h
    | cons p l ih => exact fun hs h => ih _ (takeHeader_other _ r hs j h)
  exact hfold _ _ hr

/-! ### Stations -/

theorem goesOn_takeKnife (e : Settled) (s : State) : GoesOn s (takeKnife e s) := by
  unfold takeKnife
  extract_lets items
  split
  · exact goesOn_leave ..
  · exact goesOn_changeSettled ..

theorem goesOn_missStops (e : Settled) (s : State) : GoesOn s (missStops e s) := by
  unfold missStops
  extract_lets s1
  have h1 : GoesOn s s1 := goesOn_changeSettled ..
  split
  · exact h1.trans (goesOn_queueNotice ..)
  · exact h1

theorem goesOn_takeTable (e : Settled) (s : State) : GoesOn s (takeTable e s) := by
  unfold takeTable
  extract_lets s1
  have h1 : GoesOn s s1 := goesOn_changeSettled ..
  split
  · exact h1
  · exact h1.trans (goesOn_missStops ..)

theorem goesOn_takeFlag (m : MachineTable) (place : Bool) (e : Settled) (s : State) : GoesOn s (takeFlag m place e s) := by
  unfold takeFlag
  extract_lets items lanes s1
  have h1 : GoesOn s s1 := goesOn_changeSettled ..
  split
  · refine h1.trans (GoesOn.trans ?_ (goesOn_queueOwn ..))
    exact .of_same rfl rfl
  · exact h1

theorem goesOn_takeNip (e : Settled) (s : State) : GoesOn s (takeNip e s) := by
  have hwrite : ∀ p, GoesOn s (writeEvents p e s) := fun p =>
    GoesOn.foldl (fun s (i : LaneItem) => handEvent i.lane (nipEvent p e i) s) (fun s _ => goesOn_handEvent _ _ s) _ s
  unfold takeNip
  split
  · exact (hwrite _).trans (goesOn_leave ..)
  · exact GoesOn.refl s
  · exact goesOn_leave ..

theorem goesOn_takeStation (cleared : Bool) (st : Station) (num : Nat) (s : State) : GoesOn s (takeStation cleared st num s) := by
  unfold takeStation
  split
  · cases st with
    | knife => exact goesOn_takeKnife ..
    | table => exact goesOn_takeTable ..
    | flag =>
      dsimp only
      split
      · exact GoesOn.refl s
      · exact goesOn_takeFlag ..
    | nip =>
      dsimp only
      split
      · exact GoesOn.refl s
      · exact goesOn_takeNip ..
  · exact GoesOn.refl s

theorem goesOn_takeAll (m : MachineTable) (cleared : Option Nat) (l : List DueStation) (s : State) :
    GoesOn s (takeAll m cleared l s) := by
  refine GoesOn.foldl _ (fun s d => ?_) l s
  split
  · exact goesOn_takeStation ..
  · exact GoesOn.refl s

theorem goesOn_clearServed (num : Nat) (s : State) : GoesOn s (clearServed num s) := by
  have hwalk : ∀ y, GoesOn y (walkCleared num y) := by
    intro y
    unfold walkCleared
    split
    · exact goesOn_takeAll ..
    · exact GoesOn.refl y
  unfold clearServed
  split
  · exact GoesOn.refl s
  · extract_lets s1
    have h1 : GoesOn s s1 := goesOn_changeSettled ..
    refine (h1.trans ?_).trans (hwalk _)
    split
    · exact goesOn_missStops ..
    · exact GoesOn.refl s1

/-! ### The Stop Scheduler -/

theorem GoesOn.stop (s : State) (x : StopScheduler) : GoesOn s { s with ss := x } := .of_same rfl rfl

theorem goesOn_serveWindow (m : MachineTable) (s : State) : GoesOn s (serveWindow m s) :=
  GoesOn.foldl (fun s (x : Nat × Int) => serve x.1 s) (fun _ _ => .of_same rfl rfl) _ s

theorem goesOn_dropServed (s : State) : GoesOn s (dropServed s) :=
  GoesOn.foldl (fun s (e : Settled) => clearServed e.feat.num s) (fun s _ => goesOn_clearServed _ s) _ s

theorem goesOn_releaseAll (s : State) : GoesOn s (releaseAll s) := by
  unfold releaseAll
  refine GoesOn.trans ?_ (GoesOn.foldl (fun s (e : Settled) => clearServed e.feat.num s) (fun s _ => goesOn_clearServed _ s) _ _)
  exact .of_same rfl rfl

/-- The cut brings the set into CHANGING under its own number (R138, R151). -/
theorem goesOn_halt (m : MachineTable) (e : Int) (s : State) : GoesOn s (halt m e s) := by
  have hcut : ∀ y, GoesOn y (cutHalt m y) := by
    intro y
    unfold cutHalt
    extract_lets pCut y1
    have h1 : GoesOn y y1 := goesOn_driveOrder ..
    refine h1.trans ?_
    exact GoesOn.set y1 _ _ rfl rfl (fun _ => SetState.noConfusion)
  unfold halt
  dsimp only
  split
  · exact (GoesOn.stop s _).trans (hcut _)
  · exact GoesOn.stop s _

theorem goesOn_standstillCheck (m : MachineTable) (s : State) : GoesOn s (standstillCheck m s) := by
  unfold standstillCheck
  split
  · exact GoesOn.refl s
  · extract_lets e jogs
    split_ifs
    · exact goesOn_halt ..
    · exact (GoesOn.stop s _).trans (goesOn_driveOrder ..)
    · exact goesOn_halt ..
    · exact GoesOn.refl s

theorem goesOn_sendStop (m : MachineTable) (aim : Aim) (target : Int) (late : Bool) (s : State) :
    GoesOn s (sendStop m aim target late s) := by
  unfold sendStop
  extract_lets ds extra kind _ s1 s2 s3
  have h1 : GoesOn s s1 := (GoesOn.stop s _).trans (goesOn_driveOrder ..)
  have h2 : GoesOn s1 s2 := by
    unfold s2
    split
    · exact goesOn_serveWindow m s1
    · exact GoesOn.refl s1
  have h3 : GoesOn s2 s3 := by
    unfold s3
    split
    · exact goesOn_queueNotice ..
    · exact GoesOn.refl s2
  refine (h1.trans (h2.trans h3)).trans ?_
  split
  · exact goesOn_standstillCheck m s3
  · exact GoesOn.refl s3

theorem goesOn_idleLook (m : MachineTable) (s : State) : GoesOn s (idleLook m s) := by
  unfold idleLook
  split
  · exact GoesOn.stop s _
  · extract_lets seen ds s1
    split
    · exact GoesOn.stop s _
    · exact (GoesOn.stop s _).trans (goesOn_sendStop ..)

theorem goesOn_reviseOrder (m : MachineTable) (s : State) : GoesOn s (reviseOrder m s) := by
  unfold reviseOrder
  extract_lets s1
  have h1 : GoesOn s s1 := GoesOn.stop s _
  split
  · split
    · exact (h1.trans (GoesOn.stop s1 _)).trans (goesOn_driveOrder ..)
    · exact h1
  · exact h1

theorem goesOn_requestedLook (m : MachineTable) (s : State) : GoesOn s (requestedLook m s) := by
  unfold requestedLook
  extract_lets s1 s2
  have h1 : GoesOn s s1 := goesOn_dropServed s
  have h2 : GoesOn s s2 := h1.trans (goesOn_reviseOrder m s1)
  split
  · exact (h1.trans ((GoesOn.stop s1 _).trans (goesOn_driveOrder ..))).trans (goesOn_idleLook m _)
  · split
    · exact ((h2.trans (goesOn_releaseAll s2)).trans (GoesOn.stop _ _)).trans (goesOn_sendStop ..)
    · split
      · exact h2.trans (goesOn_serveWindow m s2)
      · exact h2

theorem goesOn_look (s : State) : GoesOn s (look s) := by
  unfold look
  split
  · exact GoesOn.refl s
  · rename_i m _
    extract_lets s0 s1
    have h0 : GoesOn s s0 := GoesOn.stop s _
    split
    · exact h0.trans (goesOn_idleLook m s0)
    · exact h0.trans (goesOn_requestedLook m s0)
    · have h1 : GoesOn s s1 := h0.trans (goesOn_dropServed s0)
      split
      · exact h1.trans (goesOn_serveWindow m s1)
      · exact h1
    · exact h0

theorem goesOn_walk (s : State) : GoesOn s (walk s) := by
  unfold walk
  split
  · exact GoesOn.refl s
  · refine GoesOn.foldl _ (fun s d => ?_) _ s
    unfold walkStation
    split
    · extract_lets s1
      have h1 : GoesOn s s1 := goesOn_takeStation ..
      split
      · exact h1.trans (goesOn_look s1)
      · exact h1
    · exact GoesOn.refl s

/-! ### The cycle of a set -/

theorem goesOn_approachTest (m : MachineTable) (s : State) : GoesOn s (approachTest m s) := by
  have hcut : ∀ y, GoesOn y (cutTest m y) := by
    intro y
    unfold cutTest
    split
    · unfold enterCutStop
      refine GoesOn.trans ?_ (goesOn_look _)
      exact GoesOn.set y _ _ rfl rfl (fun _ => SetState.noConfusion)
    · exact GoesOn.refl y
  unfold approachTest
  extract_lets nApp
  split
  · unfold enterApproach
    extract_lets _ s1 s2
    have h1 : GoesOn s s1 := by
      refine GoesOn.trans ?_ (goesOn_driveOrder ..)
      exact GoesOn.set s _ s.ss rfl rfl (fun _ => SetState.noConfusion)
    have h2 : GoesOn s s2 := h1.trans (hcut s1)
    split
    · exact h2.trans (goesOn_look s2)
    · exact h2
  · exact GoesOn.refl s

/-- A set that opens takes free headers and goes on in RUNNING (R145). -/
theorem goesOn_openSet (m : MachineTable) (b : Bank) (s : State) : GoesOn s (openSet m b s) := by
  unfold openSet
  extract_lets start s1 s2 roll s3 s4 s5
  have h1 : GoesOn s s1 := by
    unfold s1
    split
    · exact GoesOn.refl s
    · exact GoesOn.foldl (fun s (e : Settled) => leave e.feat.num s) (fun s _ => goesOn_leave _ s) _ s
  have h2 : GoesOn s1 s2 := GoesOn.set s1 _ s1.ss rfl rfl (fun _ => SetState.noConfusion)
  have h5 : GoesOn s2 s5 := ((goesOn_openRecords ..).trans (goesOn_driveOrder ..)).trans (goesOn_queueNotice ..)
  exact ((h1.trans (h2.trans h5)).trans ((goesOn_walk s5).trans (goesOn_look _))).trans (goesOn_approachTest m _)

theorem goesOn_announce (r : HeldReason) (applies : Bool) (value : Nat) (s : State) : GoesOn s (announce r applies value s) := by
  unfold announce
  split
  · refine GoesOn.trans ?_ (goesOn_queueNotice ..)
    exact GoesOn.set s _ s.ss rfl rfl id
  · exact GoesOn.refl s

theorem goesOn_judgeGate (s : State) : GoesOn s (judgeGate s) := by
  unfold judgeGate
  split
  · split_ifs
    · exact goesOn_openSet ..
    · exact ((goesOn_announce ..).trans (goesOn_announce ..)).trans (goesOn_announce ..)
    · exact GoesOn.refl s
  · exact GoesOn.refl s

theorem goesOn_prepareKnives (s : State) : GoesOn s (prepareKnives s) := by
  have hsend : ∀ m fresh j y, GoesOn y (sendKnife m fresh j y) := by
    intro m fresh j y
    unfold sendKnife
    split
    · exact GoesOn.refl y
    · exact GoesOn.trans (t := changeKnife j _ y) (.of_same rfl rfl) (goesOn_queueOwn ..)
  unfold prepareKnives
  split
  · refine GoesOn.foldl _ (fun s j => ?_) _ s
    unfold prepareKnife
    extract_lets t s1
    have h1 : GoesOn s s1 := .of_same rfl rfl
    split
    · exact GoesOn.refl s
    · split_ifs
      · exact GoesOn.refl s
      · exact h1
      · exact h1.trans (hsend ..)
  · exact GoesOn.refl s

/-- The preparation of a set, whether its gate opens it or holds it, leaves its number, its start mode and the closed records, and
the set outside NO_SET (R142, R143). -/
theorem goesOn_enterPreparing (s : State) : GoesOn s (enterPreparing s) ∧ (enterPreparing s).sc.state ≠ .noSet := by
  have h1 : GoesOn s { s with sc := { s.sc with state := .preparing, held := [] } } :=
    GoesOn.set s _ s.ss rfl rfl (fun _ => SetState.noConfusion)
  have h2 := (goesOn_prepareKnives { s with sc := { s.sc with state := .preparing, held := [] } }).trans (goesOn_judgeGate _)
  exact ⟨h1.trans h2, h2.state SetState.noConfusion⟩

end Sys2Proof.UnderWay
end

section
/-! PROOFS. DOFF_COMPLETE (8.6): the records close, the number advances, an armed plan is activated, and the next set is prepared
(R74, R141, R142, R152). -/

namespace Sys2Proof.SetChange

open Sys2Proof Sys2Proof.Machine Sys2Proof.Claims Sys2Proof.Laws Sys2Proof.Sightings Sys2Proof.LanePlan Sys2Proof.Closing
  Sys2Proof.UnderWay

/-! ### Sending records (R168) -/

theorem queueOwn_sets (c : OwnClass) (dst : Nat) (tag : Option Half) (body : OwnBody) (s : State) :
    (queueOwn c dst tag body s).sc = s.sc ∧ (queueOwn c dst tag body s).rs = s.rs := by
  unfold queueOwn
  split_ifs <;> exact ⟨rfl, rfl⟩

/-- A frame passed puts a fragment in flight, and leaves the set, the headers and the send list (R167). -/
theorem passRecord_sets (i : Nat) (r : ReelRecord) (s : State) : (passRecord i r s).sc = s.sc ∧
    (passRecord i r s).rs.headers = s.rs.headers ∧ (passRecord i r s).rs.sendList = s.rs.sendList := by
  obtain ⟨hsc, hrs⟩ := queueOwn_sets .record (s.role (·.recordReceiver)) none
    (.record r r.fragments (r.lastFragment r.fragments) (r.carried r.fragments)) s
  unfold passRecord
  dsimp only
  rw [hsc, hrs]
  exact ⟨rfl, rfl, rfl⟩

/-- The gate is judged in PREPARING alone (R143). -/
theorem judgeGate_of_not_preparing {s : State} (h : s.sc.state ≠ .preparing) : judgeGate s = s := by
  unfold judgeGate
  split
  · exact if_neg h
  · rfl

/-- Records sent while no set is in preparation leave the Set Controller. -/
theorem sendRecords_sc {s : State} (h : s.sc.state ≠ .preparing) : (sendRecords s).sc = s.sc := by
  have hsent : ∀ y : State, y.sc.state ≠ .preparing → (recordSent y).sc = y.sc := by
    intro y hy
    unfold recordSent
    split
    · rfl
    · rw [judgeGate_of_not_preparing (by exact hy)]
  have hpump : ∀ n (y : State), y.sc.state ≠ .preparing → (pumpRecords n y).sc = y.sc := by
    intro n
    induction n with
    | zero => exact fun _ _ => rfl
    | succ n ih =>
      intro y hy
      unfold pumpRecords
      split
      · rfl
      · rename_i i r _
        obtain ⟨hpass, -⟩ := passRecord_sets i r y
        dsimp only
        split
        · have hgone := (hsent (passRecord i r y) (by rw [hpass]; exact hy)).trans hpass
          exact (ih _ (by rw [hgone]; exact hy)).trans hgone
        · exact hpass
  exact hpump _ s h

/-- With a port in link one frame at most is passed, and the headers and the send list stand until it has gone out. -/
theorem sendRecords_linked {s : State} (h : linked s = true) :
    (sendRecords s).rs.headers = s.rs.headers ∧ (sendRecords s).rs.sendList = s.rs.sendList := by
  have hlink : s.noLink = false := by simpa [State.noLink, linked, Bool.or_eq_true, or_iff_not_imp_left] using h
  unfold sendRecords pumpRecords
  split
  · exact ⟨rfl, rfl⟩
  · rename_i i r _
    obtain ⟨-, hheaders, hlist⟩ := passRecord_sets i r s
    dsimp only
    rw [hlink]
    exact ⟨hheaders, hlist⟩

/-! ### The set closed (R152, R163 to R165) -/

/-- A set's records close lane by lane, and sending starts. -/
theorem closeSet_eq {s : State} {b : Bank} (hb : s.lpt.active = some b) (gross repeats : Nat) (rollEnd : Bool) :
    closeSet gross repeats rollEnd s =
      sendRecords { s with rs := closedBelow gross repeats rollEnd (removedOf s) s.short b.n s.rs } := by
  unfold closeSet
  rw [hb]
  rfl

theorem short_eq {s : State} {h : Header} (hc : s.ms.current = some h) (i : Nat) :
    s.short i = decide (s.sc.x * h.rNom < removedOf s i) := by
  unfold State.short
  rw [hc]
  rfl

/-- The records of a set that closes with a port in link are closed and on the send list. -/
theorem closeSet_closes {s : State} {b : Bank} {h : Header} (hb : s.lpt.active = some b) (hc : s.ms.current = some h)
    (hl : linked s = true) (gross repeats : Nat) (rollEnd : Bool) :
    SetClosed b h gross repeats rollEnd s (closeSet gross repeats rollEnd s) := by
  intro at_ hopen
  obtain ⟨hheaders, hlist⟩ := sendRecords_linked
    (s := { s with rs := closedBelow gross repeats rollEnd (removedOf s) s.short b.n s.rs }) hl
  obtain ⟨hsend, hclosed, -⟩ := closedBelow_spec gross repeats rollEnd (removedOf s) s.short hopen b.n (Nat.le_refl _)
  rw [closeSet_eq hb, hheaders, hlist]
  refine ⟨hsend, fun i r hi hr => ?_⟩
  rw [← short_eq hc]
  exact hclosed i r hi hr

/-- What goes on after the close leaves the set closed. -/
theorem setClosed_goesOn {b : Bank} {h : Header} {gross repeats : Nat} {rollEnd : Bool} {s x y : State}
    (hx : SetClosed b h gross repeats rollEnd s x) (hy : GoesOn x y) : SetClosed b h gross repeats rollEnd s y := by
  intro at_ hopen
  obtain ⟨hlist, hclosed⟩ := hx at_ hopen
  exact ⟨hy.sendList.trans hlist, fun i r hi hr => hy.closed _ _ (hclosed i r hi hr) (Option.some_ne_none _)⟩

/-! ### The set change -/

theorem nextSetNumber_eq (n : Nat) : nextSetNumber n = numberAfter n := by
  unfold nextSetNumber numberAfter
  split <;> split <;> omega

/-- The start mode of the set after a doff: THREAD where a plan is activated, CONTINUE where the ACTIVE bank stands (R142). -/
def modeAfter (t : LanePlans) : StartMode := if t.pending.isSome then .thread else .continue

theorem activate_sets (s : State) :
    (activate s).sc.num = s.sc.num ∧ (activate s).sc.mode = some (modeAfter s.lpt) ∧ (activate s).rs = s.rs := by
  unfold activate modeAfter
  cases s.lpt.pending <;> exact ⟨rfl, rfl, rfl⟩

theorem activate_fixed (s : State) : (activate s).fixed = { s.fixed with lpt := afterDoff s.lpt } := by
  unfold activate afterDoff State.fixed
  cases s.lpt.pending <;> rfl

/-- The preparation that follows the activation goes on with the new set (R142, R152). -/
theorem goesOn_prepared (s : State) : GoesOn s (expand (lookPreparing (enterPreparing s))) ∧
    (expand (lookPreparing (enterPreparing s))).sc.state ≠ .noSet := by
  obtain ⟨henter, hstate⟩ := goesOn_enterPreparing s
  have hlook : GoesOn (enterPreparing s) (lookPreparing (enterPreparing s)) := by
    unfold lookPreparing
    split
    · exact goesOn_look _
    · exact GoesOn.refl _
  have htail := hlook.trans (goesOn_expandsOnly (expandsOnly_expand _))
  exact ⟨henter.trans htail, htail.state hstate⟩

/-- The set closed with its records, as a doff closes it. -/
def doffClosed (s : State) : State := closeSet (s.sc.grossOf (s.sc.frozenCut.getD 0 - s.sc.pStart.getD 0)) s.sc.cutRepeats false s

/-- A doff in steps: the close, the activation under the next number, the preparation (R152). -/
theorem completeDoff_eq (s : State) : completeDoff s =
    expand (lookPreparing (enterPreparing (activate { doffClosed s with sc := (doffClosed s).sc.doffed }))) := rfl

/-- What a doff does to the set (R141, R142). -/
theorem completeDoff_sets {s : State} (hs : s.sc.state = .changing) : (completeDoff s).sc.num = numberAfter s.sc.num ∧
    (completeDoff s).sc.mode = some (modeAfter s.lpt) ∧ (completeDoff s).sc.state ≠ .noSet := by
  have hsc : (doffClosed s).sc = s.sc := sendRecords_sc (by rw [hs]; exact SetState.noConfusion)
  have hlpt : (doffClosed s).lpt = s.lpt := closeSet_lpt ..
  obtain ⟨hnum, hmode, -⟩ := activate_sets { doffClosed s with sc := (doffClosed s).sc.doffed }
  obtain ⟨hgoes, hstate⟩ := goesOn_prepared (activate { doffClosed s with sc := (doffClosed s).sc.doffed })
  rw [completeDoff_eq]
  refine ⟨(hgoes.num.trans hnum).trans ?_, (hgoes.mode.trans hmode).trans ?_, hstate⟩
  · rw [← nextSetNumber_eq, ← hsc]
    rfl
  · rw [← hlpt]

/-- A doff with a port in link closes the records of its set (R152, R163 to R165). -/
theorem completeDoff_closes {s : State} {b : Bank} {h : Header} {start c : Int} {base k gross : Nat} (hb : s.lpt.active = some b)
    (hc : s.ms.current = some h) (hstart : s.sc.pStart = some start) (hbase : s.sc.kBase = some base)
    (hcut : s.sc.frozenCut = some c) (hk : s.sc.kCut = some k) (hl : linked s = true) (hg : GrossIs (c - start) s gross) :
    SetClosed b h gross (k - base) false s (completeDoff s) := by
  have hclosed : SetClosed b h gross (k - base) false s (doffClosed s) := by
    have hgross : s.sc.grossOf (s.sc.frozenCut.getD 0 - s.sc.pStart.getD 0) = gross := by
      rw [hcut, hstart]
      exact grossOf_eq hg
    have hrepeats : s.sc.cutRepeats = k - base := by
      unfold SetController.cutRepeats
      rw [hk, hbase]
      rfl
    unfold doffClosed
    rw [hgross, hrepeats]
    exact closeSet_closes hb hc hl gross (k - base) false
  obtain ⟨-, -, hrs⟩ := activate_sets { doffClosed s with sc := (doffClosed s).sc.doffed }
  obtain ⟨hgoes, -⟩ := goesOn_prepared (activate { doffClosed s with sc := (doffClosed s).sc.doffed })
  have hactivated : SetClosed b h gross (k - base) false s (activate { doffClosed s with sc := (doffClosed s).sc.doffed }) := by
    unfold SetClosed at hclosed ⊢
    rw [hrs]
    exact hclosed
  exact setClosed_goesOn hactivated hgoes

/-- Nothing fixed moves at a doff but the banks, the knives and the flow state. -/
theorem completeDoff_fixed (s : State) :
    ∃ ks flow, (completeDoff s).fixed = { s.fixed with lpt := afterDoff s.lpt, knives := ks, flow := flow } := by
  have hclose : ∃ flow, (doffClosed s).fixed = { s.fixed with flow := flow } := ⟨_, (kept_sendRecords _).fixed⟩
  obtain ⟨flow, hflow⟩ := hclose
  have hlpt : (doffClosed s).lpt = s.lpt := closeSet_lpt ..
  obtain ⟨ks, hprepare⟩ := ((but_enterPreparing (activate { doffClosed s with sc := (doffClosed s).sc.doffed })).trans
    (kept_lookPreparing _).but).trans (upholds_expand _).but
  refine ⟨ks, flow, ?_⟩
  calc (completeDoff s).fixed
      = { (activate { doffClosed s with sc := (doffClosed s).sc.doffed }).fixed with knives := ks } := hprepare.fixed
    _ = { (doffClosed s).fixed with lpt := afterDoff (doffClosed s).lpt, knives := ks } := by rw [activate_fixed]; rfl
    _ = { s.fixed with lpt := afterDoff s.lpt, knives := ks, flow := flow } := by rw [hflow, hlpt]

/-! ### The doff answered -/

/-- The reply joins the replies of the state it answers, and nothing else fixed moves to the end of the event (R180, R187). -/
theorem ended_fixed (rx : Rx) (code : Byte) (st : ReplyStatus) (i : Nat) (b : ReplyBody) (y : State) :
    (endEvent (answered rx code st i b y)).fixed =
      { y.fixed with replies := y.ll.replies ++ if linked y then [replyTo rx code st i b y] else [] } := by
  rw [(kept_endEvent _).fixed]
  have hreplies : (answered rx code st i b y).ll.replies = y.ll.replies ++ if linked y then [replyTo rx code st i b y] else [] := by
    unfold answered LineLink.replies
    split
    · rw [List.filter_append]
      rfl
    · exact (List.append_nil _).symm
  rw [← hreplies]
  rfl

/-- A reply goes to the ports as they stand. -/
theorem reply_of_ports {s t : State} (ha : t.ll.portA = s.ll.portA) (hb : t.ll.portB = s.ll.portB) (rx : Rx) (code : Byte)
    (st : ReplyStatus) (i : Nat) (b : ReplyBody) : linked t = linked s ∧ replyTo rx code st i b t = replyTo rx code st i b s := by
  unfold linked replyTo queued
  rw [ha, hb]
  exact ⟨rfl, rfl⟩

theorem linked_passedOn (rx : Rx) (p : Payload) (s : State) : linked (passedOn rx p s) = linked s := by
  obtain ⟨q, a, hport, hlink⟩ := passedOn_rest rx p s
  rw [hport]
  cases q <;> simp only [linked, LineLink.setPort, LineLink.port] at hlink ⊢ <;> rw [hlink]

/-- Settles O52: the doff's effects on the set, the banks and the records, carried through the reply and the end of the event. -/
theorem doffCompleteChangesTheSet : Obligations.DoffCompleteChangesTheSet := by
  intro rx s ha hs s'
  have hs' : s' = { s with ll := s'.ll } := passedOn_eq ..
  have hsame : s'.sc = s.sc ∧ s'.lpt = s.lpt ∧ s'.pu = s.pu ∧ s'.mt = s.mt ∧ s'.machine = s.machine ∧ s'.peers = s.peers ∧
      s'.ms.current = s.ms.current ∧ s'.ms.next = s.ms.next := by
    rw [hs']
    exact ⟨rfl, rfl, rfl, rfl, rfl, rfl, rfl, rfl⟩
  obtain ⟨hsc, hlpt, hpu, hmt, hmachine, hpeers, hcurrent, hnext⟩ := hsame
  obtain ⟨hnum, hmode, hset⟩ := completeDoff_sets (s := s') (by rw [hsc]; exact hs)
  obtain ⟨ks, flow, hfixed⟩ := completeDoff_fixed s'
  obtain ⟨hlinked, hreply⟩ := reply_of_ports (congrArg Fixed.portA hfixed) (congrArg Fixed.portB hfixed) rx 5 .accepted 0 .empty
  have hend := ended_fixed rx 5 .accepted 0 .empty (completeDoff s')
  rw [hfixed, hlinked, hreply, show (completeDoff s').ll.replies = s'.ll.replies from congrArg Fixed.replies hfixed] at hend
  obtain ⟨nq, own, seq, hrest⟩ := ended_rest rx 5 .accepted 0 .empty (completeDoff s')
  refine ⟨_, exec_doffComplete ha hs, ?_⟩
  generalize endEvent (answered rx 5 .accepted 0 .empty (completeDoff s')) = x at hend hrest
  have hxsc : x.sc = (completeDoff s').sc := by rw [hrest]
  have hxrs : x.rs = (completeDoff s').rs := by rw [hrest]
  have hxlpt : x.lpt = afterDoff s.lpt := (congrArg Fixed.lpt hend).trans (congrArg afterDoff hlpt)
  have hxmode : x.sc.mode = some (modeAfter s.lpt) := by rw [hxsc, hmode, hlpt]
  refine ⟨by rw [hxsc, hnum, hsc], fun b hb => ?_, fun hp => ?_, by rw [hxsc]; exact hset, (congrArg Fixed.pu hend).trans hpu,
    (congrArg Fixed.mt hend).trans hmt, (congrArg Fixed.machine hend).trans hmachine, (congrArg Fixed.peers hend).trans hpeers,
    (congrArg Fixed.current hend).trans hcurrent, (congrArg Fixed.next hend).trans hnext, ?_, congrArg Fixed.replies hend, ?_⟩
  · rw [hxlpt, hxmode, afterDoff, modeAfter, hb]
    exact ⟨rfl, rfl⟩
  · rw [hxlpt, hxmode, afterDoff, modeAfter, hp]
    exact ⟨rfl, rfl⟩
  · exact ⟨congrArg Fixed.straps hend, congrArg Fixed.portA hend, congrArg Fixed.portB hend, congrArg Fixed.capture hend,
      congrArg Fixed.refusals hend, congrArg Fixed.resetting hend, congrArg Fixed.voidRecord hend, congrArg Fixed.voidNotice hend⟩
  · intro b h start base c k gross hb hc hstart hbase hcut hk hl hg
    have hclosed : SetClosed b h gross (k - base) false s (completeDoff { s with ll := s'.ll }) :=
      completeDoff_closes (s := { s with ll := s'.ll }) hb hc hstart hbase hcut hk ((linked_passedOn ..).trans hl) hg
    rw [← hs'] at hclosed
    exact setClosed_goesOn hclosed (GoesOn.of_same hxsc hxrs)

end Sys2Proof.SetChange
end

section
/-! PROOFS. What waits: by an operation that hands no event over, the records stand, the own frames waiting go on waiting, and few
notices join behind those that wait; so a notice or an order queued early in an event is still there at its end (R179, R187). -/

namespace Sys2Proof.Waiting

open Sys2Proof Sys2Proof.Machine Sys2Proof.Claims Sys2Proof.Standing

/-- From `s` to `t` the records stand, every own frame waiting still waits, and where there is room for k notices at most k have joined
the end of the Notice Queue, which is otherwise as it was. -/
structure Adds (k : Nat) (s t : State) : Prop where
  records : t.rs = s.rs
  own : s.ll.own ⊆ t.ll.own
  can : t.canQueue = s.canQueue
  notices : s.canQueue = true → s.nq.waiting.length + k ≤ Config.noticeMax →
    ∃ told, told.length ≤ k ∧ t.nq = { s.nq with waiting := s.nq.waiting ++ told }

variable {s t u : State} {j k : Nat}

theorem Adds.of_same (hrs : t.rs = s.rs) (hll : t.ll = s.ll) (hnq : t.nq = s.nq) : Adds 0 s t :=
  ⟨hrs, by rw [hll]; exact List.Subset.refl _, by simp only [State.canQueue, State.station, hll],
    fun _ _ => ⟨[], Nat.le_refl _, by rw [hnq, List.append_nil]⟩⟩

theorem Adds.refl (s : State) : Adds 0 s s := .of_same rfl rfl rfl

theorem Adds.mono (h : Adds j s t) (hjk : j ≤ k) : Adds k s t := by
  refine ⟨h.records, h.own, h.can, fun hcan hroom => ?_⟩
  obtain ⟨told, hlen, hnq⟩ := h.notices hcan (by omega)
  exact ⟨told, by omega, hnq⟩

theorem Adds.trans (h : Adds j s t) (h' : Adds k t u) : Adds (j + k) s u := by
  refine ⟨h'.records.trans h.records, List.Subset.trans h.own h'.own, h'.can.trans h.can, fun hcan hroom => ?_⟩
  obtain ⟨told, hlen, hnq⟩ := h.notices hcan (by omega)
  obtain ⟨told', hlen', hnq'⟩ := h'.notices (h.can.trans hcan) (by rw [hnq, List.length_append]; omega)
  refine ⟨told ++ told', by rw [List.length_append]; omega, ?_⟩
  rw [hnq', hnq, List.append_assoc]

theorem Adds.foldl {α : Type} (f : State → α → State) (h : ∀ s x, Adds 0 s (f s x)) (l : List α) :
    ∀ s, Adds 0 s (l.foldl f s) := by
  induction l with
  | nil => exact Adds.refl
  | cons x l ih => exact fun s => (h s x).trans (ih _)

/-! ### Queuing -/

theorem adds_stop (s : State) (x : StopScheduler) : Adds 0 s { s with ss := x } := .of_same rfl rfl rfl

theorem adds_queueOwn (c : OwnClass) (dst : Nat) (tag : Option Half) (body : OwnBody) (s : State) :
    Adds 0 s (queueOwn c dst tag body s) := by
  rcases queueOwn_cases c dst tag body s with ⟨_, _, f, _, h⟩ | ⟨_, _, h⟩ | ⟨_, h⟩
  · rw [h]
    refine ⟨rfl, ?_, rfl, fun _ _ => ⟨[], Nat.le_refl _, by rw [List.append_nil]⟩⟩
    dsimp only
    split
    · exact List.Subset.refl _
    · exact List.subset_append_left ..
  · rw [h]
    split
    · exact ⟨rfl, List.Subset.refl _, rfl, fun _ _ => ⟨[], Nat.le_refl _, by rw [List.append_nil]⟩⟩
    · exact Adds.refl s
  · rw [h]
    exact Adds.refl s

theorem adds_driveOrder (body : OwnBody) (s : State) : Adds 0 s (driveOrder body s) := adds_queueOwn ..

theorem adds_queueNotice (kind : NoticeKind) (a b c : Word) (s : State) : Adds 1 s (queueNotice kind a b c s) := by
  have hrest := queueNotice_rest kind a b c s
  refine ⟨by rw [hrest], by rw [hrest]; exact List.Subset.refl _, by rw [hrest]; rfl, fun hcan hroom => ?_⟩
  rw [queueNotice_room kind a b c s hcan (by omega)]
  exact ⟨_, Nat.le_refl _, rfl⟩

/-- With room, the notice queued waits. -/
theorem mem_queueNotice (kind : NoticeKind) (a b c : Word) (hcan : s.canQueue = true)
    (hroom : s.nq.waiting.length < Config.noticeMax) :
    { kind := kind, u := s.pu.u, v0 := a, v1 := b, v2 := c } ∈ (queueNotice kind a b c s).nq.waiting := by
  rw [queueNotice_room kind a b c s hcan hroom]
  exact List.mem_append_right _ (List.mem_singleton_self _)

/-- An order that goes is among the own frames once it has been queued (R179). -/
theorem ordered_queueOwn (h : OrdersGo s) (dst : Nat) (tag : Option Half) (body : OwnBody) :
    Ordered dst body (queueOwn .order dst tag body s) := by
  obtain ⟨hcan, hroom, hlink⟩ := h
  rcases queueOwn_cases .order dst tag body s with ⟨_, _, f, hf, h⟩ | ⟨_, hfull, _⟩ | ⟨hno, _⟩
  · have hout : f.out = false := by
      rw [hf]
      unfold linked at hlink
      simp only [OwnFrame.out, PortState.newStage]
      cases ha : s.ll.portA.link <;> cases hb : s.ll.portB.link <;> simp_all
    rw [h, hout]
    exact ⟨f, List.mem_append_right _ (List.mem_singleton_self _), by rw [hf], by rw [hf], by rw [hf]⟩
  · have hfits : s.ll.room .order = true := decide_eq_true hroom
    rw [hfits] at hfull
    cases hfull
  · rw [hcan] at hno
    cases hno

theorem Adds.ordered (h : Adds k s t) {dst : Nat} {body : OwnBody} (ho : Ordered dst body s) : Ordered dst body t := by
  obtain ⟨f, hf, hrest⟩ := ho
  exact ⟨f, h.own hf, hrest⟩

/-! ### The end of the event -/

theorem noticesWait_of_same (hll : t.ll = s.ll) (hnq : t.nq = s.nq) (h : NoticesWait s) : NoticesWait t := by
  obtain ⟨hcan, hrest⟩ := h
  refine ⟨?_, by rw [hnq]; exact hrest⟩
  simpa only [State.canQueue, State.station, hll] using hcan

/-- A notice queued behind at most 24 others still waits at the end of the event, where at most 7 more have followed it. -/
theorem Adds.noticed {kind : NoticeKind} {a b c : Word} (h : Adds k (queueNotice kind a b c s) t) (hk : k ≤ 7)
    (hw : NoticesWait s) : ∃ n ∈ (endEvent t).nq.waiting, n.kind = kind ∧ n.v0 = a ∧ n.v1 = b ∧ n.v2 = c := by
  obtain ⟨hcan, hflight, hlen⟩ := hw
  have hlt : s.nq.waiting.length < Config.noticeMax := by unfold Config.noticeMax; omega
  have hmem := mem_queueNotice kind a b c hcan hlt
  obtain ⟨told, -, hnq⟩ := h.notices ((adds_queueNotice kind a b c s).can.trans hcan) (by
    rw [queueNotice_room kind a b c s hcan hlt, List.length_append, List.length_singleton]
    unfold Config.noticeMax
    omega)
  have hbusy : t.nq.inFlight ≠ none := by
    rw [hnq, queueNotice_room kind a b c s hcan hlt]
    exact hflight
  rw [endEvent_busy t hbusy, hnq]
  exact ⟨_, List.mem_append_left _ hmem, rfl, rfl, rfl, rfl⟩

/-- The passing of notices leaves the orders (R187). -/
theorem ordered_endEvent {dst : Nat} {body : OwnBody} (h : Ordered dst body s) : Ordered dst body (endEvent s) := by
  obtain ⟨f, hf, hrest⟩ := h
  obtain ⟨l, hown, -⟩ := (noticesOnly_endEvent s).own
  exact ⟨f, by rw [hown]; exact List.mem_append_left _ hf, hrest⟩

/-- A reply queued leaves the orders. -/
theorem ordered_answered {dst : Nat} {body : OwnBody} (h : Ordered dst body s) (rx : Rx) (code : Byte) (st : ReplyStatus) (i : Nat)
    (b : ReplyBody) : Ordered dst body (answered rx code st i b s) := by
  obtain ⟨f, hf, hrest⟩ := h
  refine ⟨f, ?_, hrest⟩
  unfold answered
  dsimp only
  split
  · exact List.mem_append_left _ hf
  · exact hf

/-! ### The attempt to expand -/

theorem own_expandOne (h : Header) (f b : Nat) (l : List PressEntry) (s : State) : s.ll.own ⊆ (expandOne h f b l s).ll.own := by
  have hreport : ∀ y : State, (reportFree y).ll = y.ll := by
    intro y
    cases hm : y.machine with
    | none => unfold reportFree; rw [hm]
    | some m => rw [RollMap.reportFree_eq_paced hm, RollMap.paced_rest]
  obtain ⟨q, hq⟩ := RollMap.foldl_joinForecast_rest h l s
  unfold expandOne
  extract_lets s1 _ s2
  have hs1 : s1.ll = s.ll := by unfold s1; rw [hq]
  have hs2 : s2.ll = s.ll := hs1
  obtain ⟨roll, asked, hasked⟩ := RollMap.checkRequests_requested (reportFree s2)
  rw [hasked, ← hs2, ← hreport s2]
  exact List.subset_append_left ..

/-- An attempt to expand hands no event over, and queues one notice at most, that of its pausing (R38, R39). -/
theorem adds_expand (s : State) : Adds 1 s (expand s) := by
  have hown : ∀ n (y : State), y.ll.own ⊆ (expandFor n y).ll.own := by
    intro n
    induction n with
    | zero => exact fun _ => List.Subset.refl _
    | succ n ih =>
      intro y
      unfold expandFor
      split
      · exact List.Subset.refl _
      · exact List.Subset.trans (own_expandOne ..) (ih _)
  have honly := expandsOnly_expand s
  refine ⟨by rw [honly.rest], ?_, RollMap.canQueue_of_expandsOnly honly, fun hcan hroom => ?_⟩
  · unfold expand
    split
    · exact List.Subset.refl _
    · exact hown ..
  · cases hp : s.ms.paused with
    | true => exact ⟨[], Nat.zero_le _, by rw [RollMap.expand_paused hp, List.append_nil]⟩
    | false =>
      unfold expand
      cases hm : s.machine with
      | none => exact ⟨[], Nat.zero_le _, by rw [List.append_nil]⟩
      | some m =>
        refine ⟨_, ?_, RollMap.expandFor_nq _ hm hp hcan (by omega)⟩
        split <;> simp

/-! ### The gate that stays shut -/

theorem adds_announce (r : HeldReason) (applies : Bool) (value : Nat) (s : State) : Adds 1 s (announce r applies value s) := by
  unfold announce
  split
  · have h1 : Adds 0 s { s with sc := { s.sc with held := s.sc.held ++ [r] } } := .of_same rfl rfl rfl
    exact h1.trans (adds_queueNotice ..)
  · exact (Adds.refl s).mono (Nat.zero_le _)

theorem adds_announceHeld (b : Bank) (s : State) : Adds 3 s (announceHeld b s) :=
  ((adds_announce ..).trans (adds_announce ..)).trans (adds_announce ..)

/-- A channel that is neither IN_POSITION nor PARKED keeps the gate shut (R143). -/
theorem gateKnives_shut {c : KnifeChannel} (hc : s.knives[j]? = some c) (hin : c.state ≠ .inPosition) (hpark : c.state ≠ .parked)
    (b : Bank) : s.gateKnives b = false := by
  have hmem : (c, j) ∈ s.knives.zipIdx := by rw [List.mem_zipIdx_iff_getElem?]; exact hc
  refine List.all_eq_false.2 ⟨(c, j), hmem, ?_⟩
  dsimp only
  split <;> simp [hin, hpark]

/-- A gate that a channel keeps shut announces at most its three reasons (R144). -/
theorem adds_judgeGate_shut {c : KnifeChannel} (hc : s.knives[j]? = some c) (hin : c.state ≠ .inPosition)
    (hpark : c.state ≠ .parked) : Adds 3 s (judgeGate s) := by
  unfold judgeGate
  split
  · split
    · rw [if_neg (fun h => by simp [gateKnives_shut hc hin hpark] at h)]
      exact adds_announceHeld ..
    · exact (Adds.refl s).mono (Nat.zero_le _)
  · exact (Adds.refl s).mono (Nat.zero_le _)

/-! ### A look with no Settled entry served -/

/-- No entry of the Settled list is served, so that no served mark is cleared there and no station taken (R112). -/
def NoneServed (s : State) : Prop := ∀ e ∈ s.fq.settled, e.feat.served = false

theorem dropServed_of_noneServed (h : NoneServed s) : dropServed s = s := by
  unfold dropServed
  rw [List.filter_eq_nil_iff.2 (fun e he => by simp [h e he])]
  rfl

theorem adds_releaseAll (h : NoneServed s) : Adds 0 s (releaseAll s) := by
  unfold releaseAll
  dsimp only
  rw [List.filter_eq_nil_iff.2 (fun e he => by simp [h e he])]
  exact .of_same rfl rfl rfl

theorem adds_serveWindow (m : MachineTable) (s : State) : Adds 0 s (serveWindow m s) :=
  Adds.foldl (fun s (x : Nat × Int) => serve x.1 s) (fun _ _ => .of_same rfl rfl rfl) _ s

theorem adds_halt (m : MachineTable) (e : Int) (s : State) : Adds 0 s (halt m e s) := by
  unfold halt
  extract_lets _ s1
  have h1 : Adds 0 s s1 := adds_stop ..
  split
  · refine h1.trans (k := 0) ?_
    unfold cutHalt
    extract_lets pCut s2
    have h2 : Adds 0 s1 s2 := adds_driveOrder ..
    exact h2.trans (k := 0) (.of_same rfl rfl rfl)
  · exact h1

theorem adds_standstillCheck (m : MachineTable) (s : State) : Adds 0 s (standstillCheck m s) := by
  unfold standstillCheck
  split
  · exact Adds.refl s
  · extract_lets e jogs
    split_ifs
    · exact adds_halt ..
    · exact (adds_stop s _).trans (adds_driveOrder ..)
    · exact adds_halt ..
    · exact Adds.refl s

/-- A stop order sent queues one notice at most, STOP_LATE (R123). -/
theorem adds_sendStop (m : MachineTable) (aim : Aim) (target : Int) (late : Bool) (s : State) :
    Adds 1 s (sendStop m aim target late s) := by
  unfold sendStop
  extract_lets ds extra kind _ s1 s2 s3
  have h1 : Adds 0 s s1 := (adds_stop s _).trans (adds_driveOrder ..)
  have h2 : Adds 0 s1 s2 := by
    unfold s2
    split
    · exact adds_serveWindow m s1
    · exact Adds.refl s1
  have h3 : Adds 1 s2 s3 := by
    unfold s3
    split
    · exact adds_queueNotice ..
    · exact (Adds.refl s2).mono (Nat.zero_le _)
  refine (h1.trans h2).trans (h3.trans (k := 0) ?_)
  split
  · exact adds_standstillCheck m s3
  · exact Adds.refl s3

theorem adds_idleLook (m : MachineTable) (s : State) : Adds 1 s (idleLook m s) := by
  unfold idleLook
  split
  · exact (adds_stop s _).mono (Nat.zero_le _)
  · extract_lets seen ds s1
    split
    · exact (adds_stop s _).mono (Nat.zero_le _)
    · exact (adds_stop s _).trans (adds_sendStop ..)

theorem adds_reviseOrder (m : MachineTable) (s : State) : Adds 0 s (reviseOrder m s) := by
  unfold reviseOrder
  extract_lets s1
  have h1 : Adds 0 s s1 := adds_stop ..
  split
  · split
    · exact (h1.trans (adds_stop s1 _)).trans (adds_driveOrder ..)
    · exact h1
  · exact h1

theorem adds_requestedLook (m : MachineTable) (h : NoneServed s) : Adds 1 s (requestedLook m s) := by
  unfold requestedLook
  extract_lets s1 s2
  have hs1 : s1 = s := dropServed_of_noneServed h
  have h2 : Adds 0 s s2 := hs1 ▸ adds_reviseOrder m s1
  have hserved : NoneServed s2 := by unfold s2 NoneServed; rw [reviseOrder_fq, hs1]; exact h
  split
  · have hcancel : Adds 0 s1 (cancelStop s1) := (adds_stop s1 _).trans (adds_driveOrder ..)
    rw [hs1] at hcancel ⊢
    exact hcancel.trans (adds_idleLook m _)
  · split
    · exact ((h2.trans (adds_releaseAll hserved)).trans (adds_stop _ _)).trans (adds_sendStop ..)
    · split
      · exact (h2.trans (adds_serveWindow m s2)).mono (Nat.zero_le _)
      · exact h2.mono (Nat.zero_le _)

/-- A look with no Settled entry served hands no event over, and queues one notice at most (R121). -/
theorem adds_look (h : NoneServed s) : Adds 1 s (look s) := by
  unfold look
  split
  · exact (Adds.refl s).mono (Nat.zero_le _)
  · rename_i m _
    extract_lets s0 s1
    have h0 : Adds 0 s s0 := adds_stop ..
    have hs1 : s1 = s0 := dropServed_of_noneServed h
    split
    · exact h0.trans (adds_idleLook m s0)
    · exact h0.trans (adds_requestedLook m h)
    · rw [hs1]
      split
      · exact (h0.trans (adds_serveWindow m s0)).mono (Nat.zero_le _)
      · exact h0.mono (Nat.zero_le _)
    · exact h0.mono (Nat.zero_le _)

end Sys2Proof.Waiting
end

section
/-! PROOFS. The Knife Channels (chapter 5): what their operations do to a channel whose value is known, what of the state stands when
a channel has been changed, and the DRIFT events of the lanes beside a knife (R85 to R93). -/

namespace Sys2Proof.Knives

open Sys2Proof Sys2Proof.Machine Sys2Proof.Claims Sys2Proof.Laws Sys2Proof.Closing Sys2Proof.UnderWay Sys2Proof.Waiting

/-! ### One channel replaced -/

/-- The state with channel j replaced. -/
def setKnife (j : Nat) (c : KnifeChannel) (s : State) : State := { s with knives := s.knives.set j c }

variable {s t : State} {j : Nat} {c d : KnifeChannel}

/-- A change of a channel writes the changed channel in its place. -/
theorem changeKnife_eq (hc : s.knives[j]? = some c) (f : KnifeChannel → KnifeChannel) : changeKnife j f s = setKnife j (f c) s := by
  unfold changeKnife setKnife
  rw [List.modify_eq_set_getElem?, hc]
  rfl

theorem setKnife_get (hc : s.knives[j]? = some c) (d : KnifeChannel) : (setKnife j d s).knives[j]? = some d :=
  List.getElem?_set_self (List.getElem?_eq_some_iff.1 hc).1

/-- An order of a channel sent: the channel is MOVING, and its order is queued (R85). -/
theorem sendKnife_eq (hc : s.knives[j]? = some c) {k : KnifeTarget} (hk : c.target = some k) (m : MachineTable) (fresh : Bool) :
    sendKnife m fresh j s =
      queueOwn .order (s.role (·.knifePositioner)) none (.knife j k) (setKnife j (c.ordered m.tKnife fresh) s) := by
  unfold sendKnife
  rw [hc, Option.bind_some, hk]
  dsimp only
  rw [changeKnife_eq hc]

/-- A channel without a target has no order to send. -/
theorem sendKnife_none (hc : s.knives[j]? = some c) (hk : c.target = none) (m : MachineTable) (fresh : Bool) :
    sendKnife m fresh j s = s := by
  unfold sendKnife
  rw [hc, Option.bind_some, hk]

/-- A channel that enters FAULT, with its notice (R88, R89). -/
theorem knifeFault_eq (hc : s.knives[j]? = some c) (cause : KnifeCause) : knifeFault j cause s =
    queueNotice .knifeFault (wNat j) (wNat cause.code) (wOptNat c.reported)
      (setKnife j { c with state := .fault, timer := none, cause := cause } s) := by
  unfold knifeFault
  rw [changeKnife_eq hc, hc]
  rfl

/-- An event handed over for each of some lanes, in their order. -/
def handAll (e : Event) (lanes : List Nat) (s : State) : State := lanes.foldl (fun x l => handEvent l e x) s

/-- A channel that enters DRIFTED, with the events of its lanes and its notice (R92). -/
theorem knifeDrifts_eq (hc : s.knives[j]? = some c) (m : MachineTable) : knifeDrifts m j s =
    queueNotice .knifeDrift (wNat j) (wOptNat c.reported) (wBool c.reportedParked)
      (handAll (driftEvent (s.pu.u - m.dKn - s.sc.pStart.getD 0)) (lanesBeside ((s.lpt.active.map (·.n)).getD 0) j)
        (setKnife j { c with state := .drifted } s)) := by
  unfold knifeDrifts handAll
  dsimp only
  rw [changeKnife_eq hc, hc]
  rfl

/-! ### What a change of a channel gives other blocks (R84, R121, R143) -/

/-- A channel whose state stands gives other blocks nothing. -/
theorem knifeChanged_same (hc : s.knives[j]? = some c) (hd : t.knives[j]? = some d) (h : d.state = c.state) :
    knifeChanged j s t = t := by
  unfold knifeChanged
  rw [hc, hd]
  exact if_pos (congrArg some h.symm)

/-- A change of state that has nothing to do with DRIFTED is judged at the gate alone; one that has is looked at first. -/
theorem knifeChanged_changed (hc : s.knives[j]? = some c) (hd : t.knives[j]? = some d) (h : d.state ≠ c.state) :
    knifeChanged j s t = judgeGate (if c.state = .drifted ∨ d.state = .drifted then look t else t) := by
  have hne : ¬ some c.state = some d.state := fun h' => h (Option.some.inj h').symm
  unfold knifeChanged
  rw [hc, hd]
  dsimp only [Option.map_some]
  rw [if_neg hne]
  simp only [Option.some.injEq]

/-- A channel that comes to a state in which it keeps the gate shut: the gate announces at most its three reasons. -/
theorem adds_knifeChanged (hc : s.knives[j]? = some c) (hd : t.knives[j]? = some d) (hold : c.state ≠ .drifted)
    (hnew : d.state = .moving ∨ d.state = .fault) : Adds 3 t (knifeChanged j s t) := by
  by_cases h : d.state = c.state
  · rw [knifeChanged_same hc hd h]
    exact (Adds.refl t).mono (Nat.zero_le _)
  · have hshut : d.state ≠ .inPosition ∧ d.state ≠ .parked ∧ d.state ≠ .drifted := by
      rcases hnew with hnew | hnew <;> rw [hnew] <;> exact ⟨nofun, nofun, nofun⟩
    obtain ⟨hin, hpark, hdrift⟩ := hshut
    rw [knifeChanged_changed hc hd h, if_neg (by simp [hold, hdrift])]
    exact adds_judgeGate_shut hd hin hpark

/-- A channel that enters DRIFTED with no Settled entry served: a look, and a gate that stays shut. -/
theorem adds_knifeChanged_drifted (hc : s.knives[j]? = some c) (hd : t.knives[j]? = some d) (hold : c.state ≠ .drifted)
    (hnew : d.state = .drifted) (hserved : NoneServed t) : Adds 4 t (knifeChanged j s t) := by
  have hlook : (look t).knives[j]? = some d := by
    rw [show (look t).knives = t.knives from congrArg Fixed.knives (kept_look t).fixed]
    exact hd
  rw [knifeChanged_changed hc hd (by rw [hnew]; exact hold.symm), if_pos (.inr hnew)]
  exact (adds_look hserved).trans (adds_judgeGate_shut hlook (by rw [hnew]; exact nofun) (by rw [hnew]; exact nofun))

/-! ### What stands -/

/-- From `s` to `t` channel j becomes c, and nothing else fixed moves. -/
def MovesKnife (j : Nat) (c : KnifeChannel) (s t : State) : Prop := t.fixed = { s.fixed with knives := s.knives.set j c }

theorem movesKnife_setKnife (j : Nat) (c : KnifeChannel) (s : State) : MovesKnife j c s (setKnife j c s) := rfl

/-- What keeps after a channel has been replaced leaves it replaced. -/
theorem MovesKnife.kept {u : State} (h : MovesKnife j c s t) (k : Upholds t u) : MovesKnife j c s u := k.fixed.trans h

/-- A channel replaced twice is as the second replacement leaves it. -/
theorem MovesKnife.again {u : State} (h : MovesKnife j c s t) (k : MovesKnife j d t u) : MovesKnife j d s u := by
  have hknives : t.knives = s.knives.set j c := congrArg Fixed.knives h
  unfold MovesKnife at h k ⊢
  rw [k, h, hknives, List.set_set]

theorem MovesKnife.get (h : MovesKnife j c s t) (hd : s.knives[j]? = some d) : t.knives[j]? = some c := by
  rw [show t.knives = s.knives.set j c from congrArg Fixed.knives h]
  exact List.getElem?_set_self (List.getElem?_eq_some_iff.1 hd).1

/-- An order sent moves its channel (R85). -/
theorem movesKnife_sendKnife (hc : s.knives[j]? = some c) {k : KnifeTarget} (hk : c.target = some k) (m : MachineTable)
    (fresh : Bool) : MovesKnife j (c.ordered m.tKnife fresh) s (sendKnife m fresh j s) := by
  rw [sendKnife_eq hc hk]
  exact (movesKnife_setKnife ..).kept (kept_queueOwn .order (by decide) ..).toUpholds

theorem movesKnife_knifeFault (hc : s.knives[j]? = some c) (cause : KnifeCause) :
    MovesKnife j { c with state := .fault, timer := none, cause := cause } s (knifeFault j cause s) := by
  rw [knifeFault_eq hc]
  exact (movesKnife_setKnife ..).kept (kept_queueNotice ..).toUpholds

theorem movesKnife_knifeDrifts (hc : s.knives[j]? = some c) (m : MachineTable) :
    MovesKnife j { c with state := .drifted } s (knifeDrifts m j s) := by
  rw [knifeDrifts_eq hc]
  exact ((movesKnife_setKnife ..).kept (kept_handAll ..).toUpholds).kept (kept_queueNotice ..).toUpholds

/-- What the statements say stands while channel j becomes c, from the state in which the frame is judged. -/
theorem becomes_of_movesKnife {s' x : State} {replies : List OwnFrame} (hs' : s' = { s with ll := s'.ll })
    (hc : s.knives[j]? = some d) (h : x.fixed = { s'.fixed with knives := s.knives.set j c, replies := replies }) :
    KnifeBecomes j c s x ∧ x.pu = s.pu ∧ x.mt = s.mt ∧ SameTables s x ∧ SameLink s' x := by
  rw [hs'] at h
  have hknives : x.knives = s.knives.set j c := congrArg Fixed.knives h
  have hbecomes : KnifeBecomes j c s x := by
    unfold KnifeBecomes
    rw [hknives]
    exact ⟨List.getElem?_set_self (List.getElem?_eq_some_iff.1 hc).1, fun i hi => List.getElem?_set_ne (Ne.symm hi)⟩
  exact ⟨hbecomes, congrArg Fixed.pu h, congrArg Fixed.mt h,
    ⟨congrArg Fixed.pending h, congrArg Fixed.machine h, congrArg Fixed.peers h, congrArg Fixed.lpt h, congrArg Fixed.current h,
      congrArg Fixed.next h⟩,
    ⟨congrArg Fixed.straps h, congrArg Fixed.portA h, congrArg Fixed.portB h, congrArg Fixed.capture h, congrArg Fixed.refusals h,
      congrArg Fixed.resetting h, congrArg Fixed.voidRecord h, congrArg Fixed.voidNotice h⟩⟩

theorem ordersGo_of_same (hll : t.ll = s.ll) (h : OrdersGo s) : OrdersGo t := by
  obtain ⟨hcan, hroom, hlink⟩ := h
  refine ⟨?_, by rw [hll]; exact hroom, ?_⟩
  · simpa only [State.canQueue, State.station, hll] using hcan
  · simpa only [linked, hll] using hlink

/-- An order that would go goes still once a broadcast has been sent on. -/
theorem ordersGo_passedOn {rx : Rx} {p : Payload} (h : OrdersGo s) : OrdersGo (passedOn rx p s) := by
  obtain ⟨hcan, hroom, hlink⟩ := h
  refine ⟨?_, ?_, (SetChange.linked_passedOn rx p s).trans hlink⟩
  · obtain ⟨q, a, hport, -⟩ := passedOn_rest rx p s
    rw [hport]
    simpa [State.canQueue, State.station] using hcan
  · obtain ⟨q, a, hport, -⟩ := passedOn_rest rx p s
    rw [hport]
    simpa [LineLink.count] using hroom

/-! ### The lanes beside a knife (R92, R159) -/

theorem mem_lanesBeside {n l : Nat} : l ∈ lanesBeside n j ↔ l < n ∧ (l = j ∨ l + 1 = j) := by
  unfold lanesBeside
  rw [List.mem_append]
  split_ifs <;> simp <;> omega

theorem lanesBeside_nodup (n j : Nat) : (lanesBeside n j).Nodup := by
  unfold lanesBeside
  split_ifs <;> simp
  omega

/-- A record takes an event as the statements say (R160, R161). -/
theorem take_eq_handedTo (e : Event) (r : ReelRecord) : r.take e = handedTo e r := by
  unfold ReelRecord.take handedTo Statuses.after
  by_cases h : r.events.length < r.quota
  · simp [h, beq_eq_decide]
  · simp [h, Nat.not_lt.1 h, beq_eq_decide]

/-- An event for a lane goes to the record that the lane's open header holds (R159). -/
theorem handEvent_at {l i : Nat} {r : ReelRecord} (h : OpenAt s.rs l i r) (e : Event) :
    (handEvent l e s).rs.headers[i]? = some (some (handedTo e r)) := by
  have hi := h.1
  show (modifyFirst (openFor l) (ReelRecord.take e) s.rs.headers)[i]? = _
  rw [modifyFirst_eq_modify _ (openIndex_of_openAt h), List.getElem?_modify_eq, hi, ← take_eq_handedTo]
  rfl

/-- An event for a lane leaves the record of any other lane in its header (R159). -/
theorem handEvent_other {l i : Nat} {r : ReelRecord} (hi : s.rs.headers[i]? = some (some r)) (hl : r.lane ≠ l) (e : Event) :
    (handEvent l e s).rs.headers[i]? = some (some r) :=
  modifyFirst_other _ (by simp [openFor, hl]) _ i hi

/-- A header is as it was after a change of the first that passes a test, or passes the test and is changed. -/
theorem modifyFirst_get (p : Option ReelRecord → Bool) (f : ReelRecord → ReelRecord) (l : List (Option ReelRecord)) :
    ∀ i : Nat, (modifyFirst p f l)[i]? = l[i]? ∨
      ∃ x, l[i]? = some x ∧ p x = true ∧ (modifyFirst p f l)[i]? = some (x.map f) := by
  induction l with
  | nil => exact fun _ => .inl rfl
  | cons y l ih =>
    intro i
    unfold modifyFirst
    split
    · cases i with
      | zero => exact .inr ⟨y, rfl, ‹_›, rfl⟩
      | succ i => exact .inl rfl
    · cases i with
      | zero => exact .inl rfl
      | succ i => exact ih i

/-- An event for a lane leaves the open record of any other lane where it is open, and alone (R159). -/
theorem openAt_handEvent {l l' i : Nat} {r : ReelRecord} (h : OpenAt s.rs l i r) (hl : l ≠ l') (e : Event) :
    OpenAt (handEvent l' e s).rs l i r := by
  obtain ⟨hi, htotals, hlane, honly⟩ := h
  refine ⟨handEvent_other hi (by rw [hlane]; exact hl) e, htotals, hlane, fun k x hx hxt hxl => ?_⟩
  have hx' : (modifyFirst (openFor l') (ReelRecord.take e) s.rs.headers)[k]? = some (some x) := hx
  rcases modifyFirst_get (openFor l') (ReelRecord.take e) s.rs.headers k with hsame | ⟨y, -, hopen, hchanged⟩
  · exact honly k x (hsame.symm.trans hx') hxt hxl
  · obtain ⟨r', rfl, -, hr'⟩ := (openFor_iff l' y).1 hopen
    obtain rfl : r'.take e = x := Option.some.inj (Option.some.inj (hchanged.symm.trans hx'))
    rw [take_eq_handedTo] at hxl
    exact absurd (hxl.symm.trans hr') hl

/-- An event for each of some lanes reaches their open records and no other (R92, R159). -/
theorem handAll_at (e : Event) {l i : Nat} {r : ReelRecord} {lanes : List Nat} : ∀ {s : State}, lanes.Nodup → OpenAt s.rs l i r →
    (handAll e lanes s).rs.headers[i]? = some (some (if l ∈ lanes then handedTo e r else r)) := by
  have hothers : ∀ (lanes : List Nat) (y : State) (r' : ReelRecord), r'.lane ∉ lanes → y.rs.headers[i]? = some (some r') →
      (handAll e lanes y).rs.headers[i]? = some (some r') := by
    intro lanes
    induction lanes with
    | nil => exact fun _ _ _ h => h
    | cons a lanes ih =>
      intro y r' hnot hi
      rw [List.mem_cons, not_or] at hnot
      exact ih _ r' hnot.2 (handEvent_other hi hnot.1 e)
  induction lanes with
  | nil => exact fun _ h => h.1
  | cons a lanes ih =>
    intro s hnodup h
    obtain ⟨hnot, hnodup⟩ := List.nodup_cons.1 hnodup
    by_cases ha : l = a
    · subst ha
      rw [if_pos List.mem_cons_self]
      exact hothers lanes _ _ (by rw [show (handedTo e r).lane = l from h.2.2.1]; exact hnot) (handEvent_at h e)
    · simp only [List.mem_cons, ha, false_or]
      exact ih hnodup (openAt_handEvent h ha e)

/-- Events handed over change the Record Store alone. -/
theorem handAll_rest (e : Event) (lanes : List Nat) : ∀ s : State, handAll e lanes s = { s with rs := (handAll e lanes s).rs } := by
  induction lanes with
  | nil => exact fun _ => rfl
  | cons a lanes ih => exact fun s => ih (handEvent a e s)

end Sys2Proof.Knives
end

section
/-! PROOFS. CONFIRM_TIMER_EXPIRY and KNIFE_RETRY (5.3, 5.5): an order sent again, or the channel's FAULT. -/

namespace Sys2Proof.KnifeOrders

open Sys2Proof Sys2Proof.Machine Sys2Proof.Claims Sys2Proof.Laws Sys2Proof.Sightings Sys2Proof.SetChange Sys2Proof.Waiting
  Sys2Proof.Knives

/-! ### The confirm timer (R89) -/

theorem expireConfirm_eq {j : Nat} {m : MachineTable} {c : KnifeChannel} {s : State} (hm : s.machine = some m)
    (hc : s.knives[j]? = some c) (hmoving : c.state = .moving) (ht : c.timer.isSome = true) (hr : s.ll.resetting = false) :
    expireConfirm j s = confirmExpires m j c s := by
  unfold expireConfirm
  rw [hm, hc]
  exact if_pos ⟨ht, hmoving, hr⟩

/-- An order of a MOVING channel sent again changes its timer and its retries alone (R85). -/
theorem ordered_not_fresh {c : KnifeChannel} (h : c.state = .moving) (tKnife : Nat) :
    c.ordered tKnife false = { c with timer := some tKnife, retries := c.retries + 1 } := by
  unfold KnifeChannel.ordered
  rw [← h]
  rfl

/-- Settles O45: below RC the order is sent again; at RC the channel enters FAULT, and as it keeps the gate shut nothing displaces its
notice. -/
theorem confirmTimerExpires : Obligations.ConfirmTimerExpires := by
  intro j m c s hm hc hmoving ht hr
  have hexec : exec (.confirmTimerExpiry j) s = .next (endEvent (confirmExpires m j c s)) :=
    congrArg done (expireConfirm_eq hm hc hmoving ht hr)
  refine ⟨fun k hk hlow => ?_, fun hhigh => ?_⟩
  · rw [hexec, confirmExpires, if_pos hlow, sendKnife_eq hc hk, ordered_not_fresh hmoving]
    rfl
  · rw [confirmExpires, if_neg (Nat.not_lt.2 hhigh)] at hexec
    have hmoves := movesKnife_knifeFault hc .timeout
    have hfixed := ((hmoves.kept (kept_knifeChanged j s _).toUpholds).kept (kept_endEvent _).toUpholds)
    obtain ⟨hbecomes, hpu, hmt, htables, hlink⟩ := becomes_of_movesKnife (s' := s) rfl hc hfixed
    refine ⟨_, hexec, hbecomes, hpu, hmt, htables, hlink, fun hw => ?_⟩
    have hadds := adds_knifeChanged hc (hmoves.get hc) (by rw [hmoving]; exact nofun) (.inr rfl)
    rw [knifeFault_eq hc] at hadds ⊢
    exact hadds.noticed (by omega) (noticesWait_of_same rfl rfl hw)

/-! ### KNIFE_RETRY (R95) -/

theorem retryKnife_eq {m : MachineTable} {s : State} (hm : s.machine = some m) (j : Nat) :
    retryKnife j s = knifeChanged j s (sendKnife m true j s) := by
  unfold retryKnife
  rw [hm]

/-- KNIFE_RETRY of a channel in FAULT is executed and answered ACCEPTED (R95, R180). -/
theorem exec_knifeRetry {rx : Rx} {b : Byte} {c : KnifeChannel} {s : State} (ha : Asked s rx) (hc : s.knives[b.toNat]? = some c)
    (hfault : c.state = .fault) : exec (.knifeRetry rx [b]) s =
      .next (endEvent (answered rx 8 .accepted 0 .empty (retryKnife b.toNat (passedOn rx (.request true (some 8) [b]) s)))) := by
  have hexecute : execute true (some 8) [b] (passedOn rx (.request true (some 8) [b]) s) =
      accept (retryKnife b.toNat (passedOn rx (.request true (some 8) [b]) s)) := by
    have hc' : (passedOn rx (.request true (some 8) [b]) s).knives[b.toNat]? = some c := by rw [passedOn_eq]; exact hc
    show knifeRetry [b] _ = _
    unfold knifeRetry
    dsimp only
    rw [hc']
    exact if_pos hfault
  show done (arrive rx (.request true (some 8) [b]) s) = _
  rw [arrive_answered ha hexecute ((ready_of ha).kept (but_retryKnife ..).keeps)]
  rfl

/-- A part that is asked queues its orders, where they have room and a port has link. -/
theorem ordersGo_of_asked {rx : Rx} {s : State} (ha : Asked s rx) (hroom : s.ll.count .order < 64) (hlink : linked s = true) :
    OrdersGo s := by
  obtain ⟨⟨own, hown, -, -, hr⟩, -⟩ := ha
  refine ⟨?_, hroom, hlink⟩
  unfold State.canQueue
  rw [hown, hr]
  rfl

/-- Settles O46: the order is sent again, and the channel, MOVING, keeps the gate shut. -/
theorem knifeRetryMovesAFaultedKnife : Obligations.KnifeRetryMovesAFaultedKnife := by
  intro rx b s ha s'
  have hs' : s' = { s with ll := s'.ll } := passedOn_eq ..
  have hknives : s'.knives = s.knives := by rw [hs']
  have hdenied : ∀ st i, knifeRetry [b] s' = deny st i s' →
      exec (.knifeRetry rx [b]) s = .next (endEvent (answered rx 8 st i .empty s')) := fun _ _ h => arrive_denied ha h
  refine ⟨fun m c k hm hc hfault hk => ?_, fun c hc hstate => hdenied _ _ ?_, fun hnone => hdenied _ _ ?_⟩
  · have hm' : s'.machine = some m := by rw [hs']; exact hm
    have hc' : s'.knives[b.toNat]? = some c := by rw [hknives]; exact hc
    have hmoves := movesKnife_sendKnife hc' hk m true
    have hadds := adds_knifeChanged hc' (hmoves.get hc') (by rw [hfault]; exact nofun) (.inl rfl)
    have hmoved : MovesKnife b.toNat (c.ordered m.tKnife true) s' (retryKnife b.toNat s') := by
      rw [retryKnife_eq hm']
      exact hmoves.kept (kept_knifeChanged ..).toUpholds
    obtain ⟨hlinked, hreply⟩ := reply_of_ports (congrArg Fixed.portA hmoved) (congrArg Fixed.portB hmoved) rx 8 .accepted 0 .empty
    have hend := ended_fixed rx 8 .accepted 0 .empty (retryKnife b.toNat s')
    rw [hlinked, hreply, show (retryKnife b.toNat s').ll.replies = s'.ll.replies from congrArg Fixed.replies hmoved, hmoved,
      hknives] at hend
    obtain ⟨hbecomes, hpu, hmt, htables, hlink⟩ := becomes_of_movesKnife hs' hc hend
    refine ⟨_, exec_knifeRetry ha hc hfault, hbecomes, fun hroom hgo => ?_, hpu, hmt, htables, hlink, congrArg Fixed.replies hend⟩
    have hgoes : OrdersGo s' := ordersGo_passedOn (ordersGo_of_asked ha hroom hgo)
    rw [sendKnife_eq hc' hk] at hadds
    obtain ⟨f, hf, hcls, -, hbody⟩ := ordered_endEvent (ordered_answered (hadds.ordered (ordered_queueOwn
      (s := setKnife b.toNat (c.ordered m.tKnife true) s') hgoes _ none _)) rx 8 .accepted 0 .empty)
    rw [← sendKnife_eq hc' hk, ← retryKnife_eq hm'] at hf
    exact ⟨f, hf, hcls, hbody⟩
  · unfold knifeRetry
    dsimp only
    rw [hknives, hc]
    exact if_neg hstate
  · unfold knifeRetry
    dsimp only
    rw [hknives, hnone]

end Sys2Proof.KnifeOrders
end

section
/-! PROOFS. KNIFE_REPORT (5.2 to 5.4): the frame tied to the judgement of its report, the judgement by the state of the channel, and
what becomes of a channel that moves, rests or is out of place (R86, R88, R91 to R93). -/

namespace Sys2Proof.KnifeReports

open Sys2Proof Sys2Proof.Machine Sys2Proof.Claims Sys2Proof.Laws Sys2Proof.Sightings Sys2Proof.Waiting Sys2Proof.Knives

/-! ### The report and the target (R86) -/

theorem reportInRange_iff (knife outcome : Byte) (position : Half) (parked : Byte) :
    knifeReportInRange knife outcome position parked = true ↔ KnifeInRange knife outcome position parked := by
  unfold knifeReportInRange KnifeInRange
  simp only [Bool.and_eq_true, decide_eq_true_eq]
  tauto

/-- What a report replaces in its channel is what the statements say. -/
theorem report_eq_reportedTo (position : Half) (parked : Byte) (c : KnifeChannel) :
    c.report position.toNat (decide (parked = 1)) = reportedTo position parked c := by
  unfold KnifeChannel.report reportedTo
  simp only [decide_eq_true_eq]

/-- A channel's last report matches its target where the report meets it. -/
theorem matched_iff_meets {parked : Byte} (hp : parked.toNat ≤ 1) (position : Half) (c : KnifeChannel) (kTol : Nat) :
    (reportedTo position parked c).matched kTol = true ↔ Meets kTol c.target position.toNat parked.toNat := by
  have hmark : parked = 0 ∨ parked = 1 :=
    (Nat.le_one_iff_eq_zero_or_eq_one.1 hp).imp (fun h => BitVec.eq_of_toNat_eq h) (fun h => BitVec.eq_of_toNat_eq h)
  unfold KnifeChannel.matched reportedTo Meets
  dsimp only
  cases c.target with
  | none => simp
  | some t =>
    rcases hmark with rfl | rfl
    · cases t <;> simp [KnifeTarget.matchedBy]
    · cases t <;> simp [KnifeTarget.matchedBy]

/-! ### A report judged by the state of its channel (R88, R91, R93) -/

section Judged

variable {m : MachineTable} {j : Nat} {o : KnifeOutcome} {c : KnifeChannel} {s : State}

theorem judge_moving_fault (h : c.state = .moving) : judgeReport m j .fault c s = knifeFault j .reported s := by
  simp only [judgeReport, h]

theorem judge_moving_done (h : c.state = .moving) : judgeReport m j .done c s =
    if c.matched m.kTol then changeKnife j KnifeChannel.confirmed s else knifeFault j .misplaced s := by
  simp only [judgeReport, h]

theorem judge_moving_status (h : c.state = .moving) : judgeReport m j .status c s = s := by
  simp only [judgeReport, h]

theorem judge_rest_fault (h : c.state ≠ .moving) : judgeReport m j .fault c s =
    queueNotice .knifeFault (wNat j) (wNat KnifeCause.reported.code) (wNat c.state.code) s := by
  unfold judgeReport
  cases hc : c.state with
  | moving => exact absurd hc h
  | idle | inPosition | drifted | parked | fault => rfl

theorem judge_idle (h : c.state = .idle) (ho : o ≠ .fault) : judgeReport m j o c s = s := by
  cases o with
  | fault => exact absurd rfl ho
  | done | status => simp only [judgeReport, h]

theorem judge_fault (h : c.state = .fault) (ho : o ≠ .fault) : judgeReport m j o c s =
    if c.matched m.kTol then changeKnife j (fun c => { c.confirmed with cause := .none }) s else s := by
  cases o with
  | fault => exact absurd rfl ho
  | done | status => simp only [judgeReport, h]

theorem judge_inPosition (h : c.state = .inPosition) (ho : o ≠ .fault) : judgeReport m j o c s =
    if c.matched m.kTol then s else outOfPosition m j s := by
  cases o with
  | fault => exact absurd rfl ho
  | done | status => simp only [judgeReport, h]

theorem judge_drifted (h : c.state = .drifted) (ho : o ≠ .fault) : judgeReport m j o c s =
    if c.matched m.kTol then changeKnife j (fun c => { c with state := .inPosition }) s else s := by
  cases o with
  | fault => exact absurd rfl ho
  | done | status => simp only [judgeReport, h]

theorem judge_parked (h : c.state = .parked) (ho : o ≠ .fault) : judgeReport m j o c s =
    if c.matched m.kTol then s else outOfPark m j c s := by
  cases o with
  | fault => exact absurd rfl ho
  | done | status => simp only [judgeReport, h]

/-- A channel off its target stands where the set is in no state that judges drift (R91). -/
theorem outOfPosition_still (hrun : s.sc.state ≠ .running) (happ : s.sc.state ≠ .approach) (hprep : s.sc.state ≠ .preparing) :
    outOfPosition m j s = s := by
  unfold outOfPosition
  cases hstate : s.sc.state with
  | running => exact absurd hstate hrun
  | approach => exact absurd hstate happ
  | preparing => exact absurd hstate hprep
  | noSet | cutStop | atCut | changing => rfl

theorem outOfPosition_drifts (h : s.sc.state = .running ∨ s.sc.state = .approach) : outOfPosition m j s = knifeDrifts m j s := by
  unfold outOfPosition
  rcases h with h | h <;> rw [h]

theorem outOfPosition_preparing (h : s.sc.state = .preparing) : outOfPosition m j s = sendKnife m true j s := by
  unfold outOfPosition
  rw [h]

theorem outOfPark_still (h : s.sc.state ≠ .preparing) :
    outOfPark m j c s = queueNotice .knifeDrift (wNat j) (wOptNat c.reported) (wBool c.reportedParked) s := if_neg h

theorem outOfPark_preparing (h : s.sc.state = .preparing) : outOfPark m j c s =
    sendKnife m true j (queueNotice .knifeDrift (wNat j) (wOptNat c.reported) (wBool c.reportedParked) s) := if_pos h

end Judged

/-! ### The frame reaches its channel (R86) -/

/-- A knife report is judged whatever its fields: in range it is handed to its channel, and an attempt to expand ends its event;
out of range it is refused. -/
theorem exec_knifeReport {rx : Rx} {knife outcome : Byte} {position : Half} {parked : Byte} {m : MachineTable} {s : State}
    (hfrom : From (·.knifePositioner) s rx) (hm : s.machine = some m) :
    let s' := passedOn rx (.knife knife outcome position parked) s
    exec (.knifeReport rx knife outcome position parked) s =
      .next (endEvent (if knifeReportInRange knife outcome position parked then
        expand (knifeReport m knife.toNat (knifeOutcome outcome) position.toNat (decide (parked = 1)) s')
        else refuse rx.src 0x13 .range s')) := by
  intro s'
  have harrive : arrive rx (.knife knife outcome position parked) s = takeKnifeReport rx.src knife outcome position parked s' :=
    arrive_from hfrom rfl (fun _ => rfl)
  have hm' : s'.machine = some m := by
    unfold s'
    rw [passedOn_eq]
    exact hm
  show done (arrive rx (.knife knife outcome position parked) s) = _
  rw [harrive]
  unfold takeKnifeReport
  dsimp only
  rw [hm']
  rfl

section Report

variable {rx : Rx} {knife outcome : Byte} {position : Half} {parked : Byte} {m : MachineTable} {c d : KnifeChannel}
  {s s' : State} (hfrom : From (·.knifePositioner) s rx) (hm : s.machine = some m) (hr : KnifeInRange knife outcome position parked)
  (hc : s.knives[knife.toNat]? = some c) (hs : s' = passedOn rx (.knife knife outcome position parked) s)

include hs in
theorem judged_ll : s' = { s with ll := s'.ll } := by
  rw [hs]
  exact passedOn_eq ..

include hs in
theorem judged_knives : s'.knives = s.knives := by rw [judged_ll hs]

include hs in
theorem judged_sc : s'.sc = s.sc := by rw [judged_ll hs]

include hfrom hm hr hc hs in
/-- A FAULT report is judged with the channel as it stands. -/
theorem exec_faultReport (ho : outcome = 1) : exec (.knifeReport rx knife outcome position parked) s =
    .next (endEvent (expand (knifeChanged knife.toNat s' (judgeReport m knife.toNat .fault c s')))) := by
  have hc' : s'.knives[knife.toNat]? = some c := by rw [judged_knives hs]; exact hc
  rw [exec_knifeReport hfrom hm, if_pos ((reportInRange_iff ..).2 hr), ← hs]
  unfold knifeReport
  rw [show knifeOutcome outcome = .fault by rw [ho]; rfl]
  dsimp only
  rw [if_pos rfl, hc']

theorem outcome_ne_fault (ho : outcome ≠ 1) : knifeOutcome outcome ≠ .fault := by
  unfold knifeOutcome
  split_ifs <;> exact nofun

include hfrom hm hr hc hs in
/-- A DONE or STATUS report is judged with the channel as the report leaves it. -/
theorem exec_seenReport (ho : outcome ≠ 1) : exec (.knifeReport rx knife outcome position parked) s =
    .next (endEvent (expand (knifeChanged knife.toNat s' (judgeReport m knife.toNat (knifeOutcome outcome)
      (reportedTo position parked c) (setKnife knife.toNat (reportedTo position parked c) s'))))) := by
  have hc' : s'.knives[knife.toNat]? = some c := by rw [judged_knives hs]; exact hc
  rw [exec_knifeReport hfrom hm, if_pos ((reportInRange_iff ..).2 hr), ← hs]
  unfold knifeReport
  dsimp only
  rw [if_neg (outcome_ne_fault ho), changeKnife_eq hc', report_eq_reportedTo, setKnife_get hc']

include hc hs in
/-- A judgement that moves the channel alone leaves the rest standing to the end of the event. -/
theorem reported_becomes {i : Instr} {y : State}
    (hexec : exec i s = .next (endEvent (expand (knifeChanged knife.toNat s' y)))) (hmoves : MovesKnife knife.toNat d s' y) :
    ∃ x, exec i s = .next x ∧ KnifeBecomes knife.toNat d s x ∧ x.pu = s.pu ∧ x.mt = s.mt ∧ SameTables s x ∧ SameLink s' x := by
  have hfixed := ((hmoves.kept (kept_knifeChanged knife.toNat s' y).toUpholds).kept (upholds_expand _)).kept
    (kept_endEvent _).toUpholds
  unfold MovesKnife at hfixed
  rw [judged_knives hs] at hfixed
  exact ⟨_, hexec, becomes_of_movesKnife (judged_ll hs) hc hfixed⟩

include hfrom hm hr hc hs in
/-- A report that its judgement leaves as it has been kept. -/
theorem report_kept (ho : outcome ≠ 1) (hjudge : judgeReport m knife.toNat (knifeOutcome outcome) (reportedTo position parked c)
      (setKnife knife.toNat (reportedTo position parked c) s') = setKnife knife.toNat (reportedTo position parked c) s') :
    exec (.knifeReport rx knife outcome position parked) s =
      .next (endEvent (expand { s' with knives := s.knives.set knife.toNat (reportedTo position parked c) })) := by
  have hc' : s'.knives[knife.toNat]? = some c := by rw [judged_knives hs]; exact hc
  rw [exec_seenReport hfrom hm hr hc hs ho, hjudge, knifeChanged_same hc' (setKnife_get hc' (reportedTo position parked c)) rfl,
    setKnife, judged_knives hs]

end Report

/-! ### A MOVING channel (R88) -/

/-- The notice of a move fault waits at the end of the event: the channel keeps the gate shut (R88). -/
theorem moveFault_noticed {j : Nat} {c d : KnifeChannel} {before y : State} (hc : before.knives[j]? = some c) (hmoving : c.state = .moving)
    (hd : y.knives[j]? = some d) (hw : NoticesWait y) (cause : KnifeCause) :
    ∃ n ∈ (endEvent (expand (knifeChanged j before (knifeFault j cause y)))).nq.waiting,
      n.kind = .knifeFault ∧ n.v0 = wNat j ∧ n.v1 = wNat cause.code ∧ n.v2 = wOptNat d.reported := by
  have hadds := (adds_knifeChanged hc ((movesKnife_knifeFault hd cause).get hd) (by rw [hmoving]; exact nofun) (.inr rfl)).trans
    (adds_expand _)
  rw [knifeFault_eq hd] at hadds ⊢
  exact hadds.noticed (by omega) hw

/-- A move fault, reported or seen in a DONE report off the target, queues its notice with its cause (R88). -/
theorem moveFaultsAreNoticed : MoveFaultsAreNoticed := by
  intro rx knife outcome position parked m c s hfrom hm hr hc hmoving hw hfaults
  obtain ⟨s', hs⟩ : ∃ s', s' = passedOn rx (.knife knife outcome position parked) s := ⟨_, rfl⟩
  have hc' : s'.knives[knife.toNat]? = some c := by rw [judged_knives hs]; exact hc
  have hw' : NoticesWait s' := hs ▸ RollMap.noticesWait_passedOn hw
  rcases hfaults with ho | ⟨ho, hmeets⟩
  · refine ⟨_, exec_faultReport hfrom hm hr hc hs ho, ?_⟩
    rw [judge_moving_fault hmoving, if_pos ho, if_pos ho]
    exact moveFault_noticed hc' hmoving hc' hw' .reported
  · have hne : outcome ≠ 1 := by rw [ho]; decide
    have hunmatched := (matched_iff_meets hr.2.2.2 position c m.kTol).not.2 hmeets
    refine ⟨_, exec_seenReport hfrom hm hr hc hs hne, ?_⟩
    rw [show knifeOutcome outcome = .done by rw [ho]; rfl, judge_moving_done (by exact hmoving), if_neg hunmatched, if_neg hne,
      if_neg hne]
    exact moveFault_noticed hc' hmoving (setKnife_get hc' _) (noticesWait_of_same rfl rfl hw') .misplaced

/-- A MOVING channel confirmed, faulted, or reported on (R86, R88). -/
theorem movesAreSettled {rx : Rx} {knife outcome : Byte} {position : Half} {parked : Byte} {m : MachineTable} {c : KnifeChannel}
    {s s' : State} (hfrom : From (·.knifePositioner) s rx) (hm : s.machine = some m)
    (hs : s' = passedOn rx (.knife knife outcome position parked) s) (hr : KnifeInRange knife outcome position parked)
    (hc : s.knives[knife.toNat]? = some c) (hmoving : c.state = .moving) :
    let becomes := fun d => ∃ x, exec (.knifeReport rx knife outcome position parked) s = .next x ∧
      KnifeBecomes knife.toNat d s x ∧ x.pu = s.pu ∧ x.mt = s.mt ∧ SameTables s x ∧ SameLink s' x
    let seen := reportedTo position parked c
    (outcome = 0 → Meets m.kTol c.target position.toNat parked.toNat →
      becomes { seen with state := if c.target = some .park then .parked else .inPosition, timer := none }) ∧
    (outcome = 0 → ¬ Meets m.kTol c.target position.toNat parked.toNat →
      becomes { seen with state := .fault, timer := none, cause := .misplaced }) ∧
    (outcome = 1 → becomes { c with state := .fault, timer := none, cause := .reported }) ∧
    (outcome = 2 → becomes seen) := by
  intro becomes seen
  have hc' : s'.knives[knife.toNat]? = some c := by rw [judged_knives hs]; exact hc
  have hseen : (setKnife knife.toNat seen s').knives[knife.toNat]? = some seen := setKnife_get hc' seen
  have hplaced : MovesKnife knife.toNat seen s' (setKnife knife.toNat seen s') := movesKnife_setKnife ..
  have hmatched := matched_iff_meets hr.2.2.2 position c m.kTol
  have hexec : outcome ≠ 1 → _ := exec_seenReport hfrom hm hr hc hs
  refine ⟨fun ho hmeets => ?_, fun ho hmeets => ?_, fun ho => ?_, fun ho => ?_⟩
  · have hexec := hexec (by rw [ho]; decide)
    rw [show knifeOutcome outcome = .done by rw [ho]; rfl, judge_moving_done (by exact hmoving), if_pos (hmatched.2 hmeets),
      changeKnife_eq hseen] at hexec
    exact reported_becomes hc hs hexec (hplaced.again (movesKnife_setKnife ..))
  · have hexec := hexec (by rw [ho]; decide)
    rw [show knifeOutcome outcome = .done by rw [ho]; rfl, judge_moving_done (by exact hmoving), if_neg (hmatched.not.2 hmeets)]
      at hexec
    exact reported_becomes hc hs hexec (hplaced.again (movesKnife_knifeFault hseen .misplaced))
  · have hexec := exec_faultReport hfrom hm hr hc hs ho
    rw [judge_moving_fault hmoving] at hexec
    exact reported_becomes hc hs hexec (movesKnife_knifeFault hc' .reported)
  · have hexec := hexec (by rw [ho]; decide)
    rw [show knifeOutcome outcome = .status by rw [ho]; rfl, judge_moving_status (by exact hmoving)] at hexec
    exact reported_becomes hc hs hexec hplaced

/-! ### A channel at rest (R91, R93) -/

/-- A report of a knife at rest that is kept, confirms, or returns a DRIFTED knife (R91, R93). -/
theorem knivesAtRest : KnivesAtRest := by
  intro rx knife outcome position parked m c s hfrom hm hr hc hrest s' seen meets kept becomes
  have hs : s' = passedOn rx (.knife knife outcome position parked) s := rfl
  have hc' : s'.knives[knife.toNat]? = some c := by rw [judged_knives hs]; exact hc
  have hseen : (setKnife knife.toNat seen s').knives[knife.toNat]? = some seen := setKnife_get hc' seen
  have hplaced : MovesKnife knife.toNat seen s' (setKnife knife.toNat seen s') := movesKnife_setKnife ..
  have hmatched : seen.matched m.kTol = true ↔ meets := matched_iff_meets hr.2.2.2 position c m.kTol
  refine ⟨fun ho => ?_, fun ho => ?_⟩
  · have hchannel : (queueNotice .knifeFault (wNat knife.toNat) 1 (wNat c.state.code) s').knives[knife.toNat]? = some c := by
      rw [queueNotice_rest]
      exact hc'
    rw [exec_faultReport hfrom hm hr hc hs ho, judge_rest_fault hrest,
      show wNat KnifeCause.reported.code = (1 : Word) from rfl, knifeChanged_same hc' hchannel rfl]
  have hne := outcome_ne_fault ho
  have hkept : judgeReport m knife.toNat (knifeOutcome outcome) seen (setKnife knife.toNat seen s') =
      setKnife knife.toNat seen s' → kept := report_kept hfrom hm hr hc hs ho
  have hexec := exec_seenReport hfrom hm hr hc hs ho
  refine ⟨fun h => ?_, fun h hm' => ?_, fun h hm' => ?_, fun h hm' hrun happ hprep => ?_, fun h hm' => ?_, fun h hm' => ?_,
    fun h hm' => ?_, fun h hm' => ?_⟩
  · exact hkept (judge_idle (by exact h) hne)
  · exact hkept ((judge_fault (by exact h) hne).trans (if_neg (hmatched.not.2 hm')))
  · exact hkept ((judge_inPosition (by exact h) hne).trans (if_pos (hmatched.2 hm')))
  · refine hkept ((judge_inPosition (by exact h) hne).trans ((if_neg (hmatched.not.2 hm')).trans ?_))
    exact outOfPosition_still (judged_sc hs ▸ hrun) (judged_sc hs ▸ happ) (judged_sc hs ▸ hprep)
  · exact hkept ((judge_drifted (by exact h) hne).trans (if_neg (hmatched.not.2 hm')))
  · exact hkept ((judge_parked (by exact h) hne).trans (if_pos (hmatched.2 hm')))
  · rw [judge_fault (by exact h) hne, if_pos (hmatched.2 hm'), changeKnife_eq hseen] at hexec
    exact reported_becomes hc hs hexec (hplaced.again (movesKnife_setKnife ..))
  · rw [judge_drifted (by exact h) hne, if_pos (hmatched.2 hm'), changeKnife_eq hseen] at hexec
    exact reported_becomes hc hs hexec (hplaced.again (movesKnife_setKnife ..))

/-! ### A channel out of place (R91, R92) -/

section OutOfPlace

variable {m : MachineTable} {j : Nat} {c seen : KnifeChannel} {s y : State}

/-- A channel that drifts, with the events of the lanes beside it and its notice, to the end of the event (R92): a look with no entry
served and a gate that stays shut leave both. -/
theorem drift_recorded (hc : s.knives[j]? = some c) (hstate : c.state = .inPosition) (hy : y.knives[j]? = some seen)
    {b : Bank} {start : Int} (hb : y.lpt.active = some b) (hstart : y.sc.pStart = some start) (hserved : NoneServed y) :
    let x := endEvent (expand (knifeChanged j s (knifeDrifts m j y)))
    (NoticesWait y → ∃ n ∈ x.nq.waiting, n.kind = .knifeDrift ∧ n.v0 = wNat j ∧ n.v1 = wOptNat seen.reported ∧
      n.v2 = wBool seen.reportedParked) ∧
    ∀ l i r, OpenAt y.rs l i r → x.rs.headers[i]? = some (some
      (if l < b.n ∧ (l = j ∨ l + 1 = j) then handedTo (driftAt m start y) r else r)) := by
  have hdrifted := (movesKnife_knifeDrifts hy m).get hy
  have hold : c.state ≠ .drifted := by rw [hstate]; exact nofun
  have hevent : driftEvent (y.pu.u - m.dKn - start) = driftAt m start y := rfl
  rw [knifeDrifts_eq hy, hb, hstart] at hdrifted ⊢
  rw [Option.map_some, Option.getD_some, Option.getD_some, hevent] at hdrifted ⊢
  obtain ⟨z, hz⟩ : ∃ z, z = handAll (driftAt m start y) (lanesBeside b.n j)
    (setKnife j { seen with state := .drifted } y) := ⟨_, rfl⟩
  have hrest : z = { y with knives := y.knives.set j { seen with state := .drifted }, rs := z.rs } := by
    rw [hz]
    exact handAll_rest ..
  rw [← hz] at hdrifted ⊢
  have hnone : NoneServed (queueNotice .knifeDrift (wNat j) (wOptNat seen.reported) (wBool seen.reportedParked) z) := by
    rw [queueNotice_rest, hrest]
    exact hserved
  have hadds := (adds_knifeChanged_drifted hc hdrifted hold rfl hnone).trans (adds_expand _)
  refine ⟨fun hw => hadds.noticed (by omega) (noticesWait_of_same (by rw [hrest]) (by rw [hrest]) hw), fun l i r hopen => ?_⟩
  have hrecords := hadds.records.trans (show _ = z.rs by rw [queueNotice_rest])
  have hfinal := handAll_at (s := setKnife j { seen with state := .drifted } y) (driftAt m start y) (lanesBeside_nodup b.n j) hopen
  rw [← hz] at hfinal
  simp only [mem_lanesBeside] at hfinal
  rw [(noticesOnly_endEvent _).rest]
  exact (congrArg (fun t : RecordStore => t.headers[i]?) hrecords).trans hfinal

/-- A channel sent its order again is MOVING, and keeps the gate shut: what was queued before stays (R91). -/
theorem adds_resent (hc : s.knives[j]? = some c) (hold : c.state ≠ .drifted) (hy : y.knives[j]? = some seen)
    {k : KnifeTarget} (hk : seen.target = some k) : Adds 4 (sendKnife m true j y) (expand (knifeChanged j s (sendKnife m true j y))) :=
  (adds_knifeChanged hc ((movesKnife_sendKnife hy hk m true).get hy) hold (.inl rfl)).trans (adds_expand _)

theorem adds_sendKnife (m : MachineTable) (fresh : Bool) (j : Nat) (s : State) : Adds 0 s (sendKnife m fresh j s) := by
  unfold sendKnife
  split
  · exact Adds.refl s
  · have hchanged : Adds 0 s (changeKnife j (KnifeChannel.ordered m.tKnife fresh) s) := .of_same rfl rfl rfl
    exact hchanged.trans (adds_queueOwn ..)

/-- An order sent again in time is among the own frames at the end of the event (R91). -/
theorem ordered_resent (hc : s.knives[j]? = some c) (hold : c.state ≠ .drifted) (hy : y.knives[j]? = some seen)
    {k : KnifeTarget} (hk : seen.target = some k) (hgo : OrdersGo y) :
    Ordered (y.role (·.knifePositioner)) (.knife j k) (endEvent (expand (knifeChanged j s (sendKnife m true j y)))) := by
  have hadds := adds_resent (m := m) hc hold hy hk
  rw [sendKnife_eq hy hk] at hadds ⊢
  exact ordered_endEvent (hadds.ordered (ordered_queueOwn (s := setKnife j (seen.ordered m.tKnife true) y) hgo _ none _))

end OutOfPlace

/-- A knife at rest off its target (R91, R92). -/
theorem knivesOutOfPlace : KnivesOutOfPlace := by
  intro rx knife outcome position parked m c s hfrom hm hr ho hc hmeets s' seen noticed becomes again
  have hs : s' = passedOn rx (.knife knife outcome position parked) s := rfl
  have hll : s' = { s with ll := s'.ll } := judged_ll hs
  have hc' : s'.knives[knife.toNat]? = some c := by rw [judged_knives hs]; exact hc
  have hseen : (setKnife knife.toNat seen s').knives[knife.toNat]? = some seen := setKnife_get hc' seen
  have hplaced : MovesKnife knife.toNat seen s' (setKnife knife.toNat seen s') := movesKnife_setKnife ..
  have hunmatched : ¬ seen.matched m.kTol = true := (matched_iff_meets hr.2.2.2 position c m.kTol).not.2 hmeets
  have hne := outcome_ne_fault ho
  have hexec := exec_seenReport hfrom hm hr hc hs ho
  have hnotice : (queueNotice .knifeDrift (wNat knife.toNat) (wOptNat seen.reported) (wBool seen.reportedParked)
      (setKnife knife.toNat seen s')).knives[knife.toNat]? = some seen := by
    rw [queueNotice_rest]
    exact hseen
  have hwaits : NoticesWait s → NoticesWait (setKnife knife.toNat seen s') := fun hw =>
    noticesWait_of_same (s := s') rfl rfl (RollMap.noticesWait_passedOn hw)
  refine ⟨fun h hset => ?_, fun k hk h hprep => ?_, fun h hprep => ?_, fun h hprep hw => ?_⟩
  · have hset' : (setKnife knife.toNat seen s').sc.state = .running ∨ (setKnife knife.toNat seen s').sc.state = .approach := by
      rw [← judged_sc hs] at hset
      exact hset
    rw [judge_inPosition (by exact h) hne, if_neg hunmatched, outOfPosition_drifts hset'] at hexec
    refine ⟨reported_becomes hc hs hexec (hplaced.again (movesKnife_knifeDrifts hseen m)), fun b start hb hstart hserved => ?_⟩
    obtain ⟨hnoticed, hrecords⟩ := drift_recorded (m := m) hc' h hseen (b := b) (start := start) (by rw [hll]; exact hb)
      (by rw [hll]; exact hstart) (by rw [hll]; exact hserved)
    rw [show driftAt m start (setKnife knife.toNat seen s') = driftAt m start s by rw [hll]; rfl,
      show (setKnife knife.toNat seen s').rs = s.rs by rw [hll]; rfl] at hrecords
    exact ⟨_, hexec, fun hw => hnoticed (hwaits hw), hrecords⟩
  · obtain ⟨y, hy, hmoved, hyll, hyjudge⟩ : ∃ y, y.knives[knife.toNat]? = some seen ∧ MovesKnife knife.toNat seen s' y ∧
        y.ll = s'.ll ∧ judgeReport m knife.toNat (knifeOutcome outcome) seen (setKnife knife.toNat seen s') =
          sendKnife m true knife.toNat y := by
      rcases h with h | h
      · exact ⟨_, hseen, hplaced, rfl, (judge_inPosition (by exact h) hne).trans ((if_neg hunmatched).trans
          (outOfPosition_preparing (judged_sc hs ▸ hprep)))⟩
      · exact ⟨_, hnotice, hplaced.kept (kept_queueNotice ..).toUpholds, by rw [queueNotice_rest]; rfl,
          (judge_parked (by exact h) hne).trans ((if_neg hunmatched).trans (outOfPark_preparing (judged_sc hs ▸ hprep)))⟩
    have hold : c.state ≠ .drifted := by rcases h with h | h <;> rw [h] <;> exact nofun
    have hpeers : y.peers = s.peers := (congrArg Fixed.peers hmoved).trans (by rw [hll]; rfl)
    rw [hyjudge] at hexec
    refine ⟨reported_becomes hc hs hexec (hmoved.again (movesKnife_sendKnife hy hk m true)), fun hgo => ⟨_, hexec, ?_⟩⟩
    have hordered := ordered_resent (m := m) hc' hold hy hk (ordersGo_of_same hyll (ordersGo_passedOn hgo))
    unfold State.role at hordered
    rw [hpeers] at hordered
    exact hordered
  · rw [judge_parked (by exact h) hne, if_neg hunmatched, outOfPark_still (judged_sc hs ▸ hprep),
      knifeChanged_same hc' hnotice rfl, setKnife, judged_knives hs] at hexec
    exact hexec
  · rw [judge_parked (by exact h) hne, if_neg hunmatched, outOfPark_preparing (judged_sc hs ▸ hprep)] at hexec
    refine ⟨_, hexec, ?_⟩
    cases hk : seen.target with
    | none =>
      rw [sendKnife_none hnotice hk, knifeChanged_same hc' hnotice rfl]
      exact (adds_expand _).noticed (by omega) (hwaits hw)
    | some k =>
      have hadds := (adds_sendKnife m true knife.toNat _).trans
        (adds_resent (m := m) hc' (by rw [h]; exact nofun) hnotice hk)
      exact hadds.noticed (by omega) (hwaits hw)

/-- Settles O44: the frame reaches its channel, whose state decides what the report comes to; a MOVING channel, one at rest and one out
of place have each been settled above. -/
theorem knifeReportSettlesAMove : Obligations.KnifeReportSettlesAMove := by
  refine ⟨fun rx knife outcome position parked m c s hfrom hm => ?_, moveFaultsAreNoticed, knivesAtRest, knivesOutOfPlace⟩
  intro s' seen becomes
  refine ⟨fun hr hc hmoving => movesAreSettled hfrom hm rfl hr hc hmoving, fun hr => ?_⟩
  rw [exec_knifeReport hfrom hm, if_neg ((reportInRange_iff ..).not.2 hr), refuse_eq_refused]

end Sys2Proof.KnifeReports
end

section
/-! PROOFS. The stations that are due (R98, R99): the words of the statements tied to the model's tests, the list of a look at which one
or two stations are due, and the taking of one station. -/

namespace Sys2Proof.DueStations

open Sys2Proof Sys2Proof.Machine Sys2Proof.Claims Sys2Proof.Standing

/-! ### What is due of one entry (R98) -/

/-- Of an entry's stations this one alone is due. -/
def OnlyDue (m : MachineTable) (u : Int) (st : Station) (e : Settled) : Prop := ∀ x, e.due u m x = true ↔ x = st

theorem due_iff (m : MachineTable) (u : Int) (e : Settled) (st : Station) :
    e.due u m st = true ↔ e.p ≤ u - m.distance st ∧ e.taken st = false := by
  simp [Settled.due]

theorem due_eq_false_iff (m : MachineTable) (u : Int) (e : Settled) (st : Station) :
    e.due u m st = false ↔ e.taken st = true ∨ u - m.distance st < e.p := by
  simp only [Settled.due, Bool.and_eq_false_iff, decide_eq_false_iff_not, Bool.not_eq_false', Int.not_le, or_comm]

theorem noneDue_iff (m : MachineTable) (u : Int) (e : Settled) : NoneDue m u e ↔ ∀ st, e.due u m st = false := by
  simp only [due_eq_false_iff]
  constructor
  · rintro ⟨hknife, htable, hflag, hnip⟩ st
    cases st with
    | knife => exact hknife
    | table => exact htable
    | flag => exact hflag
    | nip => exact hnip
  · exact fun h => ⟨h .knife, h .table, h .flag, h .nip⟩

theorem onlyDue_of {m : MachineTable} {u : Int} {st : Station} {e : Settled} (h : e.due u m st = true)
    (hrest : ∀ x, x ≠ st → e.due u m x = false) : OnlyDue m u st e := by
  intro x
  constructor
  · intro hx
    by_contra hne
    rw [hrest x hne] at hx
    exact Bool.false_ne_true hx
  · rintro rfl
    exact h

theorem onlyDue_nip {m : MachineTable} {u : Int} {e : Settled} (h : NipDue m u e) : OnlyDue m u .nip e := by
  obtain ⟨hnip, hp, hknife, htable, hflag⟩ := h
  refine onlyDue_of ((due_iff ..).2 ⟨hp, hnip⟩) (fun x hx => (due_eq_false_iff ..).2 ?_)
  cases x with
  | knife => exact hknife
  | table => exact htable
  | flag => exact hflag
  | nip => exact absurd rfl hx

theorem onlyDue_knife {m : MachineTable} {u : Int} {e : Settled} (h : KnifeDue m u e) : OnlyDue m u .knife e := by
  obtain ⟨hknife, hp, htable, hflag, hnip⟩ := h
  refine onlyDue_of ((due_iff ..).2 ⟨hp, hknife⟩) (fun x hx => (due_eq_false_iff ..).2 ?_)
  cases x with
  | knife => exact absurd rfl hx
  | table => exact htable
  | flag => exact hflag
  | nip => exact hnip

/-- The place of a station in a walk: where its entry fell due at it, and the entry's own place in the list (R99). -/
def dueOf (m : MachineTable) (st : Station) (e : Settled) (idx : Nat) : DueStation :=
  { at_ := e.p + m.distance st, idx := idx, st := st, num := e.feat.num }

theorem dueStations_none {m : MachineTable} {u : Int} {e : Settled} (h : NoneDue m u e) (idx : Nat) : e.dueStations u m idx = [] := by
  unfold Settled.dueStations
  rw [List.filter_eq_nil_iff.2 (fun st _ => by rw [(noneDue_iff m u e).1 h st]; exact Bool.false_ne_true), List.map_nil]

theorem dueStations_one {m : MachineTable} {u : Int} {st : Station} {e : Settled} (h : OnlyDue m u st e) (idx : Nat) :
    e.dueStations u m idx = [dueOf m st e idx] := by
  have hdue : e.due u m = fun x => decide (x = st) := funext fun x => Bool.eq_iff_iff.2 ((h x).trans decide_eq_true_iff.symm)
  unfold Settled.dueStations
  rw [hdue]
  cases st <;> rfl

/-! ### The list of a look (R99) -/

theorem flatMap_zipIdx_nil {f : Settled × Nat → List DueStation} {l : List Settled} (h : ∀ x ∈ l, ∀ i, f (x, i) = []) (n : Nat) :
    (l.zipIdx n).flatMap f = [] := by
  refine List.flatMap_eq_nil_iff.2 (fun x hx => ?_)
  exact h x.1 (List.fst_mem_of_mem_zipIdx hx) x.2

/-- Where one entry of the list gives stations, the stations are its own. -/
theorem flatMap_zipIdx_one {f : Settled × Nat → List DueStation} {pre post : List Settled} {e : Settled}
    (hpre : ∀ x ∈ pre, ∀ i, f (x, i) = []) (hpost : ∀ x ∈ post, ∀ i, f (x, i) = []) (n : Nat) :
    ((pre ++ e :: post).zipIdx n).flatMap f = f (e, n + pre.length) := by
  rw [List.zipIdx_append, List.flatMap_append, flatMap_zipIdx_nil hpre, List.zipIdx_cons, List.flatMap_cons,
    flatMap_zipIdx_nil hpost, List.nil_append, List.append_nil]

/-- Where two entries of the list give stations, those of the earlier come first. -/
theorem flatMap_zipIdx_two {f : Settled × Nat → List DueStation} {pre mid post : List Settled} {e y : Settled}
    (h : ∀ x ∈ pre ++ mid ++ post, ∀ i, f (x, i) = []) :
    ∃ j, pre.length < j ∧ (pre ++ e :: mid ++ y :: post).zipIdx.flatMap f = f (e, pre.length) ++ f (y, j) := by
  refine ⟨(pre ++ e :: mid).length, by simp, ?_⟩
  have hsome : ∀ {l : List Settled}, l ⊆ pre ++ mid ++ post → ∀ x ∈ l, ∀ i, f (x, i) = [] := fun hl x hx => h x (hl hx)
  rw [List.zipIdx_append, List.flatMap_append,
    flatMap_zipIdx_one (hsome (by simp)) (hsome (fun x hx => by simp [hx])), List.zipIdx_cons, List.flatMap_cons,
    flatMap_zipIdx_nil (hsome (by simp)), List.append_nil, Nat.zero_add, Nat.zero_add]

/-- A station comes before another that falls due later, or as far on the web for a later entry (R99). -/
theorem sortDue_of_before {a b : DueStation} (h : a.at_ < b.at_ ∨ a.at_ = b.at_ ∧ a.idx < b.idx) : sortDue [a, b] = [a, b] := by
  have hle : a.le b = true := by
    unfold DueStation.le
    simp only [Bool.or_eq_true, Bool.and_eq_true, decide_eq_true_eq, beq_iff_eq]
    exact h.imp_right (fun ⟨hat, hidx⟩ => ⟨hat, .inl hidx⟩)
  exact if_pos hle

theorem sortDue_of_after {a b : DueStation} (h : b.at_ < a.at_) : sortDue [a, b] = [b, a] := by
  refine if_neg (fun hle => ?_)
  unfold DueStation.le at hle
  simp only [Bool.or_eq_true, Bool.and_eq_true, decide_eq_true_eq, beq_iff_eq] at hle
  omega

theorem mem_insertDue (d x : DueStation) (l : List DueStation) : x ∈ insertDue d l ↔ x = d ∨ x ∈ l := by
  induction l with
  | nil => simp [insertDue]
  | cons y l ih =>
    unfold insertDue
    split
    · rw [List.mem_cons, ih, List.mem_cons, or_left_comm]
    · rw [List.mem_cons]

/-- The order of a walk moves stations and neither adds nor drops one. -/
theorem mem_sortDue (x : DueStation) (l : List DueStation) : x ∈ sortDue l ↔ x ∈ l := by
  have hfold : ∀ acc, x ∈ l.foldl (fun acc d => insertDue d acc) acc ↔ x ∈ acc ∨ x ∈ l := by
    induction l with
    | nil => simp
    | cons d l ih =>
      intro acc
      rw [List.foldl_cons, ih, mem_insertDue, List.mem_cons, or_right_comm, or_assoc, or_comm (a := x ∈ acc), or_assoc,
        or_comm (a := x ∈ l)]
  rw [sortDue, hfold]
  simp

/-! ### Entries of one queue (R43) -/

/-- Another entry of a lawful queue's list has another number. -/
theorem nums_ne_of_append {q : FeatureQueue} (hq : q.lawful) {pre post : List Settled} {e : Settled}
    (hl : q.settled = pre ++ e :: post) : ∀ z ∈ pre ++ post, z.feat.num ≠ e.feat.num := by
  obtain ⟨hnodup, -⟩ := hq
  obtain ⟨-, hsettled, -⟩ := List.nodup_append.1 hnodup
  rw [hl, List.map_append, List.map_cons, List.nodup_middle, ← List.map_append, List.nodup_cons] at hsettled
  exact fun z hz hnum => hsettled.1 (hnum ▸ List.mem_map_of_mem hz)

/-- What holds of every entry but one holds of the entries before and behind that one. -/
theorem others_of_append {q : FeatureQueue} (hq : q.lawful) {pre post : List Settled} {e : Settled} {P : Settled → Prop}
    (hl : q.settled = pre ++ e :: post) (h : ∀ x ∈ q.settled, x = e ∨ P x) : ∀ x ∈ pre ++ post, P x := by
  intro x hx
  refine (h x (by rw [hl]; simp only [List.mem_append, List.mem_cons] at hx ⊢; tauto)).resolve_left ?_
  rintro rfl
  exact nums_ne_of_append hq hl x hx rfl

/-- Entries at two places of a lawful queue's list hold two slots. -/
theorem nums_ne {q : FeatureQueue} (hq : q.lawful) {pre mid post : List Settled} {y e : Settled}
    (hl : q.settled = pre ++ y :: mid ++ e :: post) : y.feat.num ≠ e.feat.num :=
  nums_ne_of_append hq hl y (by simp)

/-- A slot has one entry: entries of one number in a lawful queue's list are one. -/
theorem eq_of_num_eq {q : FeatureQueue} (hq : q.lawful) {e y : Settled} (he : e ∈ q.settled) (hy : y ∈ q.settled)
    (hnum : e.feat.num = y.feat.num) : e = y :=
  Option.some.inj ((findSettled_of_mem hq he).symm.trans (hnum ▸ findSettled_of_mem hq hy))

/-! ### One station taken -/

theorem leave_settled (num : Nat) (s : State) :
    (leave num s).fq.settled = s.fq.settled.filter (fun e => e.feat.num != num) := by
  unfold leave
  rw [noticeTags_fq, reportFree_fq]

theorem mem_leave {num : Nat} {s : State} {e : Settled} (he : e ∈ s.fq.settled) (hnum : e.feat.num ≠ num) :
    e ∈ (leave num s).fq.settled := by
  rw [leave_settled]
  exact List.mem_filter.2 ⟨he, bne_iff_ne.2 hnum⟩

/-- A change of one number leaves the entries of the others as they are. -/
theorem mem_changeSettled {num : Nat} {g : Settled → Settled} {s : State} {e : Settled} (he : e ∈ s.fq.settled)
    (hnum : e.feat.num ≠ num) : e ∈ (changeSettled num g s).fq.settled :=
  List.mem_map.2 ⟨e, he, if_neg hnum⟩

theorem mem_missStops {e x : Settled} {s : State} (hx : x ∈ s.fq.settled) (hnum : x.feat.num ≠ e.feat.num) :
    x ∈ (missStops e s).fq.settled := by
  unfold missStops
  dsimp only
  split
  · rw [queueNotice_fq]
    exact mem_changeSettled hx hnum
  · exact mem_changeSettled hx hnum

theorem mem_takeKnife {e x : Settled} {s : State} (hx : x ∈ s.fq.settled) (hnum : x.feat.num ≠ e.feat.num) :
    x ∈ (takeKnife e s).fq.settled := by
  unfold takeKnife
  dsimp only
  split
  · exact mem_leave hx hnum
  · exact mem_changeSettled hx hnum

theorem mem_takeTable {e x : Settled} {s : State} (hx : x ∈ s.fq.settled) (hnum : x.feat.num ≠ e.feat.num) :
    x ∈ (takeTable e s).fq.settled := by
  unfold takeTable
  dsimp only
  split
  · exact mem_changeSettled hx hnum
  · exact mem_missStops (mem_changeSettled hx hnum) hnum

theorem mem_takeFlag {m : MachineTable} {place : Bool} {e x : Settled} {s : State} (hx : x ∈ s.fq.settled)
    (hnum : x.feat.num ≠ e.feat.num) : x ∈ (takeFlag m place e s).fq.settled := by
  unfold takeFlag
  dsimp only
  split
  · rw [queueOwn_fq]
    exact mem_changeSettled hx hnum
  · exact mem_changeSettled hx hnum

theorem mem_takeNip {e x : Settled} {s : State} (hx : x ∈ s.fq.settled) (hnum : x.feat.num ≠ e.feat.num) :
    x ∈ (takeNip e s).fq.settled := by
  unfold takeNip
  split
  · exact mem_leave (by rw [writeEvents_fq]; exact hx) hnum
  · exact hx
  · exact mem_leave hx hnum

/-- A station taken of one entry leaves every other entry as it is (R99). -/
theorem mem_takeStation {cleared : Bool} {st : Station} {num : Nat} {x : Settled} {s : State} (hx : x ∈ s.fq.settled)
    (hnum : x.feat.num ≠ num) : x ∈ (takeStation cleared st num s).fq.settled := by
  unfold takeStation
  split
  · rename_i m e _ he
    rw [← num_of_findSettled he] at hnum
    cases st with
    | knife => exact mem_takeKnife hx hnum
    | table => exact mem_takeTable hx hnum
    | flag =>
      dsimp only
      split
      · exact hx
      · exact mem_takeFlag hx hnum
    | nip =>
      dsimp only
      split
      · exact hx
      · exact mem_takeNip hx hnum
  · exact hx

section Taking

variable {m : MachineTable} {s : State} {e : Settled}

theorem takeStation_knife (hm : s.machine = some m) (he : s.fq.findSettled e.feat.num = some e) (cleared : Bool) :
    takeStation cleared .knife e.feat.num s = takeKnife e s := by
  unfold takeStation
  rw [hm, he]

theorem takeStation_flag (hm : s.machine = some m) (he : s.fq.findSettled e.feat.num = some e) (cleared : Bool) :
    takeStation cleared .flag e.feat.num s = if e.feat.served then s else takeFlag m (!cleared && s.recordsAt e.p) e s := by
  unfold takeStation
  rw [hm, he]

theorem takeStation_nip (hm : s.machine = some m) (he : s.fq.findSettled e.feat.num = some e) (cleared : Bool) :
    takeStation cleared .nip e.feat.num s = if e.feat.served then s else takeNip e s := by
  unfold takeStation
  rw [hm, he]

theorem takeAll_nil (m : MachineTable) (cleared : Option Nat) (s : State) : takeAll m cleared [] s = s := rfl

/-- A station of a look that is due still is taken. -/
theorem takeAll_cons (hq : s.fq.lawful) (he : e ∈ s.fq.settled) {st : Station} (hdue : e.due s.pu.u m st = true) (cleared : Option Nat)
    (idx : Nat) (l : List DueStation) : takeAll m cleared (dueOf m st e idx :: l) s =
      takeAll m cleared l (takeStation (cleared == some e.feat.num) st e.feat.num s) := by
  unfold takeAll
  rw [List.foldl_cons, if_pos (by
    show (s.fq.findSettled e.feat.num).any (fun e => e.due s.pu.u m st) = true
    rw [findSettled_of_mem hq he]
    exact hdue)]
  rfl

end Taking

end Sys2Proof.DueStations
end

section
/-! PROOFS. The splice table, the flag inserter and the rewind nip (6.3 to 6.6), the looks in which an entry held at the nip is judged
again, and the record that an event goes to. -/

namespace Sys2Proof.Passage

open Sys2Proof Sys2Proof.Machine Sys2Proof.Claims Sys2Proof.Standing Sys2Proof.DueStations

theorem open_iff (t : SetState) : t.open = true ↔ t = .running ∨ t = .approach ∨ t = .cutStop := by
  cases t <;> simp [SetState.open]

theorem atOrAfterStart_iff (s : State) (p : Int) : s.atOrAfterStart p = true ↔ ∃ q, s.sc.pStart = some q ∧ q ≤ p := by
  simp [State.atOrAfterStart, Option.any_eq_true]

/-- The entries recorded are those at or behind the start of an open set (R103, R107, R113). -/
theorem recordsAt_iff (s : State) (p : Int) : s.recordsAt p = true ↔ OpenFrom s p := by
  unfold State.recordsAt OpenFrom
  rw [Bool.and_eq_true, open_iff, atOrAfterStart_iff]

/-! ### The splice table (R103, R104) -/

theorem hasStop_iff (e : Settled) : e.hasStop = true ↔ ∃ i ∈ e.items, i.action = .stop := by
  simp [Settled.hasStop, List.any_eq_true]

theorem stopLanes_ne_nil_iff (e : Settled) : e.stopLanes ≠ [] ↔ e.hasStop = true := by
  rw [hasStop_iff, Settled.stopLanes, Ne, List.map_eq_nil_iff, List.filter_eq_nil_iff]
  simp

/-- Two changes of one number, of which neither moves it, are one change. -/
theorem changeSettled_twice {num : Nat} {f g : Settled → Settled} (hf : ∀ e, (f e).feat.num = e.feat.num) (s : State) :
    changeSettled num g (changeSettled num f s) = changeSettled num (g ∘ f) s := by
  have hone : ∀ x : Settled, (if (if x.feat.num = num then f x else x).feat.num = num
      then g (if x.feat.num = num then f x else x) else (if x.feat.num = num then f x else x)) =
      if x.feat.num = num then (g ∘ f) x else x := by
    intro x
    by_cases hx : x.feat.num = num
    · rw [if_pos hx, if_pos ((hf x).trans hx), if_pos hx]
      rfl
    · rw [if_neg hx, if_neg hx, if_neg hx]
  unfold changeSettled FeatureQueue.modifySettled
  simp only [List.map_map]
  congr 2
  exact List.map_congr_left (fun x _ => hone x)

/-- The entry once it has passed the table: its marker set, and every STOP item LOG, not removed. -/
def pastTable (e : Settled) : Settled := { e with table := true, items := e.items.map LaneItem.downgrade }

theorem takeTable_served {e : Settled} (h : e.feat.served = true) (s : State) :
    takeTable e s = changeSettled e.feat.num (fun x => { x with table := true }) s := if_pos h

theorem takeTable_unserved {e : Settled} (h : e.feat.served = false) (s : State) : takeTable e s =
    if e.hasStop ∧ s.recordsAt e.p then
      queueNotice .stopMissed (wNat e.feat.num) (wInt e.p) (wLanes e.stopLanes) (changeSettled e.feat.num pastTable s)
    else changeSettled e.feat.num pastTable s := by
  have htwice : changeSettled e.feat.num (fun x => { x with items := x.items.map LaneItem.downgrade })
      (changeSettled e.feat.num (fun x => { x with table := true }) s) = changeSettled e.feat.num pastTable s :=
    changeSettled_twice (f := fun x => { x with table := true }) (fun _ => rfl) s
  have hunserved : ¬ e.feat.served = true := by rw [h]; exact Bool.false_ne_true
  unfold takeTable missStops
  rw [if_neg hunserved, htwice]
  rfl

/-! ### The flag inserter (R106 to R109) -/

/-- The flag outcome that the model writes into a FLAG item. -/
def outcomeAt (m : MachineTable) (place : Bool) (p : Int) (s : State) (i : LaneItem) : FlagOutcome :=
  if place then (if s.sharesFlag m p i.lane then .shared else .flagged) else .notFlagged

/-- The lanes that a flag order carries. -/
def lanesAt (m : MachineTable) (place : Bool) (e : Settled) (s : State) : List Nat :=
  (e.items.filter (fun i => i.action == .flag && outcomeAt m place e.p s i == .flagged)).map (·.lane)

theorem sameSide_iff (s : State) (q p : Int) : s.sameSide q p = true ↔ ∀ c, s.pCut = some c → (q < c ↔ p < c) := by
  unfold State.sameSide
  cases s.pCut with
  | none => simp
  | some c => simp

/-- A lane shares the flag that its history holds (R107). -/
theorem sharesFlag_iff (s : State) (m : MachineTable) (p : Int) (lane : Nat) : s.sharesFlag m p lane = true ↔
    ∃ q, s.fq.flags[lane]? = some (some q) ∧ q ≤ p ∧ p - q ≤ m.fMin ∧ (∃ b, s.sc.pStart = some b ∧ b ≤ q) ∧
      ∀ c, s.pCut = some c → (q < c ↔ p < c) := by
  have hjoin : ∀ q, (s.fq.flags[lane]?).join = some q ↔ s.fq.flags[lane]? = some (some q) := fun q => Option.join_eq_some_iff
  unfold State.sharesFlag
  split
  · rename_i q hq
    rw [hjoin] at hq
    simp only [Bool.and_eq_true, decide_eq_true_eq, atOrAfterStart_iff, sameSide_iff, and_assoc]
    constructor
    · exact fun h => ⟨q, hq, h⟩
    · rintro ⟨q', hq', h⟩
      obtain rfl : q = q' := by simpa [hq] using hq'
      exact h
  · rename_i hnone
    simp only [Bool.false_eq_true, false_iff, not_exists]
    rintro q ⟨hq, -⟩
    rw [(hjoin q).2 hq] at hnone
    cases hnone

theorem outcomeAt_iff (m : MachineTable) (place : Bool) (p : Int) (s : State) (i : LaneItem) :
    (outcomeAt m place p s i = .shared ↔ place = true ∧ s.sharesFlag m p i.lane = true) ∧
      (outcomeAt m place p s i = .notFlagged ↔ place = false) ∧ outcomeAt m place p s i ≠ .none := by
  unfold outcomeAt
  cases place <;> cases s.sharesFlag m p i.lane <;> simp

theorem flagItem_eq (m : MachineTable) (place : Bool) (p : Int) (s : State) (i : LaneItem) :
    s.flagItem m place p i = if i.action = .flag then { i with outcome := outcomeAt m place p s i } else i := rfl

theorem flaggedLanes_map (m : MachineTable) (place : Bool) (e : Settled) (s : State) :
    flaggedLanes (e.items.map (s.flagItem m place e.p)) = lanesAt m place e s := by
  have hlane : ∀ i : LaneItem, (s.flagItem m place e.p i).lane = i.lane := by
    intro i
    rw [flagItem_eq]
    split <;> rfl
  have htest : ∀ i : LaneItem, ((s.flagItem m place e.p i).action == .flag && (s.flagItem m place e.p i).outcome == .flagged) =
      (i.action == .flag && outcomeAt m place e.p s i == .flagged) := by
    intro i
    rw [flagItem_eq]
    by_cases hi : i.action = .flag
    · rw [if_pos hi]
    · rw [if_neg hi, beq_eq_false_iff_ne.2 hi, Bool.false_and, Bool.false_and]
  unfold flaggedLanes lanesAt
  rw [List.filter_map, List.map_map]
  simp only [Function.comp_def, htest, hlane]

/-- Where no flag is placed no lane is FLAGGED (R108). -/
theorem lanesAt_unplaced (m : MachineTable) (e : Settled) (s : State) : lanesAt m false e s = [] := by
  simp [lanesAt, outcomeAt]

/-- The flag history once some lanes have taken a position (R106). -/
theorem flags_taken (p : Int) (lanes : List Nat) : ∀ flags : List (Option Int),
    (lanes.foldl (fun l i => l.set i (some p)) flags).length = flags.length ∧
      (∀ i, i < flags.length → i ∈ lanes → (lanes.foldl (fun l i => l.set i (some p)) flags)[i]? = some (some p)) ∧
      ∀ i, i ∉ lanes → (lanes.foldl (fun l i => l.set i (some p)) flags)[i]? = flags[i]? := by
  induction lanes with
  | nil => exact fun flags => ⟨rfl, fun i _ hi => absurd hi List.not_mem_nil, fun i _ => rfl⟩
  | cons j lanes ih =>
    intro flags
    obtain ⟨hlen, hin, hout⟩ := ih (flags.set j (some p))
    rw [List.length_set] at hlen hin
    refine ⟨hlen, fun i hi hmem => ?_, fun i hmem => ?_⟩
    · by_cases hl : i ∈ lanes
      · exact hin i hi hl
      · obtain rfl : i = j := (List.mem_cons.1 hmem).resolve_right hl
        rw [List.foldl_cons, hout i hl, List.getElem?_set_self hi]
    · obtain ⟨hne, hl⟩ := not_or.1 (mt List.mem_cons.2 hmem)
      rw [List.foldl_cons, hout i hl, List.getElem?_set_ne (Ne.symm hne)]

theorem flagStation : FlagStation := by
  intro m place e s hflags _
  refine ⟨outcomeAt m place e.p s, lanesAt m place e s, fun i => ?_, rfl, ?_⟩
  · rw [← sharesFlag_iff]
    exact outcomeAt_iff m place e.p s i
  intro items s1
  have htake : takeFlag m place e s = if place = true ∧ lanesAt m place e s ≠ [] then
      queueOwn .order m.flagStation none (.flag s.sc.num (lanesAt m place e s) e.p (s.pu.u - (e.p + m.dFl)))
        { s1 with fq := { s1.fq with flags := (lanesAt m place e s).foldl (fun l i => l.set i (some e.p)) s1.fq.flags } }
      else s1 := by
    rw [← flaggedLanes_map]
    rfl
  refine ⟨fun hnone => ?_, fun hsome => ?_⟩
  · rw [htake, if_neg (fun h => h.2 hnone)]
  · have hplace : place = true := by
      by_contra hne
      exact hsome (by rw [Bool.eq_false_of_not_eq_true hne, lanesAt_unplaced])
    obtain ⟨hlen, hin, hout⟩ := flags_taken e.p (lanesAt m place e s) s.fq.flags
    refine ⟨_, hlen.trans hflags, fun i hi => hin i (by omega), hout, ?_⟩
    rw [htake, if_pos ⟨hplace, hsome⟩]

/-- A served entry's flag and nip are deferred, and a cleared one's flag station places nothing (R108, R111, R112). -/
theorem servedStationsWait : ServedStationsWait := by
  intro m num e s hm he
  obtain rfl := num_of_findSettled he
  refine ⟨fun hserved cleared => ⟨?_, ?_⟩, fun hunserved => ⟨?_, fun place hplace => ?_⟩⟩
  · rw [takeStation_flag hm he, if_pos hserved]
  · rw [takeStation_nip hm he, if_pos hserved]
  · rw [takeStation_flag hm he, hunserved]
    rfl
  · obtain rfl : place = s.recordsAt e.p := Bool.eq_iff_iff.2 (hplace.trans (recordsAt_iff s e.p).symm)
    rw [takeStation_flag hm he, hunserved]
    rfl

/-! ### The rewind nip (R113, R114, R116) -/

theorem nipEvent_eq (pStart : Int) (e : Settled) (i : LaneItem) : nipEvent pStart e i = eventOf pStart e i := by
  have hkind : (i.outcome ≠ .notFlagged) = (i.outcome = .flagged ∨ i.outcome = .shared ∨ i.outcome = .none) := by
    cases i.outcome <;> simp
  unfold nipEvent eventOf
  simp only [hkind, Bool.decide_and, beq_eq_decide]
  rfl

/-- The three rows of the nip's table, from the top (R113; notes/assumptions/53.md). -/
theorem nipCase_write_iff (s : State) (p : Int) : s.nipCase p = .write ↔
    OpenFrom s p ∧ (s.sc.state = .cutStop → ∃ c, s.pCut = some c ∧ p < c) := by
  have htest : (s.recordsAt p && (s.sc.state != .cutStop || s.pCut.any (fun c => decide (p < c)))) = true ↔
      OpenFrom s p ∧ (s.sc.state = .cutStop → ∃ c, s.pCut = some c ∧ p < c) := by
    simp only [Bool.and_eq_true, recordsAt_iff, Bool.or_eq_true, bne_iff_ne, Option.any_eq_true, decide_eq_true_eq,
      ← imp_iff_not_or]
  unfold State.nipCase
  dsimp only
  rw [← htest]
  split
  · simp only [*]
  · split <;> simp only [*, reduceCtorEq]

theorem beyondCut_iff (s : State) (p : Int) : BeyondCut s p ↔ ((s.sc.state == .cutStop || s.sc.state == .atCut ||
    s.sc.state == .changing || s.sc.state == .preparing) && s.pCut.any (fun c => decide (c ≤ p))) = true := by
  simp only [BeyondCut, Bool.and_eq_true, Bool.or_eq_true, beq_iff_eq, Option.any_eq_true, decide_eq_true_eq, or_assoc]

theorem nipCase_of_not_write {s : State} {p : Int} (h : s.nipCase p ≠ .write) :
    (BeyondCut s p → s.nipCase p = .hold) ∧ (¬ BeyondCut s p → s.nipCase p = .leave) := by
  rw [beyondCut_iff]
  unfold State.nipCase at h ⊢
  dsimp only at h ⊢
  split at h
  · exact absurd rfl h
  · rename_i hnot
    rw [if_neg hnot]
    exact ⟨fun hcut => if_pos hcut, fun hcut => if_neg hcut⟩

/-- An entry beyond the cut is not written, in CUT_STOP neither. -/
theorem not_write_of_beyondCut {s : State} {p : Int} (h : BeyondCut s p) : s.nipCase p ≠ .write := by
  rw [Ne, nipCase_write_iff]
  rintro ⟨⟨hopen, -⟩, hcut⟩
  obtain ⟨hstate, c, hc, hle⟩ := h
  have hstop : s.sc.state = .cutStop := by
    rcases hopen with h | h | h
    · simp [h] at hstate
    · simp [h] at hstate
    · exact h
  obtain ⟨c', hc', hlt⟩ := hcut hstop
  obtain rfl : c = c' := Option.some.inj (hc.symm.trans hc')
  omega

theorem nipStation : NipStation := by
  intro e s written
  have hwritten : s.nipCase e.p = .write ↔ written := nipCase_write_iff s e.p
  refine ⟨fun start hstart hw => ?_, fun hcut => ?_, fun hnot hcut => ?_⟩
  · have hevents : nipEvent start e = eventOf start e := funext (nipEvent_eq start e)
    unfold takeNip writeEvents
    rw [hwritten.2 hw, hstart, Option.getD_some, hevents]
  · unfold takeNip
    rw [(nipCase_of_not_write (not_write_of_beyondCut hcut)).1 hcut]
  · unfold takeNip
    rw [(nipCase_of_not_write (hwritten.not.2 hnot)).2 hcut]

/-! ### Held entries judged again (R98, R112, R113) -/

section JudgedAgain

variable {m : MachineTable} {s : State}

/-- The look at an entry that joins with one station due, where one entry before it in the list comes to the nip as well: the two
stations in their order (R99). -/
theorem walkJoined_two {frame : Bool} {pre mid post : List Settled} {y e : Settled} (hm : s.machine = some m) (hq : s.fq.lawful)
    (hl : s.fq.settled = pre ++ y :: mid ++ e :: post) (hy : OnlyDue m s.pu.u .nip y) (he : OnlyDue m s.pu.u .knife e)
    (hnone : ∀ z ∈ pre ++ mid ++ post, NoneDue m s.pu.u z) : ∃ i j, i < j ∧ walkJoined frame e.feat.num s =
      takeAll m none (sortDue [dueOf m .nip y i, dueOf m .knife e j]) s := by
  have hmem : e ∈ s.fq.settled := by rw [hl]; simp
  have hle : y.p ≤ e.p := by
    obtain ⟨-, -, hsorted, -⟩ := hq
    rw [hl, List.pairwise_append] at hsorted
    exact hsorted.2.2 y (by simp) e (by simp)
  let also : Settled → Bool := fun x => decide (x.p ≤ e.p) || (!frame && x.nipAlone s.pu.u m)
  let f : Settled × Nat → List DueStation := fun x =>
    if x.1.feat.num = e.feat.num ∨ also x.1 = true then x.1.dueStations s.pu.u m x.2 else []
  have hrest : ∀ x ∈ pre ++ mid ++ post, ∀ i, f (x, i) = [] := by
    intro x hx i
    unfold f
    rw [dueStations_none (hnone x hx), ite_self]
  obtain ⟨j, hj, hf⟩ := flatMap_zipIdx_two (e := y) (y := e) hrest
  refine ⟨pre.length, j, hj, ?_⟩
  have hfy : f (y, pre.length) = [dueOf m .nip y pre.length] := by
    unfold f
    rw [if_pos (.inr (by simp [also, hle])), dueStations_one hy]
  have hfe : f (e, j) = [dueOf m .knife e j] := by
    unfold f
    rw [if_pos (.inl rfl), dueStations_one he]
  unfold walkJoined
  rw [hm, findSettled_of_mem hq hmem]
  dsimp only
  rw [dueStations_one he, if_neg (List.cons_ne_nil _ _)]
  unfold State.dueAt
  rw [hl]
  exact congrArg (fun l => takeAll m none (sortDue l) s) (hf.trans (by rw [hfy, hfe]; rfl))

theorem takeAll_nip_knife {y e : Settled} {i j : Nat} (hm : s.machine = some m) (hq : s.fq.lawful) (hy : y ∈ s.fq.settled)
    (he : e ∈ s.fq.settled) (hne : y.feat.num ≠ e.feat.num) (hserved : y.feat.served = false) (hdy : OnlyDue m s.pu.u .nip y)
    (hde : OnlyDue m s.pu.u .knife e) : takeAll m none [dueOf m .nip y i, dueOf m .knife e j] s = takeKnife e (takeNip y s) := by
  have hkept := kept_takeNip y s
  have hm' : (takeNip y s).machine = some m := (congrArg Fixed.machine hkept.fixed).trans hm
  have hpu : (takeNip y s).pu = s.pu := congrArg Fixed.pu hkept.fixed
  have he' : e ∈ (takeNip y s).fq.settled := mem_takeNip he (Ne.symm hne)
  rw [takeAll_cons hq hy ((hdy _).2 rfl), takeStation_nip hm (findSettled_of_mem hq hy), hserved, if_neg Bool.false_ne_true,
    takeAll_cons (hkept.queue hq) he' (by rw [hpu]; exact (hde _).2 rfl),
    takeStation_knife hm' (findSettled_of_mem (hkept.queue hq) he'), takeAll_nil]

theorem takeAll_knife_nip {y e : Settled} {i j : Nat} (hm : s.machine = some m) (hq : s.fq.lawful) (hy : y ∈ s.fq.settled)
    (he : e ∈ s.fq.settled) (hne : y.feat.num ≠ e.feat.num) (hserved : y.feat.served = false) (hdy : OnlyDue m s.pu.u .nip y)
    (hde : OnlyDue m s.pu.u .knife e) : takeAll m none [dueOf m .knife e j, dueOf m .nip y i] s = takeNip y (takeKnife e s) := by
  have hkept := kept_takeKnife e s
  have hm' : (takeKnife e s).machine = some m := (congrArg Fixed.machine hkept.fixed).trans hm
  have hpu : (takeKnife e s).pu = s.pu := congrArg Fixed.pu hkept.fixed
  have hy' : y ∈ (takeKnife e s).fq.settled := mem_takeKnife hy hne
  rw [takeAll_cons hq he ((hde _).2 rfl), takeStation_knife hm (findSettled_of_mem hq he),
    takeAll_cons (hkept.queue hq) hy' (by rw [hpu]; exact (hdy _).2 rfl),
    takeStation_nip hm' (findSettled_of_mem (hkept.queue hq) hy'), hserved, if_neg Bool.false_ne_true, takeAll_nil]

/-- The look as a served mark clears, with the nip of one other entry due and nothing else (R98, R112). -/
theorem walkCleared_nip {num : Nat} {pre post : List Settled} {y : Settled} (hm : s.machine = some m) (hq : s.fq.lawful)
    (hl : s.fq.settled = pre ++ y :: post) (hdy : OnlyDue m s.pu.u .nip y) (hserved : y.feat.served = false)
    (hnone : ∀ z ∈ pre ++ post, NoneDue m s.pu.u z) : walkCleared num s = takeNip y s := by
  have hy : y ∈ s.fq.settled := by rw [hl]; simp
  have halone : y.nipAlone s.pu.u m = true := by
    have hfalse : ∀ st, st ≠ .nip → y.due s.pu.u m st = false := fun st hst => Bool.eq_false_iff.2 ((hdy st).not.2 hst)
    unfold Settled.nipAlone
    rw [(hdy .nip).2 rfl, hfalse .knife (by decide), hfalse .table (by decide), hfalse .flag (by decide)]
    rfl
  let f : Settled × Nat → List DueStation := fun x =>
    if x.1.feat.num = num ∨ x.1.nipAlone s.pu.u m = true then x.1.dueStations s.pu.u m x.2 else []
  have hrest : ∀ x ∈ pre ++ post, ∀ i, f (x, i) = [] := by
    intro x hx i
    unfold f
    rw [dueStations_none (hnone x hx), ite_self]
  have hf : (pre ++ y :: post).zipIdx.flatMap f = [dueOf m .nip y (0 + pre.length)] := by
    rw [flatMap_zipIdx_one (fun x hx => hrest x (List.mem_append_left _ hx)) (fun x hx => hrest x (List.mem_append_right _ hx))]
    unfold f
    rw [if_pos (.inr halone), dueStations_one hdy]
  have hdue : s.dueAt m num (Settled.nipAlone s.pu.u m) = [dueOf m .nip y (0 + pre.length)] := by
    unfold State.dueAt
    rw [hl]
    exact congrArg sortDue hf
  unfold walkCleared
  rw [hm]
  dsimp only
  rw [hdue, takeAll_cons hq hy ((hdy _).2 rfl), takeStation_nip hm (findSettled_of_mem hq hy), hserved,
    if_neg Bool.false_ne_true, takeAll_nil]

end JudgedAgain

theorem changeSettled_served_other {num : Nat} {s : State} {pre post : List Settled} {y : Settled}
    (hl : s.fq.settled = pre ++ y :: post) (hne : y.feat.num ≠ num) :
    (changeSettled num (Settled.setServed false) s).fq.settled =
      pre.map (fun z => if z.feat.num = num then z.setServed false else z) ++
        y :: post.map (fun z => if z.feat.num = num then z.setServed false else z) := by
  rw [changeSettled_fq, FeatureQueue.modifySettled, hl, List.map_append, List.map_cons, if_neg hne]

theorem heldEntriesAreJudgedAgain : HeldEntriesAreJudgedAgain := by
  intro m s hm hq
  refine ⟨fun frame pre y mid e post hl hserved hny hke hnone => ?_, fun e he y hy hse hte hne hsy hny hnone => ?_⟩
  · have hy : y ∈ s.fq.settled := by rw [hl]; simp
    have he : e ∈ s.fq.settled := by rw [hl]; simp
    obtain ⟨i, j, hij, hwalk⟩ := walkJoined_two (frame := frame) hm hq hl (onlyDue_nip hny) (onlyDue_knife hke) hnone
    rw [hwalk]
    refine ⟨fun hfirst => ?_, fun hafter => ?_⟩
    · rw [sortDue_of_before (by show _ < _ ∨ _ = _ ∧ i < j; simp only [dueOf, MachineTable.distance]; omega)]
      exact takeAll_nip_knife hm hq hy he (nums_ne hq hl) hserved (onlyDue_nip hny) (onlyDue_knife hke)
    · rw [sortDue_of_after hafter]
      exact takeAll_knife_nip hm hq hy he (nums_ne hq hl) hserved (onlyDue_nip hny) (onlyDue_knife hke)
  · have hnums : y.feat.num ≠ e.feat.num := by
      intro h
      rw [eq_of_num_eq hq hy he h, hse] at hsy
      exact Bool.false_ne_true hsy.symm
    obtain ⟨pre, post, hl⟩ := List.append_of_mem hy
    have hothers := others_of_append hq hl hnone
    have hcleared : ∀ z, NoneDue m s.pu.u z → NoneDue m s.pu.u (if z.feat.num = e.feat.num then z.setServed false else z) := by
      intro z hz
      split <;> exact hz
    have hwalk := walkCleared_nip (num := e.feat.num) (s := changeSettled e.feat.num (Settled.setServed false) s) hm
      ((kept_changeSettled e.feat.num (Settled.setServed false) (fun _ => ⟨rfl, rfl⟩) s).queue hq)
      (changeSettled_served_other hl hnums) (onlyDue_nip hny) hsy (by
        intro z hz
        rw [← List.map_append] at hz
        obtain ⟨x, hx, rfl⟩ := List.mem_map.1 hz
        exact hcleared x (hothers x hx))
    unfold clearServed
    rw [findSettled_of_mem hq he]
    dsimp only
    rw [hte, if_neg Bool.false_ne_true, hwalk]
    rfl

/-! ### The event's record (R115, R159 to R161) -/

/-- An event handed over goes to the header that holds the lane's open record (R159, R160, R161). -/
theorem handEvent_open {lane i : Nat} {r : ReelRecord} {s : State} (h : OpenAt s.rs lane i r) (e : Event) :
    handEvent lane e s = { s with rs := { s.rs with headers := s.rs.headers.set i (some (handedTo e r)) } } := by
  unfold handEvent
  rw [Closing.modifyFirst_eq_modify _ (Closing.openIndex_of_openAt h), List.modify_eq_set_getElem?, h.1, ← Knives.take_eq_handedTo]
  rfl

/-- An event handed over for a lane without an open record changes nothing (R159). -/
theorem handEvent_none {lane : Nat} {s : State}
    (h : ∀ (j : Nat) (x : ReelRecord), s.rs.headers[j]? = some (some x) → x.totals = none → x.lane ≠ lane) (e : Event) :
    handEvent lane e s = s := by
  have hnone : ∀ l : List (Option ReelRecord), (∀ x ∈ l, openFor lane x = false) → modifyFirst (openFor lane) (ReelRecord.take e) l = l := by
    intro l
    induction l with
    | nil => exact fun _ => rfl
    | cons x l ih =>
      intro hl
      unfold modifyFirst
      rw [if_neg (by rw [hl x List.mem_cons_self]; exact Bool.false_ne_true), ih (fun y hy => hl y (List.mem_cons_of_mem _ hy))]
  have hclosed : ∀ x ∈ s.rs.headers, openFor lane x = false := by
    intro x hx
    rw [Bool.eq_false_iff, Ne, Closing.openFor_iff]
    rintro ⟨r, rfl, htotals, hlane⟩
    obtain ⟨j, hj⟩ := List.getElem?_of_mem hx
    exact h j r hj htotals hlane
  unfold handEvent
  rw [hnone _ hclosed]

theorem eventsGoToTheOpenRecord : EventsGoToTheOpenRecord :=
  fun _ e _ => ⟨fun _ _ hopen => handEvent_open hopen e, fun hnone => handEvent_none hnone e⟩

/-- Settles O39: the splice table by the served mark of its entry, then the flag inserter, the nip and the looks at it, and the record
an event goes to, each settled above. -/
theorem tableStationDowngradesStops : Obligations.TableStationDowngradesStops := by
  refine ⟨fun e s hserved _ _ => ?_, fun e s hserved => takeTable_served hserved s, flagStation, servedStationsWait, nipStation,
    heldEntriesAreJudgedAgain, eventsGoToTheOpenRecord⟩
  intro stops recorded s1
  have hrecorded : s.recordsAt e.p = true ↔ recorded := recordsAt_iff s e.p
  have hstops : stops ≠ [] ↔ e.hasStop = true := stopLanes_ne_nil_iff e
  have htake := takeTable_unserved hserved s
  refine ⟨fun hsome hrec => ?_, fun hnot => ?_⟩
  · rw [htake, if_pos ⟨hstops.1 hsome, hrecorded.2 hrec⟩]
    rfl
  · rw [htake, if_neg (fun h => hnot.elim (hstops.2 h.1) (· (hrecorded.1 h.2)))]
    rfl

end Sys2Proof.Passage
end

section
/-! PROOFS. Candidates, targets and the aim (7.2), and the window served (7.4): the words of the statements tied to the model's lists. -/

namespace Sys2Proof.Targets

open Sys2Proof Sys2Proof.Machine Sys2Proof.Claims Sys2Proof.Passage

/-! ### Candidates (R119) -/

theorem predicted_iff (s : State) (y : Forecast) (p : Int) : s.predicted y = some p ↔ Predicted s y p := by
  have hstretch : stretched y.off s.mt.e = stretchBy y.off s.mt.e := rfl
  unfold State.predicted MarkTracker.predict Predicted
  simp only [Option.map_map, Option.map_eq_some_iff, Function.comp_apply, hstretch, eq_comm (a := p)]

theorem wantsStop_iff (s : State) (f : Feature) : s.wantsStop f = true ↔ WantsStop s f := by
  simp [State.wantsStop, WantsStop, List.any_eq_true]

theorem inStopSpan_iff (s : State) (p : Int) : (s.sc.state.open && s.stopSpan p) = true ↔ InStopSpan s p := by
  have hcut : s.pCut.all (fun c => decide (p < c)) = true ↔ ∀ c, s.pCut = some c → p < c := by
    cases s.pCut <;> simp
  unfold InStopSpan State.stopSpan
  rw [← Bool.and_assoc, Bool.and_eq_true, hcut, ← recordsAt_iff]
  rfl

theorem settledCandidate_iff (s : State) (e : Settled) : s.settledCandidate e = true ↔ SettledCandidate s e := by
  have hlanes : (if e.knife then e.hasStop else s.wantsStop e.feat) = true ↔
      (e.knife = true ∧ ∃ i ∈ e.items, i.action = .stop) ∨ (e.knife = false ∧ WantsStop s e.feat) := by
    cases e.knife with
    | false => simp [wantsStop_iff]
    | true => simp [hasStop_iff]
  unfold State.settledCandidate SettledCandidate
  rw [← hlanes, ← inStopSpan_iff]
  simp only [Bool.and_eq_true, Bool.not_eq_true']
  tauto

theorem forecastCandidate_iff (s : State) (y : Forecast) (p : Int) :
    (s.predicted y = some p ∧ s.forecastCandidate y p = true) ↔ ForecastCandidate s y p := by
  unfold State.forecastCandidate ForecastCandidate
  rw [predicted_iff, ← inStopSpan_iff, ← wantsStop_iff]
  simp only [Bool.and_eq_true, Bool.not_eq_true']
  tauto

/-- The Forecast entries that are candidates, with their predictions (R119). -/
def forecastCandidates (s : State) : List (Nat × Int) :=
  s.fq.forecast.filterMap (fun e =>
    match s.predicted e with
    | some p => if s.forecastCandidate e p then some (e.feat.num, p) else none
    | none => none)

theorem candidates_eq (s : State) :
    s.candidates = (s.fq.settled.filter s.settledCandidate).map (fun e => (e.feat.num, e.p)) ++ forecastCandidates s := rfl

theorem candidateOf_eq_some_iff (s : State) (y : Forecast) (n : Nat) (p : Int) :
    (match s.predicted y with
      | some p => if s.forecastCandidate y p then some (y.feat.num, p) else none
      | none => none) = some (n, p) ↔ ForecastCandidate s y p ∧ n = y.feat.num := by
  rw [← forecastCandidate_iff]
  cases s.predicted y with
  | none => simp
  | some q =>
    simp only [Option.ite_none_right_eq_some, Option.some.injEq, Prod.mk.injEq]
    constructor
    · rintro ⟨hc, rfl, rfl⟩
      exact ⟨⟨rfl, hc⟩, rfl⟩
    · rintro ⟨⟨rfl, hc⟩, rfl⟩
      exact ⟨hc, rfl, rfl⟩

theorem mem_candidates_iff (s : State) (n : Nat) (p : Int) : (n, p) ∈ s.candidates ↔
    (∃ e ∈ s.fq.settled, SettledCandidate s e ∧ n = e.feat.num ∧ p = e.p) ∨
      ∃ y ∈ s.fq.forecast, ForecastCandidate s y p ∧ n = y.feat.num := by
  rw [candidates_eq, List.mem_append, List.mem_map, forecastCandidates, List.mem_filterMap]
  simp only [candidateOf_eq_some_iff, List.mem_filter, settledCandidate_iff, Prod.mk.injEq, and_assoc, eq_comm (a := n), eq_comm (a := p)]

/-! ### Targets and the aim (R120) -/

/-- A defect candidate with its target. -/
def defectTarget (m : MachineTable) (x : Nat × Int) : Aim × Int := (.entry x.1, x.2 + m.dSt)

/-- The cut target while it is held (R129). -/
def cutTargets (m : MachineTable) (s : State) : List (Aim × Int) :=
  match s.cutTarget m with
  | some t => [(.cut, t)]
  | none => []

theorem targets_eq (m : MachineTable) (s : State) : s.targets m = s.candidates.map (defectTarget m) ++ cutTargets m s := rfl

theorem cutTarget_iff (m : MachineTable) (s : State) (t : Int) :
    s.cutTarget m = some t ↔ s.ss.cutHeld = true ∧ ∃ c, s.pCut = some c ∧ t = c + m.dNip := by
  rw [State.cutTarget, Option.ite_none_right_eq_some, Option.map_eq_some_iff]
  simp only [eq_comm]

theorem mem_cutTargets_iff (m : MachineTable) (s : State) (a : Aim) (t : Int) :
    (a, t) ∈ cutTargets m s ↔ a = .cut ∧ s.ss.cutHeld = true ∧ ∃ c, s.pCut = some c ∧ t = c + m.dNip := by
  rw [← cutTarget_iff, cutTargets]
  cases s.cutTarget m <;> simp [eq_comm]

theorem mem_defectTargets_iff (m : MachineTable) (s : State) (a : Aim) (t : Int) :
    (a, t) ∈ s.candidates.map (defectTarget m) ↔
      (∃ e ∈ s.fq.settled, SettledCandidate s e ∧ a = .entry e.feat.num ∧ t = e.p + m.dSt) ∨
        ∃ y ∈ s.fq.forecast, ∃ p, ForecastCandidate s y p ∧ a = .entry y.feat.num ∧ t = p + m.dSt := by
  simp only [List.mem_map, defectTarget, Prod.exists, Prod.mk.injEq, mem_candidates_iff]
  constructor
  · rintro ⟨n, p, ⟨e, he, hc, rfl, rfl⟩ | ⟨y, hy, hc, rfl⟩, rfl, rfl⟩
    · exact .inl ⟨e, he, hc, rfl, rfl⟩
    · exact .inr ⟨y, hy, p, hc, rfl, rfl⟩
  · rintro (⟨e, he, hc, rfl, rfl⟩ | ⟨y, hy, p, hc, rfl, rfl⟩)
    · exact ⟨_, _, .inl ⟨e, he, hc, rfl, rfl⟩, rfl, rfl⟩
    · exact ⟨_, _, .inr ⟨y, hy, hc, rfl⟩, rfl, rfl⟩

/-- The forecast candidates keep the order of their list. -/
theorem forecastCandidates_sublist (s : State) : ((forecastCandidates s).map (·.1)).Sublist (s.fq.forecast.map (·.feat.num)) := by
  unfold forecastCandidates
  induction s.fq.forecast with
  | nil => exact List.Sublist.refl _
  | cons y l ih =>
    rw [List.filterMap_cons]
    split
    · exact ih.cons _
    · rename_i x hx
      obtain ⟨n, p⟩ := x
      obtain ⟨-, rfl⟩ := (candidateOf_eq_some_iff s y n p).1 hx
      exact ih.cons_cons _

theorem targetsAreTheCandidates : TargetsAreTheCandidates := by
  intro m s
  refine ⟨fun a t => ?_, (s.fq.settled.filter s.settledCandidate).map (·.feat.num), (forecastCandidates s).map (·.1),
    (cutTargets m s).map (·.1), List.filter_sublist.map _, forecastCandidates_sublist s, fun a ha => ?_, ?_⟩
  · rw [targets_eq, List.mem_append, mem_defectTargets_iff, mem_cutTargets_iff, or_assoc]
  · obtain ⟨⟨a, t⟩, hx, rfl⟩ := List.mem_map.1 ha
    exact ((mem_cutTargets_iff ..).1 hx).1
  · rw [targets_eq, candidates_eq]
    simp only [List.map_append, List.map_map, Function.comp_def, defectTarget]

/-- A least target is one of the list's. -/
theorem mem_of_leastTarget {l : List (Aim × Int)} {x : Aim × Int} (h : leastTarget l = some x) : x ∈ l := by
  induction l generalizing x with
  | nil => cases h
  | cons y l ih =>
    unfold leastTarget at h
    cases hl : leastTarget l with
    | none =>
      rw [hl] at h
      obtain rfl := Option.some.inj h
      exact List.mem_cons_self
    | some z =>
      rw [hl] at h
      dsimp only at h
      split at h
      · obtain rfl := Option.some.inj h
        exact List.mem_cons_of_mem _ (ih hl)
      · obtain rfl := Option.some.inj h
        exact List.mem_cons_self

/-- The least target found is the first of the least (R120). -/
theorem leastTarget_first {pre post : List (Aim × Int)} {x : Aim × Int} (hpre : ∀ y ∈ pre, x.2 < y.2) (hpost : ∀ y ∈ post, x.2 ≤ y.2) :
    leastTarget (pre ++ x :: post) = some x := by
  induction pre with
  | nil =>
    rw [List.nil_append, leastTarget]
    cases hl : leastTarget post with
    | none => rfl
    | some y => exact if_neg (Int.not_lt.2 (hpost y (mem_of_leastTarget hl)))
  | cons y pre ih =>
    obtain ⟨hy, hpre⟩ := List.forall_mem_cons.1 hpre
    rw [List.cons_append, leastTarget, ih hpre]
    exact if_pos hy

/-- The aim of the statements is the one found at a look. -/
theorem findAim_of_aims {m : MachineTable} {s : State} {a : Aim} {t : Int} (h : Aims m s a t) : s.findAim m = some (a, t) := by
  obtain ⟨pre, post, hl, hpre, hpost⟩ := h
  unfold State.findAim
  rw [hl]
  exact leastTarget_first hpre hpost

theorem findAim_none {m : MachineTable} {s : State} (h : s.targets m = []) : s.findAim m = none := by
  unfold State.findAim
  rw [h]
  rfl

/-- The defect candidates' targets are the targets but the cut's. -/
theorem filter_targets (m : MachineTable) (s : State) :
    (s.targets m).filter (fun x => decide (x.1 ≠ .cut)) = s.candidates.map (defectTarget m) := by
  have hcut : (cutTargets m s).filter (fun x => decide (x.1 ≠ .cut)) = [] := by
    refine List.filter_eq_nil_iff.2 (fun x hx => ?_)
    obtain ⟨a, t⟩ := x
    simp [((mem_cutTargets_iff ..).1 hx).1]
  rw [targets_eq, List.filter_append, hcut, List.append_nil, List.filter_eq_self]
  intro x hx
  obtain ⟨y, -, rfl⟩ := List.mem_map.1 hx
  rfl

/-- The nearest defect candidate, found among all targets (R120, R127). -/
theorem findDefect_of {m : MachineTable} {s : State} {b : Aim} {v : Int} {pre post : List (Aim × Int)}
    (hl : s.targets m = pre ++ (b, v) :: post) (hb : b ≠ .cut) (hpre : ∀ x ∈ pre, x.1 ≠ .cut → v < x.2)
    (hpost : ∀ x ∈ post, x.1 ≠ .cut → v ≤ x.2) : s.findDefect m = some (b, v) := by
  have hcandidates : s.findDefect m = leastTarget ((s.targets m).filter (fun x => decide (x.1 ≠ .cut))) := by
    rw [filter_targets]
    rfl
  rw [hcandidates, hl, List.filter_append, List.filter_cons_of_pos (by simpa using hb)]
  refine leastTarget_first (fun x hx => ?_) (fun x hx => ?_)
  · obtain ⟨hmem, hne⟩ := List.mem_filter.1 hx
    exact hpre x hmem (of_decide_eq_true hne)
  · obtain ⟨hmem, hne⟩ := List.mem_filter.1 hx
    exact hpost x hmem (of_decide_eq_true hne)

/-! ### The window served (R124) -/

/-- A Settled entry once the entries of some numbers have been served. -/
def servedIn (nums : List Nat) (e : Settled) : Settled := { e with feat := { e.feat with served := e.feat.served || nums.contains e.feat.num } }

/-- A Forecast entry once the entries of some numbers have been served. -/
def servedAhead (nums : List Nat) (y : Forecast) : Forecast := { y with feat := { y.feat with served := y.feat.served || nums.contains y.feat.num } }

theorem foldl_serve (l : List (Nat × Int)) : ∀ s : State, l.foldl (fun s x => serve x.1 s) s = { s with fq := { s.fq with
    settled := s.fq.settled.map (servedIn (l.map (·.1))), forecast := s.fq.forecast.map (servedAhead (l.map (·.1))) } } := by
  induction l with
  | nil =>
    intro s
    have hin : servedIn [] = id := funext fun e => by simp [servedIn]
    have hahead : servedAhead [] = id := funext fun y => by simp [servedAhead]
    rw [List.map_nil, hin, hahead, List.map_id, List.map_id]
    rfl
  | cons x l ih =>
    intro s
    have hin : ∀ e : Settled, servedIn (l.map (·.1)) (if e.feat.num = x.1 then e.setServed true else e) =
        servedIn ((x :: l).map (·.1)) e := by
      intro e
      by_cases h : e.feat.num = x.1 <;> simp [servedIn, Settled.setServed, h, beq_eq_decide]
    have hahead : ∀ y : Forecast, servedAhead (l.map (·.1)) (if y.feat.num = x.1 then y.setServed true else y) =
        servedAhead ((x :: l).map (·.1)) y := by
      intro y
      by_cases h : y.feat.num = x.1 <;> simp [servedAhead, Forecast.setServed, h, beq_eq_decide]
    rw [List.foldl_cons, ih]
    simp only [serve, FeatureQueue.modifySettled, FeatureQueue.modifyForecast, List.map_map, Function.comp_def, hin, hahead]

/-- The candidates in the window. -/
def windowed (m : MachineTable) (s : State) : List (Nat × Int) := s.candidates.filter (fun x => s.inWindow m x.2)

theorem serveWindow_eq (m : MachineTable) (s : State) : serveWindow m s = { s with fq := { s.fq with
    settled := s.fq.settled.map (servedIn ((windowed m s).map (·.1)))
    forecast := s.fq.forecast.map (servedAhead ((windowed m s).map (·.1))) } } := foldl_serve _ s

theorem mem_windowed_iff {m : MachineTable} {s : State} {w : Int} (hw : s.ss.pW = some w) (n : Nat) (p : Int) :
    (n, p) ∈ windowed m s ↔ (n, p) ∈ s.candidates ∧ w ≤ p ∧ p ≤ w + m.wTab := by
  simp [windowed, List.mem_filter, State.inWindow, hw]

/-- In a lawful queue a number names one entry of the two lists (R43). -/
theorem one_entry {q : FeatureQueue} (hq : q.lawful) :
    (∀ e ∈ q.settled, ∀ y ∈ q.forecast, e.feat.num ≠ y.feat.num) ∧
      ∀ x ∈ q.forecast, ∀ y ∈ q.forecast, x.feat.num = y.feat.num → x = y := by
  obtain ⟨hnodup, -⟩ := hq
  obtain ⟨hforecast, -, hdisjoint⟩ := List.nodup_append.1 hnodup
  exact ⟨fun e he y hy h => hdisjoint _ (List.mem_map_of_mem hy) _ (List.mem_map_of_mem he) h.symm,
    fun x hx y hy => List.inj_on_of_nodup_map hforecast hx hy⟩

/-- The window served takes in the candidates that lie in it, and no other entry (R124). -/
theorem windowServed_serveWindow {m : MachineTable} {s : State} {w : Int} (hq : s.fq.lawful) (hw : s.ss.pW = some w) :
    WindowServed m w s (serveWindow m s) := by
  obtain ⟨hapart, hone⟩ := one_entry hq
  refine ⟨fun e => (servedIn ((windowed m s).map (·.1)) e).feat.served, fun y => (servedAhead ((windowed m s).map (·.1)) y).feat.served,
    fun e he => ?_, fun y hy => ?_, by rw [serveWindow_eq]; rfl⟩
  · have hmem : e.feat.num ∈ (windowed m s).map (·.1) ↔ SettledCandidate s e ∧ w ≤ e.p ∧ e.p ≤ w + m.wTab := by
      simp only [List.mem_map, Prod.exists, mem_windowed_iff hw, mem_candidates_iff]
      constructor
      · rintro ⟨n, p, ⟨⟨x, hx, hc, rfl, rfl⟩ | ⟨y, hy, -, rfl⟩, hin⟩, hnum⟩
        · obtain rfl := DueStations.eq_of_num_eq hq hx he hnum
          exact ⟨hc, hin⟩
        · exact absurd hnum.symm (hapart e he y hy)
      · rintro ⟨hc, hin⟩
        exact ⟨_, _, ⟨.inl ⟨e, he, hc, rfl, rfl⟩, hin⟩, rfl⟩
    simp only [servedIn, Bool.or_eq_true, List.contains_iff_mem, hmem]
  · have hmem : y.feat.num ∈ (windowed m s).map (·.1) ↔ ∃ p, ForecastCandidate s y p ∧ w ≤ p ∧ p ≤ w + m.wTab := by
      simp only [List.mem_map, Prod.exists, mem_windowed_iff hw, mem_candidates_iff]
      constructor
      · rintro ⟨n, p, ⟨⟨x, hx, -, rfl, -⟩ | ⟨x, hx, hc, rfl⟩, hin⟩, hnum⟩
        · exact absurd hnum (hapart x hx y hy)
        · obtain rfl := hone x hx y hy hnum
          exact ⟨p, hc, hin⟩
      · rintro ⟨p, hc, hin⟩
        exact ⟨_, p, ⟨.inr ⟨y, hy, hc, rfl⟩, hin⟩, rfl⟩
    simp only [servedAhead, Bool.or_eq_true, List.contains_iff_mem, hmem]

/-- The window is served of the entries alone: a scheduler, orders and notices that differ are not asked. -/
theorem windowServed_congr {m : MachineTable} {w : Int} {s t x : State} (h : s = { t with ss := s.ss, nq := s.nq, ll := s.ll })
    (hs : WindowServed m w s x) : WindowServed m w t x := by
  rw [h] at hs
  exact hs

end Sys2Proof.Targets
end

section
/-! PROOFS. What the Stop Scheduler's operations leave alone: a served mark that clears, and a look as a whole, in the scheduler, the
Set Controller and the places of the Settled entries (R112, R121). -/

namespace Sys2Proof.Looks

open Sys2Proof Sys2Proof.Machine Sys2Proof.Claims Sys2Proof.Standing Sys2Proof.DueStations Sys2Proof.Targets

/-! ### Orders, notices and leaving -/

theorem driveOrder_rest (body : OwnBody) (s : State) : driveOrder body s = { s with ll := (driveOrder body s).ll } := by
  unfold driveOrder queueOwn
  split_ifs <;> rfl

theorem noticeTags_rest (before : Nat) (s : State) : noticeTags before s = { s with nq := (noticeTags before s).nq } := by
  unfold noticeTags
  split_ifs
  · exact queueNotice_rest ..
  · exact queueNotice_rest ..
  · rfl

theorem reportFree_rest (s : State) : reportFree s = { s with ms := (reportFree s).ms, nq := (reportFree s).nq } := by
  unfold reportFree
  split
  · rfl
  · split_ifs
    · rw [queueNotice_rest]
    · rw [queueNotice_rest]
    · rfl

theorem leave_ss (num : Nat) (s : State) : (leave num s).ss = { s.ss with aimGone := (leave num s).ss.aimGone } := by
  unfold leave
  rw [noticeTags_rest, reportFree_rest]
  dsimp only
  split <;> rfl

theorem leave_rest (num : Nat) (s : State) : (leave num s).sc = s.sc ∧ (leave num s).ll = s.ll := by
  unfold leave
  rw [noticeTags_rest, reportFree_rest]
  exact ⟨rfl, rfl⟩

theorem writeEvents_rest (pStart : Int) (e : Settled) (s : State) :
    writeEvents pStart e s = { s with rs := (writeEvents pStart e s).rs } := by
  unfold writeEvents
  induction e.items generalizing s with
  | nil => rfl
  | cons i items ih =>
    rw [List.foldl_cons, ih]
    rfl

/-! ### A served mark that clears (R112) -/

/-- Every Settled entry of `t` is one of `s`, at its place. -/
def SamePlaces (s t : State) : Prop := ∀ x ∈ t.fq.settled, ∃ y ∈ s.fq.settled, y.feat.num = x.feat.num ∧ y.p = x.p

theorem SamePlaces.of_settled {s t : State} (h : t.fq.settled = s.fq.settled) : SamePlaces s t :=
  fun x hx => ⟨x, h ▸ hx, rfl, rfl⟩

theorem SamePlaces.trans {s t u : State} (h : SamePlaces s t) (k : SamePlaces t u) : SamePlaces s u := by
  intro x hx
  obtain ⟨y, hy, hyn, hyp⟩ := k x hx
  obtain ⟨z, hz, hzn, hzp⟩ := h y hy
  exact ⟨z, hz, hzn.trans hyn, hzp.trans hyp⟩

theorem samePlaces_changeSettled {num : Nat} {g : Settled → Settled} (hg : ∀ e, (g e).feat.num = e.feat.num ∧ (g e).p = e.p) (s : State) :
    SamePlaces s (changeSettled num g s) := by
  intro x hx
  obtain ⟨y, hy, rfl⟩ := List.mem_map.1 hx
  refine ⟨y, hy, ?_⟩
  split
  · exact ⟨(hg y).1.symm, (hg y).2.symm⟩
  · exact ⟨rfl, rfl⟩

theorem samePlaces_leave (num : Nat) (s : State) : SamePlaces s (leave num s) := by
  intro x hx
  rw [leave_settled] at hx
  exact ⟨x, (List.mem_filter.1 hx).1, rfl, rfl⟩

/-- From `s` to `t` a station may have been taken that sends no order: of the scheduler only the mark of an aim that is gone has moved, the
set and the orders stand, and no entry has come or moved. -/
structure Clears (s t : State) : Prop extends Kept s t where
  stop : t.ss = { s.ss with aimGone := t.ss.aimGone }
  set : t.sc = s.sc
  link : t.ll = s.ll
  places : SamePlaces s t

theorem Clears.refl (s : State) : Clears s s := ⟨Kept.refl s, rfl, rfl, rfl, .of_settled rfl⟩

theorem Clears.trans {s t u : State} (h : Clears s t) (k : Clears t u) : Clears s u :=
  ⟨h.toKept.trans k.toKept, by rw [k.stop, h.stop], k.set.trans h.set, k.link.trans h.link, h.places.trans k.places⟩

theorem Clears.foldl {α : Type} (f : State → α → State) (l : List α) (h : ∀ s, ∀ x ∈ l, Clears s (f s x)) :
    ∀ s, Clears s (l.foldl f s) := by
  induction l with
  | nil => exact Clears.refl
  | cons x l ih =>
    exact fun s => (h s x List.mem_cons_self).trans (ih (fun s y hy => h s y (List.mem_cons_of_mem _ hy)) _)

theorem clears_changeSettled {num : Nat} {g : Settled → Settled} (hg : ∀ e, (g e).feat.num = e.feat.num ∧ (g e).p = e.p) (s : State) :
    Clears s (changeSettled num g s) :=
  ⟨kept_changeSettled num g hg s, rfl, rfl, rfl, samePlaces_changeSettled hg s⟩

theorem clears_leave (num : Nat) (s : State) : Clears s (leave num s) :=
  ⟨kept_leave num s, leave_ss num s, (leave_rest num s).1, (leave_rest num s).2, samePlaces_leave num s⟩

theorem clears_takeKnife (e : Settled) (s : State) : Clears s (takeKnife e s) := by
  unfold takeKnife
  dsimp only
  split
  · exact clears_leave ..
  · exact clears_changeSettled (g := fun x => { x with items := (s.resolve e.feat).map itemOf, knife := true }) (fun _ => ⟨rfl, rfl⟩) s

theorem clears_missStops (e : Settled) (s : State) : Clears s (missStops e s) := by
  have hitems := clears_changeSettled (num := e.feat.num) (g := fun x => { x with items := x.items.map LaneItem.downgrade })
    (fun _ => ⟨rfl, rfl⟩) s
  unfold missStops
  extract_lets s1
  split
  · have hrest := queueNotice_rest .stopMissed (wNat e.feat.num) (wInt e.p) (wLanes e.stopLanes) s1
    exact hitems.trans ⟨kept_queueNotice .., by rw [hrest], by rw [hrest], by rw [hrest], .of_settled (by rw [hrest])⟩
  · exact hitems

theorem clears_takeTable (e : Settled) (s : State) : Clears s (takeTable e s) := by
  have htable := clears_changeSettled (num := e.feat.num) (g := fun x => { x with table := true }) (fun _ => ⟨rfl, rfl⟩) s
  unfold takeTable
  extract_lets s1
  split
  · exact htable
  · exact htable.trans (clears_missStops e s1)

/-- A flag station that places no flag sends no order (R108). -/
theorem clears_takeFlag (m : MachineTable) (e : Settled) (s : State) : Clears s (takeFlag m false e s) := by
  have hunplaced : takeFlag m false e s =
      changeSettled e.feat.num (fun x => { x with items := e.items.map (s.flagItem m false e.p), flag := true }) s := by
    unfold takeFlag
    exact if_neg (fun h => Bool.false_ne_true h.1)
  rw [hunplaced]
  exact clears_changeSettled (g := fun x => { x with items := e.items.map (s.flagItem m false e.p), flag := true })
    (fun _ => ⟨rfl, rfl⟩) s

theorem clears_takeNip (e : Settled) (s : State) : Clears s (takeNip e s) := by
  have hwrite : ∀ p, Clears s (writeEvents p e s) := fun p => by
    have hrest := writeEvents_rest p e s
    exact ⟨kept_writeEvents p e s, by rw [hrest], by rw [hrest], by rw [hrest], .of_settled (by rw [hrest])⟩
  unfold takeNip
  split
  · exact (hwrite _).trans (clears_leave ..)
  · exact Clears.refl s
  · exact clears_leave ..

/-- A station of a look but a flag station that could place flags. -/
theorem clears_takeStation {cleared : Bool} {st : Station} (h : st = .flag → cleared = true) (num : Nat) (s : State) :
    Clears s (takeStation cleared st num s) := by
  unfold takeStation
  split
  · cases st with
    | knife => exact clears_takeKnife ..
    | table => exact clears_takeTable ..
    | flag =>
      dsimp only
      rw [h rfl]
      split
      · exact Clears.refl s
      · exact clears_takeFlag ..
    | nip =>
      dsimp only
      split
      · exact Clears.refl s
      · exact clears_takeNip ..
  · exact Clears.refl s

/-- The look as a served mark clears takes no flag station of another entry (R112). -/
theorem flag_of_mem_dueAt {m : MachineTable} {num : Nat} {s : State} {d : DueStation}
    (hd : d ∈ s.dueAt m num (Settled.nipAlone s.pu.u m)) (hflag : d.st = .flag) : d.num = num := by
  unfold State.dueAt at hd
  rw [mem_sortDue] at hd
  obtain ⟨⟨x, i⟩, -, hx⟩ := List.mem_flatMap.1 hd
  split at hx
  · rename_i hor
    obtain ⟨st, hst, rfl⟩ := List.mem_map.1 hx
    obtain rfl : st = .flag := hflag
    have hdue : x.due s.pu.u m .flag = true := (List.mem_filter.1 hst).2
    refine hor.resolve_right (fun halone => ?_)
    simp [Settled.nipAlone, hdue] at halone
  · cases hx

theorem clears_walkCleared (num : Nat) (s : State) : Clears s (walkCleared num s) := by
  unfold walkCleared
  split
  · refine Clears.foldl _ _ (fun y d hd => ?_) s
    split
    · exact clears_takeStation (fun hflag => by rw [flag_of_mem_dueAt hd hflag, beq_self_eq_true]) _ _
    · exact Clears.refl y
  · exact Clears.refl s

theorem clears_clearServed (num : Nat) (s : State) : Clears s (clearServed num s) := by
  unfold clearServed
  split
  · exact Clears.refl s
  · extract_lets s1
    have h1 : Clears s s1 := clears_changeSettled (g := Settled.setServed false) (fun _ => ⟨rfl, rfl⟩) s
    refine (h1.trans ?_).trans (clears_walkCleared num _)
    split
    · exact clears_missStops ..
    · exact Clears.refl s1

theorem clears_dropServed (s : State) : Clears s (dropServed s) :=
  Clears.foldl (fun s (e : Settled) => clearServed e.feat.num s) _ (fun s _ _ => clears_clearServed _ s) s

/-- The served marks of the Forecast entries cleared. -/
def forecastReleased (s : State) : State := { s with fq := { s.fq with forecast := s.fq.forecast.map (Forecast.setServed false) } }

theorem clears_forecastReleased (s : State) : Clears s (forecastReleased s) := by
  refine ⟨Kept.queueOf s _ rfl (fun h => ?_) (by simp [FeatureQueue.size]), rfl, rfl, rfl, .of_settled rfl⟩
  simpa using s.fq.lawful_map (Forecast.setServed false) id (fun _ => ⟨rfl, rfl, rfl⟩) (fun _ => ⟨rfl, rfl⟩) h

theorem releaseAll_eq (s : State) : releaseAll s =
    (s.fq.settled.filter (fun e => e.feat.served)).foldl (fun s e => clearServed e.feat.num s) (forecastReleased s) := rfl

theorem clears_releaseAll (s : State) : Clears s (releaseAll s) :=
  (clears_forecastReleased s).trans
    (Clears.foldl (fun s (e : Settled) => clearServed e.feat.num s) _ (fun s _ _ => clears_clearServed _ s) _)

/-! ### An entry of which no station is due -/

/-- The stations of a look leave an entry of which none is due (R98). -/
theorem mem_takeAll {m : MachineTable} {e : Settled} (cleared : Option Nat) (l : List DueStation) : ∀ {s : State}, s.fq.lawful →
    e ∈ s.fq.settled → NoneDue m s.pu.u e → e ∈ (takeAll m cleared l s).fq.settled := by
  induction l with
  | nil => exact fun _ he _ => he
  | cons d l ih =>
    intro s hq he hnone
    have hkept : Kept s (takeAll m cleared [d] s) := kept_takeAll ..
    have hone : e ∈ (takeAll m cleared [d] s).fq.settled := by
      dsimp only [takeAll, List.foldl_cons, List.foldl_nil]
      split
      · rename_i hdue
        refine mem_takeStation he (fun hnum => ?_)
        rw [← hnum, findSettled_of_mem hq he, Option.any_some, (noneDue_iff m s.pu.u e).1 hnone] at hdue
        exact Bool.false_ne_true hdue
      · exact he
    have hpu : (takeAll m cleared [d] s).pu = s.pu := congrArg Fixed.pu hkept.fixed
    exact ih (s := takeAll m cleared [d] s) (hkept.queue hq) hone (by rw [hpu]; exact hnone)

section Entry

variable {m : MachineTable} {s : State} {e : Settled}

theorem mem_walkCleared (hm : s.machine = some m) (hq : s.fq.lawful) (he : e ∈ s.fq.settled) (hnone : NoneDue m s.pu.u e) (num : Nat) :
    e ∈ (walkCleared num s).fq.settled := by
  unfold walkCleared
  rw [hm]
  exact mem_takeAll _ _ hq he hnone

/-- Another entry's served mark that clears leaves an entry of which no station is due. -/
theorem mem_clearServed_other (hm : s.machine = some m) (hq : s.fq.lawful) (he : e ∈ s.fq.settled) (hnone : NoneDue m s.pu.u e)
    {num : Nat} (hnum : e.feat.num ≠ num) : e ∈ (clearServed num s).fq.settled := by
  unfold clearServed
  split
  · exact he
  · rename_i x hx
    extract_lets s1
    have h1 : Clears s s1 := clears_changeSettled (g := Settled.setServed false) (fun _ => ⟨rfl, rfl⟩) s
    have he1 : e ∈ s1.fq.settled := mem_changeSettled he hnum
    have hxnum : e.feat.num ≠ x.feat.num := by rw [num_of_findSettled hx]; exact hnum
    have h2 : Clears s1 (if x.table then missStops (x.setServed false) s1 else s1) := by
      split
      · exact clears_missStops ..
      · exact Clears.refl s1
    have he2 : e ∈ (if x.table then missStops (x.setServed false) s1 else s1).fq.settled := by
      split
      · exact mem_missStops he1 hxnum
      · exact he1
    have hfixed := (h1.trans h2).fixed
    exact mem_walkCleared ((congrArg Fixed.machine hfixed).trans hm) ((h1.trans h2).queue hq) he2
      (by rw [show State.pu _ = s.pu from congrArg Fixed.pu hfixed]; exact hnone) num

theorem downgrade_of_not_stop {i : LaneItem} (h : i.action ≠ .stop) : i.downgrade = i := if_neg h

/-- An entry's own served mark that clears, with no station of it due and no STOP item left past the table: the rest of it stands. -/
theorem mem_clearServed_self (hm : s.machine = some m) (hq : s.fq.lawful) (he : e ∈ s.fq.settled) (hnone : NoneDue m s.pu.u e)
    (hstop : e.table = true → ∀ i ∈ e.items, i.action ≠ .stop) : e.setServed false ∈ (clearServed e.feat.num s).fq.settled := by
  unfold clearServed
  rw [findSettled_of_mem hq he]
  extract_lets s1
  have h1 : Clears s s1 := clears_changeSettled (g := Settled.setServed false) (fun _ => ⟨rfl, rfl⟩) s
  have he1 : e.setServed false ∈ s1.fq.settled := changed_mem he
  have h2 : Clears s1 (if e.table then missStops (e.setServed false) s1 else s1) := by
    split
    · exact clears_missStops ..
    · exact Clears.refl s1
  have he2 : e.setServed false ∈ (if e.table then missStops (e.setServed false) s1 else s1).fq.settled := by
    split
    · rename_i htable
      have hitems : (e.setServed false).items.map LaneItem.downgrade = (e.setServed false).items :=
        (List.map_congr_left (fun i hi => downgrade_of_not_stop (hstop htable i hi))).trans (List.map_id _)
      have hsame : ({ e.setServed false with items := (e.setServed false).items.map LaneItem.downgrade } : Settled) = e.setServed false := by
        rw [hitems]
      have hchanged : e.setServed false ∈ (changeSettled (e.setServed false).feat.num
          (fun x => { x with items := x.items.map LaneItem.downgrade }) s1).fq.settled :=
        List.mem_map.2 ⟨e.setServed false, he1, (if_pos rfl).trans hsame⟩
      unfold missStops
      dsimp only
      split
      · rw [queueNotice_fq]
        exact hchanged
      · exact hchanged
    · exact he1
  have hfixed := (h1.trans h2).fixed
  exact mem_walkCleared ((congrArg Fixed.machine hfixed).trans hm) ((h1.trans h2).queue hq) he2
    (by rw [show State.pu _ = s.pu from congrArg Fixed.pu hfixed]; exact hnone) e.feat.num

/-- The served marks of some other entries clear. -/
theorem mem_clearAll_other (l : List Settled) : ∀ {s : State}, s.machine = some m → s.fq.lawful → e ∈ s.fq.settled → NoneDue m s.pu.u e →
    (∀ x ∈ l, e.feat.num ≠ x.feat.num) → e ∈ (l.foldl (fun s x => clearServed x.feat.num s) s).fq.settled := by
  induction l with
  | nil => exact fun _ _ he _ _ => he
  | cons x l ih =>
    intro s hm hq he hnone hl
    obtain ⟨hx, hl⟩ := List.forall_mem_cons.1 hl
    have hfixed := (clears_clearServed x.feat.num s).fixed
    exact ih ((congrArg Fixed.machine hfixed).trans hm) ((clears_clearServed x.feat.num s).queue hq)
      (mem_clearServed_other hm hq he hnone hx) (by rw [show State.pu _ = s.pu from congrArg Fixed.pu hfixed]; exact hnone) hl

/-- The served marks of some entries of the list clear, an entry's own among them. -/
theorem mem_clearAll_self {test : Settled → Bool} (hm : s.machine = some m) (hq : s.fq.lawful) (he : e ∈ s.fq.settled)
    (hnone : NoneDue m s.pu.u e) (hstop : e.table = true → ∀ i ∈ e.items, i.action ≠ .stop) (htest : test e = true) :
    e.setServed false ∈ ((s.fq.settled.filter test).foldl (fun s x => clearServed x.feat.num s) s).fq.settled := by
  obtain ⟨pre, post, hl⟩ := List.append_of_mem he
  have hothers := nums_ne_of_append hq hl
  have hpre : ∀ x ∈ pre.filter test, e.feat.num ≠ x.feat.num := fun x hx =>
    Ne.symm (hothers x (List.mem_append_left _ (List.mem_filter.1 hx).1))
  have hpost : ∀ x ∈ post.filter test, (e.setServed false).feat.num ≠ x.feat.num := fun x hx =>
    Ne.symm (hothers x (List.mem_append_right _ (List.mem_filter.1 hx).1))
  rw [hl, List.filter_append, List.filter_cons_of_pos htest, List.foldl_append, List.foldl_cons]
  have hbefore := Clears.foldl (fun s (x : Settled) => clearServed x.feat.num s) (pre.filter test)
    (fun s _ _ => clears_clearServed _ s) s
  have heb := mem_clearAll_other (pre.filter test) hm hq he hnone hpre
  generalize (pre.filter test).foldl (fun s x => clearServed x.feat.num s) s = s1 at hbefore heb
  have hm1 : s1.machine = some m := (congrArg Fixed.machine hbefore.fixed).trans hm
  have hnone1 : NoneDue m s1.pu.u e := by rw [show s1.pu = s.pu from congrArg Fixed.pu hbefore.fixed]; exact hnone
  have hself := mem_clearServed_self hm1 (hbefore.queue hq) heb hnone1 hstop
  have hfixed := (clears_clearServed e.feat.num s1).fixed
  exact mem_clearAll_other (post.filter test) ((congrArg Fixed.machine hfixed).trans hm1)
    ((clears_clearServed e.feat.num s1).queue (hbefore.queue hq)) hself
    (by rw [show State.pu _ = s1.pu from congrArg Fixed.pu hfixed]; exact hnone1) hpost

end Entry

/-! ### A look as a whole (R121) -/

/-- From `s` to `t` a look or a part of one: d_s stands or is formed, the set goes no further than its cut, and no entry has come or
moved (R121, R122, R138). -/
structure Looked (m : MachineTable) (s t : State) : Prop extends Kept s t where
  formed : t.ss.dS = s.ss.dS ∨ t.ss.dS = some (s.stopDistance m)
  set : t.sc.state = s.sc.state ∨ t.sc.state = .changing
  places : SamePlaces s t

section Look

variable {m : MachineTable}

theorem Looked.refl (s : State) : Looked m s s := ⟨Kept.refl s, .inl rfl, .inl rfl, .of_settled rfl⟩

theorem Looked.trans {s t u : State} (h : Looked m s t) (k : Looked m t u) : Looked m s u := by
  have hdistance : t.stopDistance m = s.stopDistance m := by
    unfold State.stopDistance
    rw [show t.pu = s.pu from congrArg Fixed.pu h.fixed]
  refine ⟨h.toKept.trans k.toKept, ?_, k.set.elim (fun hs => ?_) .inr, h.places.trans k.places⟩
  · rcases k.formed with hk | hk
    · rw [hk]
      exact h.formed
    · exact .inr (hk.trans (by rw [hdistance]))
  · rw [hs]
    exact h.set

/-- An operation on the scheduler, the orders and the notices that does not form d_s. -/
theorem Looked.of_same {s t : State} (h : Kept s t) (hds : t.ss.dS = s.ss.dS) (hsc : t.sc = s.sc) (hfq : t.fq = s.fq) : Looked m s t :=
  ⟨h, .inl hds, .inl (by rw [hsc]), .of_settled (by rw [hfq])⟩

theorem Looked.of_clears {s t : State} (h : Clears s t) : Looked m s t :=
  ⟨h.toKept, .inl (by rw [h.stop]), .inl (by rw [h.set]), h.places⟩

theorem Looked.stop (s : State) (x : StopScheduler) (h : x.dS = s.ss.dS) : Looked m s { s with ss := x } :=
  .of_same (Kept.stop s x) h rfl rfl

theorem looked_driveOrder (body : OwnBody) (s : State) : Looked m s (driveOrder body s) := by
  have hrest := driveOrder_rest body s
  exact .of_same (kept_driveOrder body s) (by rw [hrest]) (by rw [hrest]) (by rw [hrest])

theorem looked_queueNotice (k : NoticeKind) (a b c : Word) (s : State) : Looked m s (queueNotice k a b c s) := by
  have hrest := queueNotice_rest k a b c s
  exact .of_same (kept_queueNotice ..) (by rw [hrest]) (by rw [hrest]) (by rw [hrest])

theorem looked_serveWindow (s : State) : Looked m s (serveWindow m s) := by
  refine ⟨kept_serveWindow m s, .inl (by rw [serveWindow_eq]), .inl (by rw [serveWindow_eq]), fun x hx => ?_⟩
  rw [serveWindow_eq] at hx
  obtain ⟨y, hy, rfl⟩ := List.mem_map.1 hx
  exact ⟨y, hy, rfl, rfl⟩

theorem looked_formDs (s : State) : Looked m s (formDs m s) := ⟨kept_formDs m s, .inr rfl, .inl rfl, .of_settled rfl⟩

theorem looked_halt (e : Int) (s : State) : Looked m s (halt m e s) := by
  have hcut : ∀ y, Looked m y (cutHalt m y) := by
    intro y
    refine ⟨kept_cutHalt m y, .inr ?_, .inr rfl, .of_settled ?_⟩
    · unfold cutHalt formDs State.stopDistance
      dsimp only
      rw [driveOrder_rest]
    · unfold cutHalt formDs
      dsimp only
      rw [driveOrder_rest]
  unfold halt
  extract_lets _ s1
  have h1 : Looked m s s1 := .stop s _ (by rfl)
  split
  · exact h1.trans (hcut s1)
  · exact h1

theorem looked_standstillCheck (s : State) : Looked m s (standstillCheck m s) := by
  unfold standstillCheck
  split
  · exact Looked.refl s
  · extract_lets e jogs
    split_ifs
    · exact looked_halt ..
    · refine Looked.trans (t := { s with ss := { s.ss with state := .correcting, jogs := jogs + 1 } }) ?_ (looked_driveOrder ..)
      exact .stop s _ (by rfl)
    · exact looked_halt ..
    · exact Looked.refl s

theorem looked_sendStop (aim : Aim) (target : Int) (late : Bool) (s : State) : Looked m s (sendStop m aim target late s) := by
  unfold sendStop
  extract_lets ds extra kind _ s1 s2 s3
  have h1 : Looked m s s1 := Looked.trans (.stop s _ (by rfl)) (looked_driveOrder ..)
  have h2 : Looked m s1 s2 := by
    unfold s2
    split
    · exact looked_serveWindow s1
    · exact Looked.refl s1
  have h3 : Looked m s2 s3 := by
    unfold s3
    split
    · exact looked_queueNotice ..
    · exact Looked.refl s2
  refine (h1.trans (h2.trans h3)).trans ?_
  split
  · exact looked_standstillCheck s3
  · exact Looked.refl s3

theorem looked_idleLook (s : State) : Looked m s (idleLook m s) := by
  unfold idleLook
  split
  · exact .stop s _ (by rfl)
  · extract_lets seen ds _ s1
    have h1 : Looked m s s1 := .stop s _ (by rfl)
    split
    · exact h1
    · exact h1.trans (looked_sendStop ..)

theorem looked_cancelStop (s : State) : Looked m s (cancelStop s) := Looked.trans (.stop s _ (by rfl)) (looked_driveOrder ..)

theorem standingStop_dS (s : State) : s.standingStop.dS = s.ss.dS := by
  unfold State.standingStop
  split
  · split
    · rfl
    · split <;> rfl
  · rfl

theorem looked_reviseOrder (s : State) : Looked m s (reviseOrder m s) := by
  unfold reviseOrder
  extract_lets s1
  have h1 : Looked m s s1 := .stop s _ (standingStop_dS s)
  split
  · split
    · exact (h1.trans (.stop s1 _ (by rfl))).trans (looked_driveOrder ..)
    · exact h1
  · exact h1

theorem looked_supersede (aim : Aim) (target : Int) (s : State) : Looked m s (supersede m aim target s) := by
  unfold supersede
  extract_lets s1
  have h1 : Looked m s s1 := .of_clears (clears_releaseAll s)
  refine h1.trans (Looked.trans ?_ (looked_sendStop ..))
  exact .stop s1 _ (by rfl)

theorem looked_requestedLook (s : State) : Looked m s (requestedLook m s) := by
  unfold requestedLook
  extract_lets s1 s2
  have h1 : Looked m s s1 := .of_clears (clears_dropServed s)
  have h2 : Looked m s s2 := h1.trans (looked_reviseOrder s1)
  split
  · exact (h1.trans (looked_cancelStop s1)).trans (looked_idleLook _)
  · split
    · exact h2.trans (looked_supersede ..)
    · split
      · exact h2.trans (looked_serveWindow s2)
      · exact h2

/-- What a look does once d_s has been formed (R121). -/
def lookFormed (m : MachineTable) (s : State) : State :=
  match s.ss.state with
  | .idle => idleLook m s
  | .requested => requestedLook m s
  | .correcting => if s.ss.kind = some .defect then serveWindow m (dropServed s) else dropServed s
  | .halted => s

/-- A look forms d_s, and goes on by the state (R121, R122). -/
theorem look_eq {s : State} (hm : s.machine = some m) : look s = lookFormed m (formDs m s) := by
  unfold look
  rw [hm]
  rfl

theorem looked_lookFormed (s : State) : Looked m s (lookFormed m s) := by
  unfold lookFormed
  split
  · exact looked_idleLook s
  · exact looked_requestedLook s
  · have h1 : Looked m s (dropServed s) := .of_clears (clears_dropServed s)
    split
    · exact h1.trans (looked_serveWindow _)
    · exact h1
  · exact Looked.refl s

theorem looked_look {s : State} (hm : s.machine = some m) : Looked m s (look s) := by
  rw [look_eq hm]
  exact (looked_formDs s).trans (looked_lookFormed _)

/-- d_s is the stop distance of the moment after every look (R122). -/
theorem look_forms {s : State} (hm : s.machine = some m) : (look s).ss.dS = some (s.stopDistance m) := by
  rw [look_eq hm]
  rcases (looked_lookFormed (m := m) (formDs m s)).formed with h | h
  · exact h
  · exact h

end Look

end Sys2Proof.Looks
end

section
/-! PROOFS. The stop order sent (R123), an IDLE look, the looks at rest, and the check of a standstill (R130 to R133). -/

namespace Sys2Proof.StopOrders

open Sys2Proof Sys2Proof.Machine Sys2Proof.Claims Sys2Proof.Standing Sys2Proof.DueStations Sys2Proof.Targets Sys2Proof.Looks
  Sys2Proof.Waiting

/-! ### What differs in the scheduler, the orders and the notices alone -/

/-- `t` is `s` but for the Stop Scheduler, the notices and the own frames. -/
def Aside (s t : State) : Prop := t = { s with ss := t.ss, nq := t.nq, ll := t.ll }

theorem Aside.trans {s t u : State} (h : Aside s t) (k : Aside t u) : Aside s u := by
  unfold Aside at *
  rw [k, h]

theorem aside_stop (s : State) (x : StopScheduler) : Aside s { s with ss := x } := rfl

theorem aside_driveOrder (body : OwnBody) (s : State) : Aside s (driveOrder body s) := by
  unfold Aside
  rw [driveOrder_rest]

theorem Aside.windowServed {s t x : State} {m : MachineTable} {w : Int} (h : Aside s t) (hw : WindowServed m w t x) :
    WindowServed m w s x := windowServed_congr h hw

theorem Aside.candidates {s t : State} (h : Aside s t) : t.candidates = s.candidates := by rw [h]; rfl

theorem Aside.targets {s t : State} (h : Aside s t) (hheld : t.ss.cutHeld = s.ss.cutHeld) (m : MachineTable) :
    t.targets m = s.targets m := by
  have hcut : t.cutTarget m = s.cutTarget m := by
    unfold State.cutTarget
    rw [hheld, show t.pCut = s.pCut by rw [h]; rfl]
  rw [targets_eq, targets_eq, h.candidates, cutTargets, cutTargets, hcut]

theorem driveOrder_stop (body : OwnBody) (s : State) (x : StopScheduler) :
    driveOrder body { s with ss := x } = { driveOrder body s with ss := x } := by
  unfold driveOrder queueOwn
  dsimp only [State.canQueue, State.station, State.role]
  split_ifs <;> rfl

/-! ### The order sent (R123) -/

/-- The kind of a stop for an aim. -/
def kindOf (a : Aim) : StopKind := if a = .cut then .cut else .defect

/-- The overshoot of an order. -/
def extraOf (m : MachineTable) (t : Int) (late : Bool) (s : State) : Int := if late then s.stopDistance m - (t - s.pu.u) else 0

/-- The scheduler as an order is sent. -/
def requestedFor (m : MachineTable) (a : Aim) (t : Int) (late : Bool) (s : State) : StopScheduler :=
  { s.ss with state := .requested, kind := some (kindOf a), aim := some a, aimGone := false, uT := some t
              pW := if kindOf a = .defect then some (t - m.dSt) else none
              late := late, overshoot := extraOf m t late s, jogs := 0, haltError := none }

/-- The order queued. -/
def orderQueued (m : MachineTable) (a : Aim) (t : Int) (late : Bool) (s : State) : State :=
  driveOrder (.stop (kindOf a) t late (extraOf m t late s)) { s with ss := requestedFor m a t late s }

/-- The order queued and the served set formed. -/
def orderServed (m : MachineTable) (a : Aim) (t : Int) (late : Bool) (s : State) : State :=
  if kindOf a = .defect then serveWindow m (orderQueued m a t late s) else orderQueued m a t late s

/-- The aim of a stop as STOP_LATE shows it. -/
def aimWord : Aim → Word
  | .entry n => wNat n
  | .cut => wAbsent

/-- The order sent, with the notice of a LATE one, before the standstill is asked. -/
def orderSent (m : MachineTable) (a : Aim) (t : Int) (late : Bool) (s : State) : State :=
  if late then
    queueNotice .stopLate (aimWord a) (wInt t) (wInt (extraOf m t late s)) (orderServed m a t late s)
  else orderServed m a t late s

section Sending

variable {m : MachineTable} {a : Aim} {t : Int} {late : Bool} {s s' : State}

theorem orderQueued_rest : orderQueued m a t late s =
    { s with ss := requestedFor m a t late s, ll := (orderQueued m a t late s).ll } := driveOrder_rest ..

theorem orderServed_rest : orderServed m a t late s = { s with
    ss := requestedFor m a t late s, ll := (orderQueued m a t late s).ll, fq := (orderServed m a t late s).fq } := by
  unfold orderServed
  split
  · rw [serveWindow_eq, orderQueued_rest]
  · rw [orderQueued_rest]

theorem orderSent_rest : orderSent m a t late s = { s with
    ss := requestedFor m a t late s, ll := (orderQueued m a t late s).ll, fq := (orderServed m a t late s).fq
    nq := (orderSent m a t late s).nq } := by
  unfold orderSent
  split
  · rw [queueNotice_rest, orderServed_rest]
  · rw [orderServed_rest]

theorem orderSent_fq : (orderSent m a t late s).fq = (orderServed m a t late s).fq := by rw [orderSent_rest]

theorem orderSent_pu : (orderSent m a t late s).pu = s.pu := by rw [orderSent_rest]

/-- A stop order goes out, and with the web standing the standstill is checked at once (R123, R130). -/
theorem sendStop_eq : sendStop m a t late s =
    if s.pu.dir = .standstill then standstillCheck m (orderSent m a t late s) else orderSent m a t late s := by
  have hsent : sendStop m a t late s = if (orderSent m a t late s).pu.dir = .standstill then
      standstillCheck m (orderSent m a t late s) else orderSent m a t late s := rfl
  rw [hsent, orderSent_pu]

/-- A cut order serves no entry. -/
theorem orderSent_cut : (orderSent m .cut t late s).fq = s.fq := by
  have hqueued : orderServed m .cut t late s = orderQueued m .cut t late s := if_neg (by decide)
  rw [orderSent_fq, hqueued, orderQueued_rest]

theorem kindOf_defect (ha : a ≠ .cut) : kindOf a = .defect := if_neg ha

/-- An order for a defect serves the window before its target (R123, R124). -/
theorem windowServed_orderSent (hq : s.fq.lawful) (ha : a ≠ .cut) : WindowServed m (t - m.dSt) s (orderSent m a t late s) := by
  have hkind := kindOf_defect ha
  have hserved : orderServed m a t late s = serveWindow m (orderQueued m a t late s) := if_pos hkind
  have haside : Aside s (orderQueued m a t late s) := (aside_stop s _).trans (aside_driveOrder ..)
  have hqueued : (orderQueued m a t late s).fq = s.fq := by rw [orderQueued_rest]
  have hw : (orderQueued m a t late s).ss.pW = some (t - m.dSt) := by
    rw [orderQueued_rest]
    exact if_pos hkind
  have hwindow := haside.windowServed (windowServed_serveWindow (m := m) (hqueued ▸ hq) hw)
  rw [← hserved] at hwindow
  obtain ⟨g, h, hg, hh, hfq⟩ := hwindow
  exact ⟨g, h, hg, hh, orderSent_fq.trans hfq⟩

/-- `s'` is the state in which an order is sent in a look made on `s`. -/
structure AboutToSend (m : MachineTable) (seen : Bool) (s s' : State) : Prop where
  position : s'.pu = s.pu
  set : s'.sc = s.sc
  link : s'.ll = s.ll
  peers : s'.peers = s.peers
  formed : s'.ss.dS = some (s.stopDistance m)
  seen : s'.ss.seenOutside = seen
  held : s'.ss.cutHeld = s.ss.cutHeld
  notices : (∀ e ∈ s.fq.settled, e.feat.served = false) → s'.nq = s.nq

theorem AboutToSend.stopDistance {seen : Bool} (h : AboutToSend m seen s s') : s'.stopDistance m = s.stopDistance m := by
  unfold State.stopDistance
  rw [h.position]

theorem AboutToSend.extraOf {seen : Bool} (h : AboutToSend m seen s s') :
    extraOf m t late s' = if late then s.stopDistance m - (t - s.pu.u) else 0 := by
  unfold StopOrders.extraOf
  rw [h.stopDistance, h.position]

theorem AboutToSend.requestedFor {seen : Bool} (h : AboutToSend m seen s s') : requestedFor m a t late s' = { s.ss with
    state := .requested, kind := some (if a = .cut then .cut else .defect), aim := some a, aimGone := false, seenOutside := seen
    uT := some t, pW := if a = .cut then none else some (t - m.dSt), late := late
    overshoot := if late then s.stopDistance m - (t - s.pu.u) else 0, jogs := 0, haltError := none
    dS := some (s.stopDistance m) } := by
  have hpW : (if kindOf a = .defect then some (t - (m.dSt : Int)) else none) = if a = .cut then none else some (t - m.dSt) := by
    cases a <;> rfl
  unfold StopOrders.requestedFor
  rw [h.extraOf, hpW]
  dsimp only
  rw [h.formed, h.seen, h.held]
  rfl

/-- An order sent in a look is sent as the statements say (R123). -/
theorem sent_orderSent {seen : Bool} (h : AboutToSend m seen s s') (a : Aim) (t : Int) (late : Bool) :
    Sent m a t late seen s (orderSent m a t late s') := by
  have hrest := orderSent_rest (m := m) (a := a) (t := t) (late := late) (s := s')
  refine ⟨?_, by rw [hrest]; exact h.position, by rw [hrest]; exact h.set, fun hgo => ?_, fun hlate hwait hserved => ?_⟩
  · rw [hrest]
    exact h.requestedFor
  · have hrole : State.role { s' with ss := requestedFor m a t late s' } (·.drive) = driveOf s := by
      unfold State.role driveOf
      rw [h.peers]
      rfl
    have hqueued := ordered_queueOwn (s := { s' with ss := requestedFor m a t late s' }) (Knives.ordersGo_of_same h.link hgo) (driveOf s)
      none (.stop (kindOf a) t late (extraOf m t late s'))
    rw [← hrole] at hqueued ⊢
    have hown : (orderSent m a t late s').ll = (orderQueued m a t late s').ll := by rw [hrest]
    rw [h.extraOf] at hqueued
    obtain ⟨f, hf, hcls, hdst, hbody⟩ := hqueued
    refine ⟨f, ?_, hcls, hdst, hbody⟩
    rw [hown, orderQueued, driveOrder, h.extraOf]
    exact hf
  · obtain ⟨hcan, -, hlen⟩ := hwait
    have hnq : (orderServed m a t late s').nq = s.nq := by
      rw [orderServed_rest]
      exact h.notices hserved
    have hadds : Adds 0 s' (orderQueued m a t late s') := (adds_stop s' _).trans (adds_driveOrder ..)
    have hcan' : (orderServed m a t late s').canQueue = true := by
      rw [orderServed_rest]
      show (orderQueued m a t late s').canQueue = true
      rw [hadds.can, ← hcan]
      unfold State.canQueue State.station
      rw [h.link]
    have hnotice := mem_queueNotice .stopLate (aimWord a) (wInt t) (wInt (extraOf m t late s')) hcan'
      (by rw [hnq]; unfold Config.noticeMax; omega)
    have hsent : (orderSent m a t late s').nq =
        (queueNotice .stopLate (aimWord a) (wInt t) (wInt (extraOf m t late s')) (orderServed m a t late s')).nq :=
      congrArg State.nq (if_pos hlate)
    rw [← hsent] at hnotice
    refine ⟨_, hnotice, rfl, ?_, rfl, congrArg wInt h.extraOf⟩
    cases a <;> rfl

end Sending

/-! ### An IDLE look (R121, R123, R124) -/

theorem idleLooks : IdleLooks := by
  intro m s hm hidle hq d
  have hlook : look s = idleLook m (formDs m s) := by
    rw [look_eq hm, lookFormed, formDs_ss_state, hidle]
  rw [hlook]
  refine ⟨fun hnone => ?_, fun a t haims => ⟨fun hfar => ?_, fun hnear seen hseen => ?_⟩⟩
  · unfold idleLook
    rw [show (formDs m s).findAim m = none from findAim_none (s := formDs m s) hnone]
    rfl
  · unfold idleLook
    rw [show (formDs m s).findAim m = some (a, t) from findAim_of_aims (s := formDs m s) haims]
    dsimp only
    have hds : (formDs m s).stopDistance m < t - (formDs m s).pu.u := hfar
    rw [if_pos hds, decide_eq_true hds, Bool.or_true]
    rfl
  · let s' : State := { formDs m s with ss := { (formDs m s).ss with aim := some a, aimGone := false, seenOutside := seen } }
    have hready : AboutToSend m seen s s' := ⟨rfl, rfl, rfl, rfl, rfl, rfl, rfl, fun _ => rfl⟩
    have hseen' : (s.ss.seenOutside && decide (s.ss.aim = some a) && !s.ss.aimGone) = seen := by
      rw [Bool.eq_iff_iff, hseen, Bool.and_eq_true, Bool.and_eq_true, decide_eq_true_eq, Bool.not_eq_true', and_assoc]
    have hds : ¬ (formDs m s).stopDistance m < t - (formDs m s).pu.u := Int.not_lt.2 hnear
    refine ⟨orderSent m a t (!seen && decide (t - s.pu.u < d)) s', sent_orderSent hready .., ?_, fun ha => ?_, ?_⟩
    · rintro rfl
      exact orderSent_cut
    · exact (aside_stop s s'.ss).windowServed (windowServed_orderSent (s := s') hq ha)
    · unfold idleLook
      rw [show (formDs m s).findAim m = some (a, t) from findAim_of_aims (s := formDs m s) haims]
      dsimp only
      rw [if_neg hds, decide_eq_false hds, Bool.or_false, formDs_ss_aim]
      have hstate : (formDs m s).ss.seenOutside = s.ss.seenOutside ∧ (formDs m s).ss.aimGone = s.ss.aimGone := ⟨rfl, rfl⟩
      rw [hstate.1, hstate.2, hseen']
      exact sendStop_eq (s := s')

/-! ### Looks at rest (R122, R132, R133) -/

theorem dropServed_of_noneDropped {s : State} (h : NoneDropped s) : dropServed s = s := by
  unfold dropServed
  rw [List.filter_eq_nil_iff.2 (fun e he => ?_)]
  · rfl
  · simp only [Bool.and_eq_true, Bool.not_eq_true', not_and, Bool.not_eq_false]
    rintro ⟨hserved, hknife⟩
    exact (Passage.hasStop_iff e).2 (h e he hserved hknife)

theorem looksAtRest : LooksAtRest := by
  intro m s hm hq
  refine ⟨fun hstate hnone => ?_, fun hstate => ?_⟩
  · have hlook : look s = if s.ss.kind = some .defect then serveWindow m (formDs m s) else formDs m s := by
      rw [look_eq hm, lookFormed, formDs_ss_state, hstate, formDs_ss_kind,
        dropServed_of_noneDropped (s := formDs m s) hnone]
    rw [hlook]
    refine ⟨?_, fun hkind w hw => ?_, fun hkind => ?_⟩
    · split
      · exact ⟨_, serveWindow_eq m (formDs m s)⟩
      · exact ⟨s.fq, rfl⟩
    · rw [if_pos hkind]
      exact windowServed_congr (s := formDs m s) rfl (windowServed_serveWindow (s := formDs m s) hq hw)
    · rw [if_neg hkind]
      rfl
  · rw [look_eq hm, lookFormed, formDs_ss_state, hstate]
    rfl

/-! ### The check of a standstill (R130, R131) -/

theorem halt_defect {m : MachineTable} {e : Int} {s : State} (h : s.ss.kind ≠ some .cut) :
    halt m e s = { s with ss := { s.ss with state := .halted, haltError := some e } } := if_neg h

theorem standstills : Standstills := by
  intro m t s hu e jogs
  have hcheck : standstillCheck m s = if s.ss.state = .requested ∨ s.ss.state = .correcting then
      if e.natAbs ≤ m.tPos then halt m e s
      else if jogs < 4 then driveOrder (.jog (-e)) { s with ss := { s.ss with state := .correcting, jogs := jogs + 1 } }
      else halt m e s else s := by
    unfold standstillCheck
    rw [hu]
  rw [hcheck]
  refine ⟨fun hrest => if_neg ?_, fun hstate => ⟨fun hfar hjogs => ?_, fun hnear hkind => ?_⟩⟩
  · rcases hrest with h | h <;> simp [h]
  · rw [if_pos hstate, if_neg (Nat.not_le.2 hfar), if_pos hjogs]
    rfl
  · rw [if_pos hstate, ← halt_defect hkind]
    split_ifs with h1 h2
    · rfl
    · omega
    · rfl

end Sys2Proof.StopOrders
end

section
/-! PROOFS. A REQUESTED look (R124 to R128): the order as it stands, revised, superseded or cancelled, and the entries it drops. -/

namespace Sys2Proof.RequestedStops

open Sys2Proof Sys2Proof.Machine Sys2Proof.Claims Sys2Proof.Standing Sys2Proof.DueStations Sys2Proof.Targets Sys2Proof.Looks
  Sys2Proof.StopOrders Sys2Proof.Waiting

/-! ### The aim and its target (R120, R126) -/

theorem isServed_iff (s : State) (n : Nat) : s.isServed n = true ↔
    (∃ e ∈ s.fq.settled, e.feat.num = n ∧ e.feat.served = true) ∨ ∃ y ∈ s.fq.forecast, y.feat.num = n ∧ y.feat.served = true := by
  simp [State.isServed, List.any_eq_true]

theorem findSettled_none {q : FeatureQueue} {n : Nat} (h : ∀ e ∈ q.settled, e.feat.num ≠ n) : q.findSettled n = none :=
  List.find?_eq_none.2 (fun e he => by simpa using h e he)

theorem findForecast_of_mem {q : FeatureQueue} (hq : q.lawful) {y : Forecast} (hy : y ∈ q.forecast) :
    q.findForecast y.feat.num = some y := by
  unfold FeatureQueue.findForecast
  cases hfound : q.forecast.find? (fun x => x.feat.num == y.feat.num) with
  | none => exact absurd (List.find?_eq_none.1 hfound y hy) (by simp)
  | some x =>
    have hnum : x.feat.num = y.feat.num := by simpa using List.find?_some hfound
    rw [(one_entry hq).2 x (List.mem_of_find?_eq_some hfound) y hy hnum]

theorem positionOf_settled {s : State} {e : Settled} (hq : s.fq.lawful) (he : e ∈ s.fq.settled) :
    s.positionOf e.feat.num = some e.p := by
  unfold State.positionOf
  rw [findSettled_of_mem hq he]

theorem positionOf_forecast {s : State} {y : Forecast} (hq : s.fq.lawful) (hy : y ∈ s.fq.forecast) :
    s.positionOf y.feat.num = s.predicted y := by
  unfold State.positionOf
  rw [findSettled_none (fun e he => (one_entry hq).1 e he y hy)]
  dsimp only
  rw [findForecast_of_mem hq hy, Option.bind_some]

/-- An aim that stands keeps the stop, and its target is the current one (R120, R126). -/
theorem aim_stands {m : MachineTable} {s : State} {a : Aim} {t : Int} (hq : s.fq.lawful) (h : AimStands m s a t) :
    s.standingStop = s.ss ∧ s.currentTarget m a = some t := by
  have hentry : ∀ n, s.ss.aim = some (.entry n) → s.ss.aimGone = false → s.isServed n = true → s.standingStop = s.ss := by
    intro n haim hgone hserved
    unfold State.standingStop
    rw [haim]
    exact if_pos ⟨hserved, hgone⟩
  have htarget : ∀ n p, s.ss.aimGone = false → s.positionOf n = some p → s.currentTarget m (.entry n) = some (p + m.dSt) := by
    intro n p hgone hp
    show (if s.ss.aimGone then none else (s.positionOf n).map (fun p => p + (m.dSt : Int))) = _
    rw [hgone, hp]
    rfl
  obtain ⟨haim, ⟨rfl, hheld, hcut⟩ | ⟨hgone, e, he, rfl, hserved, rfl⟩ | ⟨hgone, y, hy, p, rfl, hserved, hp, rfl⟩⟩ := h
  · refine ⟨?_, (cutTarget_iff m s t).2 ⟨hheld, hcut⟩⟩
    unfold State.standingStop
    rw [haim]
  · exact ⟨hentry _ haim hgone ((isServed_iff ..).2 (.inl ⟨e, he, rfl, hserved⟩)), htarget _ _ hgone (positionOf_settled hq he)⟩
  · exact ⟨hentry _ haim hgone ((isServed_iff ..).2 (.inr ⟨y, hy, rfl, hserved⟩)),
      htarget _ _ hgone ((positionOf_forecast hq hy).trans ((predicted_iff s y p).2 hp))⟩

/-- The served entries' positions: of one list first, then of the other (R126). -/
theorem mem_servedForecast {s : State} {x : Aim × Int} (hx : x ∈ (s.fq.forecast.filter (fun e => e.feat.served)).filterMap (fun e =>
    (s.predicted e).map (fun p => (Aim.entry e.feat.num, p)))) : ∃ y ∈ s.fq.forecast, y.feat.served = true ∧ Predicted s y x.2 := by
  obtain ⟨y, hy, hsome⟩ := List.mem_filterMap.1 hx
  obtain ⟨p, hp, rfl⟩ := Option.map_eq_some_iff.1 hsome
  obtain ⟨hmem, hserved⟩ := List.mem_filter.1 hy
  exact ⟨y, hmem, hserved, (predicted_iff s y p).1 hp⟩

/-- An aim that has left the served set passes to the served entry of least position (R126). -/
theorem aim_passes {s : State} {n : Nat} {e : Settled} (haim : s.ss.aim = some (.entry n))
    (hleft : s.ss.aimGone = true ∨ (∀ x ∈ s.fq.settled, x.feat.num = n → x.feat.served = false) ∧
      ∀ y ∈ s.fq.forecast, y.feat.num = n → y.feat.served = false)
    (he : e ∈ s.fq.settled) (hq : s.fq.lawful) (hserved : e.feat.served = true)
    (hleast : ∀ x ∈ s.fq.settled, x.feat.served = true → x = e ∨ e.p < x.p)
    (hahead : ∀ y ∈ s.fq.forecast, ∀ p, y.feat.served = true → Predicted s y p → e.p ≤ p) :
    s.standingStop = { s.ss with aim := some (.entry e.feat.num), aimGone := false } := by
  have hnot : ¬ (s.isServed n = true ∧ s.ss.aimGone = false) := by
    rintro ⟨hs, hgone⟩
    rcases hleft with h | ⟨hsettled, hforecast⟩
    · rw [hgone] at h
      exact Bool.false_ne_true h
    · rcases (isServed_iff s n).1 hs with ⟨x, hx, hnum, hsx⟩ | ⟨y, hy, hnum, hsy⟩
      · rw [hsettled x hx hnum] at hsx
        exact Bool.false_ne_true hsx
      · rw [hforecast y hy hnum] at hsy
        exact Bool.false_ne_true hsy
  have hfirst : leastTarget s.servedTargets = some (.entry e.feat.num, e.p) := by
    obtain ⟨pre, post, hl⟩ := List.append_of_mem he
    have hother : ∀ x ∈ pre ++ post, x.feat.served = true → e.p < x.p :=
      others_of_append hq hl (fun x hx => (em (x = e)).imp_right (fun hne hs => (hleast x hx hs).resolve_left hne))
    unfold State.servedTargets
    rw [hl, List.filter_append, List.filter_cons_of_pos (p := fun e : Settled => e.feat.served) hserved,
      List.map_append, List.map_cons, List.append_assoc, List.cons_append]
    refine leastTarget_first (fun x hx => ?_) (fun x hx => ?_)
    · obtain ⟨y, hy, rfl⟩ := List.mem_map.1 hx
      obtain ⟨hmem, hsy⟩ := List.mem_filter.1 hy
      exact hother y (List.mem_append_left _ hmem) hsy
    · rcases List.mem_append.1 hx with hx | hx
      · obtain ⟨y, hy, rfl⟩ := List.mem_map.1 hx
        obtain ⟨hmem, hsy⟩ := List.mem_filter.1 hy
        exact Int.le_of_lt (hother y (List.mem_append_right _ hmem) hsy)
      · obtain ⟨y, hy, hsy, hp⟩ := mem_servedForecast hx
        exact hahead y hy _ hsy hp
  unfold State.standingStop
  rw [haim]
  dsimp only
  rw [if_neg hnot, hfirst]

/-! ### The order revised (R126) -/

section Requested

variable {m : MachineTable} {k : StopKind} {u t : Int} {a : Aim} {s : State}

/-- The order sent anew for a target that has moved. -/
def orderMoved (m : MachineTable) (k : StopKind) (t : Int) (y : StopScheduler) (s : State) : State :=
  driveOrder (.stop k t s.ss.late s.ss.overshoot) { s with
    ss := { y with uT := some t, pW := if k = .defect then some (t - m.dSt) else y.pW } }

theorem reviseOrder_eq (haim : s.standingStop.aim = some a)
    (htarget : State.currentTarget { s with ss := s.standingStop } m a = some t) (hu : s.ss.uT = some u) (hk : s.ss.kind = some k) :
    reviseOrder m s = if m.tPos < (t - u).natAbs then orderMoved m k t s.standingStop s else { s with ss := s.standingStop } := by
  unfold reviseOrder
  extract_lets s1
  have hbind : s1.ss.aim.bind (s1.currentTarget m) = some t := by
    rw [show s1.ss.aim = some a from haim]
    exact htarget
  rw [hbind, hu, hk]
  rfl

/-- An aim that stands has its order sent anew, where its target has moved beyond T_pos, or left as it is (R126). -/
theorem reviseOrder_stands (hq : s.fq.lawful) (h : AimStands m s a t) (hu : s.ss.uT = some u) (hk : s.ss.kind = some k) :
    reviseOrder m s = if m.tPos < (t - u).natAbs then orderMoved m k t s.ss s else s := by
  obtain ⟨hstop, htarget⟩ := aim_stands hq h
  rw [reviseOrder_eq (by rw [hstop]; exact h.1) (by rw [hstop]; exact htarget) hu hk, hstop]

theorem aside_orderMoved (m : MachineTable) (k : StopKind) (t : Int) (y : StopScheduler) (s : State) :
    Aside s (orderMoved m k t y s) := (aside_stop s _).trans (aside_driveOrder ..)

theorem orderMoved_rest (m : MachineTable) (k : StopKind) (t : Int) (y : StopScheduler) (s : State) : orderMoved m k t y s =
    { s with ss := { y with uT := some t, pW := if k = .defect then some (t - m.dSt) else y.pW }, ll := (orderMoved m k t y s).ll } :=
  driveOrder_rest ..

/-! ### Nearer candidates (R127) -/

theorem nearer_none (hk : s.ss.kind = some k) (h : NoneNearer m k s u) : s.nearer m (some u) = none := by
  obtain ⟨hsettled, hforecast, hcut⟩ := h
  have hdefect : ∀ x ∈ s.candidates.map (defectTarget m), u ≤ x.2 := by
    rintro ⟨b, v⟩ hx
    rcases (mem_defectTargets_iff ..).1 hx with ⟨e, he, hc, -, rfl⟩ | ⟨y, hy, p, hc, -, rfl⟩
    · exact hsettled e he hc
    · exact hforecast y hy p hc
  have hall : k = .defect → ∀ x ∈ s.targets m, u ≤ x.2 := by
    rintro hkind ⟨b, v⟩ hx
    rcases List.mem_append.1 (targets_eq m s ▸ hx) with hx | hx
    · exact hdefect _ hx
    · obtain ⟨-, hheld, c, hc, rfl⟩ := (mem_cutTargets_iff ..).1 hx
      exact hcut hkind hheld c hc
  unfold State.nearer
  refine Option.filter_eq_none_iff.2 (fun x hx => ?_)
  have hge : u ≤ x.2 := by
    cases k with
    | cut =>
      rw [hk, if_pos rfl] at hx
      exact hdefect x (mem_of_leastTarget hx)
    | defect =>
      rw [hk, if_neg (by decide)] at hx
      exact hall rfl x (mem_of_leastTarget hx)
  simpa using hge

/-- The candidate of least target supersedes a stop ordered for a farther one: to the cut's own stop a defect, to a defect stop the cut as
well (R127). -/
theorem nearer_some {b : Aim} {v : Int} {pre post : List (Aim × Int)} (hk : s.ss.kind = some k)
    (hl : s.targets m = pre ++ (b, v) :: post) (hb : b = .cut → k = .defect) (hpre : ∀ x ∈ pre, x.1 ≠ .cut ∨ k = .defect → v < x.2)
    (hpost : ∀ x ∈ post, x.1 ≠ .cut ∨ k = .defect → v ≤ x.2) (hlt : v < u) : s.nearer m (some u) = some (b, v) := by
  have hfound : (if s.ss.kind = some .cut then s.findDefect m else s.findAim m) = some (b, v) := by
    rw [hk]
    cases k with
    | cut =>
      rw [if_pos rfl]
      exact findDefect_of hl (fun h => by cases hb h) (fun x hx hne => hpre x hx (.inl hne)) (fun x hx hne => hpost x hx (.inl hne))
    | defect =>
      rw [if_neg (by decide)]
      exact findAim_of_aims ⟨pre, post, hl, fun x hx => hpre x hx (.inr rfl), fun x hx => hpost x hx (.inr rfl)⟩
  unfold State.nearer
  rw [hfound]
  simp [Option.filter, hlt]

theorem Aside.noneNearer {s t : State} (h : Aside s t) (hheld : t.ss.cutHeld = s.ss.cutHeld) (hn : NoneNearer m k s u) :
    NoneNearer m k t u := by
  obtain ⟨hsettled, hforecast, hcut⟩ := hn
  rw [← hheld] at hcut
  rw [h]
  exact ⟨hsettled, hforecast, hcut⟩

/-! ### The look (R124 to R128) -/

/-- A stop that stands, with no entry to be dropped, is revised first (R125, R126). -/
theorem look_of_stopStands (hm : s.machine = some m) (hstands : StopStands k u s) (hnone : NoneDropped s) :
    look s = match (reviseOrder m (formDs m s)).nearer m (reviseOrder m (formDs m s)).ss.uT with
      | some x => supersede m x.1 x.2 (reviseOrder m (formDs m s))
      | none => if (reviseOrder m (formDs m s)).ss.kind = some .defect then serveWindow m (reviseOrder m (formDs m s))
        else reviseOrder m (formDs m s) := by
  obtain ⟨hstate, hkind, -, hserved⟩ := hstands
  have hemptied : (formDs m s).emptied = false := by
    unfold State.emptied
    rw [formDs_ss_kind, hkind]
    cases k with
    | cut => rfl
    | defect =>
      have := hserved rfl
      simp only [formDs_fq, beq_self_eq_true, Bool.true_and, beq_eq_false_iff_ne]
      omega
  rw [look_eq hm, lookFormed, formDs_ss_state, hstate]
  dsimp only
  unfold requestedLook
  rw [dropServed_of_noneDropped (s := formDs m s) hnone]
  dsimp only
  rw [hemptied, if_neg Bool.false_ne_true]
  cases (reviseOrder m (formDs m s)).nearer m (reviseOrder m (formDs m s)).ss.uT <;> rfl

theorem look_not_superseded (hm : s.machine = some m) (hstands : StopStands k u s) (hnone : NoneDropped s)
    (hnear : (reviseOrder m (formDs m s)).nearer m (reviseOrder m (formDs m s)).ss.uT = none)
    (hkind : (reviseOrder m (formDs m s)).ss.kind = some k) :
    look s = if k = .defect then serveWindow m (reviseOrder m (formDs m s)) else reviseOrder m (formDs m s) := by
  rw [look_of_stopStands hm hstands hnone, hnear, hkind]
  cases k <;> rfl

theorem look_superseded {b : Aim} {v : Int} (hm : s.machine = some m) (hstands : StopStands k u s) (hnone : NoneDropped s)
    (hnear : (reviseOrder m (formDs m s)).nearer m (reviseOrder m (formDs m s)).ss.uT = some (b, v)) :
    look s = supersede m b v (reviseOrder m (formDs m s)) := by
  rw [look_of_stopStands hm hstands hnone, hnear]

end Requested

theorem serveWindow_ss (m : MachineTable) (s : State) : (serveWindow m s).ss = s.ss := by rw [serveWindow_eq]

theorem requestedLooks : RequestedLooks := by
  intro m k u s hm hq hstands hnone d
  obtain ⟨hstate, hkind, hu, -⟩ := id hstands
  refine ⟨fun a t _ haim => ?_, fun n e hdefect haim hleft he hserved hleast hahead hclose hnear => ?_⟩
  · intro far hnear
    have hrevised : reviseOrder m (formDs m s) = if far = true then orderMoved m k t (formDs m s).ss (formDs m s) else formDs m s := by
      rw [reviseOrder_stands (s := formDs m s) hq haim hu hkind]
      simp only [far, decide_eq_true_eq]
    generalize hx : reviseOrder m (formDs m s) = x at hrevised
    have haside : Aside s x := by
      rw [hrevised]
      split
      · exact (aside_stop s _).trans (aside_orderMoved ..)
      · exact aside_stop s _
    have hss : x.ss = { s.ss with
        uT := some (if far = true then t else u), pW := if far = true ∧ k = .defect then some (t - m.dSt) else s.ss.pW, dS := some d } := by
      rw [hrevised]
      cases far with
      | true =>
        rw [if_pos rfl, orderMoved_rest]
        simp only [true_and]
        rfl
      | false =>
        rw [if_neg Bool.false_ne_true]
        simp only [Bool.false_eq_true, false_and, if_false, ← hu]
        rfl
    have hkx : x.ss.kind = some k := by rw [hss]; exact hkind
    have hux : x.ss.uT = some (if far = true then t else u) := by rw [hss]
    have hnot : x.nearer m x.ss.uT = none := by
      rw [hux]
      exact nearer_none hkx (Aside.noneNearer haside (by rw [hss]) hnear)
    have hlook : look s = if k = .defect then serveWindow m x else x := by
      have := look_not_superseded hm hstands hnone (by rw [hx]; exact hnot) (by rw [hx]; exact hkx)
      rw [this, hx]
    have hsame : (look s).ss = x.ss ∧ (look s).nq = x.nq ∧ (look s).sc = x.sc ∧ (look s).ll = x.ll := by
      rw [hlook]
      split
      · rw [serveWindow_eq]
        exact ⟨rfl, rfl, rfl, rfl⟩
      · exact ⟨rfl, rfl, rfl, rfl⟩
    obtain ⟨hlss, hlnq, hlsc, hlll⟩ := hsame
    have hxnq : x.nq = s.nq := by
      rw [hrevised]
      split
      · rw [orderMoved_rest]; rfl
      · rfl
    refine ⟨hlss.trans hss, hlnq.trans hxnq, hlsc.trans (by rw [haside]), fun hfar => ?_, fun hfar hgo => ?_, fun hcut => ?_,
      fun hdefect w hw => ?_⟩
    · rw [hlll, hrevised, hfar, if_neg Bool.false_ne_true]
      rfl
    · have hordered := ordered_queueOwn (s := { formDs m s with ss := { (formDs m s).ss with
        uT := some t, pW := if k = .defect then some (t - m.dSt) else (formDs m s).ss.pW } }) hgo (driveOf s) none
        (.stop k t s.ss.late s.ss.overshoot)
      have hown : (look s).ll = (orderMoved m k t (formDs m s).ss (formDs m s)).ll := by rw [hlll, hrevised, if_pos hfar]
      unfold Ordered
      rw [hown]
      exact hordered
    · rw [hlook, if_neg (by rw [hcut]; decide), haside]
    · rw [hlss] at hw
      rw [hlook, if_pos hdefect]
      exact haside.windowServed (windowServed_serveWindow (by rw [haside]; exact hq) hw)
  · obtain rfl := hdefect
    have hstop := aim_passes (s := formDs m s) haim hleft he hq hserved hleast hahead
    have htarget : State.currentTarget { formDs m s with ss := (formDs m s).standingStop } m (.entry e.feat.num) = some (e.p + m.dSt) := by
      rw [hstop]
      exact congrArg (Option.map (fun p => p + (m.dSt : Int))) (positionOf_settled (s := { formDs m s with ss := _ }) hq he)
    have hrevised : reviseOrder m (formDs m s) = { formDs m s with ss := (formDs m s).standingStop } := by
      rw [reviseOrder_eq (by rw [hstop]) htarget hu hkind, if_neg (Nat.not_lt.2 hclose)]
    rw [hstop] at hrevised
    have hlook := look_not_superseded hm hstands hnone
      (by rw [hrevised]
          show State.nearer _ m s.ss.uT = none
          rw [hu]
          exact nearer_none (s := { formDs m s with ss := _ }) hkind hnear)
      (by rw [hrevised]; exact hkind)
    rw [hlook, if_pos rfl, serveWindow_ss, hrevised]
    rfl

/-! ### The order superseded, cancelled, or its entries dropped (R125, R127, R128) -/

section GivesWay

variable {m : MachineTable} {s : State}

theorem servedCount_eq_zero_iff (q : FeatureQueue) : q.servedCount = 0 ↔
    (∀ y ∈ q.forecast, y.feat.served = false) ∧ ∀ e ∈ q.settled, e.feat.served = false := by
  simp [FeatureQueue.servedCount, List.filter_eq_nil_iff]

/-- The state in which a stop that supersedes another is sent (R127). -/
theorem aboutToSend_released : AboutToSend m false s
    { releaseAll (formDs m s) with ss := { (releaseAll (formDs m s)).ss with seenOutside := false } } := by
  have hclears := clears_releaseAll (formDs m s)
  refine ⟨congrArg Fixed.pu hclears.fixed, hclears.set, hclears.link, congrArg Fixed.peers hclears.fixed, ?_, rfl, ?_, fun hnone => ?_⟩
  · show (releaseAll (formDs m s)).ss.dS = _
    rw [hclears.stop]
    rfl
  · show (releaseAll (formDs m s)).ss.cutHeld = _
    rw [hclears.stop]
    rfl
  · show (releaseAll (formDs m s)).nq = _
    rw [releaseAll_eq, List.filter_eq_nil_iff.2 (fun e he => by rw [hnone e he]; exact Bool.false_ne_true)]
    rfl

/-- A served entry of which no station is due is released with the rest of it standing (R112, R127). -/
theorem mem_releaseAll {e : Settled} (hm : s.machine = some m) (hq : s.fq.lawful) (he : e ∈ s.fq.settled) (hserved : e.feat.served = true)
    (htable : e.table = false) (hnone : NoneDue m s.pu.u e) : e.setServed false ∈ (releaseAll s).fq.settled := by
  rw [releaseAll_eq]
  exact mem_clearAll_self (s := forecastReleased s) hm ((clears_forecastReleased s).queue hq) he hnone
    (fun h => by rw [htable] at h; cases h) hserved

/-- An order sent leaves an entry that it does not serve (R124). -/
theorem mem_orderSent {a : Aim} {t : Int} {late : Bool} {e : Settled} (hq : s.fq.lawful) (he : e ∈ s.fq.settled)
    (hserved : e.feat.served = false) (hout : a = .cut ∨ ¬ (SettledCandidate s e ∧ t - m.dSt ≤ e.p ∧ e.p ≤ t - m.dSt + m.wTab)) :
    e ∈ (orderSent m a t late s).fq.settled := by
  by_cases ha : a = .cut
  · rw [ha, orderSent_cut]
    exact he
  · obtain ⟨g, h, hg, -, hfq⟩ := windowServed_orderSent (m := m) (t := t) (late := late) hq ha
    have hge : g e = false := by
      rw [Bool.eq_false_iff, Ne, hg e he, hserved]
      simpa using hout.resolve_left ha
    rw [hfq]
    refine List.mem_map.2 ⟨e, he, ?_⟩
    rw [hge, ← hserved]

/-- The scheduler once its stop has been cancelled; the overshoot stands (R128; notes/assumptions/30.md). -/
def cancelled (y : StopScheduler) : StopScheduler :=
  { y with state := .idle, kind := none, aim := none, aimGone := false, uT := none, pW := none, late := false }

theorem cancelStop_rest (s : State) : cancelStop s = { driveOrder .cancel s with ss := cancelled s.ss } := driveOrder_stop ..

theorem formDs_of {m : MachineTable} {s : State} {d : Int} (h : s.stopDistance m = d) :
    formDs m s = { s with ss := { s.ss with dS := some d } } := by
  rw [formDs, h]

theorem cancelStop_formDs (m : MachineTable) (s : State) : cancelStop (formDs m s) = formDs m (cancelStop s) := by
  have hformed : driveOrder .cancel (formDs m s) = { driveOrder .cancel s with ss := (formDs m s).ss } := driveOrder_stop ..
  have hdistance : State.stopDistance { driveOrder .cancel s with ss := cancelled s.ss } m = s.stopDistance m := by
    unfold State.stopDistance
    dsimp only
    rw [driveOrder_rest]
  rw [cancelStop_rest, cancelStop_rest, hformed, formDs_of hdistance]
  rfl

/-! ### An entry past its knife station without STOP (R125) -/

/-- An entry that is not served and, past its knife station without a STOP item, is no candidate. -/
def Spent (e : Settled) : Prop := e.feat.served = false ∧ e.knife = true ∧ ∀ i ∈ e.items, i.action ≠ .stop

theorem Spent.not_candidate {e : Settled} (h : Spent e) (s : State) : ¬ SettledCandidate s e := by
  obtain ⟨-, hknife, hstop⟩ := h
  rintro ⟨-, -, -, ⟨-, i, hi, haction⟩ | ⟨hnot, -⟩⟩
  · exact hstop i hi haction
  · rw [hknife] at hnot
    cases hnot

/-- From `s` to `t` an operation keeps the laws and leaves the entry `e` where no station of it is due. -/
structure Passes (m : MachineTable) (e : Settled) (s t : State) : Prop extends Kept s t where
  stays : s.machine = some m → s.fq.lawful → NoneDue m s.pu.u e → e ∈ s.fq.settled → e ∈ t.fq.settled

variable {e : Settled}

theorem Passes.refl (s : State) : Passes m e s s := ⟨Kept.refl s, fun _ _ _ => id⟩

theorem Passes.trans {s t u : State} (h : Passes m e s t) (k : Passes m e t u) : Passes m e s u :=
  ⟨h.toKept.trans k.toKept, fun hm hq hnone he => k.stays ((congrArg Fixed.machine h.fixed).trans hm) (h.queue hq)
    (by rw [show t.pu = s.pu from congrArg Fixed.pu h.fixed]; exact hnone) (h.stays hm hq hnone he)⟩

theorem Passes.of_fq {s t : State} (h : Kept s t) (hfq : t.fq = s.fq) : Passes m e s t := ⟨h, fun _ _ _ he => hfq ▸ he⟩

theorem passes_serveWindow (h : Spent e) (s : State) : Passes m e s (serveWindow m s) := by
  refine ⟨kept_serveWindow m s, fun _ hq _ he => ?_⟩
  have hout : e.feat.num ∉ (windowed m s).map (·.1) := by
    intro hmem
    obtain ⟨⟨n, p⟩, hx, rfl⟩ := List.mem_map.1 hmem
    rcases (mem_candidates_iff s _ p).1 (List.mem_filter.1 hx).1 with ⟨x, hx, hc, hnum, -⟩ | ⟨y, hy, -, hnum⟩
    · exact h.not_candidate s (eq_of_num_eq hq he hx hnum ▸ hc)
    · exact (one_entry hq).1 e he y hy hnum
  have hsame : servedIn ((windowed m s).map (·.1)) e = e := by
    unfold servedIn
    rw [List.contains_iff_mem.not.2 hout |> Bool.eq_false_iff.2, Bool.or_false]
  rw [serveWindow_eq]
  exact List.mem_map.2 ⟨e, he, hsame⟩

theorem passes_releaseAll (h : Spent e) (s : State) : Passes m e s (releaseAll s) := by
  refine ⟨kept_releaseAll s, fun hm hq hnone he => ?_⟩
  rw [releaseAll_eq]
  refine mem_clearAll_other (s := forecastReleased s) _ hm ((clears_forecastReleased s).queue hq) he hnone (fun x hx hnum => ?_)
  obtain ⟨hmem, hserved⟩ := List.mem_filter.1 hx
  rw [← eq_of_num_eq hq he hmem hnum, h.1] at hserved
  exact Bool.false_ne_true hserved

theorem passes_sendStop (h : Spent e) (a : Aim) (t : Int) (late : Bool) (s : State) : Passes m e s (sendStop m a t late s) := by
  refine ⟨kept_sendStop m a t late s, fun _ hq _ he => ?_⟩
  have hsent := mem_orderSent (m := m) (a := a) (t := t) (late := late) hq he h.1 (.inr fun hc => h.not_candidate s hc.1)
  rw [sendStop_eq]
  split
  · rw [standstillCheck_fq]
    exact hsent
  · exact hsent

theorem passes_stop (s : State) (x : StopScheduler) : Passes m e s { s with ss := x } := .of_fq (Kept.stop s x) rfl

theorem passes_idleLook (h : Spent e) (s : State) : Passes m e s (idleLook m s) := by
  unfold idleLook
  split
  · exact passes_stop s _
  · extract_lets seen ds _ s1
    have h1 : Passes m e s s1 := passes_stop s _
    split
    · exact h1
    · exact h1.trans (passes_sendStop h ..)

theorem passes_supersede (h : Spent e) (a : Aim) (t : Int) (s : State) : Passes m e s (supersede m a t s) := by
  unfold supersede
  extract_lets s1
  have h1 : Passes m e s s1 := passes_releaseAll h s
  refine h1.trans (Passes.trans ?_ (passes_sendStop h ..))
  exact passes_stop s1 _

/-- What a look does behind the dropping of served entries leaves an entry that is spent. -/
theorem passes_look (h : Spent e) (hstate : s.ss.state = .requested ∨ s.ss.state = .correcting) :
    Passes m e (dropServed s) (lookFormed m s) := by
  rcases hstate with hstate | hstate
  · have hlook : lookFormed m s = requestedLook m s := by rw [lookFormed, hstate]
    rw [hlook]
    unfold requestedLook
    extract_lets s1 s2
    have h2 : Passes m e s1 s2 := .of_fq (kept_reviseOrder m s1) (reviseOrder_fq m s1)
    split
    · exact Passes.trans (.of_fq (kept_cancelStop s1) (cancelStop_fq s1)) (passes_idleLook h _)
    · split
      · exact h2.trans (passes_supersede h ..)
      · split
        · exact h2.trans (passes_serveWindow h s2)
        · exact h2
  · have hlook : lookFormed m s = if s.ss.kind = some .defect then serveWindow m (dropServed s) else dropServed s := by
      rw [lookFormed, hstate]
    rw [hlook]
    split
    · exact passes_serveWindow h _
    · exact Passes.refl _

/-- A served entry past its knife station without STOP is dropped, with the rest of it standing (R125). -/
theorem dropped_stands (hm : s.machine = some m) (hq : s.fq.lawful) (hstate : s.ss.state = .requested ∨ s.ss.state = .correcting)
    (he : e ∈ s.fq.settled) (hserved : e.feat.served = true) (hknife : e.knife = true) (hstop : ∀ i ∈ e.items, i.action ≠ .stop)
    (hnone : NoneDue m s.pu.u e) : e.setServed false ∈ (look s).fq.settled := by
  have htest : (e.feat.served && e.knife && !e.hasStop) = true := by
    rw [hserved, hknife, Bool.eq_false_iff.2 ((Passage.hasStop_iff e).not.2 (fun ⟨i, hi, haction⟩ => hstop i hi haction))]
    rfl
  have hdropped : e.setServed false ∈ (dropServed (formDs m s)).fq.settled :=
    mem_clearAll_self (s := formDs m s) (test := fun e => e.feat.served && e.knife && !e.hasStop) hm hq he hnone (fun _ => hstop) htest
  have hclears := clears_dropServed (formDs m s)
  rw [look_eq hm]
  exact (passes_look (e := e.setServed false) (s := formDs m s) ⟨rfl, hknife, hstop⟩ hstate).stays
    ((congrArg Fixed.machine hclears.fixed).trans hm)
    (hclears.queue hq) (by rw [show State.pu _ = s.pu from congrArg Fixed.pu hclears.fixed]; exact hnone) hdropped

end GivesWay

theorem ordersGiveWay : OrdersGiveWay := by
  intro m k u s hm hq hkind
  refine ⟨fun hstands hnone a t b v pre post _ haim hclose hl hb hpre hpost hlt => ?_, fun hstate hdefect hempty => ?_,
    fun hstate e he hserved hknife hstop hnone => ⟨_, dropped_stands hm hq hstate he hserved hknife hstop hnone, rfl⟩⟩
  · have hu : s.ss.uT = some u := hstands.2.2.1
    have hrevised : reviseOrder m (formDs m s) = formDs m s := by
      rw [reviseOrder_stands (s := formDs m s) hq haim hu hkind, if_neg (Nat.not_lt.2 hclose)]
    have hnear : (formDs m s).nearer m (formDs m s).ss.uT = some (b, v) := by
      rw [formDs_ss_uT, hu]
      exact nearer_some (s := formDs m s) hkind hl hb hpre hpost hlt
    have hlook := look_superseded hm hstands hnone (by rw [hrevised]; exact hnear)
    rw [hrevised] at hlook
    have hready := aboutToSend_released (m := m) (s := s)
    have hclears := clears_releaseAll (formDs m s)
    have hpu : (releaseAll (formDs m s)).pu = s.pu := congrArg Fixed.pu hclears.fixed
    have hdistance : (releaseAll (formDs m s)).stopDistance m = s.stopDistance m := hready.stopDistance
    generalize hs' : ({ releaseAll (formDs m s) with ss := { (releaseAll (formDs m s)).ss with seenOutside := false } } : State) = s'
      at hready
    have hfq' : s'.fq = (releaseAll (formDs m s)).fq := by rw [← hs']
    refine ⟨_, sent_orderSent hready b v _, ?_, fun e he hserved htable hdue hout => ⟨_, mem_orderSent ?_ ?_ rfl ?_, rfl⟩⟩
    · rw [hlook]
      unfold supersede
      dsimp only
      rw [hs', hdistance, hpu, sendStop_eq, hready.position]
    · rw [hfq']
      exact hclears.queue hq
    · rw [hfq']
      exact mem_releaseAll (s := formDs m s) hm hq he hserved htable hdue
    · refine hout.imp_right (fun hout hin => ?_)
      obtain ⟨-, hlow, hhigh⟩ := hin
      have hlow' : v - m.dSt ≤ e.p := hlow
      have hhigh' : e.p ≤ v - m.dSt + m.wTab := hhigh
      omega
  · obtain ⟨hforecast, hsettled⟩ := (servedCount_eq_zero_iff _).1 hempty
    have hnone : NoneDropped s := fun e he hserved _ => by rw [hsettled e he] at hserved; cases hserved
    have hemptied : (formDs m s).emptied = true := by
      unfold State.emptied
      rw [formDs_ss_kind, hkind, hdefect, formDs_fq, hempty]
      rfl
    have hcancelled : look s = idleLook m (cancelStop (formDs m s)) := by
      rw [look_eq hm, lookFormed, formDs_ss_state, hstate]
      dsimp only
      unfold requestedLook
      rw [dropServed_of_noneDropped (s := formDs m s) hnone, if_pos hemptied]
    have hmachine : (cancelStop s).machine = some m := (congrArg Fixed.machine (kept_cancelStop s).fixed).trans hm
    have hidle : (cancelStop s).ss.state = .idle := by
      rw [cancelStop_rest]
      rfl
    show look s = look (cancelStop s)
    rw [hcancelled, cancelStop_formDs, look_eq hmachine, lookFormed, formDs_ss_state, hidle]

end Sys2Proof.RequestedStops
end

section
/-! PROOFS. The stop distance and its word in the status body (R122), the looks of a walk (R99, R121), and the look at a count frame
applied without an advance (R121, R130, R131). -/

namespace Sys2Proof.StopDistance

open Sys2Proof Sys2Proof.Machine Sys2Proof.Claims Sys2Proof.Standing Sys2Proof.DueStations Sys2Proof.Looks

/-! ### The stop distance (R122) -/

/-- A quotient rounded up is the least whole number whose multiple of the divisor reaches the dividend. -/
theorem ceilDiv_spec (x : Int) {y : Int} (hy : 0 < y) : x ≤ ceilDiv x y * y ∧ (ceilDiv x y - 1) * y < x := by
  have hle : -x / y * y ≤ -x := Int.ediv_mul_le (-x) (Int.ne_of_gt hy)
  have hlt : -x < (-x / y + 1) * y := Int.lt_ediv_add_one_mul_self (-x) hy
  unfold ceilDiv
  constructor
  · linarith
  · linarith

theorem stopDistance_spec (m : MachineTable) (s : State) (ha : 0 < m.aD) :
    (s.pu.v : Int) ^ 2 * 10 ≤ (s.stopDistance m - m.mSt) * (2 * m.aD) ∧
      (s.stopDistance m - m.mSt - 1) * (2 * m.aD) < (s.pu.v : Int) ^ 2 * 10 := by
  have hd : s.stopDistance m - m.mSt = ceilDiv ((s.pu.v : Int) ^ 2 * 10) (2 * m.aD) := by
    rw [State.stopDistance, pow_two, Int.add_sub_cancel]
  rw [hd]
  exact ceilDiv_spec _ (by omega)

theorem stopDistance_at_rest (m : MachineTable) {s : State} (hv : s.pu.v = 0) : s.stopDistance m = m.mSt := by
  simp [State.stopDistance, hv, ceilDiv]

theorem captureWords_length (c : Option Capture) : (captureWords c).length = 3 := by
  cases c <;> rfl

theorem bankStatus_length (b : Option Bank) : (bankStatus b).length = 3 := by
  cases b <;> rfl

/-- The items of the status body before those of the Stop Scheduler (R182). -/
def wordsBeforeStop (s : State) : List Word :=
  linkStatus s ++ tableStatus s ++ positionStatus s ++ trackerStatus s ++ mapStatus s ++ queueStatus s ++
    (bankStatus s.lpt.active ++ bankStatus s.lpt.pending) ++ knifeStatus s

theorem wordsBeforeStop_length (s : State) : (wordsBeforeStop s).length = 43 := by
  simp [wordsBeforeStop, linkStatus, tableStatus, positionStatus, trackerStatus, mapStatus, queueStatus, knifeStatus,
    captureWords_length, bankStatus_length]

/-- The last of the Stop Scheduler's items in the status body is d_s (R122, R182). -/
theorem statusWords_dS (s : State) : (statusWords s)[52]? = some (wOptInt s.ss.dS) := by
  have hsplit : statusWords s = wordsBeforeStop s ++ (stopStatus s ++ (setStatus s ++ (recordStatus s ++ (noticeStatus s ++
      (List.range Config.laneCount).flatMap (laneStatus s))))) := by
    unfold statusWords wordsBeforeStop
    simp only [List.append_assoc]
  rw [hsplit, List.getElem?_append_right (by rw [wordsBeforeStop_length]; decide), wordsBeforeStop_length]
  rfl

/-! ### The looks of a walk (R99, R121) -/

section Walk

variable {m : MachineTable} {s : State} {e : Settled}

theorem dueList_none (h : ∀ x ∈ s.fq.settled, NoneDue m s.pu.u x) : s.dueList m = [] :=
  congrArg sortDue (flatMap_zipIdx_nil (fun x hx i => dueStations_none (h x hx) i) 0)

theorem dueList_one {st : Station} {pre post : List Settled} (hl : s.fq.settled = pre ++ e :: post) (he : OnlyDue m s.pu.u st e)
    (hnone : ∀ x ∈ pre ++ post, NoneDue m s.pu.u x) : s.dueList m = [dueOf m st e pre.length] := by
  have hflat : s.fq.settled.zipIdx.flatMap (fun x => x.1.dueStations s.pu.u m x.2) = [dueOf m st e pre.length] := by
    rw [hl, flatMap_zipIdx_one (fun x hx i => dueStations_none (hnone x (List.mem_append_left _ hx)) i)
      (fun x hx i => dueStations_none (hnone x (List.mem_append_right _ hx)) i), Nat.zero_add, dueStations_one he]
  exact congrArg sortDue hflat

/-- Of two entries at one station the one before comes first: it lies no higher (R45, R99). -/
theorem dueList_two (hq : s.fq.lawful) {st : Station} {pre mid post : List Settled} {y : Settled}
    (hl : s.fq.settled = pre ++ e :: mid ++ y :: post) (he : OnlyDue m s.pu.u st e) (hy : OnlyDue m s.pu.u st y)
    (hnone : ∀ x ∈ pre ++ mid ++ post, NoneDue m s.pu.u x) :
    ∃ j, s.dueList m = [dueOf m st e pre.length, dueOf m st y j] := by
  obtain ⟨j, hj, hflat⟩ := flatMap_zipIdx_two (f := fun x => x.1.dueStations s.pu.u m x.2) (e := e) (y := y)
    (fun x hx i => dueStations_none (hnone x hx) i)
  have horder : e.p ≤ y.p := by
    obtain ⟨-, -, hsorted, -⟩ := hq
    rw [hl] at hsorted
    exact (List.pairwise_append.1 hsorted).2.2 e (by simp) y (by simp)
  refine ⟨j, ?_⟩
  unfold State.dueList
  rw [hl, hflat, dueStations_one he, dueStations_one hy]
  refine sortDue_of_before ?_
  show e.p + m.distance st < y.p + m.distance st ∨ e.p + m.distance st = y.p + m.distance st ∧ pre.length < j
  omega

/-- A knife station due in a walk is taken, and the Stop Scheduler looks (R99, R121). -/
theorem walkStation_knife (hm : s.machine = some m) (hq : s.fq.lawful) (he : e ∈ s.fq.settled) {d : DueStation} (hst : d.st = .knife)
    (hnum : d.num = e.feat.num) (hdue : e.due s.pu.u m .knife = true) : walkStation m s d = look (takeKnife e s) := by
  have hfind := findSettled_of_mem hq he
  unfold walkStation
  rw [hst, hnum, if_pos (by rw [hfind]; exact hdue)]
  dsimp only
  rw [if_pos rfl, takeStation_knife hm hfind]

/-- A knife station that has been taken since the walk began, or whose entry is gone, is passed over (R99, R112). -/
theorem walkStation_taken {d : DueStation} (hst : d.st = .knife)
    (h : ∀ x ∈ s.fq.settled, x.feat.num ≠ d.num ∨ x.knife = true) : walkStation m s d = s := by
  unfold walkStation
  refine if_neg (fun hdue => ?_)
  obtain ⟨x, hx, hxdue⟩ := (Option.any_eq_true _ _).1 hdue
  have hmem : x ∈ s.fq.settled := List.mem_of_find?_eq_some hx
  rw [hst, due_iff] at hxdue
  rcases h x hmem with hnum | hknife
  · exact hnum (num_of_findSettled hx)
  · exact Bool.false_ne_true (hxdue.2.symm.trans hknife)

end Walk

theorem knifeStationsLook : KnifeStationsLook := by
  intro m s hm hq
  refine ⟨fun hnone => walk_of_none_due m s hm (dueList_none hnone), fun e he hke hnone => ?_,
    fun pre e mid y post hl hke hky hnone => ?_⟩
  · obtain ⟨pre, post, hl⟩ := List.append_of_mem he
    rw [walk_eq m s hm, dueList_one hl (onlyDue_knife hke) (others_of_append hq hl hnone)]
    exact walkStation_knife hm hq he rfl rfl ((onlyDue_knife hke _).2 rfl)
  · intro s1
    have he : e ∈ s.fq.settled := by rw [hl]; simp
    have hy : y ∈ s.fq.settled := by rw [hl]; simp
    obtain ⟨j, hdue⟩ := dueList_two hq hl (onlyDue_knife hke) (onlyDue_knife hky) hnone
    have hwalk : walk s = walkStation m s1 (dueOf m .knife y j) := by
      rw [walk_eq m s hm, hdue]
      exact congrArg (fun t => walkStation m t (dueOf m .knife y j))
        (walkStation_knife hm hq he rfl rfl ((onlyDue_knife hke _).2 rfl))
    rw [hwalk]
    refine ⟨fun htaken => walkStation_taken rfl htaken, fun x hx hnum hknife => ?_⟩
    have hm1 : (takeKnife e s).machine = some m := (congrArg Fixed.machine (kept_takeKnife e s).fixed).trans hm
    have hlooked : Looked m s s1 := (Looked.of_clears (clears_takeKnife e s)).trans (looked_look hm1)
    have hu : s1.pu = s.pu := congrArg Fixed.pu hlooked.fixed
    obtain ⟨z, hz, hznum, hzp⟩ := hlooked.places x hx
    have hxp : x.p = y.p := by rw [← hzp, eq_of_num_eq hq hz hy (hznum.trans hnum)]
    refine walkStation_knife ((congrArg Fixed.machine hlooked.fixed).trans hm) (hlooked.queue hq) hx rfl hnum.symm ?_
    rw [due_iff, hu, hxp]
    exact ⟨((due_iff ..).1 ((onlyDue_knife hky _).2 rfl)).1, hknife⟩

/-! ### The look at a count frame (R121, R130, R131) -/

/-- The Position Unit after a frame of this many pulses that moves the web by no whole unit (R1, R3, R6). -/
def unmoved (m : MachineTable) (c t : Word) (p : PositionUnit) : PositionUnit :=
  (p.rebased c t m.sEnc).applied 0 (p.acc + pulses c p.cPrev * 10000) (max 0 (pulses t p.tPrev)).toNat

/-- A frame that applies without an advance moves the Position Unit's own registers, and what follows it is that of an advance of 0
(R1, R3). -/
theorem takeCount_unmoved {m : MachineTable} {c t : Word} {s : State} (hm : s.machine = some m) (h : Applies m c s)
    (hadv : (s.pu.acc + pulses c s.pu.cPrev * 10000) / (m.ppm : Int) = 0) :
    takeCount c t s = frameApplied m 0 s { s with pu := unmoved m c t s.pu } := by
  obtain ⟨henc, hjump, hlow, hhigh⟩ := h
  have hfloor : floorDiv (s.pu.acc + signedDiff c s.pu.cPrev * 10000) m.ppm = 0 := hadv
  unfold takeCount
  rw [hm]
  dsimp only
  rw [if_neg henc, hfloor, if_neg (show ¬ (if s.pu.enc = .silent then m.dMax * 64 else m.dMax) < (signedDiff c s.pu.cPrev).natAbs
    from Nat.not_lt.2 hjump)]
  rw [hadv] at hlow hhigh
  rw [if_neg (by unfold int32Min int32Max; omega), Int.zero_mul, Int.sub_zero]
  rfl

/-- The Set Controller makes no test at a frame but in RUNNING and APPROACH (R149). -/
theorem setAtFrame_of_no_test {m : MachineTable} {s : State} (hrun : s.sc.state ≠ .running) (happ : s.sc.state ≠ .approach) :
    setAtFrame m s = s := by
  unfold setAtFrame cutTest
  rw [if_neg hrun, if_neg (fun h => happ h.1)]

/-- After a look in a state in which no test is made, none is made either (R138, R149). -/
theorem setAtFrame_look {m : MachineTable} {s : State} (hm : s.machine = some m) (hrun : s.sc.state ≠ .running)
    (happ : s.sc.state ≠ .approach) : setAtFrame m (look s) = look s := by
  have hset := (looked_look hm).set
  refine setAtFrame_of_no_test (fun h => ?_) (fun h => ?_)
  · rw [h] at hset
    exact hset.elim (fun h => hrun h.symm) (fun h => by cases h)
  · rw [h] at hset
    exact hset.elim (fun h => happ h.symm) (fun h => by cases h)

theorem frameApplied_unmoved {m : MachineTable} {before s : State} (hm : s.machine = some m) (hrun : s.sc.state ≠ .running)
    (happ : s.sc.state ≠ .approach) : frameApplied m 0 before s = expand (standstillAt m before (look s)) := by
  unfold frameApplied
  dsimp only
  rw [if_pos rfl, setAtFrame_look hm hrun happ]

/-- The look and the standstill check at such a frame, from its state before it. -/
theorem takeCount_unmoved_look {m : MachineTable} {c t : Word} {s : State} (hm : s.machine = some m) (h : Applies m c s)
    (hadv : (s.pu.acc + pulses c s.pu.cPrev * 10000) / (m.ppm : Int) = 0) (hrun : s.sc.state ≠ .running)
    (happ : s.sc.state ≠ .approach) :
    takeCount c t s = expand (standstillAt m s (look { s with pu := unmoved m c t s.pu })) := by
  rw [takeCount_unmoved hm h hadv]
  exact frameApplied_unmoved hm hrun happ

/-- COUNT_FRAME from the drive's station is taken by the Position Unit (R177). -/
theorem exec_countFrame {rx : Rx} {c t : Word} {s : State} (hfrom : From (·.drive) s rx) :
    exec (.countFrame rx c t) s = .next (endEvent (takeCount c t (passedOn rx (.count c t) s))) :=
  congrArg (fun x => Host.Outcome.next (endEvent x)) (Laws.arrive_from hfrom rfl (fun _ => rfl))

theorem framesLook : FramesLook := by
  intro rx c t m s hfrom hm happlies hadv hrun happ
  rw [exec_countFrame hfrom]
  have hs1 := Sightings.passedOn_eq rx (.count c t) s
  generalize passedOn rx (.count c t) s = s1 at hs1
  obtain ⟨hm1, hpu1, hsc1, hss1⟩ : s1.machine = s.machine ∧ s1.pu = s.pu ∧ s1.sc = s.sc ∧ s1.ss = s.ss := by
    rw [hs1]
    exact ⟨rfl, rfl, rfl, rfl⟩
  unfold Applies at happlies
  rw [← hpu1] at happlies hadv ⊢
  rw [← hsc1] at hrun happ
  rw [← hss1, takeCount_unmoved_look (hm1.trans hm) happlies hadv hrun happ]
  have hlook := kept_look { s1 with pu := unmoved m c t s1.pu }
  have hrest : Upholds (look { s1 with pu := unmoved m c t s1.pu }) (endEvent (expand (standstillAt m s1
      (look { s1 with pu := unmoved m c t s1.pu })))) :=
    ((kept_standstillAt m s1 _).toUpholds.trans (upholds_expand _)).trans (kept_endEvent _).toUpholds
  refine ⟨_, rfl, ?_⟩
  rw [show State.pu (endEvent _) = unmoved m c t s1.pu from congrArg Fixed.pu (hrest.fixed.trans hlook.fixed)]
  unfold standstillAt
  rw [show State.pu (look _) = unmoved m c t s1.pu from congrArg Fixed.pu hlook.fixed]

/-- Settles O47: the stop distance formed at a look, its word in the status body, and then the looks, each settled above. -/
theorem lookFormsTheStopDistance : Obligations.LookFormsTheStopDistance := by
  refine ⟨fun m s hm ha => ⟨⟨s.stopDistance m, look_forms hm, stopDistance_spec m s ha⟩, fun hv => ?_, 52, statusWords_dS⟩,
    Targets.targetsAreTheCandidates, StopOrders.idleLooks, RequestedStops.requestedLooks, RequestedStops.ordersGiveWay,
    knifeStationsLook, StopOrders.looksAtRest, StopOrders.standstills, framesLook⟩
  rw [look_forms hm, stopDistance_at_rest m hv]

end Sys2Proof.StopDistance
end

section
/-! PROOFS. The cut (8.4, 8.5): P_cut, the approach and the hand-over of the cut to the Stop Scheduler, the cut stop that comes to rest, and
DOFF_NOW (R138, R146, R148 to R151). -/

namespace Sys2Proof.CutTarget

open Sys2Proof Sys2Proof.Machine Sys2Proof.Claims Sys2Proof.Laws Sys2Proof.Sightings Sys2Proof.LanePlan Sys2Proof.Looks
  Sys2Proof.StopOrders

/-! ### The set through a look (R121, R138, R151) -/

/-- From `s` to `t` the set has been cut at most: its state and P_cut as frozen may differ, and every other value of the Set Controller
stands. -/
def CutAtMost (s t : State) : Prop := t.sc = { s.sc with state := t.sc.state, frozenCut := t.sc.frozenCut }

section Cut

variable {s t u : State} {m : MachineTable}

theorem CutAtMost.of_same (h : t.sc = s.sc) : CutAtMost s t := by
  unfold CutAtMost
  rw [h]

theorem CutAtMost.trans (h : CutAtMost s t) (k : CutAtMost t u) : CutAtMost s u := by
  unfold CutAtMost at *
  rw [k, h]

theorem cutAtMost_driveOrder (body : OwnBody) (s : State) : CutAtMost s (driveOrder body s) := .of_same (by rw [driveOrder_rest])

theorem cutAtMost_serveWindow (s : State) : CutAtMost s (serveWindow m s) := .of_same (by rw [Targets.serveWindow_eq])

theorem cutAtMost_clears (h : Clears s t) : CutAtMost s t := .of_same h.set

theorem cutAtMost_halt (e : Int) (s : State) : CutAtMost s (halt m e s) := by
  unfold halt
  extract_lets _ s1
  split
  · show CutAtMost s1 (cutHalt m s1)
    unfold cutHalt formDs CutAtMost
    dsimp only
    rw [driveOrder_rest]
  · exact .of_same rfl

theorem cutAtMost_standstillCheck (s : State) : CutAtMost s (standstillCheck m s) := by
  unfold standstillCheck
  split
  · exact .of_same rfl
  · extract_lets e jogs
    split_ifs
    · exact cutAtMost_halt e s
    · exact CutAtMost.trans (t := { s with ss := _ }) (.of_same rfl) (cutAtMost_driveOrder _ _)
    · exact cutAtMost_halt e s
    · exact .of_same rfl

/-- An order sent leaves the set; a cut stop whose web stands at its target is cut at once (R123, R130). -/
theorem cutAtMost_sendStop (a : Aim) (v : Int) (late : Bool) (s : State) : CutAtMost s (sendStop m a v late s) := by
  have hsent : CutAtMost s (orderSent m a v late s) := .of_same (by rw [orderSent_rest])
  rw [sendStop_eq]
  split
  · exact hsent.trans (cutAtMost_standstillCheck _)
  · exact hsent

theorem cutAtMost_idleLook (s : State) : CutAtMost s (idleLook m s) := by
  unfold idleLook
  split
  · exact .of_same rfl
  · extract_lets seen ds _ s1
    have h1 : CutAtMost s s1 := .of_same rfl
    split
    · exact h1
    · exact h1.trans (cutAtMost_sendStop ..)

theorem cutAtMost_reviseOrder (s : State) : CutAtMost s (reviseOrder m s) := by
  unfold reviseOrder
  extract_lets s1
  have h1 : CutAtMost s s1 := .of_same rfl
  split
  · split
    · exact h1.trans (CutAtMost.trans (t := { s1 with ss := _ }) (.of_same rfl) (cutAtMost_driveOrder _ _))
    · exact h1
  · exact h1

theorem cutAtMost_supersede (a : Aim) (v : Int) (s : State) : CutAtMost s (supersede m a v s) := by
  unfold supersede
  extract_lets s1
  have h1 : CutAtMost s s1 := cutAtMost_clears (clears_releaseAll s)
  refine h1.trans (CutAtMost.trans ?_ (cutAtMost_sendStop ..))
  exact .of_same rfl

theorem cutAtMost_requestedLook (s : State) : CutAtMost s (requestedLook m s) := by
  unfold requestedLook
  extract_lets s1 s2
  have h1 : CutAtMost s s1 := cutAtMost_clears (clears_dropServed s)
  have h2 : CutAtMost s s2 := h1.trans (cutAtMost_reviseOrder s1)
  split
  · have hcancel : CutAtMost s1 (cancelStop s1) := .of_same (by rw [RequestedStops.cancelStop_rest, driveOrder_rest])
    exact (h1.trans hcancel).trans (cutAtMost_idleLook _)
  · split
    · exact h2.trans (cutAtMost_supersede ..)
    · split
      · exact h2.trans (cutAtMost_serveWindow s2)
      · exact h2

/-- No look does more to the set than to cut it (R138, R151). -/
theorem cutAtMost_look (hm : s.machine = some m) : CutAtMost s (look s) := by
  have h0 : CutAtMost s (formDs m s) := .of_same rfl
  refine (look_eq hm).symm ▸ h0.trans ?_
  unfold lookFormed
  split
  · exact cutAtMost_idleLook _
  · exact cutAtMost_requestedLook _
  · have h1 : CutAtMost (formDs m s) (dropServed (formDs m s)) := cutAtMost_clears (clears_dropServed _)
    split
    · exact h1.trans (cutAtMost_serveWindow _)
    · exact h1
  · exact .of_same rfl

/-! ### P_cut (R146) -/

theorem cutPosition : CutPosition := by
  intro b h s hb hc
  have hoffset : s.cutOffset = ((b.cOff % h.rNom : Nat) : Int) := by
    unfold State.cutOffset
    rw [hb, hc]
  refine ⟨fun c hfrozen => ?_, fun hfrozen => ⟨fun hnone => ?_, fun k l hk hl => ⟨fun u hu => ?_, fun hu => ?_⟩⟩⟩
  · unfold State.pCut
    rw [hfrozen]
  · unfold State.pCut
    rw [hfrozen]
    rcases hnone with h | h <;> rw [h]
    cases s.sc.kCut <;> rfl
  · unfold State.pCut
    rw [hfrozen, hk, hl, hu, hoffset]
  · unfold State.pCut
    rw [hfrozen, hk, hl, hu, hoffset]

/-! ### The approach and the hand-over (R148, R149) -/

theorem remaining_of {b : Bank} {r : Int} (hb : s.lpt.active = some b) (hr : RemainingIs b s r) : s.remaining = some r := by
  obtain ⟨base, hbase, rfl⟩ := hr
  unfold State.remaining
  rw [hbase, hb]
  cases s.mt.last <;> rfl

theorem cutNear_iff (m : MachineTable) (s : State) : s.cutNear m = true ↔ CutNear m s := by
  simp [State.cutNear, CutNear, Option.any_eq_true]

/-- The test of R149, in APPROACH. -/
theorem cutTest_approach {b : Bank} {r : Int} (hb : s.lpt.active = some b) (hr : RemainingIs b s r) (hs : s.sc.state = .approach) :
    (r ≤ 0 ∨ CutNear m s → cutTest m s = handOver s) ∧ (0 < r → ¬ CutNear m s → cutTest m s = s) := by
  have htest : s.sc.state = .approach ∧ (s.remaining.any (fun r => decide (r ≤ 0)) ∨ s.cutNear m) ↔ r ≤ 0 ∨ CutNear m s := by
    simp [hs, remaining_of hb hr, cutNear_iff]
  exact ⟨fun h => if_pos (htest.2 h), fun hpos hfar => if_neg (fun h => (htest.1 h).elim (by omega) hfar)⟩

theorem cutTest_of_not_approach (hs : s.sc.state ≠ .approach) : cutTest m s = s := if_neg (fun h => hs h.1)

theorem driveOrder_eq (body : OwnBody) (s : State) : driveOrder body s = queueOwn .order (driveOf s) none body s := by
  have hrole : s.role (·.drive) = driveOf s := by
    unfold State.role driveOf
    cases s.peers <;> rfl
  unfold driveOrder
  rw [hrole]

theorem approaching_rest (m : MachineTable) (s : State) : approaching m s =
    { s with sc := { s.sc with state := .approach, xFrozen := true }, ll := (approaching m s).ll } := by
  have hsent : approaching m s = driveOrder (.speed m.vApp) { s with sc := { s.sc with state := .approach, xFrozen := true } } :=
    (driveOrder_eq ..).symm
  rw [hsent]
  exact driveOrder_rest ..

/-- The entry into APPROACH asks neither the repeats that remain nor the cut anew: they are those of the state it is made in. -/
theorem approaching_asks {b : Bank} {r : Int} (hr : RemainingIs b s r) :
    RemainingIs b (approaching m s) r ∧ (CutNear m (approaching m s) ↔ CutNear m s) := by
  rw [approaching_rest]
  exact ⟨hr, Iff.rfl⟩

/-- A set handed over is in CUT_STOP, or cut already (R149, R151). -/
theorem handOver_state (hm : s.machine = some m) : (handOver s).sc.state = .cutStop ∨ (handOver s).sc.state = .changing :=
  (looked_look (m := m) (s := { s with sc := { s.sc with state := .cutStop }, ss := { s.ss with cutHeld := true } }) hm).set

/-- The entry into APPROACH, with the test of R149 at once; either way the set's changes make one look (R121, R148). -/
theorem enterApproach_eq {b : Bank} {r : Int} (hm : s.machine = some m) (hb : s.lpt.active = some b) (hr : RemainingIs b s r) :
    (r ≤ 0 ∨ CutNear m s → enterApproach m s = handOver (approaching m s)) ∧
      (0 < r → ¬ CutNear m s → enterApproach m s = look (approaching m s)) := by
  have henter : enterApproach m s = if (cutTest m (approaching m s)).sc.state = .approach then look (cutTest m (approaching m s))
      else cutTest m (approaching m s) := by
    unfold enterApproach
    rw [driveOrder_eq]
    rfl
  obtain ⟨hremaining, hnear⟩ := approaching_asks (m := m) hr
  have hstate : (approaching m s).sc.state = .approach := by rw [approaching_rest]
  have hbank : (approaching m s).lpt.active = some b := by rw [approaching_rest]; exact hb
  have hmachine : (approaching m s).machine = some m := by rw [approaching_rest]; exact hm
  obtain ⟨hcut, hgo⟩ := cutTest_approach (m := m) hbank hremaining hstate
  rw [hnear] at hcut hgo
  rw [henter]
  refine ⟨fun h => ?_, fun hpos hfar => ?_⟩
  · have hnot : (handOver (approaching m s)).sc.state ≠ .approach := by
      rcases handOver_state hmachine with h | h <;> rw [h] <;> exact SetState.noConfusion
    rw [hcut h, if_neg hnot]
  · rw [hgo hpos hfar, if_pos hstate]

/-- The test of R148, in RUNNING. -/
theorem approachTest_running {b : Bank} {r : Int} (hb : s.lpt.active = some b) (hr : RemainingIs b s r) (hs : s.sc.state = .running) :
    approachTest m s = if r ≤ b.nApp then enterApproach m s else s := by
  unfold approachTest
  rw [remaining_of hb hr, hb, hs]
  simp

theorem approachAndHandOver : ApproachAndHandOver := by
  intro m b k u r s hm hb s1 hr
  have hmark : setAtMark k u m s = if s.sc.state = .running then approachTest m s1 else cutTest m s1 := rfl
  have hr1 : RemainingIs b s1 r := hr
  refine ⟨fun hs => ?_, fun hs => ?_, fun hrun happ => ?_⟩
  · obtain ⟨hcut, hgo⟩ := enterApproach_eq (s := s1) hm hb hr1
    have hframe : setAtFrame m s = if s.cutNear m then enterApproach m s else s := if_pos hs
    rw [hmark, if_pos hs, approachTest_running (s := s1) hb hr1 hs, hframe]
    refine ⟨fun hlt => if_neg (by omega), fun hle => ?_, fun hnear => ?_, fun hfar => if_neg ((cutNear_iff m s).not.2 hfar)⟩
    · rw [if_pos hle]
      exact ⟨hcut, hgo⟩
    · rw [if_pos ((cutNear_iff m s).2 hnear)]
      exact (enterApproach_eq hm hb hr).1 (.inr hnear)
  · have hnot : s.sc.state ≠ .running := by rw [hs]; exact SetState.noConfusion
    have hframe : setAtFrame m s = cutTest m s := if_neg hnot
    rw [hmark, if_neg hnot, hframe]
    obtain ⟨hcut, hgo⟩ := cutTest_approach (m := m) (s := s1) hb hr1 hs
    obtain ⟨hcut', hgo'⟩ := cutTest_approach (m := m) hb hr hs
    exact ⟨hcut, hgo, hcut', hgo'⟩
  · rw [hmark, if_neg hrun]
    exact ⟨cutTest_of_not_approach (s := s1) happ, StopDistance.setAtFrame_of_no_test hrun happ⟩

/-! ### The cut stop at rest (R130, R131, R138, R151) -/

theorem driveOrder_set (body : OwnBody) (s : State) (x : SetController) (y : StopScheduler) :
    driveOrder body { s with sc := x, ss := y } = { driveOrder body s with sc := x, ss := y } := by
  unfold driveOrder queueOwn
  dsimp only [State.canQueue, State.station, State.role]
  split_ifs <;> rfl

/-- The web within T_pos of the target, or the jogs spent: the stop is HALTED (R130, R131). -/
theorem standstillCheck_halts {t : Int} (hu : s.ss.uT = some t) (h : s.ss.state = .requested ∧ (s.pu.u - t).natAbs ≤ m.tPos ∨
    s.ss.state = .correcting ∧ ((s.pu.u - t).natAbs ≤ m.tPos ∨ 4 ≤ s.ss.jogs)) : standstillCheck m s = halt m (s.pu.u - t) s := by
  unfold standstillCheck
  rw [hu]
  dsimp only
  rcases h with ⟨hs, hnear⟩ | ⟨hs, hnear | hjogs⟩
  · rw [if_pos (.inl hs), if_pos hnear]
  · rw [if_pos (.inr hs), if_pos hnear]
  · have hspent : ¬ (if s.ss.state = .requested then 0 else s.ss.jogs) < 4 := by
      rw [if_neg (by rw [hs]; exact StopState.noConfusion)]
      exact Nat.not_lt.2 hjogs
    rw [if_pos (.inr hs), if_neg hspent, ite_self]

/-- A cut stop HALTED on the web sends the cut order, and the set is in CHANGING (R138, R151). -/
theorem cutHalt_eq {b : Bank} {c e : Int} (hb : s.lpt.active = some b) (hcut : s.pCut = some c) (he : s.ss.haltError = some e) :
    cutHalt m s = driveOrder (.cut s.sc.num b.n c e) { s with
      sc := { s.sc with state := .changing, frozenCut := some c }
      ss := { s.ss with state := .idle, kind := none, aim := none, aimGone := false, uT := none, late := false, cutHeld := false
                        dS := some (s.stopDistance m) } } := by
  unfold cutHalt formDs State.stopDistance
  rw [driveOrder_set, hb, hcut, he]
  dsimp only [Option.map_some, Option.getD_some]
  rw [driveOrder_rest]

theorem cutIsMade : CutIsMade := by
  intro m b t c s hu hkind hb hcut hrest
  have hhalt : halt m (s.pu.u - t) s =
      cutHalt m { s with ss := { s.ss with state := .halted, haltError := some (s.pu.u - t) } } := if_pos hkind
  have hcutOrder := cutHalt_eq (m := m) (s := { s with ss := { s.ss with state := .halted, haltError := some (s.pu.u - t) } }) hb hcut rfl
  exact ((standstillCheck_halts hu hrest).trans hhalt).trans (hcutOrder.trans (driveOrder_eq ..))

end Cut

/-! ### DOFF_NOW (R150) -/

section Doff

variable {m : MachineTable} {b : Bank} {h : Header} {l : LastMark} {s : State}

/-- The mark chosen is the nearest above k_last whose cut lies a stop distance or more ahead (R150). -/
theorem doffMark_spec (hb : s.lpt.active = some b) (hc : s.ms.current = some h) (he : 0 < s.mt.rExp) :
    l.k < s.doffMark m l ∧ s.stopDistance m ≤ toCutAt m b h l (s.doffMark m l) s ∧
      ∀ j, l.k < j → j < s.doffMark m l → toCutAt m b h l j s < s.stopDistance m := by
  have hoffset : s.cutOffset = ((b.cOff % h.rNom : Nat) : Int) := by
    unfold State.cutOffset
    rw [hb, hc]
  generalize hneed : s.stopDistance m - (l.u + s.cutOffset + m.dNip - s.pu.u) = need
  have hto : ∀ j, toCutAt m b h l j s = s.stopDistance m - need + ((j : Int) - l.k) * s.mt.rExp := by
    intro j
    unfold toCutAt
    rw [← hneed, hoffset]
    ring
  obtain ⟨hreach, hleast⟩ := StopDistance.ceilDiv_spec need he
  have hmark : s.doffMark m l = l.k + max 1 (ceilDiv need s.mt.rExp).toNat := by
    unfold State.doffMark
    rw [hneed, max_eq_right he]
  generalize ceilDiv need s.mt.rExp = n at hreach hleast hmark
  rw [hmark]
  simp only [hto]
  refine ⟨by omega, ?_, fun j hlow hhigh => ?_⟩
  · have hn : n ≤ ((l.k + max 1 n.toNat : Nat) : Int) - l.k := by omega
    have := Int.mul_le_mul_of_nonneg_right hn he.le
    linarith
  · have hn : (j : Int) - l.k ≤ n - 1 := by omega
    have := Int.mul_le_mul_of_nonneg_right hn he.le
    linarith

/-- DOFF_NOW once a mark has been counted is executed whole and answered ACCEPTED (R150, R180). -/
theorem exec_doffNow {rx : Rx} (ha : Asked s rx) (hs : s.sc.state = .running ∨ s.sc.state = .approach) (hm : s.machine = some m)
    (hl : s.mt.last = some l) : exec (.doffNow rx []) s = .next (endEvent (answered rx 4 .accepted 0 .empty
      (doffAt (s.doffMark m l) (passedOn rx (.request true (some 4) []) s)))) := by
  have he : execute true (some codeDoffNow) [] (passedOn rx (.request true (some 4) []) s) =
      accept (doffAt (s.doffMark m l) (passedOn rx (.request true (some 4) []) s)) := by
    have hdoff : doffNow [] { s with ll := (passedOn rx (.request true (some 4) []) s).ll } =
        accept (doffAt (s.doffMark m l) { s with ll := (passedOn rx (.request true (some 4) []) s).ll }) := by
      unfold doffNow
      dsimp only
      rw [if_pos hs, hl, hm]
      rfl
    rw [← passedOn_eq] at hdoff
    exact hdoff
  have hready := (ready_of (p := .request true (some 4) []) ha).kept (keeps_doffAt (s.doffMark m l) _)
  exact congrArg (fun x => Host.Outcome.next (endEvent x)) (arrive_answered ha he hready)

/-- The set as DOFF_NOW hands its cut over (R150; notes/assumptions/34.md, notes/assumptions/39.md). -/
def doffed (k : Nat) (t : SetController) : SetController :=
  { t with xFrozen := true, kCut := some k, cutMark := (t.counted.find? (fun c => c.k == k)).map (·.u) }

theorem doffAt_eq (k : Nat) (s : State) : doffAt k s = expand (handOver { s with sc := doffed k s.sc }) := rfl

/-- A set handed over goes no further than its cut, to the end of the event (R149, R151). -/
theorem doffAt_sets (k : Nat) (hm : s.machine = some m) :
    (doffAt k s).sc = { doffed k s.sc with state := (doffAt k s).sc.state, frozenCut := (doffAt k s).sc.frozenCut } ∧
      ((doffAt k s).sc.state = .cutStop ∨ (doffAt k s).sc.state = .changing) := by
  have hexpand : (doffAt k s).sc = (handOver { s with sc := doffed k s.sc }).sc := by
    rw [doffAt_eq, (expandsOnly_expand _).rest]
  rw [hexpand]
  exact ⟨cutAtMost_look (m := m) hm, handOver_state hm⟩

theorem sameTables_trans {s t u : State} (h : SameTables s t) (k : SameTables t u) : SameTables s u := by
  obtain ⟨hpending, hmachine, hpeers, hlpt, hcurrent, hnext⟩ := h
  obtain ⟨kpending, kmachine, kpeers, klpt, kcurrent, knext⟩ := k
  exact ⟨kpending.trans hpending, kmachine.trans hmachine, kpeers.trans hpeers, klpt.trans hlpt, kcurrent.trans hcurrent,
    knext.trans hnext⟩

/-- What no operation of a request touches stands once the request has been answered, but for the one reply that joins (R180, R187). -/
theorem answered_stands {y : State} (h : Upholds s y) (rx : Rx) (code : Byte) (st : ReplyStatus) (i : Nat) (body : ReplyBody) :
    let x := endEvent (answered rx code st i body y)
    x.pu = s.pu ∧ x.mt = s.mt ∧ SameTables s x ∧ x.knives = s.knives ∧ SameLink s x ∧ RepliedOnce rx code st i body s x := by
  intro x
  have hfixed := h.fixed
  obtain ⟨hlinked, hreply⟩ := SetChange.reply_of_ports (congrArg Fixed.portA hfixed) (congrArg Fixed.portB hfixed) rx code st i body
  have hend := SetChange.ended_fixed rx code st i body y
  rw [hfixed, hlinked, hreply, show y.ll.replies = s.ll.replies from congrArg Fixed.replies hfixed] at hend
  exact ⟨congrArg Fixed.pu hend, congrArg Fixed.mt hend,
    ⟨congrArg Fixed.pending hend, congrArg Fixed.machine hend, congrArg Fixed.peers hend, congrArg Fixed.lpt hend,
      congrArg Fixed.current hend, congrArg Fixed.next hend⟩, congrArg Fixed.knives hend,
    ⟨congrArg Fixed.straps hend, congrArg Fixed.portA hend, congrArg Fixed.portB hend, congrArg Fixed.capture hend,
      congrArg Fixed.refusals hend, congrArg Fixed.resetting hend, congrArg Fixed.voidRecord hend, congrArg Fixed.voidNotice hend⟩,
    congrArg Fixed.replies hend⟩

theorem upholds_doffAt (k : Nat) (s : State) : Upholds s (doffAt k s) :=
  ((Kept.set s (SetController.aimCut k { s.sc with xFrozen := true }) (fun h => h)).trans
    (kept_enterCutStop _)).toUpholds.trans (upholds_expand _)

end Doff

/-- Settles O51: the mark that DOFF_NOW chooses, the set handed over at it, and then P_cut, the approach and the cut, each settled above. -/
theorem doffNowCutsAtTheNearestMark : Obligations.DoffNowCutsAtTheNearestMark := by
  refine ⟨fun rx m b h l s ha hs hm hb hc hl he => ?_, cutPosition, approachAndHandOver, cutIsMade⟩
  intro s'
  have hrest : s' = { s with ll := s'.ll } := passedOn_eq ..
  have hsame : s'.sc = s.sc ∧ s'.machine = s.machine ∧ s'.pu = s.pu ∧ s'.mt = s.mt ∧ s'.knives = s.knives ∧ SameTables s s' := by
    rw [hrest]
    exact ⟨rfl, rfl, rfl, rfl, rfl, rfl, rfl, rfl, rfl, rfl, rfl⟩
  obtain ⟨hsc, hmachine, hpu, hmt, hknives, htables⟩ := hsame
  have hexec := exec_doffNow ha hs hm hl
  obtain ⟨hgreater, hreach, hleast⟩ := doffMark_spec (m := m) (l := l) hb hc he
  generalize s.doffMark m l = k at hexec hgreater hreach hleast
  obtain ⟨hset, hstate⟩ := doffAt_sets (s := s') k (hmachine.trans hm)
  obtain ⟨hxpu, hxmt, hxtables, hxknives, hxlink, hreply⟩ := answered_stands (upholds_doffAt k s') rx 4 .accepted 0 .empty
  obtain ⟨nq, own, seq, hend⟩ := ended_rest rx 4 .accepted 0 .empty (doffAt k s')
  have hxsc : (endEvent (answered rx 4 .accepted 0 .empty (doffAt k s'))).sc = (doffAt k s').sc := by rw [hend]
  rw [hsc] at hset
  refine ⟨_, k, hexec, ?_⟩
  rw [hxsc, hset]
  refine ⟨rfl, hgreater, hreach, hleast, rfl, hstate, rfl, rfl, hxpu.trans hpu, hxmt.trans hmt, sameTables_trans htables hxtables,
    hxknives.trans hknives, hxlink, hreply, ?_⟩
  rw [← hsc]
  rfl

end Sys2Proof.CutTarget
end

section
/-! PROOFS. The end of a defect stop (7.7), refuted where two Settled entries share a slot: what `NothingLeft` promises is asked of every
state, also of one whose queue R43 rules out, and there a knife station taken of one entry writes its lanes into the other (R64,
R101, R112, R136). -/

namespace Sys2Proof.SharedSlot

open Sys2Proof Sys2Proof.Machine Sys2Proof.Claims

/-! ### The state -/

def table : MachineTable :=
  { ppm := 10000, dMax := 1, sEnc := 1, dCam := 1000, dKn := 4000, dSt := 32000, dFl := 36000, dNip := 38000, wMk := 0, aD := 1, mSt := 0
    tPos := 0, wTab := 0, vApp := 0, mMd := 0, mCd := 0, g := 0, fMin := 0, h := 1, p := 1, pLo := 0, pHi := 0, tKnife := 0, rc := 0
    kTol := 0, flagStation := 9 }

/-- One lane, in which a splice is stopped for. -/
def bank : Bank :=
  { job := 0, n := 1, nSet := 400, nApp := 0, cOff := 0, makeUp := false, xMax := 0, knives := [0, 5000]
    lanes := [{ actions := [], splice := .stop, quota := 0 }] }

/-- A splice across the lane, in slot 40. -/
def splice (served : Bool) : Feature :=
  { num := 40, origin := .inline, kind := .splice, len := 1, press := none, slit := some { x0 := 1000, x1 := 2000 }, rep := none
    suspect := false, served := served }

/-- The served entry: past every station, with its knife station still to be taken. -/
def behind : Settled := { feat := splice true, p := 1000, items := [], knife := false, table := true, flag := true, nip := true }

/-- The other entry of slot 40: between the knife line and the table, with final lanes that hold no STOP. -/
def between : Settled := { feat := splice false, p := 10000, items := [], knife := true, table := false, flag := false, nip := false }

/-- A DEFECT stop HALTED over the two entries of slot 40, of which nothing is left to stop for. -/
def halted : State :=
  { State.reset with
    machine := some table
    lpt := { active := some bank, pending := none }
    pu := { PositionUnit.init with u := 40000 }
    fq := { FeatureQueue.init with settled := [behind, between] }
    ss := { StopScheduler.init with state := .halted, kind := some .defect }
    sc := { SetController.init with state := .running, pStart := some 0 } }

/-- The RESUME's frame: from station 6 to the part, which has station number 1. -/
def frame : Rx := { port := .a, dst := 1, src := 6, tag := 0 }

theorem asked_frame : Asked halted frame :=
  ⟨⟨1, by decide, by decide, .inl (by decide), rfl⟩, fun _ h => (by cases h), by decide⟩

theorem nothingLeft_halted : NothingLeft halted := by
  refine ⟨fun e he => ?_, rfl, rfl⟩
  rcases List.mem_pair.1 he with rfl | rfl
  · exact .inl rfl
  · exact .inr ⟨rfl, .inr (fun i hi => absurd hi List.not_mem_nil)⟩

/-! ### The RESUME -/

/-- The aim that a command leaves. -/
def aimLeft : Host.Outcome State Fault Refusal → Option Aim
  | .next x => x.ss.aim
  | _ => none

/-- The served mark of the first entry clears, its knife station is taken, and the STOP lane it resolves to is written into both entries:
the look that follows aims at the second. -/
theorem resume_aims : aimLeft (exec (.resume frame []) halted) = some (.entry 40) := by decide

/-- Refutes O48: of `halted` nothing is left to stop for, and yet the RESUME leaves an aim. Its queue is not lawful: `StopHasEnded` asks for
a lawful queue in its clause on single entries, and not in the one on `NothingLeft`. -/
theorem not_removalReportEndsTheStop : ¬ Obligations.RemovalReportEndsTheStop := by
  intro h
  obtain ⟨-, hresume, -⟩ := h frame halted asked_frame
  obtain ⟨x, hx, -, -, ⟨-, hnothing, -⟩, -⟩ := hresume table rfl rfl rfl
  obtain ⟨-, hss⟩ := hnothing nothingLeft_halted
  have haim := resume_aims
  rw [hx, aimLeft, hss] at haim
  cases haim

end Sys2Proof.SharedSlot
end

section
/-! PROOFS. The set number and the removal sums (8.1, 8.4): every step keeps the number in its range and a sum for each lane. -/

namespace Sys2Proof.SetNumber

open Sys2Proof Sys2Proof.Machine Sys2Proof.Claims Sys2Proof.EveryBlock

/-- Settles O13: the Set Controller's law is one of those that every step keeps. The number goes from 65,535 to 1
(`nextSetNumber_within`), and a removal report adds to a lane's sum in its place (`kept_addRemoval`). -/
theorem stepsKeepSetNumber : Obligations.StepsKeepSetNumber := by
  intro s t hs h
  obtain ⟨rest, hkeeps⟩ := step_keepsLaws h
  exact hkeeps.sets hs

end Sys2Proof.SetNumber
end

section
/-! PROOFS. The Record Store's law (9.1, 9.3): every step keeps each record within its quota and the 96 headers in place. -/

namespace Sys2Proof.RecordQuotas

open Sys2Proof Sys2Proof.Machine Sys2Proof.Claims Sys2Proof.EveryBlock

/-- Settles O12: the Record Store's law is one of those that every step keeps. An event is stored below the quota alone
(`ReelRecord.take_within`), records open and close in headers that are there (`takeHeader_within`, `RecordStore.closeLane_lawful`), and a
sent report frees a header without removing it (`RecordStore.giveBack_lawful`). -/
theorem stepsKeepRecordQuotas : Obligations.StepsKeepRecordQuotas := by
  intro s t hs h
  obtain ⟨rest, hkeeps⟩ := step_keepsLaws h
  exact hkeeps.records hs

end Sys2Proof.RecordQuotas
end

section
/-! PROOFS. A Welzuna frame judged (10.1, 10.2): what its kind and the length of its body decide before its source is looked at, and
what becomes of a frame that the part may not take (R170, R174, R177, R178, R184). -/

namespace Sys2Proof.Judgement

open Sys2Proof Sys2Proof.Machine Sys2Proof.Claims Sys2Proof.Laws

/-! ### A body of a kind (10.4) -/

theorem countOf_of_length {l : List Byte} (h : l.length ≠ 8) : countOf l = .error .length := by
  unfold countOf
  split
  · exact absurd rfl h
  · rfl

theorem markOf_of_length {l : List Byte} (h : l.length ≠ 4) : markOf l = .error .length := by
  unfold markOf
  split
  · exact absurd rfl h
  · rfl

theorem sightingOf_of_length {l : List Byte} (h : l.length ≠ 12) : sightingOf l = .error .length := by
  unfold sightingOf
  split
  · exact absurd rfl h
  · rfl

theorem knifeOf_of_length {l : List Byte} (h : l.length ≠ 5) : knifeOf l = .error .length := by
  unfold knifeOf
  split
  · exact absurd rfl h
  · rfl

theorem flowOf_of_length {l : List Byte} (h : l.length ≠ 1) : flowOf l = .error .length := by
  unfold flowOf
  split
  · exact absurd rfl h
  · rfl

/-- A body of a kind of fixed length that has another length is refused for it (R177). -/
theorem bodyOf_of_length {kind : Byte} {n : Nat} {body : List Byte} (hn : fixedLength kind = some n) (h : body.length ≠ n) :
    bodyOf kind body = .error .length := by
  unfold fixedLength at hn
  split_ifs at hn with hcount hmark hsighting hknife hflow <;> cases hn
  · rw [hcount]
    exact countOf_of_length h
  · rw [hmark]
    exact markOf_of_length h
  · rw [hsighting]
    exact sightingOf_of_length h
  · rw [hknife]
    exact knifeOf_of_length h
  · rw [hflow]
    exact flowOf_of_length h

/-- The entries of a map block take 14 bytes each (10.4). -/
theorem mapItemsOf_length {l : List Byte} {items : List MapItem} (h : mapItemsOf l = some items) : l.length = 14 * items.length := by
  fun_induction mapItemsOf l generalizing items with
  | case1 =>
    cases h
    rfl
  | case2 _ _ _ _ _ _ _ _ _ _ _ _ _ _ rest ih =>
    obtain ⟨more, hmore, hitems⟩ := Option.map_eq_some_iff.1 h
    rw [← hitems]
    simp only [List.length_cons, ih hmore]
    omega
  | case3 => cases h

/-- A map block is refused for its length where it ends before its entry count or is not as long as that count says (R177). -/
theorem blockOf_of_length {l : List Byte} (h : l.length < 10 ∨ ∃ c, l[9]? = some c ∧ l.length ≠ 10 + 14 * c.toNat) :
    blockOf l = .error .length := by
  unfold blockOf
  split
  · rename_i flags count rest
    have hcount : rest.length ≠ 14 * count.toNat := by
      rcases h with h | ⟨c, hc, hlen⟩
      · simp only [List.length_cons] at h
        omega
      · cases hc
        simp only [List.length_cons] at hlen
        omega
    split
    · rename_i items hitems
      have hlen := mapItemsOf_length hitems
      exact if_neg (by omega)
    · rfl
  · rfl

/-- The content read from a body is of the body's kind. -/
theorem kindByte_of_bodyOf {kind : Byte} {body : List Byte} {c : Payload} (h : bodyOf kind body = .ok c) : c.kindByte = kind := by
  unfold bodyOf at h
  split_ifs at h with hcount hmark hsighting hknife hblock hrequest hcommand hflow
  · unfold countOf at h
    split at h <;> cases h
    exact hcount.symm
  · unfold markOf at h
    split at h <;> cases h
    exact hmark.symm
  · unfold sightingOf at h
    split at h <;> cases h
    exact hsighting.symm
  · unfold knifeOf at h
    split at h <;> cases h
    exact hknife.symm
  · unfold blockOf Payload.judged at h
    split at h
    · split at h
      · dsimp only at h
        split at h <;> cases h
        exact hblock.symm
      · cases h
    · cases h
  · cases h
    cases body <;> exact hrequest.symm
  · cases h
    cases body <;> exact hcommand.symm
  · unfold flowOf at h
    split at h <;> cases h
    exact hflow.symm

/-- Content of a kind other than 0x20 and 0x21 is no request (10.4). -/
theorem isRequest_of_kindByte {c : Payload} (hrequest : c.kindByte ≠ 0x20) (hcommand : c.kindByte ≠ 0x21) : c.isRequest = false := by
  cases c with
  | request line code body => cases line <;> contradiction
  | count | mark | sighting | knife | block | flow => rfl

/-! ### A frame's kind and length (R177) -/

theorem inboundKind_iff (kind : Byte) : inboundKind kind = true ↔ kind ∈ [0x10, 0x11, 0x12, 0x13, 0x14, 0x20, 0x21, 0x22] := by
  simp only [inboundKind, Bool.or_eq_true, Bool.and_eq_true, decide_eq_true_eq, BitVec.ofNat_eq_ofNat, List.mem_cons, BitVec.toNat_eq,
    BitVec.toNat_ofNat, Nat.reducePow, Nat.reduceMod, List.not_mem_nil, or_false]
  omega

theorem inboundKind_of_fixedLength {kind : Byte} {n : Nat} (h : fixedLength kind = some n) : inboundKind kind = true := by
  unfold fixedLength at h
  split_ifs at h with hcount hmark hsighting hknife hflow
  · rw [hcount]; rfl
  · rw [hmark]; rfl
  · rw [hsighting]; rfl
  · rw [hknife]; rfl
  · rw [hflow]; rfl

theorem judgeFrame_of_kind {f : LineFrame} (h : inboundKind f.kind = false) : judgeFrame f = .error .kind := by
  unfold judgeFrame
  rw [h]
  rfl

/-- A frame with all the bytes that its header states is judged by its body, without the padding. -/
theorem judgeFrame_of_body {f : LineFrame} (hk : inboundKind f.kind = true) (h : f.len.toNat ≤ f.rest.length) :
    judgeFrame f = bodyOf f.kind (f.rest.take f.len.toNat) := by
  unfold judgeFrame
  rw [if_pos hk, if_neg (by omega)]

/-- A frame of a known kind is refused for its length where it ends early, and where its whole body is. -/
theorem judgeFrame_of_length {f : LineFrame} (hk : inboundKind f.kind = true)
    (h : f.len.toNat ≤ f.rest.length → bodyOf f.kind (f.rest.take f.len.toNat) = .error .length) : judgeFrame f = .error .length := by
  by_cases hshort : f.rest.length < f.len.toNat
  · unfold judgeFrame
    rw [if_pos hk, if_pos hshort]
  · rw [judgeFrame_of_body hk (by omega)]
    exact h (by omega)

/-- The content of a frame is of the frame's kind. -/
theorem kindByte_of_judgeFrame {f : LineFrame} {c : Payload} (h : judgeFrame f = .ok c) : c.kindByte = f.kind := by
  unfold judgeFrame at h
  split_ifs at h
  exact kindByte_of_bodyOf h

/-! ### The frame arrives (R174) -/

section Arrives

variable {p : Port} {f : LineFrame} {s : State}

/-- A broadcast sent on changes one port alone. -/
theorem broadcastOn_rest (p : Port) (f : LineFrame) (s : State) : ∃ q a, broadcastOn p f s = { s with ll := s.ll.setPort q a } := by
  unfold broadcastOn
  split
  · rw [← forward_eq_forwarded]
    exact ⟨_, _, forward_rest ..⟩
  · exact ⟨.a, s.ll.portA, rfl⟩

@[simp] theorem broadcastOn_peers : (broadcastOn p f s).peers = s.peers := by
  obtain ⟨q, a, hport⟩ := broadcastOn_rest p f s
  rw [hport]

@[simp] theorem broadcastOn_resetting : (broadcastOn p f s).ll.resetting = s.ll.resetting := by
  obtain ⟨q, a, hport⟩ := broadcastOn_rest p f s
  rw [hport]
  cases q <;> rfl

/-- A frame of another station, to the part or to all, is judged once a broadcast has been sent on. -/
theorem exec_passingFrame {own : Nat} (hs : s.station = some own) (hsrc : f.src.toNat ≠ own)
    (hd : f.dst.toNat = own ∨ f.dst.toNat = 63) : exec (.passingFrame p (.line f)) s =
      .next (endEvent (takeFrame f (judgeFrame f) (broadcastOn p f s))) := by
  have hjudged : arriveRaw p (.line f) s = takeFrame f (judgeFrame f) (broadcastOn p f s) := by
    unfold broadcastOn
    rw [← forward_eq_forwarded]
    exact receive_taken _ hs hsrc hd
  exact congrArg done hjudged

/-- A frame of the part's own station number is refused, whatever else it carries. -/
theorem exec_passingFrame_own (hs : s.station = some f.src.toNat) :
    exec (.passingFrame p (.line f)) s = .next (endEvent (refused f.src f.kind .ownSource s)) := by
  have hown : arriveRaw p (.line f) s = refused f.src f.kind .ownSource s := by
    show receive p f (judgeFrame f) s = _
    unfold receive
    rw [hs]
    exact (if_pos rfl).trans (refuse_eq_refused ..)
  exact congrArg done hown

/-- While a RESET waits a frame that would be taken is not, and no notice goes out at the end of its event (R184). -/
theorem exec_passingFrame_resetting {own : Nat} (hs : s.station = some own) (hr : s.ll.resetting = true) (hsrc : f.src.toNat ≠ own)
    (hd : f.dst.toNat = own ∨ f.dst.toNat = 63) : exec (.passingFrame p (.line f)) s = .next (broadcastOn p f s) := by
  have hwaits : (broadcastOn p f s).ll.resetting = true := broadcastOn_resetting.trans hr
  have hdiscarded : takeFrame f (judgeFrame f) (broadcastOn p f s) = broadcastOn p f s := if_pos hwaits
  rw [exec_passingFrame hs hsrc hd, hdiscarded, endEvent_resetting _ hwaits]

/-- An addressed frame of a wrong kind or length is refused for it. -/
theorem exec_passingFrame_error (h : Addressed s (headerOf p f)) {reason : RefusalReason} (hj : judgeFrame f = .error reason) :
    exec (.passingFrame p (.line f)) s = .next (endEvent (refused f.src f.kind reason (broadcastOn p f s))) := by
  obtain ⟨own, hs, hsrc, hd, hr⟩ := h
  rw [exec_passingFrame hs hsrc hd, hj]
  unfold takeFrame
  rw [if_neg (by simp [hr]), ← refuse_eq_refused]

/-- An addressed frame with content is judged by its source. -/
theorem exec_passingFrame_ok (h : Addressed s (headerOf p f)) {c : Payload} (hj : judgeFrame f = .ok c) :
    exec (.passingFrame p (.line f)) s = .next (endEvent (judgeSource f c (broadcastOn p f s))) := by
  obtain ⟨own, hs, hsrc, hd, hr⟩ := h
  rw [exec_passingFrame hs hsrc hd, hj]
  unfold takeFrame
  rw [if_neg (by simp [hr])]

end Arrives

/-! ### The source (R177) -/

theorem judgeSource_role {f : LineFrame} {c : Payload} {s : State} {t : PeerTable} (ht : s.peers = some t)
    (h : f.src.toNat = c.role t) : judgeSource f c s = handOver f.src f.tag c s := by
  unfold judgeSource
  rw [ht]
  exact if_pos h

theorem judgeSource_peer {f : LineFrame} {c : Payload} {s : State} {t : PeerTable} (ht : s.peers = some t)
    (h : f.src.toNat ≠ c.role t) : judgeSource f c s = refused f.src f.kind .peer s := by
  unfold judgeSource
  rw [ht]
  exact (if_neg h).trans (refuse_eq_refused ..)

theorem judgeSource_discarded {f : LineFrame} {c : Payload} {s : State} (ht : s.peers = none) (h : c.isRequest = false) :
    judgeSource f c s = s := by
  unfold judgeSource
  rw [ht]
  exact if_neg (by simp [h])

/-- A record flow frame of another byte than 0 and 1 is refused (R170). -/
theorem takeFlow_range {code : Byte} (h : 1 < code.toNat) (src : Byte) (s : State) :
    takeFlow src code s = refused src 0x22 .range s := by
  have hhold : code ≠ 0 := fun h0 => by simp [h0] at h
  have hrelease : code ≠ 1 := fun h1 => by simp [h1] at h
  unfold takeFlow
  rw [if_neg hhold, if_neg hrelease, refuse_eq_refused]

/-- A record flow frame of one byte carries that byte. -/
theorem judgeFrame_flow {f : LineFrame} {b : Byte} (hk : f.kind = 0x22) (hlen : f.len.toNat = 1) (hb : f.rest[0]? = some b) :
    judgeFrame f = .ok (.flow b) := by
  cases hrest : f.rest with
  | nil =>
    rw [hrest] at hb
    cases hb
  | cons x l =>
    rw [hrest] at hb
    cases hb
    rw [judgeFrame_of_body (by rw [hk]; rfl) (by rw [hrest, hlen]; exact Nat.le_add_left ..), hk, hlen, hrest]
    rfl

/-! ### The statement -/

/-- Settles O16: the header decides first, then kind and length, then the source, and of a record flow frame its byte. -/
theorem unfitFrameIsRefused : Obligations.UnfitFrameIsRefused := by
  intro p f s
  refine ⟨exec_passingFrame_own, fun own hs hr hsrc hd => exec_passingFrame_resetting hs hr hsrc hd, fun ha => ?_⟩
  refine ⟨fun hk => ?_, fun hk hshort => ?_, fun n hn hlen => ?_, fun hk hlen => ?_, fun c hj t ht hsrc => ?_,
    fun b t hk hlen hb hrange ht hsrc => ?_, fun c hj ht hrequest hcommand => ?_⟩
  · have hunknown : inboundKind f.kind = false := Bool.eq_false_iff.2 (fun h => hk ((inboundKind_iff _).1 h))
    exact exec_passingFrame_error ha (judgeFrame_of_kind hunknown)
  · exact exec_passingFrame_error ha (judgeFrame_of_length ((inboundKind_iff _).2 hk) (fun hwhole => absurd hshort (by omega)))
  · refine exec_passingFrame_error ha (judgeFrame_of_length (inboundKind_of_fixedLength hn) (fun hwhole => ?_))
    exact bodyOf_of_length hn (by rw [List.length_take_of_le hwhole]; exact hlen)
  · refine exec_passingFrame_error ha (judgeFrame_of_length (by rw [hk]; rfl) (fun hwhole => ?_))
    rw [hk]
    refine blockOf_of_length ?_
    rw [List.length_take_of_le hwhole]
    rcases hlen with hlen | ⟨c, hc, hlen⟩
    · exact .inl hlen
    · by_cases hcount : f.len.toNat < 10
      · exact .inl hcount
      · exact .inr ⟨c, by rw [List.getElem?_take_of_lt (by omega)]; exact hc, hlen⟩
  · rw [exec_passingFrame_ok ha hj, judgeSource_peer (broadcastOn_peers.trans ht) hsrc]
  · rw [exec_passingFrame_ok ha (judgeFrame_flow hk hlen hb), judgeSource_role (broadcastOn_peers.trans ht) hsrc, hk]
    exact congrArg (fun x => Host.Outcome.next (endEvent x)) (takeFlow_range hrange ..)
  · have hkind := kindByte_of_judgeFrame hj
    have hno : c.isRequest = false := isRequest_of_kindByte (by rw [hkind]; exact hrequest) (by rw [hkind]; exact hcommand)
    rw [exec_passingFrame_ok ha hj, judgeSource_discarded (broadcastOn_peers.trans ht) hno]

end Sys2Proof.Judgement
end

section
/-! PROOFS. Record flow (9.4): the next fragment passed over where R168 allows it, what stands while it is, and the commands that make
the store check for it, RECORD_HOLD, RECORD_RELEASE and REEL_RECORD_SENT (R167 to R170). -/

namespace Sys2Proof.RecordFlow

open Sys2Proof Sys2Proof.Machine Sys2Proof.Claims Sys2Proof.Laws Sys2Proof.Sightings Sys2Proof.SetChange Sys2Proof.Waiting

variable {s t : State} {i : Nat} {l : List Nat} {r : ReelRecord} {f : RecordInFlight} {rx : Rx}

/-! ### The conditions of R168 -/

/-- While HELD, with a frame in flight, or with no record waiting, none is next. -/
theorem nextRecord_shut (h : s.rs.held = true ∨ s.rs.inFlight ≠ none ∨ s.rs.sendList = []) : nextRecord s = none := by
  unfold nextRecord
  split
  · rename_i hopen
    obtain ⟨-, hheld, hflight, -⟩ := hopen
    rcases h with h | h | h
    · rw [hheld] at h
      cases h
    · exact absurd hflight h
    · rw [h]
  · rfl

/-- The part can pass a record's frame over to a port: it queues own frames, has none of a record waiting, and a port has link. -/
structure CanPass (s : State) : Prop where
  can : s.canQueue = true
  own : ownOf .record s = []
  link : linked s = true

theorem CanPass.room (hp : CanPass s) : s.ll.room .record = true := by
  have hcount : s.ll.count .record = 0 := congrArg List.length hp.own
  unfold LineLink.room
  rw [hcount]
  rfl

/-- SENDING, with none in flight, the record at the head of the send list is next. -/
theorem nextRecord_head (hp : CanPass s) (hheld : s.rs.held = false) (hflight : s.rs.inFlight = none) (hlist : s.rs.sendList = i :: l)
    (hr : s.rs.record i = some r) : nextRecord s = some (i, r) := by
  unfold nextRecord
  rw [if_pos ⟨hp.can, hheld, hflight, hp.room⟩, hlist]
  dsimp only
  rw [hr]
  rfl

theorem sendRecords_shut (h : nextRecord s = none) : sendRecords s = s := by
  unfold sendRecords pumpRecords
  rw [h]

/-- With a port in link the frame passed is in flight until it has gone out, and no other follows it. -/
theorem sendRecords_head (hl : linked s = true) (h : nextRecord s = some (i, r)) : sendRecords s = passRecord i r s := by
  have hlink : s.noLink = false := by simpa [State.noLink, linked, Bool.or_eq_true, or_iff_not_imp_left] using hl
  unfold sendRecords pumpRecords
  rw [h]
  dsimp only
  rw [hlink]
  rfl

/-! ### The fragment passed over (R167) -/

theorem queueOwn_rest (c : OwnClass) (dst : Nat) (tag : Option Half) (body : OwnBody) (s : State) :
    queueOwn c dst tag body s = { s with ll := (queueOwn c dst tag body s).ll } := by
  unfold queueOwn
  split_ifs <;> rfl

/-- A frame passed changes the Line Link Interface, and puts the fragment in flight. -/
theorem passRecord_rest (i : Nat) (r : ReelRecord) (s : State) : passRecord i r s =
    { s with rs := { s.rs with inFlight := some (nextFlight i r) }, ll := (passRecord i r s).ll } := by
  unfold passRecord
  rw [queueOwn_rest]
  rfl

theorem newStage_gone (q : PortState) : (q.newStage == .gone) = !q.link := by
  unfold PortState.newStage
  cases q.link <;> rfl

/-- The frame passed is among the own frames, with the fragment's events. -/
theorem carries_passRecord (hp : CanPass s) (i : Nat) (r : ReelRecord) : Carries i r s (passRecord i r s) := by
  rcases queueOwn_cases .record (s.role (·.recordReceiver)) none
      (.record r r.fragments (r.lastFragment r.fragments) (r.carried r.fragments)) s with
    ⟨-, -, f, hf, h⟩ | ⟨-, hfull, -⟩ | ⟨hno, -⟩
  · have hout : f.out = false := by
      rw [hf]
      show ((s.ll.portA.newStage == .gone) && (s.ll.portB.newStage == .gone)) = false
      rw [newStage_gone, newStage_gone, ← Bool.not_or]
      exact congrArg not hp.link
    refine ⟨f, ?_, by rw [hf], by rw [hf]; rfl, by rw [hf]; rfl⟩
    unfold passRecord
    rw [h, hout]
    exact List.mem_append_right _ (List.mem_singleton_self _)
  · rw [hp.room] at hfull
    cases hfull
  · rw [hp.can] at hno
    cases hno

/-- The frame is still there after what leaves the own frames. -/
theorem carries_kept {x y : State} (h : Carries i r s x) (hown : x.ll.own ⊆ y.ll.own) : Carries i r s y := by
  obtain ⟨f, hf, hrest⟩ := h
  exact ⟨f, hown hf, hrest⟩

/-- Where the frame goes depends on the peer table alone. -/
theorem carries_of_peers {x : State} (h : Carries i r t x) (hpeers : t.peers = s.peers) : Carries i r s x := by
  unfold Carries at h ⊢
  rw [← hpeers]
  exact h

/-! ### The end of the event -/

/-- The check of R168, the attempt to expand and the passing of a notice, with which every event of the flow ends. -/
def sent (s : State) : State := endEvent (expand (sendRecords s))

theorem sent_shut (h : s.rs.held = true ∨ s.rs.inFlight ≠ none ∨ s.rs.sendList = []) : sent s = endEvent (expand s) := by
  unfold sent
  rw [sendRecords_shut (nextRecord_shut h)]

/-- No check, attempt or notice moves anything fixed. -/
theorem sent_fixed (s : State) : (sent s).fixed = s.fixed :=
  (((kept_sendRecords s).toUpholds.trans (upholds_expand _)).trans (kept_endEvent _).toUpholds).fixed

/-- An attempt to expand and the passing of notices leave the own frames, the records, the stops, the set and the Settled list. -/
theorem expanded_rest (s : State) : s.ll.own ⊆ (endEvent (expand s)).ll.own ∧ (endEvent (expand s)).rs = s.rs ∧
    (endEvent (expand s)).ss = s.ss ∧ (endEvent (expand s)).sc = s.sc ∧ (endEvent (expand s)).fq.settled = s.fq.settled := by
  have hexpand := expandsOnly_expand s
  have hend := noticesOnly_endEvent (expand s)
  obtain ⟨notices, hown, -⟩ := hend.own
  refine ⟨?_, ?_⟩
  · rw [hown]
    exact List.Subset.trans (adds_expand s).own (List.subset_append_left ..)
  · rw [hend.rest, hexpand.rest]
    exact ⟨rfl, rfl, rfl, rfl⟩

/-- Where R168 allows it the next fragment of the record at the head of the send list is in flight and among the own frames at the end of
the event; the other records, the stops, the set and the Settled list stand. -/
theorem sent_head (hp : CanPass s) (hheld : s.rs.held = false) (hflight : s.rs.inFlight = none) (hlist : s.rs.sendList = i :: l)
    (hr : s.rs.record i = some r) : (sent s).rs = { s.rs with inFlight := some (nextFlight i r) } ∧ Carries i r s (sent s) ∧
      (sent s).ss = s.ss ∧ (sent s).sc = s.sc ∧ (sent s).fq.settled = s.fq.settled := by
  have hsent : sent s = endEvent (expand (passRecord i r s)) := by
    unfold sent
    rw [sendRecords_head hp.link (nextRecord_head hp hheld hflight hlist hr)]
  obtain ⟨hown, hrs, hss, hsc, hsettled⟩ := expanded_rest (passRecord i r s)
  rw [hsent]
  refine ⟨hrs.trans ?_, carries_kept (carries_passRecord hp i r) hown, hss.trans ?_, hsc.trans ?_, hsettled.trans ?_⟩ <;>
    rw [passRecord_rest]

/-- Where nothing fixed has moved but the flow state, the position, the tracker, the tables, the ports and the knives stand. -/
theorem stands_of_fixed {flow : Bool} (h : t.fixed = { s.fixed with flow := flow }) : t.pu = s.pu ∧ t.mt = s.mt ∧ SameTables s t ∧
    SameLink s t ∧ t.knives = s.knives ∧ t.rs.held = flow :=
  ⟨congrArg Fixed.pu h, congrArg Fixed.mt h,
    ⟨congrArg Fixed.pending h, congrArg Fixed.machine h, congrArg Fixed.peers h, congrArg Fixed.lpt h, congrArg Fixed.current h,
      congrArg Fixed.next h⟩,
    ⟨congrArg Fixed.straps h, congrArg Fixed.portA h, congrArg Fixed.portB h, congrArg Fixed.capture h, congrArg Fixed.refusals h,
      congrArg Fixed.resetting h, congrArg Fixed.voidRecord h, congrArg Fixed.voidNotice h⟩, congrArg Fixed.knives h,
    congrArg Fixed.flow h⟩

/-! ### RECORD_HOLD and RECORD_RELEASE (R170) -/

/-- The state with the frame sent on, if a broadcast, and the flow state set. -/
def flowSet (rx : Rx) (code : Byte) (held : Bool) (s : State) : State :=
  { passedOn rx (.flow code) s with rs := { s.rs with held := held } }

theorem flowSet_eq (rx : Rx) (code : Byte) (held : Bool) (s : State) :
    flowSet rx code held s = { s with rs := { s.rs with held := held }, ll := (passedOn rx (.flow code) s).ll } := by
  unfold flowSet
  rw [passedOn_eq]

theorem exec_recordHold (hfrom : From (·.recordReceiver) s rx) :
    exec (.recordHold rx) s = .next (endEvent (flowSet rx 0 true s)) := by
  have harrive : arrive rx (.flow 0) s = flowSet rx 0 true s := by
    rw [arrive_from hfrom rfl (fun _ => rfl), flowSet_eq, passedOn_eq]
    rfl
  exact congrArg done harrive

theorem exec_recordRelease (hfrom : From (·.recordReceiver) s rx) :
    exec (.recordRelease rx) s = .next (sent (flowSet rx 1 false s)) := by
  have harrive : arrive rx (.flow 1) s = expand (sendRecords (flowSet rx 1 false s)) := by
    rw [arrive_from hfrom rfl (fun _ => rfl), flowSet_eq, passedOn_eq]
    rfl
  exact congrArg done harrive

theorem canPass_flowSet (ha : Addressed s rx) (hown : ownOf .record s = []) (hl : linked s = true) (code : Byte) (held : Bool) :
    CanPass (flowSet rx code held s) := by
  obtain ⟨own, hs, -, -, hr⟩ := ha
  obtain ⟨q, a, hport, -⟩ := passedOn_rest rx (.flow code) s
  have hlinked := linked_passedOn rx (.flow code) s
  unfold flowSet
  refine ⟨?_, ?_, hlinked.trans hl⟩
  · have hcan : s.canQueue = true := by
      unfold State.canQueue
      rw [hs, hr]
      rfl
    rw [hport]
    simpa [State.canQueue, State.station] using hcan
  · rw [hport]
    simpa [ownOf] using hown

/-- Settles O53: the hold sets the flow state; the release sets it and makes the check of R168. -/
theorem recordFlowHoldsAndReleases : Obligations.RecordFlowHoldsAndReleases := by
  intro rx s hfrom
  have hset := flowSet_eq rx 1 false s
  refine ⟨exec_recordHold hfrom, fun hshut => ?_, fun i l r hlist hr hflight hown hl => ?_⟩
  · have hrelease : exec (.recordRelease rx) s = .next (endEvent (expand (flowSet rx 1 false s))) := by
      rw [exec_recordRelease hfrom, sent_shut (by rw [hset]; exact .inr hshut)]
    refine ⟨hrelease, fun hnone => ?_⟩
    rw [hrelease, expand_none _ (by rw [hset]; exact hnone)]
    rfl
  · obtain ⟨hrs, hcarries, hss, hsc, hsettled⟩ := sent_head (canPass_flowSet hfrom.1 hown hl 1 false) rfl hflight hlist hr
    obtain ⟨hpu, hmt, htables, hlink, hknives, -⟩ :=
      stands_of_fixed (s := passedOn rx (.flow 1) s) (flow := false) (sent_fixed (flowSet rx 1 false s))
    have hexec := exec_recordRelease hfrom
    generalize sent (flowSet rx 1 false s) = x at *
    have hbase : passedOn rx (.flow 1) s = { s with ll := (passedOn rx (.flow 1) s).ll } := passedOn_eq ..
    rw [hset] at hcarries hss hsc hsettled
    rw [hbase] at hpu hmt htables hknives
    exact ⟨x, hexec, hrs, carries_of_peers hcarries rfl, hpu, hmt, htables, hlink, hknives, hss, hsc, hsettled⟩

/-! ### REEL_RECORD_SENT (R169) -/

/-- The state once the report has given back what the frame held, and what is left of the frame is off both ports. -/
def reported (f : RecordInFlight) (s : State) : State :=
  { s with rs := givenBack f s.rs, ll := { s.ll with own := s.ll.own.filter (fun f => f.cls != .record) } }

theorem reported_fixed (f : RecordInFlight) (s : State) : (reported f s).fixed = s.fixed := by
  have hreplies : (reported f s).ll.replies = s.ll.replies := by
    unfold reported LineLink.replies
    rw [List.filter_filter]
    refine List.filter_congr (fun x _ => ?_)
    cases x.cls <;> rfl
  unfold State.fixed
  rw [hreplies]
  rfl

/-- The report gives back, judges the gate, and makes the check of R168. -/
theorem exec_reelRecordSent (hf : s.rs.inFlight = some f) (hv : s.ll.voidRecord = false) :
    exec .reelRecordSent s = .next (sent (judgeGate (reported f s))) := by
  have hreport : reportRecord s = expand (sendRecords (judgeGate (reported f s))) := by
    unfold reportRecord recordSent
    rw [if_pos ⟨by rw [hf]; rfl, hv⟩, dropClass_rs, hf]
    rfl
  exact congrArg done hreport

theorem canPass_reported (hs : s.station.isSome = true) (hr : s.ll.resetting = false) (hl : linked s = true) (f : RecordInFlight) :
    CanPass (reported f s) := by
  refine ⟨?_, ?_, hl⟩
  · show (s.station.isSome && !s.ll.resetting) = true
    rw [hs, hr]
    rfl
  · unfold ownOf reported
    rw [List.filter_filter]
    exact List.filter_eq_nil_iff.2 (fun x _ => by simp)

/-- Settles O54: outside PREPARING the gate is not judged, and the check of R168 follows on the store as the report leaves it. -/
theorem sentRecordIsGivenBack : Obligations.SentRecordIsGivenBack := by
  intro f s hf hv
  have hexec := exec_reelRecordSent hf hv
  refine ⟨fun hstate => ?_, ?_⟩
  · rw [judgeGate_of_not_preparing (s := reported f s) hstate] at hexec
    refine ⟨fun hshut => ?_, fun i l r hheld hlist hr hs hreset hl => ?_⟩
    · rw [hexec, sent_shut (s := reported f s) (hshut.imp id .inr)]
      rfl
    · obtain ⟨hrs, hcarries, hss, hsc, hsettled⟩ := sent_head (canPass_reported hs hreset hl f) hheld rfl hlist hr
      obtain ⟨hpu, hmt, htables, hlink, hknives, -⟩ :=
        stands_of_fixed (s := s) (flow := s.rs.held) ((sent_fixed (reported f s)).trans (reported_fixed f s))
      exact ⟨_, hexec, hrs, carries_of_peers hcarries rfl, hpu, hmt, htables, hlink, hknives, hss, hsc, hsettled⟩
  · obtain ⟨hpu, hmt, htables, hlink, hknives, hheld⟩ := stands_of_fixed (s := s) (flow := s.rs.held)
      ((sent_fixed _).trans ((kept_judgeGate (reported f s)).fixed.trans (reported_fixed f s)))
    exact ⟨_, hexec, hpu, hmt, htables, hlink, hknives, hheld⟩

end Sys2Proof.RecordFlow
end

section
/-! PROOFS. The step and its queue (10.1), the capacities (10.2, 10.3, 10.6), and the effect of a RESET (10.5). -/

namespace Sys2Proof.StepLaws

open Sys2Proof Sys2Proof.Machine Sys2Proof.Claims Sys2Proof.EveryBlock

/-- Settles O11: the capacities are three of the laws that every step keeps. A class takes a frame only where it has room
(`kept_queueOwn`, `laws_queueReply`), a full notice queue grows no longer (`displace_length`), a ninth passing frame is dropped
(`keeps_forward`), and the refusal count stops (`keeps_refuse`). -/
theorem stepsKeepCapacities : Obligations.StepsKeepCapacities := by
  intro s t h
  obtain ⟨rest, hkeeps⟩ := step_keepsLaws h
  exact ⟨hkeeps.notices, hkeeps.own, hkeeps.ports⟩

/-- No command stops the part: each of them runs to the end of its event (R187). -/
theorem exec_next (c : Instr) (s : State) : ∃ t, exec c s = .next t := by
  cases c <;> exact ⟨_, rfl⟩

/-- Settles O2: every command ends its event, and the commands waiting are among what every command leaves. -/
theorem everyCommandCompletes : Obligations.EveryCommandCompletes := by
  intro c s
  obtain ⟨t, ht⟩ := exec_next c s
  exact ⟨t, ht, (exec_keepsLaws c ht).pending⟩

/-- Settles O1: the two cases of a step are those of the queue. -/
theorem stepRunsTheFrontCommand : Obligations.StepRunsTheFrontCommand := by
  constructor
  · intro c rest s hpending
    unfold step
    rw [hpending]
  · intro s hpending
    unfold step
    rw [hpending]

/-- No notice waits in the state of a RESET that has taken effect, so its event ends as it is. -/
theorem exec_resetTakesEffect {s : State} (h : s.ll.resetting = true) (straps : BitVec 6) :
    exec (.resetTakesEffect straps) s = .next (resetState straps s) := by
  have htaken : takeReset straps s = resetState straps s := if_pos h
  show done (takeReset straps s) = _
  unfold done
  rw [htaken, endEvent_empty _ rfl]

/-- The state of a RESET that has taken effect holds the power-on values of every block (R184, R190). -/
theorem atPowerOn_resetState (straps : BitVec 6) (s : State) : AtPowerOn straps (resetState straps s) where
  tables := ⟨rfl, rfl, rfl, rfl⟩
  position := rfl
  tracker := rfl
  map := rfl
  queue := rfl
  knives := rfl
  stop := ⟨rfl, rfl, rfl, rfl, rfl, rfl, rfl, rfl, rfl, rfl, rfl, rfl⟩
  sets := ⟨rfl, rfl, rfl, rfl, rfl, rfl, rfl, rfl, rfl, rfl, rfl, rfl⟩
  records := rfl
  notices := rfl
  link := ⟨rfl, rfl, rfl, rfl, rfl, rfl, rfl⟩
  ports := fun p => by cases p <;> exact ⟨rfl, rfl⟩

/-- Settles O4: beside the power-on values a RESET leaves each port its link and the frame that it is sending, and the model's own
queue. -/
theorem resetTakesEffect : Obligations.ResetTakesEffect := by
  intro straps s
  refine ⟨fun h => ?_, fun h => ?_⟩
  · refine ⟨resetState straps s, exec_resetTakesEffect h straps, atPowerOn_resetState straps s, fun p => ?_, rfl, rfl⟩
    cases p <;> exact ⟨rfl, rfl⟩
  · have hidle : takeReset straps s = s := if_neg (by rw [h]; exact Bool.false_ne_true)
    exact congrArg done hidle

end Sys2Proof.StepLaws
end

section
/-! PROOFS. Own frames queued, and notices (10.3, 10.6): the class that has room or is full, the notice passed at the end of an event,
the full queue, and NOTICE_SENT (R179, R184, R187 to R189). -/

namespace Sys2Proof.OwnFrames

open Sys2Proof Sys2Proof.Machine Sys2Proof.Claims

/-! ### Queuing an own frame (R179) -/

section Queuing

variable {c : OwnClass} {dst : Nat} {tag : Option Half} {body : OwnBody} {s : State}

/-- The part queues own frames once it has a station number, while no RESET waits (R175, R184). -/
theorem canQueue_of (hs : s.station.isSome = true) (hr : s.ll.resetting = false) : s.canQueue = true := by
  unfold State.canQueue
  rw [hs, hr]
  rfl

/-- A class with room takes the frame as the statements name it, unless it has gone out at once. -/
theorem queueOwn_of_room (hq : s.canQueue = true) (hroom : s.ll.count c < c.capacity) : queueOwn c dst tag body s =
    { s with ll := { s.ll with
        own := if linked s then s.ll.own ++ [queued c dst (tag.getD s.ll.seq) body s] else s.ll.own, seq := s.ll.seq + 1 } } := by
  have hout : (queued c dst (tag.getD s.ll.seq) body s).out = !linked s := RollMap.queued_out ..
  have hfits : s.ll.room c = true := decide_eq_true hroom
  rcases queueOwn_cases c dst tag body s with ⟨-, -, f, hf, h⟩ | ⟨-, hfull, -⟩ | ⟨hno, -⟩
  · have hqueued : f = queued c dst (tag.getD s.ll.seq) body s := hf
    rw [h, hqueued, hout]
    cases linked s <;> rfl
  · rw [hfits] at hfull
    cases hfull
  · rw [hq] at hno
    cases hno

/-- A full class drops the frame, and the drop of an order is counted. -/
theorem queueOwn_of_full (hq : s.canQueue = true) (hfull : c.capacity ≤ s.ll.count c) : queueOwn c dst tag body s =
    if c = .order then { s with ll := { s.ll with ordersDropped := s.ll.ordersDropped + 1 } } else s := by
  have hno : ¬ s.ll.room c = true := by simpa [LineLink.room] using hfull
  unfold queueOwn
  rw [if_pos hq, if_neg hno]

/-- Nothing is queued without a station number or while a RESET waits (R175, R184). -/
theorem queueOwn_of_shut (h : s.station = none ∨ s.ll.resetting = true) : queueOwn c dst tag body s = s := by
  have hq : ¬ s.canQueue = true := by
    unfold State.canQueue
    rcases h with h | h <;> simp [h]
  unfold queueOwn
  exact if_neg hq

end Queuing

/-- Settles O20: a class with room, one that is full, and a part that queues nothing. -/
theorem ownFrameJoinsItsClass : Obligations.OwnFrameJoinsItsClass := by
  intro c dst tag body s
  refine ⟨fun hs hr => ?_, queueOwn_of_shut⟩
  have hq := canQueue_of hs hr
  refine ⟨fun hroom hl => ?_, fun hroom hl => ?_, queueOwn_of_full hq⟩
  · rw [queueOwn_of_room hq hroom, hl]
    rfl
  · rw [queueOwn_of_room hq hroom, hl]
    rfl

/-! ### The notice passed (R187, R189) -/

theorem foldl_min_le (l : List Notice) (m : Nat) : l.foldl (fun m x => min m x.kind.priority) m ≤ m := by
  induction l generalizing m with
  | nil => exact Nat.le_refl m
  | cons x l ih => exact Nat.le_trans (ih _) (Nat.min_le_left ..)

/-- The highest priority present is that of a notice no other goes before (10.6). -/
theorem highestPriority_eq {l : List Notice} {n : Notice} (hn : n ∈ l) (hleast : ∀ x ∈ l, n.kind.priority ≤ x.kind.priority) :
    highestPriority l = n.kind.priority := by
  have hle : ∀ (l : List Notice) (m : Nat), n ∈ l → l.foldl (fun m x => min m x.kind.priority) m ≤ n.kind.priority := by
    intro l
    induction l with
    | nil => exact fun m h => absurd h List.not_mem_nil
    | cons x l ih =>
      intro m h
      rcases List.mem_cons.1 h with rfl | h
      · exact Nat.le_trans (foldl_min_le l _) (Nat.min_le_right ..)
      · exact ih _ h
  have hge : ∀ (l : List Notice) (m : Nat), n.kind.priority ≤ m → (∀ x ∈ l, n.kind.priority ≤ x.kind.priority) →
      n.kind.priority ≤ l.foldl (fun m x => min m x.kind.priority) m := by
    intro l
    induction l with
    | nil => exact fun m h _ => h
    | cons x l ih =>
      intro m h hall
      exact ih _ (Nat.le_min.2 ⟨h, hall x List.mem_cons_self⟩) (fun y hy => hall y (List.mem_cons_of_mem x hy))
  have hthree : n.kind.priority ≤ 3 := by cases n.kind <;> decide
  exact Nat.le_antisymm (hle l 3 hn) (hge l 3 hthree hleast)

section Passed

variable {pre post : List Notice} {n : Notice}

/-- The oldest of the highest priority present is the notice passed next (R187). -/
theorem nextNotice_eq (hpre : ∀ x ∈ pre, n.kind.priority < x.kind.priority) (hpost : ∀ x ∈ post, n.kind.priority ≤ x.kind.priority) :
    nextNotice (pre ++ n :: post) = some n := by
  have hleast : ∀ x ∈ pre ++ n :: post, n.kind.priority ≤ x.kind.priority := by
    intro x hx
    rcases List.mem_append.1 hx with hx | hx
    · exact Nat.le_of_lt (hpre x hx)
    · rcases List.mem_cons.1 hx with rfl | hx
      · exact Nat.le_refl _
      · exact hpost x hx
  unfold nextNotice
  rw [highestPriority_eq (List.mem_append_right _ List.mem_cons_self) hleast, List.find?_eq_some_iff_append]
  refine ⟨beq_self_eq_true _, pre, post, rfl, fun x hx => ?_⟩
  have := hpre x hx
  simp only [Bool.not_eq_true', beq_eq_false_iff_ne, ne_eq]
  omega

/-- The notice passed leaves the queue from its place (R189). -/
theorem erase_notice (hpre : ∀ x ∈ pre, n.kind.priority < x.kind.priority) : (pre ++ n :: post).erase n = pre ++ post := by
  have hnot : n ∉ pre := fun h => Nat.lt_irrefl _ (hpre n h)
  rw [List.erase_append_right _ hnot, List.erase_cons_head]

end Passed

theorem room_notice {s : State} (h : ownOf .notice s = []) : s.ll.count .notice < OwnClass.capacity .notice := by
  unfold LineLink.count
  rw [show s.ll.own.filter (fun f => f.cls == .notice) = [] from h]
  decide

/-- An event passes the notice that is next, where none is in flight and the part can send it (R187). -/
theorem endEvent_passes {s : State} {n : Notice} (hq : s.canQueue = true) (hf : s.nq.inFlight = none) (hown : ownOf .notice s = [])
    (hl : linked s = true) (hn : nextNotice s.nq.waiting = some n) : endEvent s = passNotice n s := by
  have hroom : s.ll.room .notice = true := decide_eq_true (room_notice hown)
  have hlink : s.noLink = false := by
    unfold linked at hl
    unfold State.noLink
    rw [← Bool.not_or, hl]
    rfl
  unfold endEvent pumpNotices
  rw [if_pos ⟨hq, hf, hroom⟩, hn]
  dsimp only
  rw [hlink]
  rfl

/-- A notice passed over a link leaves the queue for the one frame of its class (R189). -/
theorem passNotice_eq {s : State} (n : Notice) (hq : s.canQueue = true) (hown : ownOf .notice s = []) (hl : linked s = true) :
    passNotice n s = { s with
      nq := { waiting := s.nq.waiting.erase n, inFlight := some n, dropped := false }
      ll := { s.ll with
        own := s.ll.own ++ [queued .notice (s.role (·.lineController)) s.ll.seq (.notice n s.nq.dropped) s]
        seq := s.ll.seq + 1 } } := by
  unfold passNotice
  rw [queueOwn_of_room hq (room_notice hown), hl]
  rfl

/-- Settles O21: the notice passed is the next, and it leaves the queue from its place. The destination is the role's station
(`State.role`). -/
theorem eventEndPassesTheHeadNotice : Obligations.EventEndPassesTheHeadNotice := by
  intro s pre n post hw hpre hpost hf hs hr hown hl
  have hq := canQueue_of hs hr
  have hnext : nextNotice s.nq.waiting = some n := by rw [hw, nextNotice_eq hpre hpost]
  rw [endEvent_passes hq hf hown hl hnext, passNotice_eq n hq hown hl, hw, erase_notice hpre]
  rfl

/-! ### A full queue (R188) -/

theorem le_foldl_max (l : List Notice) (m : Nat) : m ≤ l.foldl (fun m x => max m x.kind.priority) m := by
  induction l generalizing m with
  | nil => exact Nat.le_refl m
  | cons x l ih => exact Nat.le_trans (Nat.le_max_left ..) (ih _)

/-- Every notice waiting is of the lowest priority present or of a higher one. -/
theorem le_lowestPriority {l : List Notice} {y : Notice} (hy : y ∈ l) : y.kind.priority ≤ lowestPriority l := by
  have hle : ∀ (l : List Notice) (m : Nat), y ∈ l → y.kind.priority ≤ l.foldl (fun m x => max m x.kind.priority) m := by
    intro l
    induction l with
    | nil => exact fun m h => absurd h List.not_mem_nil
    | cons x l ih =>
      intro m h
      rcases List.mem_cons.1 h with rfl | h
      · exact Nat.le_trans (Nat.le_max_right ..) (le_foldl_max l _)
      · exact ih _ h
  exact hle l 0 hy

/-- No lower priority is present than every notice waiting allows. -/
theorem lowestPriority_le {l : List Notice} {p : Nat} (h : ∀ y ∈ l, y.kind.priority ≤ p) : lowestPriority l ≤ p := by
  rcases foldl_max_mem l 0 with h0 | ⟨y, hy, hp⟩
  · unfold lowestPriority
    rw [h0]
    exact Nat.zero_le p
  · unfold lowestPriority
    rw [← hp]
    exact h y hy

/-- The newest notice of a priority leaves from its place. -/
theorem dropNewest_eq {pre post : List Notice} {x : Notice} {p : Nat} (hx : x.kind.priority = p)
    (hpost : ∀ y ∈ post, y.kind.priority < p) : dropNewest p (pre ++ x :: post) = pre ++ post := by
  have hnewer : ∀ y ∈ post.reverse, ¬ (y.kind.priority == p) = true := by
    intro y hy
    have := hpost y (List.mem_reverse.1 hy)
    simp only [beq_iff_eq]
    omega
  unfold dropNewest
  rw [List.reverse_append, List.reverse_cons, List.append_assoc, List.singleton_append, List.eraseP_append_right _ hnewer,
    List.eraseP_cons_of_pos (by simp [hx])]
  simp

/-- A notice that arrives at a full queue displaces one or is dropped, and the mark is set (R188). -/
theorem queueNotice_full {k : NoticeKind} {v0 v1 v2 : Word} {s : State} (hq : s.canQueue = true) (hfull : s.nq.waiting.length = 32) :
    queueNotice k v0 v1 v2 s = { s with nq := { s.nq with
      waiting := displace { kind := k, u := s.pu.u, v0 := v0, v1 := v1, v2 := v2 } s.nq.waiting, dropped := true } } := by
  have hno : ¬ s.nq.waiting.length < Config.noticeMax := by
    rw [hfull]
    decide
  unfold queueNotice
  rw [if_pos hq]
  exact if_neg hno

/-- The dropped mark is the item of the status body after the notices waiting at the four priorities (R182). -/
theorem statusWords_dropped (s : State) : (statusWords s)[76]? = some (wBool s.nq.dropped) := by
  have hsplit : statusWords s = StopDistance.wordsBeforeStop s ++ (stopStatus s ++ (setStatus s ++ (recordStatus s ++ (noticeStatus s ++
      (List.range Config.laneCount).flatMap (laneStatus s))))) := by
    unfold statusWords StopDistance.wordsBeforeStop
    simp only [List.append_assoc]
  have hlen := StopDistance.wordsBeforeStop_length s
  rw [hsplit, List.getElem?_append_right (by rw [hlen]; decide), hlen]
  rfl

/-- Settles O22: the displaced notice is the newest of the lowest priority, and the mark stands until a notice is passed. -/
theorem fullNoticeQueueDisplaces : Obligations.FullNoticeQueueDisplaces := by
  intro k v0 v1 v2 s hq hlen
  have hfull := queueNotice_full (k := k) (v0 := v0) (v1 := v1) (v2 := v2) hq hlen
  refine ⟨fun pre x post hw hmost hpost hk => ?_, fun hnone => ?_, fun n => ⟨rfl, fun hl hown => ?_⟩, 76, statusWords_dropped⟩
  · have hx : x ∈ s.nq.waiting := by
      rw [hw]
      exact List.mem_append_right _ List.mem_cons_self
    have hlowest : lowestPriority s.nq.waiting = x.kind.priority := Nat.le_antisymm (lowestPriority_le hmost) (le_lowestPriority hx)
    rw [hfull, displace, hlowest, if_pos hk, hw, dropNewest_eq rfl hpost]
  · have hnot : ¬ k.priority < lowestPriority s.nq.waiting := Nat.not_lt.2 (lowestPriority_le hnone)
    rw [hfull, displace, if_neg hnot]
  · rw [hfull, passNotice_eq n (by exact hq) (by exact hown) (by exact hl)]
    exact ⟨_, List.mem_append_right _ (List.mem_singleton_self _), rfl⟩

/-! ### NOTICE_SENT (R189) -/

/-- Settles O23: a notice in flight that no RESET discarded is reported. -/
theorem sentNoticeIsGone : Obligations.SentNoticeIsGone := by
  intro n s hf hv
  have hreport : reportNotice s = { s with
      nq := { s.nq with inFlight := none }, ll := { s.ll with own := s.ll.own.filter (fun f => f.cls != .notice) } } := by
    unfold reportNotice
    rw [if_pos ⟨by rw [hf]; rfl, hv⟩]
    rfl
  exact congrArg done hreport

end Sys2Proof.OwnFrames
end

section
/-! PROOFS. Frames as their bytes stand (10.1, 10.4): a frame that only passes is forwarded, and the bytes of a command spell its
content again (R174, R175, R177). -/

namespace Sys2Proof.FrameBytes

open Sys2Proof Sys2Proof.Machine Sys2Proof.Claims Sys2Proof.Laws

/-! ### Frames that pass (R174, R175) -/

/-- A frame that only passes is forwarded, and nothing else is done with it. -/
theorem arriveRaw_passes {p : Port} {f : Frame} {s : State} (h : Passes s f) : arriveRaw p f s = forwarded p.other f s := by
  rw [← forward_eq_forwarded]
  cases f with
  | foreign ethertype payload => rfl
  | line f =>
    show receive p f (judgeFrame f) s = _
    unfold receive
    cases hs : s.station with
    | none => rfl
    | some own =>
      obtain ⟨hsrc, hdst, hall⟩ : f.src.toNat ≠ own ∧ f.dst.toNat ≠ own ∧ f.dst.toNat ≠ 63 := h own hs
      exact (if_neg hsrc).trans ((if_neg hdst).trans (if_neg hall))

/-- Settles O15: the event of a frame that only passes is its forwarding. -/
theorem passingFrameIsForwarded : Obligations.PassingFrameIsForwarded := by
  intro p f s h
  exact congrArg done (arriveRaw_passes h)

/-! ### Content from its own bytes (10.4) -/

/-- Content that a frame's bytes can carry: only an empty request body lacks the kind byte, and a two-byte length states the body's
length. -/
def Spelled : Payload → Prop
  | .request _ none body => body = []
  | p => p.bytes.length < 65536

/-- A body read under its own kind is the content that was written, judged by its entry count if it is a map block. -/
theorem bodyOf_bytes {p : Payload} (h : Spelled p) : bodyOf p.kindByte p.bytes = p.judged := by
  cases p with
  | count c t =>
    show Except.ok (Payload.count (wordOf _ _ _ _) (wordOf _ _ _ _)) = _
    rw [wordOf_wordBytes, wordOf_wordBytes]
    rfl
  | mark cx =>
    show Except.ok (Payload.mark (wordOf _ _ _ _)) = _
    rw [wordOf_wordBytes]
    rfl
  | sighting cDet kind cls len x0 x1 =>
    show Except.ok (Payload.sighting (wordOf _ _ _ _) kind cls (halfOf _ _) (halfOf _ _) (halfOf _ _)) = _
    rw [wordOf_wordBytes, halfOf_halfBytes, halfOf_halfBytes, halfOf_halfBytes]
    rfl
  | knife k outcome position parked =>
    show Except.ok (Payload.knife k outcome (halfOf _ _) parked) = _
    rw [halfOf_halfBytes]
    rfl
  | block roll blk flags cnt items =>
    show blockOf (Payload.block roll blk flags cnt items).bytes = _
    simp only [Payload.bytes, wordBytes, List.cons_append, List.nil_append, blockOf, mapItemsOf_bytes, wordOf_wordBytes]
  | flow code => rfl
  | request line code body =>
    cases code with
    | some code => cases line <;> rfl
    | none =>
      obtain rfl : body = [] := h
      cases line <;> rfl

theorem inboundKind_kindByte (p : Payload) : inboundKind p.kindByte = true := by
  cases p with
  | request line code body => cases line <;> rfl
  | count | mark | sighting | knife | block | flow => rfl

/-- The header of a frame states the length of its body, which carries no padding. -/
theorem frameOf_len {p : Payload} (h : Spelled p) (rx : Rx) : (frameOf rx p).len.toNat = p.bytes.length := by
  have hlen : p.bytes.length < 65536 := by
    cases p with
    | request line code body =>
      cases code with
      | some code => exact h
      | none =>
        obtain rfl : body = [] := h
        exact Nat.zero_lt_succ _
    | count | mark | sighting | knife | block | flow => exact h
  show (BitVec.ofNat 16 p.bytes.length).toNat = _
  rw [BitVec.toNat_ofNat]
  exact Nat.mod_eq_of_lt hlen

/-- The bytes of a frame are judged as the content they were made of (R177). -/
theorem judgeFrame_frameOf {p : Payload} (h : Spelled p) (rx : Rx) : judgeFrame (frameOf rx p) = p.judged := by
  have hlen := frameOf_len h rx
  rw [Judgement.judgeFrame_of_body (inboundKind_kindByte p) (Nat.le_of_eq hlen), hlen]
  show bodyOf p.kindByte (p.bytes.take p.bytes.length) = _
  rw [List.take_length, bodyOf_bytes h]

/-- A frame run from its bytes is the arrival of its content. -/
theorem exec_frameOf {p : Payload} (h : Spelled p) (rx : Rx) (s : State) :
    exec (.passingFrame rx.port (.line (frameOf rx p))) s = done (arrive rx p s) := by
  show done (receive rx.port (frameOf rx p) (judgeFrame (frameOf rx p)) s) = _
  rw [judgeFrame_frameOf h]
  rfl

/-! ### Commands that are frames -/

/-- A command that is a frame is the arrival of its content. -/
theorem exec_eq_arrive {c : Instr} {rx : Rx} {p : Payload} (h : contentOf c = some (rx, p)) (s : State) :
    exec c s = done (arrive rx p s) := by
  cases c <;> cases h <;> rfl

theorem block_bytes_length (roll blk : Word) (flags cnt : Byte) (items : List MapItem) :
    (Payload.block roll blk flags cnt items).bytes.length = 10 + 14 * items.length := by
  have hitems : (items.flatMap mapItemBytes).length = 14 * items.length := by
    induction items with
    | nil => rfl
    | cons m items ih =>
      rw [List.flatMap_cons, List.length_append, ih, List.length_cons]
      show 14 + _ = _
      omega
  show (wordBytes roll ++ wordBytes blk ++ [flags, cnt] ++ items.flatMap mapItemBytes).length = _
  rw [List.length_append, hitems]
  rfl

/-- The content of a well-formed command can stand in a frame. -/
theorem spelled_of_wf {c : Instr} {rx : Rx} {p : Payload} (hc : c.wf = true) (h : contentOf c = some (rx, p)) : Spelled p := by
  cases c with
  | countFrame | markFrame | sightingFrame | knifeReport | recordHold | recordRelease =>
    cases h
    show _ < 65536
    simp [Payload.bytes, wordBytes, halfBytes]
  | mapBlock rx roll block flags count items =>
    cases h
    have hcount : count.toNat = items.length := by
      simp only [Instr.wf, Bool.and_eq_true, beq_iff_eq] at hc
      exact hc.2
    show (Payload.block roll block flags count items).bytes.length < 65536
    rw [block_bytes_length]
    omega
  | powerOn | portLinkChange | passingFrame | portIdle | silenceTimerExpiry | confirmTimerExpiry | reelRecordSent | noticeSent
  | resetTakesEffect => cases h
  | readStatus | readTable | loadMachine | loadPeers | loadBankActive | loadBankPending | cancelPending | loadRollHeader
  | setLateralOffset | reset | unknownRequest | rollStart | rollEnd | markResync | doffNow | doffComplete | removalReport | resume
  | knifeRetry =>
    cases h
    show _ < 65536
    simp only [Instr.wf, bodyFits, Bool.and_eq_true, decide_eq_true_eq] at hc
    simp only [Payload.bytes, List.length_cons, List.length_append, List.length_nil]
    omega

/-- Settles O17: the command and its bytes are the arrival of one content. -/
theorem commandIsItsFrameBytes : Obligations.CommandIsItsFrameBytes := by
  intro c rx p hc h s
  rw [exec_eq_arrive h, exec_frameOf (spelled_of_wf hc h)]

end Sys2Proof.FrameBytes
end

section
/-! PROOFS. What executing a request answers (10.5): accepted or refused with the state as it was, and one reply to each request taken
(R177, R180). -/

namespace Sys2Proof.Replies

open Sys2Proof Sys2Proof.Machine Sys2Proof.Claims Sys2Proof.Laws Sys2Proof.FrameBytes

/-! ### Accepted, or refused without effect (R180) -/

/-- The request is accepted, or refused with the state as it was and an index only for a field or an item (R180). -/
def Answers (s : State) (a : Answer) : Prop :=
  a.status = .accepted ∨ ∃ st i, (i ≠ 0 → st = .invalid ∨ st = .notReady) ∧ a = deny st i s

/-- The request answers so and is no accepted RESET, so that its reply alone follows (R184). -/
structure Plain (s : State) (a : Answer) : Prop where
  answers : Answers s a
  resets : a.resets = false

variable {s : State}

theorem plain_accept (t : State) : Plain s (accept t) := ⟨.inl rfl, rfl⟩

theorem plain_deny {st : ReplyStatus} {i : Nat} (h : i ≠ 0 → st = .invalid ∨ st = .notReady) : Plain s (deny st i s) :=
  ⟨.inr ⟨st, i, h, rfl⟩, rfl⟩

theorem plain_invalid (i : Nat) : Plain s (deny .invalid i s) := plain_deny fun _ => .inl rfl

theorem plain_notReady (i : Nat) : Plain s (deny .notReady i s) := plain_deny fun _ => .inr rfl

/-- A refusal for the part's state, or of an unknown kind, names no field. -/
theorem plain_refusal (st : ReplyStatus) : Plain s (deny st 0 s) := plain_deny fun h => absurd rfl h

theorem plain_bare (body : List Byte) (go : State → State) : Plain s (bare body s go) := by
  unfold bare
  split
  · exact plain_accept _
  · exact plain_invalid 0

/-! ### Table requests -/

theorem plain_readStatus (body : List Byte) : Plain s (readStatus body s) := by
  unfold readStatus
  split
  · exact ⟨.inl rfl, rfl⟩
  · exact plain_invalid 0

theorem plain_readTable (body : List Byte) : Plain s (readTable body s) := by
  unfold readTable
  split
  · exact ⟨.inl rfl, rfl⟩
  · exact plain_invalid _

theorem plain_loadMachine (body : List Byte) : Plain s (loadMachine body s) := by
  unfold loadMachine
  split
  · split
    · exact plain_accept _
    · exact plain_invalid _
  · exact plain_refusal .busy

theorem plain_loadPeers (body : List Byte) : Plain s (loadPeers body s) := by
  unfold loadPeers
  split
  · split
    · exact plain_accept _
    · exact plain_invalid _
  · exact plain_refusal .busy

theorem plain_loadBank (body : List Byte) : Plain s (loadBank body s) := by
  unfold loadBank
  split
  · split_ifs
    · split
      · exact plain_accept _
      · exact plain_invalid _
    · exact plain_refusal .busy
    · split
      · exact plain_accept _
      · exact plain_invalid _
    · exact plain_invalid 1
  · exact plain_invalid 3

theorem plain_loadRollHeader (body : List Byte) : Plain s (loadRollHeader body s) := by
  unfold loadRollHeader
  split
  · exact plain_accept _
  · exact plain_invalid _

theorem plain_setLateralOffset (body : List Byte) : Plain s (setLateralOffset body s) := by
  unfold setLateralOffset
  split
  · exact plain_notReady 0
  · split
    · exact plain_invalid 0
    · split <;> exact plain_accept _

/-- A table request of another kind than RESET. -/
theorem plain_tableRequest {code : Byte} (hc : code ≠ codeReset) (body : List Byte) : Plain s (tableRequest code body s) := by
  unfold tableRequest
  split_ifs
  · exact plain_readStatus body
  · exact plain_readTable body
  · exact plain_loadMachine body
  · exact plain_loadPeers body
  · exact plain_loadBank body
  · exact plain_bare body _
  · exact plain_loadRollHeader body
  · exact plain_setLateralOffset body
  · exact plain_refusal .unknown

theorem answers_resetRequest (body : List Byte) : Answers s (resetRequest body s) := by
  unfold resetRequest
  split
  · exact .inl rfl
  · exact (plain_invalid 0).answers

/-! ### Line commands -/

theorem plain_rollStart (body : List Byte) : Plain s (rollStart body s) := by
  unfold rollStart
  split
  · split
    · exact plain_notReady _
    · split
      · exact plain_bare body _
      · exact plain_notReady 0
  · exact plain_refusal .busy

theorem plain_rollEnd (body : List Byte) : Plain s (rollEnd body s) := by
  unfold rollEnd
  split
  · exact plain_refusal .busy
  · exact plain_bare body _

theorem plain_markResync (body : List Byte) : Plain s (markResync body s) := by
  unfold markResync
  split
  · split
    · exact plain_invalid 0
    · split
      · exact plain_invalid 1
      · exact plain_accept _
  · exact plain_refusal .busy

theorem plain_doffNow (body : List Byte) : Plain s (doffNow body s) := by
  unfold doffNow
  split
  · split
    · exact plain_bare body _
    · exact plain_notReady 0
  · exact plain_refusal .busy

theorem plain_doffComplete (body : List Byte) : Plain s (doffComplete body s) := by
  unfold doffComplete
  split
  · exact plain_bare body _
  · exact plain_refusal .busy

theorem plain_removalReport (body : List Byte) : Plain s (removalReport body s) := by
  unfold removalReport
  split
  · split
    · exact plain_accept _
    · exact plain_invalid _
  · exact plain_refusal .notHalted

theorem plain_resume (body : List Byte) : Plain s (resume body s) := by
  unfold resume
  split
  · exact plain_bare body _
  · exact plain_refusal .notHalted

theorem plain_knifeRetry (body : List Byte) : Plain s (knifeRetry body s) := by
  unfold knifeRetry
  split
  · split
    · exact plain_invalid 1
    · split
      · exact plain_accept _
      · exact plain_refusal .busy
  · exact plain_invalid 0

theorem plain_lineCommand (code : Byte) (body : List Byte) : Plain s (lineCommand code body s) := by
  unfold lineCommand
  split_ifs
  · exact plain_rollStart body
  · exact plain_rollEnd body
  · exact plain_markResync body
  · exact plain_doffNow body
  · exact plain_doffComplete body
  · exact plain_removalReport body
  · exact plain_resume body
  · exact plain_knifeRetry body
  · exact plain_refusal .unknown

/-! ### Every request -/

/-- Every request but RESET answers without resetting, and leaves the replies and the lines (R180). -/
theorem execute_plain {line : Bool} {code : Byte} (h : line = true ∨ code ≠ codeReset) (body : List Byte) (s : State) :
    Plain s (execute line (some code) body s) ∧ Keeps s (execute line (some code) body s).state := by
  cases line with
  | true => exact ⟨plain_lineCommand code body, keeps_lineCommand code body s⟩
  | false =>
    have hc : code ≠ codeReset := h.resolve_left Bool.false_ne_true
    exact ⟨plain_tableRequest hc body, keeps_tableRequest code hc body s⟩

/-- RESET is executed by itself alone (R184). -/
theorem execute_reset (body : List Byte) (s : State) : execute false (some codeReset) body s = resetRequest body s := rfl

theorem execute_answers (line : Bool) (code : Option Byte) (body : List Byte) (s : State) : Answers s (execute line code body s) := by
  cases code with
  | none => exact (plain_refusal .unknown).answers
  | some code =>
    by_cases h : line = true ∨ code ≠ codeReset
    · exact (execute_plain h body s).1.answers
    · obtain ⟨hline, hcode⟩ : line = false ∧ code = codeReset := by simpa [not_or] using h
      rw [hline, hcode, execute_reset]
      exact answers_resetRequest body

/-- Settles O59: what is not accepted is denied, with the state as it was. -/
theorem refusedRequestChangesNothing : Obligations.RefusedRequestChangesNothing := by
  intro line code body s hrefused
  rcases execute_answers line code body s with haccepted | ⟨st, i, hi, hdenied⟩
  · exact absurd haccepted hrefused
  · rw [hdenied]
    exact ⟨rfl, rfl, hi⟩

/-! ### The reply (R177, R180) -/

/-- A reply goes by the links alone. -/
theorem replyTo_of_lines {t : State} (h : t.lines = s.lines) (rx : Rx) (code : Byte) (st : ReplyStatus) (i : Nat) (b : ReplyBody) :
    linked t = linked s ∧ replyTo rx code st i b t = replyTo rx code st i b s := by
  obtain ⟨-, -, ha, hb⟩ : t.ll.straps = s.ll.straps ∧ t.ll.resetting = s.ll.resetting ∧ t.ll.portA.link = s.ll.portA.link ∧
      t.ll.portB.link = s.ll.portB.link := by simpa only [State.lines, Prod.mk.injEq] using h
  unfold linked replyTo queued
  rw [ha, hb]
  exact ⟨rfl, rfl⟩

/-- What keeps the replies and the lines is followed by one reply, of the state before (R180). -/
theorem repliedOnce_answered {x : State} (h : Keeps s x) (rx : Rx) (code : Byte) (st : ReplyStatus) (i : Nat) (b : ReplyBody) :
    RepliedOnce rx code st i b s (endEvent (answered rx code st i b x)) := by
  obtain ⟨hlinked, hreply⟩ := replyTo_of_lines h.lines rx code st i b
  have hended := congrArg Fixed.replies (SetChange.ended_fixed rx code st i b x)
  rw [hlinked, hreply] at hended
  have hbefore : x.ll.replies = ownOf .reply s := h.replies
  unfold RepliedOnce
  rw [← hbefore]
  exact hended

/-- A request that is executed is answered once (R180). -/
theorem request_answered_once {rx : Rx} {line : Bool} {code : Byte} (ha : Asked s rx) (h : line = true ∨ code ≠ codeReset)
    (body : List Byte) : ∃ x status index rb, done (arrive rx (.request line (some code) body) s) = .next x ∧
      RepliedOnce rx code status index rb (passedOn rx (.request line (some code) body) s) x := by
  obtain ⟨hplain, hkeeps⟩ := execute_plain h body (passedOn rx (.request line (some code) body) s)
  have hexec := congrArg (fun resets => { execute line (some code) body (passedOn rx (.request line (some code) body) s) with
    resets := resets }) hplain.resets
  have harrive := arrive_answered ha hexec ((ready_of ha).kept hkeeps)
  exact ⟨_, _, _, _, congrArg done harrive, repliedOnce_answered hkeeps ..⟩

/-- Without room for its reply a request is refused, and is not executed (R180). -/
theorem arrive_backlog {rx : Rx} {line : Bool} {code : Option Byte} {body : List Byte} (ha : Addressed s rx)
    (hsrc : ∀ t, s.peers = some t → rx.src.toNat = t.lineController) (hfull : 16 ≤ s.ll.count .reply) :
    arrive rx (.request line code body) s =
      refused rx.src (if line then 0x21 else 0x20) .backlog (passedOn rx (.request line code body) s) := by
  obtain ⟨q, a, hport, -⟩ := passedOn_rest rx (.request line code body) s
  have hown : (passedOn rx (.request line code body) s).ll.own = s.ll.own := by
    rw [hport]
    exact LineLink.setPort_own ..
  have hno : ¬ (passedOn rx (.request line code body) s).ll.room .reply = true := by
    unfold LineLink.count at hfull
    simp only [LineLink.room, LineLink.count, hown, OwnClass.capacity, decide_eq_true_eq]
    omega
  rw [arrive_request ha hsrc]
  unfold request
  rw [if_neg hno, refuse_eq_refused]
  rfl

/-- A request without a kind byte is answered UNKNOWN (notes/assumptions/18.md). -/
theorem arrive_empty {rx : Rx} {line : Bool} (ha : Asked s rx) : arrive rx (.request line none []) s =
    answered rx Config.replyKindOfEmpty .unknown 0 .empty (passedOn rx (.request line none []) s) := by
  rw [arrive_asked ha]
  exact queueOwn_eq_answered (ready_of ha) rx Config.replyKindOfEmpty .unknown 0 .empty

/-- Settles O60: the bytes are the request's, and a request taken is answered once, refused, or UNKNOWN. -/
theorem everyRequestGetsOneReply : Obligations.EveryRequestGetsOneReply := by
  intro rx line code body s hlen p
  have hspelled : Spelled p := by
    show (code :: body).length < 65536
    rw [List.length_cons]
    omega
  refine ⟨fun ha hkind => ?_, fun ha hsrc hfull => ?_, fun ha => ?_⟩
  · rw [exec_frameOf hspelled]
    exact request_answered_once ha hkind body
  · rw [exec_frameOf hspelled]
    exact congrArg done (arrive_backlog ha hsrc hfull)
  · rw [exec_frameOf (p := .request line none []) (by rfl)]
    exact congrArg done (arrive_empty ha)

end Sys2Proof.Replies
end

section
/-! PROOFS. RESET taken, LOAD_PEERS, and the requests that only read (10.2, 10.5; R176, R180, R182 to R184). -/

namespace Sys2Proof.TableRequests

open Sys2Proof Sys2Proof.Machine Sys2Proof.Claims Sys2Proof.Laws Sys2Proof.Sightings

/-! ### RESET (R184) -/

section Reset

variable {s : State}

/-- While a RESET waits no notice is queued. -/
theorem queueNotice_resetting (h : s.ll.resetting = true) (k : NoticeKind) (v0 v1 v2 : Word) : queueNotice k v0 v1 v2 s = s := by
  unfold queueNotice
  exact if_neg (by simp [State.canQueue, h])

theorem expireSilence_resetting (h : s.ll.resetting = true) : expireSilence s = s := by
  unfold expireSilence
  exact if_neg (by simp [h])

theorem expireConfirm_resetting (h : s.ll.resetting = true) (j : Nat) : expireConfirm j s = s := by
  unfold expireConfirm
  split
  · exact if_neg (by simp [h])
  · rfl

/-- The event of a command that does nothing while a RESET waits is nothing. -/
theorem done_resetting {x : State} (h : s.ll.resetting = true) (hx : x = s) : done x = .next s := by
  rw [hx]
  exact congrArg Host.Outcome.next (endEvent_resetting s h)

/-- What waits goes, and the replies with it; so the reply of the RESET has room (R184). -/
theorem ready_discardWaiting (h : Ready s) : Ready (discardWaiting s) := by
  obtain ⟨hcan, hroom⟩ := h
  refine ⟨hcan, decide_eq_true ?_⟩
  exact Nat.lt_of_le_of_lt (count_filter_map_le s.ll.own OwnFrame.discardWaiting _ (fun _ => rfl) .reply) (of_decide_eq_true hroom)

/-- A RESET taken leaves its reply queued behind what is being sent, and the mark that it waits. -/
theorem exec_reset {rx : Rx} (ha : Asked s rx) : exec (.reset rx []) s = .next (markResetting true
    (answered rx 9 .accepted 0 .empty (discardWaiting (passedOn rx (.request false (some 9) []) s)))) := by
  have harrive : arrive rx (.request false (some codeReset) []) s = markResetting true
      (answered rx 9 .accepted 0 .empty (discardWaiting (passedOn rx (.request false (some 9) []) s))) := by
    rw [arrive_asked ha]
    exact congrArg (markResetting true) (queueOwn_eq_answered (ready_discardWaiting (ready_of ha)) rx 9 .accepted 0 .empty)
  show done (arrive rx (.request false (some codeReset) []) s) = _
  rw [harrive]
  exact congrArg Host.Outcome.next (endEvent_resetting _ rfl)

/-- A broadcast sent on leaves the links, and all of the Line Link Interface but one port. -/
theorem passedOn_lines (rx : Rx) (p : Payload) (s : State) : (passedOn rx p s).lines = s.lines := by
  obtain ⟨q, a, hport, hlink⟩ := passedOn_rest rx p s
  rw [hport]
  cases q <;> simp only [State.lines, LineLink.setPort, LineLink.port] at hlink ⊢ <;> rw [hlink]

theorem station_passedOn {rx : Rx} {p : Payload} : (passedOn rx p s).station = s.station := by
  obtain ⟨q, a, hport, -⟩ := passedOn_rest rx p s
  rw [hport]
  unfold State.station
  rw [LineLink.setPort_straps]

theorem answered_own (rx : Rx) (code : Byte) (st : ReplyStatus) (i : Nat) (b : ReplyBody) (s : State) :
    (answered rx code st i b s).ll.own = s.ll.own ++ if linked s then [replyTo rx code st i b s] else [] := by
  unfold answered
  split
  · rfl
  · exact (List.append_nil _).symm

end Reset

/-- Settles O5: while a RESET waits nothing expires and nothing is queued, and a RESET taken leaves its reply and the mark alone. -/
theorem resetQueuesItsReplyAlone : Obligations.ResetQueuesItsReplyAlone := by
  refine ⟨fun s h => ⟨?_, fun j => ?_, queueNotice_resetting h, fun c dst tag body => OwnFrames.queueOwn_of_shut (.inr h)⟩,
    fun rx s ha => ?_⟩
  · exact done_resetting h (expireSilence_resetting h)
  · exact done_resetting h (expireConfirm_resetting h j)
  · have hexec := exec_reset ha
    obtain ⟨hlinked, hreply⟩ := Replies.replyTo_of_lines (passedOn_lines rx (.request false (some 9) []) s) rx 9 .accepted 0 .empty
    have hown := answered_own rx 9 .accepted 0 .empty (discardWaiting (passedOn rx (.request false (some 9) []) s))
    obtain ⟨q, a, hport, -⟩ := passedOn_rest rx (.request false (some 9) []) s
    generalize passedOn rx (.request false (some 9) []) s = y at *
    have hsent : (if linked (discardWaiting y) then [replyTo rx 9 .accepted 0 .empty (discardWaiting y)] else []) =
        if linked s then [replyTo rx 9 .accepted 0 .empty s] else [] := by
      rw [← hlinked, ← hreply]
      rfl
    have hframes : y.ll.own = s.ll.own := by
      rw [hport]
      exact LineLink.setPort_own ..
    refine ⟨_, hexec, rfl, ?_, ?_, ?_, ?_, ?_⟩
    · rw [← hframes, ← hsent]
      exact hown
    · show y.ll.capture = s.ll.capture
      rw [hport]
      exact LineLink.setPort_capture ..
    · show y.ll.refusals = s.ll.refusals
      rw [hport]
      exact LineLink.setPort_refusals ..
    · show y.ll.straps = s.ll.straps
      rw [hport]
      exact LineLink.setPort_straps ..
    · rw [hport]
      rfl

/-! ### LOAD_PEERS (R176) -/

section Peers

variable {s : State} {own : Nat}

/-- A station that a role may name passes its test, and no other does (R176). -/
theorem peerOk_iff (hs : s.station = some own) (w : Word) : s.peerOk w = true ↔ GoodStation own w.toNat := by
  simp only [State.peerOk, within, State.notOwn, hs, GoodStation, Bool.and_eq_true, decide_eq_true_eq, bne_iff_ne, ne_eq,
    Option.some.injEq, and_assoc]
  constructor
  · rintro ⟨h1, h2, h3⟩
    exact ⟨h1, h2, fun h => h3 h.symm⟩
  · rintro ⟨h1, h2, h3⟩
    exact ⟨h1, h2, fun h => h3 h.symm⟩

/-- The tests of LOAD_PEERS in ascending field number, from field k on (R176). -/
def peerTests (s : State) (k : Nat) (ws : List Word) : List (Nat × Bool) := (ws.zipIdx k).map fun x => (x.2, s.peerOk x.1)

/-- The first station that fails is named by its place. -/
theorem firstFailing_peerTests {pre post : List Word} {w : Word} (hpre : ∀ v ∈ pre, s.peerOk v = true) (hw : s.peerOk w = false)
    (k : Nat) : firstFailing (peerTests s k (pre ++ w :: post)) = some (k + pre.length) := by
  induction pre generalizing k with
  | nil =>
    simp only [peerTests, List.nil_append, List.zipIdx_cons, List.map_cons, firstFailing, hw]
    rfl
  | cons v pre ih =>
    have hv := hpre v List.mem_cons_self
    have hrest := ih (fun u hu => hpre u (List.mem_cons_of_mem v hu)) (k + 1)
    simp only [peerTests, List.cons_append, List.zipIdx_cons, List.map_cons, firstFailing, hv, if_true, List.length_cons] at hrest ⊢
    rw [hrest]
    congr 1
    omega

/-- Seven words of which one fails name its field (R176). -/
theorem peersOf_of_fails {ws : List Word} {n : Nat} (hlen : ws.length = 7) (hf : firstFailing (peerTests s 1 ws) = some n) :
    s.peersOf (ws.flatMap wordBytes) = .error n := by
  unfold State.peersOf
  rw [wordsOf_wordBytes]
  match ws, hlen with
  | [d, m, i, k, l, p, r], _ =>
    dsimp only
    split
    · rename_i hm
      rw [Option.some.inj (hm.symm.trans hf)]
    · rename_i hm
      exact absurd (hm.symm.trans hf) (by simp)

/-- Seven stations that roles may name read back as their table (R176). -/
theorem peersOf_peerBytes (hs : s.station = some own) {t : PeerTable} (ht : ∀ n ∈ [t.drive, t.markSensor, t.inspection,
    t.knifePositioner, t.lineController, t.mapServer, t.recordReceiver], GoodStation own n) : s.peersOf (peerBytes t) = .ok t := by
  have hgood : ∀ n, GoodStation own n → (wNat n).toNat = n ∧ s.peerOk (wNat n) = true := by
    intro n hn
    have hword : (wNat n).toNat = n := wNat_toNat n (by unfold GoodStation at hn; omega)
    exact ⟨hword, (peerOk_iff hs _).2 (by rw [hword]; exact hn)⟩
  simp only [List.mem_cons, List.not_mem_nil, or_false, forall_eq_or_imp, forall_eq] at ht
  obtain ⟨hd, hm, hi, hk, hl, hp, hr⟩ := ht
  have hbytes : peerBytes t = ([t.drive, t.markSensor, t.inspection, t.knifePositioner, t.lineController, t.mapServer,
      t.recordReceiver].map wNat).flatMap wordBytes := rfl
  unfold State.peersOf
  rw [hbytes, wordsOf_wordBytes]
  simp only [List.map_cons, List.map_nil, firstFailing, hgood _ hd, hgood _ hm, hgood _ hi, hgood _ hk, hgood _ hl, hgood _ hp,
    hgood _ hr, if_true]

end Peers

/-- Settles O57: the seven stations read back, and the first that fails is named by its place. -/
theorem peerTableIsLoaded : Obligations.PeerTableIsLoaded := by
  intro rx own t s ha hs hset
  refine ⟨fun ht => ?_, fun pre post w hlen hpre hw => ?_⟩
  · have hexec : execute false (some 4) (peerBytes t) (passedOn rx (.request false (some 4) (peerBytes t)) s) =
        accept { passedOn rx (.request false (some 4) (peerBytes t)) s with peers := some t } := by
      show loadPeers _ _ = _
      unfold loadPeers
      rw [if_pos (by rw [passedOn_eq]; exact hset), peersOf_peerBytes (own := own) (station_passedOn.trans hs) ht]
    exact congrArg done (arrive_answered ha hexec (ready_of ha))
  · refine arrive_denied ha ?_
    show loadPeers _ _ = _
    unfold loadPeers
    have hstation : (passedOn rx (.request false (some codeLoadPeers) ((pre ++ w :: post).flatMap wordBytes)) s).station = some own :=
      station_passedOn.trans hs
    have hfails : firstFailing (peerTests (passedOn rx (.request false (some codeLoadPeers) ((pre ++ w :: post).flatMap wordBytes)) s) 1
        (pre ++ w :: post)) = some (1 + pre.length) :=
      firstFailing_peerTests (fun v hv => (peerOk_iff hstation v).2 (hpre v hv))
        (Bool.eq_false_iff.2 (fun h => hw ((peerOk_iff hstation w).1 h))) 1
    rw [if_pos (by rw [passedOn_eq]; exact hset), peersOf_of_fails hlen hfails, Nat.add_comm]

/-! ### READ_STATUS, READ_TABLE and unknown requests (R180, R182, R183) -/

/-- Selector and index are read from their two words, and judged in this order (R183). -/
theorem selectorIn_words (sel idx : Word) : selectorIn (wordBytes sel ++ wordBytes idx) =
    if 3 < sel.toNat then .error 1 else if idx.toNat < rowsOf sel.toNat then .ok (sel.toNat, idx.toNat) else .error 2 := by
  have hwords : wordsOf (wordBytes sel ++ wordBytes idx) = some [sel, idx] := wordsOf_wordBytes [sel, idx]
  unfold selectorIn
  rw [hwords]

/-- A selector and an index in their ranges name a row (R183). -/
theorem selectorIn_ok {sel idx : Nat} (hsel : sel ≤ 3) (hidx : idx < rowsOf sel) :
    selectorIn (wordBytes (wNat sel) ++ wordBytes (wNat idx)) = .ok (sel, idx) := by
  have hrows : rowsOf sel ≤ 1024 := by
    unfold rowsOf
    split <;> decide
  rw [selectorIn_words, wNat_toNat sel (by omega), wNat_toNat idx (by omega), if_neg (by omega), if_pos hidx]

/-- An index beyond the rows of its selector's table fails as field 2 (R183). -/
theorem selectorIn_index {sel idx : Word} (hsel : sel.toNat ≤ 3) (hidx : rowsOf sel.toNat ≤ idx.toNat) :
    selectorIn (wordBytes sel ++ wordBytes idx) = .error 2 := by
  rw [selectorIn_words, if_neg (by omega), if_neg (by omega)]

/-- A request of a kind that the part does not know is denied (R180). -/
theorem execute_unknown {line : Bool} {code : Byte} (h : knownKind line code = false) (body : List Byte) (s : State) :
    execute line (some code) body s = deny .unknown 0 s := by
  have hne : ∀ c, knownKind line c = true → code ≠ c := by
    rintro c hc rfl
    rw [h] at hc
    cases hc
  cases line with
  | true =>
    show lineCommand code body s = _
    simp only [lineCommand, hne codeRollStart rfl, hne codeRollEnd rfl, hne codeMarkResync rfl, hne codeDoffNow rfl,
      hne codeDoffComplete rfl, hne codeRemovalReport rfl, hne codeResume rfl, hne codeKnifeRetry rfl, if_false]
  | false =>
    show tableRequest code body s = _
    simp only [tableRequest, hne codeReadStatus rfl, hne codeReadTable rfl, hne codeLoadMachine rfl, hne codeLoadPeers rfl,
      hne codeLoadBank rfl, hne codeCancelPending rfl, hne codeLoadRollHeader rfl, hne codeSetLateralOffset rfl, hne codeReset rfl,
      if_false]

section Reading

variable {rx : Rx} {s : State} {body : List Byte}

/-- READ_TABLE with a row's selector and index answers the row. -/
theorem exec_readTable_ok (ha : Asked s rx) {sel idx : Nat} (h : selectorIn body = .ok (sel, idx)) :
    exec (.readTable rx body) s = .next (endEvent (answered rx 2 .accepted 0
      (.row sel idx (rowWords (passedOn rx (.request false (some 2) body) s) sel idx))
      (passedOn rx (.request false (some 2) body) s))) := by
  have hexec : ∀ y, execute false (some codeReadTable) body y = { accept y with body := .row sel idx (rowWords y sel idx) } := by
    intro y
    show readTable body y = _
    unfold readTable
    rw [h]
  exact congrArg done (arrive_answered ha (hexec _) (ready_of ha))

/-- READ_TABLE with a field that fails names it. -/
theorem exec_readTable_error (ha : Asked s rx) {n : Nat} (h : selectorIn body = .error n) : exec (.readTable rx body) s =
    .next (endEvent (answered rx 2 .invalid n .empty (passedOn rx (.request false (some 2) body) s))) := by
  refine arrive_denied ha ?_
  show readTable body _ = _
  unfold readTable
  rw [h]

end Reading

/-- Settles O55: what is read is formed of the state that is answered from, and nothing else of it is changed. -/
theorem readRequestsChangeNothing : Obligations.ReadRequestsChangeNothing := by
  intro rx s ha
  refine ⟨?_, fun sel idx hrow => ?_, fun sel idx hsel => ?_, fun sel idx hidx => ?_, fun line code body hunknown => ?_⟩
  · have hexec : ∀ y, execute false (some codeReadStatus) [] y = { accept y with body := .status (statusWords y) } := fun y => rfl
    exact congrArg done (arrive_answered ha (hexec _) (ready_of ha))
  · refine exec_readTable_ok ha (selectorIn_ok (by omega) ?_)
    rcases hrow with ⟨rfl, hidx⟩ | ⟨rfl, hidx⟩ | ⟨rfl, hidx⟩ | ⟨rfl, hidx⟩ <;> exact hidx
  · exact exec_readTable_error ha (by rw [selectorIn_words, if_pos hsel])
  · refine exec_readTable_error ha ?_
    rcases hidx with ⟨rfl, hidx⟩ | ⟨rfl, hidx⟩ | ⟨rfl, hidx⟩ | ⟨rfl, hidx⟩ <;> exact selectorIn_index (by decide) hidx
  · exact arrive_denied ha (execute_unknown hunknown body _)

end Sys2Proof.TableRequests
end

section
/-! PROOFS. The output arbiter (10.3): a port that falls idle has sent what it was sending, and begins the frame that the classes put
first (R179). -/

namespace Sys2Proof.Arbiter

open Sys2Proof Sys2Proof.Machine Sys2Proof.Claims

variable {p : Port} {f : OwnFrame} {pre post l : List OwnFrame} {s : State}

/-! ### What was being sent -/

@[simp] theorem sentAt_cls (p : Port) (f : OwnFrame) : (sentAt p f).cls = f.cls := by
  unfold sentAt
  split
  · exact OwnFrame.setStage_cls ..
  · rfl

/-- What waits at the port is what waited: a frame sent there has gone out on it. -/
theorem sentAt_waiting : (sentAt p f).stage p = .waiting ↔ f.stage p = .waiting := by
  unfold sentAt
  split
  · rename_i h
    simp [h]
  · exact Iff.rfl

theorem sentAt_of_waiting (h : f.stage p = .waiting) : sentAt p f = f := if_neg (by simp [h])

/-- A frame that waits at a port has not gone out on both. -/
theorem out_of_waiting (h : f.stage p = .waiting) : f.out = false := by
  unfold OwnFrame.out
  cases p <;> simp only [OwnFrame.stage] at h <;> simp [h]

/-- The frames left at a port once it has sent, as far as they wait, are those that waited. -/
theorem exists_waiting_of_sent {g : OwnFrame} (hg : g ∈ notOut (l.map (sentAt p))) (hw : g.stage p = .waiting) :
    ∃ x ∈ l, x.stage p = .waiting ∧ x.cls = g.cls := by
  obtain ⟨x, hx, rfl⟩ := List.mem_map.1 (List.mem_filter.1 hg).1
  exact ⟨x, hx, sentAt_waiting.1 hw, (sentAt_cls p x).symm⟩

/-- The frame served next is so also once the port has sent (R179). -/
theorem ServedNext.sent (h : ServedNext p pre f post) :
    ServedNext p (notOut (pre.map (sentAt p))) f (notOut (post.map (sentAt p))) := by
  obtain ⟨hf, hpre, hpost⟩ := h
  refine ⟨hf, fun g hg hw => ?_, fun g hg hw => ?_⟩
  · obtain ⟨x, hx, hxw, hcls⟩ := exists_waiting_of_sent hg hw
    exact hcls ▸ hpre x hx hxw
  · obtain ⟨x, hx, hxw, hcls⟩ := exists_waiting_of_sent hg hw
    exact hcls ▸ hpost x hx hxw

theorem notOut_sent_append (hf : f.stage p = .waiting) : notOut ((pre ++ f :: post).map (sentAt p)) =
    notOut (pre.map (sentAt p)) ++ f :: notOut (post.map (sentAt p)) := by
  have hkept : (!f.out) = true := congrArg not (out_of_waiting hf)
  unfold notOut
  rw [List.map_append, List.map_cons, sentAt_of_waiting hf, List.filter_append]
  exact congrArg _ (List.filter_cons_of_pos hkept)

/-- The frame that a port has sent leaves its own frames, and the port forwards nothing. -/
theorem finishSending_eq (p : Port) (s : State) : finishSending p s =
    withPort p (notOut (s.ll.own.map (sentAt p))) { s.ll.port p with tx := none } s := by
  cases p <;> rfl

/-! ### The frame that begins -/

/-- In a class that is served before that of the frame next served none waits (R179). -/
theorem firstWaiting_none {ll : LineLink} {c : OwnClass} (h : ∀ g ∈ ll.own, g.stage p = .waiting → g.cls ≠ c) :
    ll.firstWaiting p c = none := by
  unfold LineLink.firstWaiting
  rw [List.findIdx?_eq_none_iff]
  intro g hg
  have := h g hg
  simp only [Bool.and_eq_false_imp, beq_iff_eq, beq_eq_false_iff_ne, ne_eq]
  exact fun hcls hw => this hw hcls

/-- The frame next served is the first of its class that waits. -/
theorem firstWaiting_some {ll : LineLink} (hown : ll.own = pre ++ f :: post) (h : ServedNext p pre f post) :
    ll.firstWaiting p f.cls = some pre.length := by
  obtain ⟨hf, hpre, -⟩ := h
  have hbefore : pre.findIdx? (fun g => g.cls == f.cls && g.stage p == .waiting) = none := by
    rw [List.findIdx?_eq_none_iff]
    intro g hg
    simp only [Bool.and_eq_false_imp, beq_iff_eq, beq_eq_false_iff_ne, ne_eq]
    intro hcls hw
    exact Nat.lt_irrefl _ (hcls ▸ hpre g hg hw)
  have hself : (f.cls == f.cls && f.stage p == .waiting) = true := by simp [hf]
  unfold LineLink.firstWaiting
  rw [hown, List.findIdx?_append, hbefore, List.findIdx?_cons, hself]
  exact congrArg some (Nat.zero_add _)

/-- Before a class stand the classes that are served before it (R179). -/
theorem inOrder_split (c : OwnClass) : ∃ before after, OwnClass.inOrder = before ++ c :: after ∧ ∀ x ∈ before, x.rank < c.rank := by
  cases c with
  | order => exact ⟨[], [.reply, .blockRequest, .notice, .record], rfl, by decide⟩
  | reply => exact ⟨[.order], [.blockRequest, .notice, .record], rfl, by decide⟩
  | blockRequest => exact ⟨[.order, .reply], [.notice, .record], rfl, by decide⟩
  | notice => exact ⟨[.order, .reply, .blockRequest], [.record], rfl, by decide⟩
  | record => exact ⟨[.order, .reply, .blockRequest, .notice], [], rfl, by decide⟩

/-- The arbiter takes the frame next served (R179). -/
theorem nextOwn_some {ll : LineLink} (hown : ll.own = pre ++ f :: post) (h : ServedNext p pre f post) :
    ll.nextOwn p = some pre.length := by
  have hfirst := firstWaiting_some hown h
  obtain ⟨-, hpre, hpost⟩ := h
  have hbest : ∀ c : OwnClass, c.rank < f.cls.rank → ll.firstWaiting p c = none := by
    intro c hc
    refine firstWaiting_none fun g hg hw => ?_
    rintro rfl
    rw [hown] at hg
    rcases List.mem_append.1 hg with hg | hg
    · exact Nat.lt_asymm hc (hpre g hg hw)
    · rcases List.mem_cons.1 hg with rfl | hg
      · exact Nat.lt_irrefl _ hc
      · exact Nat.not_lt.2 (hpost g hg hw) hc
  obtain ⟨before, after, hsplit, hrank⟩ := inOrder_split f.cls
  have hnone : before.findSome? (ll.firstWaiting p) = none := List.findSome?_eq_none_iff.2 fun c hc => hbest c (hrank c hc)
  unfold LineLink.nextOwn
  rw [hsplit, List.findSome?_append, hnone, List.findSome?_cons, hfirst]
  rfl

/-- Where none waits the arbiter takes none. -/
theorem nextOwn_none {ll : LineLink} (h : ∀ g ∈ ll.own, g.stage p ≠ .waiting) : ll.nextOwn p = none :=
  List.findSome?_eq_none_iff.2 fun _ _ => firstWaiting_none fun g hg hw => absurd hw (h g hg)

/-! ### PORT_IDLE -/

section WithPort

variable (p : Port) (own : List OwnFrame) (q : PortState) (s : State)

@[simp] theorem withPort_own : (withPort p own q s).ll.own = own := by cases p <;> rfl

@[simp] theorem withPort_port : (withPort p own q s).ll.port p = q := by cases p <;> rfl

end WithPort

/-- A port with link begins the own frame next served. -/
theorem beginSending_own {q : PortState} (hq : q.link = true) (h : ServedNext p pre f post) :
    beginSending p (withPort p (pre ++ f :: post) q s) = withPort p (pre ++ f.setStage p .sending :: post) q s := by
  have hnext : (withPort p (pre ++ f :: post) q s).ll.nextOwn p = some pre.length := nextOwn_some (withPort_own ..) h
  have hmodify : (pre ++ f :: post).modify pre.length (fun g => g.setStage p .sending) = pre ++ f.setStage p .sending :: post := by
    rw [List.modify_eq_take_drop, List.take_left, List.drop_left]
    rfl
  unfold beginSending
  rw [← hmodify, withPort_port, hnext]
  cases p <;> exact if_pos hq

/-- A port with link for which no own frame waits begins the passing frame that came first, if one has come. -/
theorem beginSending_passing {q : PortState} (hq : q.link = true) (htx : q.tx = none) (h : ∀ g ∈ l, g.stage p ≠ .waiting) :
    beginSending p (withPort p l q s) = withPort p l { q with tx := q.passing.head?, passing := q.passing.tail } s := by
  have hnext : (withPort p l q s).ll.nextOwn p = none := nextOwn_none (by rw [withPort_own]; exact h)
  unfold beginSending
  rw [withPort_port, hnext]
  obtain ⟨link, passing, tx, drops⟩ := q
  obtain rfl : link = true := hq
  obtain rfl : tx = none := htx
  cases passing <;> cases p <;> rfl

/-- A port without link begins none. -/
theorem beginSending_unlinked {q : PortState} (hq : q.link = false) : beginSending p (withPort p l q s) = withPort p l q s := by
  unfold beginSending
  rw [withPort_port]
  exact if_neg (by rw [hq]; exact Bool.false_ne_true)

/-- Settles O18: the port has sent, and begins the own frame that its classes put first, or a passing frame, or none. -/
theorem portIdleServesByClass : Obligations.PortIdleServesByClass := by
  intro p s
  have hidle : ∀ x, beginSending p (withPort p (notOut (s.ll.own.map (sentAt p))) { s.ll.port p with tx := none } s) = x →
      exec (.portIdle p) s = .next (endEvent x) := by
    rintro x rfl
    rw [← finishSending_eq]
    rfl
  refine ⟨fun pre f post hl hown hnext => hidle _ ?_, fun hnone hl => hidle _ ?_, fun hl => hidle _ (beginSending_unlinked hl)⟩
  · rw [hown, notOut_sent_append hnext.1]
    exact beginSending_own hl (ServedNext.sent hnext)
  · refine beginSending_passing hl rfl fun g hg hw => ?_
    obtain ⟨x, hx, hxw, -⟩ := exists_waiting_of_sent hg hw
    exact hnone x hx hxw

end Sys2Proof.Arbiter
end

section
/-! PROOFS. What a judgement of the gate, a check of R168 and an attempt to expand do to the Line Link Interface: they queue own frames
and do nothing else to it (R33, R99, R121, R143, R168, R179, R187). -/

namespace Sys2Proof.Queuing

open Sys2Proof Sys2Proof.Machine Sys2Proof.Claims Sys2Proof.Looks

/-- From `s` to `t` own frames are queued one by one, and the Line Link Interface changes in no other way. -/
inductive Queues : State → State → Prop
  | same {s t : State} (h : t.ll = s.ll) : Queues s t
  | own (c : OwnClass) (dst : Nat) (tag : Option Half) (body : OwnBody) (s : State) : Queues s (queueOwn c dst tag body s)
  | trans {s t u : State} (h : Queues s t) (k : Queues t u) : Queues s u

theorem Queues.refl (s : State) : Queues s s := .same rfl

/-- What is queued after a change of other blocks. -/
theorem Queues.after {s t u : State} (k : Queues t u) (h : t.ll = s.ll) : Queues s u := (Queues.same h).trans k

theorem Queues.foldl {α : Type} (f : State → α → State) (h : ∀ s x, Queues s (f s x)) (l : List α) : ∀ s, Queues s (l.foldl f s) := by
  induction l with
  | nil => exact Queues.refl
  | cons x l ih => exact fun s => (h s x).trans (ih _)

/-- At a port without link every own frame has gone out (R179). -/
def GoneAt (p : Port) (s : State) : Prop := (s.ll.port p).link = false ∧ ∀ f ∈ s.ll.own, f.stage p = .gone

/-- A frame queued has gone out on a port without link (R179). -/
theorem goneAt_queueOwn {p : Port} {s : State} (h : GoneAt p s) (c : OwnClass) (dst : Nat) (tag : Option Half) (body : OwnBody) :
    GoneAt p (queueOwn c dst tag body s) := by
  obtain ⟨hlink, hgone⟩ := h
  rcases queueOwn_cases c dst tag body s with ⟨-, -, f, hf, heq⟩ | ⟨-, -, heq⟩ | ⟨-, heq⟩
  · have hnew : f.stage p = .gone := by
      rw [hf]
      cases p with
      | a => exact if_neg (Bool.eq_false_iff.1 hlink)
      | b => exact if_neg (Bool.eq_false_iff.1 hlink)
    rw [heq]
    refine ⟨by cases p <;> exact hlink, fun g hg => ?_⟩
    dsimp only at hg
    split at hg
    · exact hgone g hg
    · rcases List.mem_append.1 hg with hg | hg
      · exact hgone g hg
      · rw [List.mem_singleton.1 hg]
        exact hnew
  · rw [heq]
    split
    · exact ⟨by cases p <;> exact hlink, hgone⟩
    · exact ⟨hlink, hgone⟩
  · rw [heq]
    exact ⟨hlink, hgone⟩

theorem Queues.goneAt {p : Port} {s t : State} (h : Queues s t) : GoneAt p s → GoneAt p t := by
  induction h with
  | same h =>
    unfold GoneAt
    rw [h]
    exact id
  | own c dst tag body s => exact fun hs => goneAt_queueOwn hs c dst tag body
  | trans _ _ ih ik => exact ik ∘ ih

/-! ### Orders, notices and stations -/

theorem queues_driveOrder (body : OwnBody) (s : State) : Queues s (driveOrder body s) := .own ..

theorem queues_notice (k : NoticeKind) (a b c : Word) (s : State) : Queues s (queueNotice k a b c s) :=
  .same (by rw [queueNotice_rest])

theorem queues_clears {s t : State} (h : Clears s t) : Queues s t := .same h.link

theorem queues_serveWindow (m : MachineTable) (s : State) : Queues s (serveWindow m s) := .same (by rw [Targets.serveWindow_eq])

/-- A station queues a flag order at most (R109). -/
theorem queues_takeStation (cleared : Bool) (st : Station) (num : Nat) (s : State) : Queues s (takeStation cleared st num s) := by
  by_cases hflag : st = .flag
  · subst hflag
    unfold takeStation
    split
    · dsimp only
      split
      · exact Queues.refl s
      · unfold takeFlag
        extract_lets items lanes s1
        split
        · exact (Queues.own ..).after rfl
        · exact .same rfl
    · exact Queues.refl s
  · exact queues_clears (clears_takeStation (fun h => absurd h hflag) num s)

/-! ### Looks (R121) -/

theorem queues_halt (m : MachineTable) (e : Int) (s : State) : Queues s (halt m e s) := by
  have hcut : ∀ y, Queues y (cutHalt m y) := by
    intro y
    unfold cutHalt
    extract_lets pCut y1
    exact (queues_driveOrder _ y).trans (.same rfl)
  unfold halt
  extract_lets _ s1
  split
  · exact (hcut s1).after rfl
  · exact .same rfl

theorem queues_standstillCheck (m : MachineTable) (s : State) : Queues s (standstillCheck m s) := by
  unfold standstillCheck
  split
  · exact Queues.refl s
  · extract_lets e jogs
    split_ifs
    · exact queues_halt ..
    · exact (queues_driveOrder ..).after rfl
    · exact queues_halt ..
    · exact Queues.refl s

theorem queues_sendStop (m : MachineTable) (aim : Aim) (target : Int) (late : Bool) (s : State) :
    Queues s (sendStop m aim target late s) := by
  unfold sendStop
  extract_lets ds extra kind _ s1 s2 s3
  have h1 : Queues s s1 := (queues_driveOrder ..).after rfl
  have h2 : Queues s1 s2 := by
    unfold s2
    split
    · exact queues_serveWindow m s1
    · exact Queues.refl s1
  have h3 : Queues s2 s3 := by
    unfold s3
    split
    · exact queues_notice ..
    · exact Queues.refl s2
  refine (h1.trans (h2.trans h3)).trans ?_
  split
  · exact queues_standstillCheck m s3
  · exact Queues.refl s3

theorem queues_idleLook (m : MachineTable) (s : State) : Queues s (idleLook m s) := by
  unfold idleLook
  split
  · exact .same rfl
  · extract_lets seen ds s1
    split
    · exact .same rfl
    · exact (queues_sendStop ..).after rfl

theorem queues_reviseOrder (m : MachineTable) (s : State) : Queues s (reviseOrder m s) := by
  unfold reviseOrder
  extract_lets s1
  split
  · split
    · exact (queues_driveOrder ..).after rfl
    · exact .same rfl
  · exact .same rfl

theorem queues_requestedLook (m : MachineTable) (s : State) : Queues s (requestedLook m s) := by
  unfold requestedLook
  extract_lets s1 s2
  have h1 : Queues s s1 := queues_clears (clears_dropServed s)
  have h2 : Queues s s2 := h1.trans (queues_reviseOrder m s1)
  split
  · have hcancel : Queues s1 (cancelStop s1) := (queues_driveOrder ..).after rfl
    exact (h1.trans hcancel).trans (queues_idleLook m _)
  · split
    · have hreleased : Queues s2 (releaseAll s2) := queues_clears (clears_releaseAll s2)
      exact (h2.trans hreleased).trans ((queues_sendStop ..).after rfl)
    · split
      · exact h2.trans (queues_serveWindow m s2)
      · exact h2

theorem queues_look (s : State) : Queues s (look s) := by
  unfold look
  split
  · exact Queues.refl s
  · rename_i m _
    extract_lets s0 s1
    have h0 : Queues s s0 := .same rfl
    split
    · exact h0.trans (queues_idleLook m s0)
    · exact h0.trans (queues_requestedLook m s0)
    · have h1 : Queues s s1 := h0.trans (queues_clears (clears_dropServed s0))
      split
      · exact h1.trans (queues_serveWindow m s1)
      · exact h1
    · exact h0

theorem queues_walk (s : State) : Queues s (walk s) := by
  unfold walk
  split
  · exact Queues.refl s
  · refine Queues.foldl _ (fun s d => ?_) _ s
    unfold walkStation
    split
    · extract_lets s1
      have h1 : Queues s s1 := queues_takeStation ..
      split
      · exact h1.trans (queues_look s1)
      · exact h1
    · exact Queues.refl s

/-! ### The gate (R143 to R149) -/

theorem queues_approachTest (m : MachineTable) (s : State) : Queues s (approachTest m s) := by
  have hcut : ∀ y, Queues y (cutTest m y) := by
    intro y
    unfold cutTest
    split
    · exact (queues_look _).after rfl
    · exact Queues.refl y
  unfold approachTest
  extract_lets nApp
  split
  · unfold enterApproach
    extract_lets _ s1 s2
    have h1 : Queues s s1 := (queues_driveOrder ..).after rfl
    have h2 : Queues s s2 := h1.trans (hcut s1)
    split
    · exact h2.trans (queues_look s2)
    · exact h2
  · exact Queues.refl s

theorem queues_openSet (m : MachineTable) (b : Bank) (s : State) : Queues s (openSet m b s) := by
  unfold openSet
  extract_lets start s1 s2 roll s3 s4 s5
  have h1 : Queues s s1 := by
    unfold s1
    split
    · exact Queues.refl s
    · exact Queues.foldl (fun s (e : Settled) => leave e.feat.num s) (fun s e => queues_clears (clears_leave e.feat.num s)) _ s
  have h3 : Queues s1 s3 := .same rfl
  have h5 : Queues s3 s5 := (queues_driveOrder ..).trans (queues_notice ..)
  exact ((h1.trans (h3.trans h5)).trans ((queues_walk s5).trans (queues_look _))).trans (queues_approachTest m _)

theorem queues_announce (r : HeldReason) (applies : Bool) (value : Nat) (s : State) : Queues s (announce r applies value s) := by
  unfold announce
  split
  · exact (queues_notice ..).after rfl
  · exact Queues.refl s

theorem queues_judgeGate (s : State) : Queues s (judgeGate s) := by
  unfold judgeGate
  split
  · split_ifs
    · exact queues_openSet ..
    · exact ((queues_announce ..).trans (queues_announce ..)).trans (queues_announce ..)
    · exact Queues.refl s
  · exact Queues.refl s

/-! ### Records, expansion and notices -/

theorem queues_recordSent (s : State) : Queues s (recordSent s) := by
  unfold recordSent
  split
  · exact Queues.refl s
  · exact (queues_judgeGate _).after rfl

theorem queues_passRecord (i : Nat) (r : ReelRecord) (s : State) : Queues s (passRecord i r s) := Queues.trans (.own ..) (.same rfl)

theorem queues_sendRecords (s : State) : Queues s (sendRecords s) := by
  have hpump : ∀ n y, Queues y (pumpRecords n y) := by
    intro n
    induction n with
    | zero => exact Queues.refl
    | succ n ih =>
      intro y
      unfold pumpRecords
      split
      · exact Queues.refl y
      · extract_lets s1
        have h1 : Queues y s1 := queues_passRecord ..
        split
        · exact (h1.trans (queues_recordSent s1)).trans (ih _)
        · exact h1
  exact hpump _ s

theorem queues_checkRequests (s : State) : Queues s (checkRequests s) := by
  unfold checkRequests
  split
  · refine Queues.foldl _ (fun y b => ?_) _ s
    unfold requestBlock
    split_ifs
    · exact Queues.refl y
    · exact Queues.trans (.own ..) (.same rfl)
    · exact Queues.refl y
  · exact Queues.refl s

theorem queues_expandOne (h : Header) (f b : Nat) (l : List PressEntry) (s : State) : Queues s (expandOne h f b l s) := by
  unfold expandOne
  extract_lets s1 _ s2
  have h1 : Queues s s1 := Queues.foldl (fun s e => joinForecast h e s) (fun _ _ => .same rfl) l s
  have h2 : Queues s1 s2 := .same rfl
  have hreport : Queues s2 (reportFree s2) := .same (by rw [reportFree_rest])
  exact ((h1.trans h2).trans hreport).trans (queues_checkRequests _)

theorem queues_expand (s : State) : Queues s (expand s) := by
  have hfor : ∀ n y, Queues y (expandFor n y) := by
    intro n
    induction n with
    | zero => exact Queues.refl
    | succ n ih =>
      intro y
      unfold expandFor
      split
      · exact Queues.refl y
      · exact (queues_expandOne ..).trans (ih _)
  unfold expand
  split
  · exact Queues.refl s
  · exact hfor _ s

theorem queues_endEvent (s : State) : Queues s (endEvent s) := by
  have hpass : ∀ n y, Queues y (passNotice n y) := fun n y => Queues.trans (.own ..) (.same rfl)
  have hpump : ∀ fuel y, Queues y (pumpNotices fuel y) := by
    intro fuel
    induction fuel with
    | zero => exact Queues.refl
    | succ fuel ih =>
      intro y
      unfold pumpNotices
      split
      · split
        · exact Queues.refl y
        · rename_i n _
          split
          · exact (hpass n y).trans ((ih _).after rfl)
          · exact hpass n y
      · exact Queues.refl y
  exact hpump _ s

end Sys2Proof.Queuing
end

section
/-! PROOFS. A port that gains or loses its link (10.3), and the owners of the frames that go out by it (R169, R179, R189). -/

namespace Sys2Proof.LinkChange

open Sys2Proof Sys2Proof.Machine Sys2Proof.Claims Sys2Proof.RecordFlow Sys2Proof.Queuing

variable {c : OwnClass} {p : Port} {up : Bool} {s : State}

/-- The port as it loses its link: it forwards nothing and holds no passing frame (R179). -/
def lostPort (p : Port) (s : State) : PortState := { link := false, passing := [], tx := none, drops := (s.ll.port p).drops }

theorem unlink_eq (p : Port) (s : State) :
    unlink p s = withPort p (notOut (s.ll.own.map (fun f => f.setStage p .gone))) (lostPort p s) s := by
  cases p <;> rfl

theorem unlink_port (p : Port) (s : State) : (unlink p s).ll.port p = lostPort p s := by cases p <;> rfl

theorem unlink_port_other (p : Port) (s : State) : (unlink p s).ll.port p.other = s.ll.port p.other := by cases p <;> rfl

theorem unlink_own (p : Port) (s : State) : (unlink p s).ll.own = notOut (s.ll.own.map (fun f => f.setStage p .gone)) := by
  cases p <;> rfl

/-! ### What the owners learn -/

/-- Frames of a class other than the replies are dropped, and nothing fixed moves. -/
theorem dropClass_fixed (hc : c ≠ .reply) (s : State) : (dropClass c s).fixed = s.fixed := by
  have hreplies : (dropClass c s).ll.replies = s.ll.replies := by
    unfold LineLink.replies
    rw [dropClass_ll_own, List.filter_filter]
    refine List.filter_congr fun x _ => ?_
    by_cases hx : x.cls = .reply
    · simp [hx, hc.symm]
    · simp [hx]
  unfold State.fixed
  rw [hreplies]
  rfl

theorem reportNotice_fixed (s : State) : (reportNotice s).fixed = s.fixed := by
  unfold reportNotice
  split
  · exact dropClass_fixed (by decide) s
  · rfl

theorem reportRecord_fixed (s : State) : (reportRecord s).fixed = s.fixed := by
  unfold reportRecord
  split
  · exact (((kept_recordSent _).trans (kept_sendRecords _)).toUpholds.trans (upholds_expand _)).fixed.trans
      (dropClass_fixed (by decide) s)
  · rfl

/-- What the owners do as they learn that their frames have gone out moves nothing fixed. -/
theorem linkLost_fixed (p : Port) (s : State) : (linkLost p s).fixed = (unlink p s).fixed := by
  unfold linkLost
  extract_lets s1 s2
  have h2 : s2.fixed = s1.fixed := by
    unfold s2
    split
    · exact reportNotice_fixed s1
    · rfl
  split
  · exact (reportRecord_fixed s2).trans h2
  · exact h2

/-! ### What has gone out on the port -/

theorem goneAt_unlink (p : Port) (s : State) : GoneAt p (unlink p s) := by
  refine ⟨by rw [unlink_port]; rfl, fun f hf => ?_⟩
  rw [unlink_own] at hf
  obtain ⟨x, -, rfl⟩ := List.mem_map.1 (List.mem_filter.1 hf).1
  exact OwnFrame.setStage_stage ..

theorem goneAt_dropClass (h : GoneAt p s) (c : OwnClass) : GoneAt p (dropClass c s) := by
  obtain ⟨hlink, hgone⟩ := h
  exact ⟨by cases p <;> exact hlink, fun f hf => hgone f (List.mem_filter.1 hf).1⟩

theorem goneAt_reportNotice (h : GoneAt p s) : GoneAt p (reportNotice s) := by
  unfold reportNotice
  split
  · exact (Queues.same rfl).goneAt (goneAt_dropClass h .notice)
  · exact h

theorem goneAt_reportRecord (h : GoneAt p s) : GoneAt p (reportRecord s) := by
  unfold reportRecord
  split
  · exact (((queues_recordSent _).trans (queues_sendRecords _)).trans (queues_expand _)).goneAt (goneAt_dropClass h .record)
  · exact h

/-- Every own frame, and every one that the owners queue as they learn of it, has gone out on the port (R179). -/
theorem goneAt_linkLost (p : Port) (s : State) : GoneAt p (linkLost p s) := by
  have h1 : GoneAt p (unlink p s) := goneAt_unlink p s
  unfold linkLost
  extract_lets s1 s2
  have h2 : GoneAt p s2 := by
    unfold s2
    split
    · exact goneAt_reportNotice h1
    · exact h1
  split
  · exact goneAt_reportRecord h2
  · exact h2

/-! ### Frames that do not go out by it -/

/-- The class of the frame counts it. -/
theorem count_ne_zero {ll : LineLink} : ll.count c ≠ 0 ↔ ∃ f ∈ ll.own, f.cls = c := by
  unfold LineLink.count
  rw [← Nat.pos_iff_ne_zero, List.length_pos_iff_exists_mem]
  simp [List.mem_filter]

/-- A class none of whose frames goes out by the lost link has no owner to tell. -/
theorem wentOut_unlink_false (h : ∀ f ∈ s.ll.own, f.cls = c → (f.setStage p .gone).out = false) :
    wentOut c s (unlink p s) = false := by
  have hstays : s.ll.count c ≠ 0 → (unlink p s).ll.count c ≠ 0 := by
    rw [count_ne_zero, count_ne_zero, unlink_own]
    rintro ⟨f, hf, hcls⟩
    have hkept : (!(f.setStage p .gone).out) = true := congrArg not (h f hf hcls)
    exact ⟨f.setStage p .gone, List.mem_filter.2 ⟨List.mem_map_of_mem hf, hkept⟩, (OwnFrame.setStage_cls ..).trans hcls⟩
  unfold wentOut
  simpa using hstays

theorem linkLost_of_none_out (h : ∀ f ∈ s.ll.own, f.cls = .notice ∨ f.cls = .record → (f.setStage p .gone).out = false) :
    linkLost p s = unlink p s := by
  have hnotice := wentOut_unlink_false (c := .notice) fun f hf hc => h f hf (.inl hc)
  have hrecord := wentOut_unlink_false (c := .record) fun f hf hc => h f hf (.inr hc)
  unfold linkLost
  simp [hnotice, hrecord]

/-! ### PORT_LINK_CHANGE -/

theorem changeLink_same (h : (s.ll.port p).link = up) : changeLink p up s = s := if_pos h

theorem changeLink_gained (h : (s.ll.port p).link = false) :
    changeLink p true s = withPort p s.ll.own { s.ll.port p with link := true } s := by
  unfold changeLink
  rw [if_neg (by rw [h]; exact Bool.false_ne_true), if_pos rfl]
  cases p <;> rfl

theorem changeLink_lost (h : (s.ll.port p).link = true) : changeLink p false s = linkLost p s := by
  unfold changeLink
  rw [if_neg (by rw [h]; exact Bool.noConfusion), if_neg Bool.false_ne_true]

/-- Where nothing fixed has moved both ports stand. -/
theorem port_of_fixed {t : State} (h : t.fixed = s.fixed) (q : Port) : t.ll.port q = s.ll.port q := by
  cases q with
  | a => exact congrArg Fixed.portA h
  | b => exact congrArg Fixed.portB h

/-- Settles O19: the owners, the check of R168 and the end of the event queue own frames at most, and these have gone out on the port
without link too; with no notice and no record going out the owners do nothing. -/
theorem linkChangeMovesThePort : Obligations.LinkChangeMovesThePort := by
  intro p s
  refine ⟨fun up h => congrArg done (changeLink_same h), fun h => congrArg done (changeLink_gained h), fun h => ⟨?_, fun hin => ?_⟩⟩
  · have hfixed : (endEvent (linkLost p s)).fixed = (unlink p s).fixed := (kept_endEvent _).fixed.trans (linkLost_fixed p s)
    obtain ⟨hpu, hmt, htables, ⟨-, -, -, hcapture, hrefusals, -⟩, hknives, -⟩ :=
      stands_of_fixed (s := unlink p s) (flow := (unlink p s).rs.held) hfixed
    have hgone : GoneAt p (endEvent (linkLost p s)) := (queues_endEvent _).goneAt (goneAt_linkLost p s)
    exact ⟨_, congrArg done (changeLink_lost h), (port_of_fixed hfixed p).trans (unlink_port p s),
      (port_of_fixed hfixed p.other).trans (unlink_port_other p s), hgone.2, htables, hpu, hmt, hknives,
      hcapture.trans (by cases p <;> rfl), hrefusals.trans (by cases p <;> rfl)⟩
  · rw [show exec (.portLinkChange p false) s = done (linkLost p s) from congrArg done (changeLink_lost h), linkLost_of_none_out hin,
      unlink_eq]
    rfl

end Sys2Proof.LinkChange
end

section
/-! PROOFS. POWER_ON (10.1), and the laws of the Position Unit and the Mark Tracker (1.1, 1.5): they hold with every other block's right
after reset, and every step keeps them. -/

namespace Sys2Proof.PowerOn

open Sys2Proof Sys2Proof.Machine Sys2Proof.Claims Sys2Proof.EveryBlock

/-- No notice waits in the state of power-on, so its event ends as it is. -/
theorem exec_powerOn (straps : BitVec 6) (s : State) : exec (.powerOn straps) s = .next (powerOnState straps s) :=
  congrArg Host.Outcome.next (endEvent_empty _ rfl)

/-- The state of power-on holds the power-on values of every block (R175, R190). -/
theorem atPowerOn_powerOnState (straps : BitVec 6) (s : State) : AtPowerOn straps (powerOnState straps s) where
  tables := ⟨rfl, rfl, rfl, rfl⟩
  position := rfl
  tracker := rfl
  map := rfl
  queue := rfl
  knives := rfl
  stop := ⟨rfl, rfl, rfl, rfl, rfl, rfl, rfl, rfl, rfl, rfl, rfl, rfl⟩
  sets := ⟨rfl, rfl, rfl, rfl, rfl, rfl, rfl, rfl, rfl, rfl, rfl, rfl⟩
  records := rfl
  notices := rfl
  link := ⟨rfl, rfl, rfl, rfl, rfl, rfl, rfl⟩
  ports := fun p => by cases p <;> exact ⟨rfl, rfl⟩

/-- Settles O3: no port sends anything after power-on, its link stands, and so does the model's own queue. -/
theorem powerOnSetsEveryBlock : Obligations.PowerOnSetsEveryBlock := by
  intro straps s
  refine ⟨powerOnState straps s, exec_powerOn straps s, atPowerOn_powerOnState straps s, fun p => ?_, rfl, rfl⟩
  cases p <;> exact ⟨rfl, rfl⟩

/-- Settles O6: each block has its power-on values, and those are lawful. -/
theorem lawsHoldAtReset : Obligations.LawsHoldAtReset :=
  ⟨init_position_lawful, init_tracker_lawful, init_queue_lawful, RollMap.init_lawful, Nat.zero_le _, fun _ => Nat.zero_le _,
    ⟨fun p => by cases p <;> exact Nat.zero_le _, Nat.zero_le _⟩, init_records_lawful, init_set_lawful, init_plans_lawful⟩

/-- Settles O7: the Position Unit's law is one of those that every step keeps. An applied frame moves U within its range and leaves the
remainder below PPM (`PositionUnit.applied_lawful`), a discontinuity keeps both (`keeps_discontinuity`), and a machine table of another
PPM sets the remainder to 0 (`keeps_loadMachine`). -/
theorem stepsKeepPositionRanges : Obligations.StepsKeepPositionRanges := by
  intro s t hs h
  obtain ⟨rest, hkeeps⟩ := step_keepsLaws h
  exact hkeeps.pu hs

/-- Settles O8: the tracker's law is one of those that every step keeps. A real mark clamps E and ends the count of misses
(`MarkTracker.real_lawful`), and a synthesized one leaves COASTING with the third miss (`MarkTracker.synth_lawful`). -/
theorem stepsKeepTrackerRanges : Obligations.StepsKeepTrackerRanges := by
  intro s t hs h
  obtain ⟨rest, hkeeps⟩ := step_keepsLaws h
  exact hkeeps.mt hs

end Sys2Proof.PowerOn
end

section
/-! PROOFS. Every entry tagged (3.5), the silence timer's expiry (R5), and the count frames that set the baseline or are a discontinuity
(R1 to R4, R16). -/

namespace Sys2Proof.Doubt

open Sys2Proof Sys2Proof.Machine Sys2Proof.Claims Sys2Proof.Laws Sys2Proof.Sightings Sys2Proof.StopDistance

/-! ### Every entry tagged (R63) -/

theorem tagged_le_size (q : FeatureQueue) : q.tagged ≤ q.size :=
  Nat.add_le_add (List.length_filter_le ..) (List.length_filter_le ..)

theorem tagged_suspected (q : FeatureQueue) : (suspected q).tagged = q.size := by
  simp [FeatureQueue.tagged, FeatureQueue.size, suspected, List.filter_map, Function.comp_def]

/-- Tagging every entry changes the queue's tags, and the Notice Queue where the tagged count has risen from 0. -/
theorem tagAll_rest (s : State) : tagAll s = { s with fq := suspected s.fq, nq := (tagAll s).nq } :=
  Looks.noticeTags_rest s.fq.tagged { s with fq := suspected s.fq }

/-- With room UNCERTAIN_ON joins where the tagged count rises from 0; it cannot fall to 0. -/
theorem tagAll_nq {s : State} (hcan : s.canQueue = true) (hroom : s.nq.waiting.length < Config.noticeMax) :
    (tagAll s).nq = { s.nq with waiting := s.nq.waiting ++ uncertainOn s } := by
  have hle := tagged_le_size s.fq
  show (noticeTags s.fq.tagged { s with fq := suspected s.fq }).nq = _
  unfold noticeTags uncertainOn
  by_cases hrise : s.fq.tagged = 0 ∧ (suspected s.fq).tagged ≠ 0
  · rw [if_pos hrise, if_pos hrise, queueNotice_room _ _ _ _ _ (by exact hcan) (by exact hroom)]
  · rw [if_neg hrise, if_neg hrise, if_neg (by rw [tagged_suspected]; omega), List.append_nil]

theorem uncertainOn_length (s : State) : (uncertainOn s).length ≤ 1 := by
  unfold uncertainOn
  split <;> simp

/-! ### What the end of an event leaves standing (R187) -/

/-- The end of an event leaves every block but the Notice Queue, the ports, and the own frames that are no notices. -/
theorem endEvent_leaves (s : State) : ∃ nq own seq, endEvent s = { s with nq := nq, ll := { s.ll with own := own, seq := seq } } ∧
    ∀ k, k ≠ .notice → ownOf k (endEvent s) = ownOf k s := by
  obtain ⟨hrest, ⟨l, hown, hl⟩, -⟩ := noticesOnly_endEvent s
  refine ⟨_, _, _, hrest, fun k hk => ?_⟩
  have hnone : l.filter (fun f => f.cls == k) = [] := by
    rw [List.filter_eq_nil_iff]
    intro f hf hfk
    exact hk ((beq_iff_eq.1 hfk).symm.trans (hl f hf))
  unfold ownOf
  rw [hown, List.filter_append, hnone, List.append_nil]

/-! ### The silence timer (R5) -/

/-- The Position Unit once the timer of a moving web has expired. -/
def silenced (p : PositionUnit) : PositionUnit := { p with silence := none, enc := .silent }

/-- ENCODER_SILENT with the speed. -/
def silentNotice (s : State) : Notice := { kind := .encoderSilent, u := s.pu.u, v0 := wNat s.pu.v, v1 := 0, v2 := 0 }

theorem silenceExpires_moving {s : State} (h : s.pu.v ≠ 0) :
    silenceExpires s = queueNotice .encoderSilent (wNat s.pu.v) 0 0 (tagAll { s with pu := silenced s.pu }) := if_neg h

theorem silenceExpires_rest {s : State} (h : s.pu.v ≠ 0) :
    silenceExpires s = { s with pu := silenced s.pu, fq := suspected s.fq, nq := (silenceExpires s).nq } := by
  rw [silenceExpires_moving h, queueNotice_rest, tagAll_rest]

theorem silenceExpires_nq {s : State} (h : s.pu.v ≠ 0) (hw : NoticesWait s) :
    (silenceExpires s).nq = { s.nq with waiting := s.nq.waiting ++ uncertainOn s ++ [silentNotice s] } := by
  obtain ⟨hcan, -, hlen⟩ := hw
  have htold := uncertainOn_length s
  have htagged : (tagAll { s with pu := silenced s.pu }).nq = { s.nq with waiting := s.nq.waiting ++ uncertainOn s } :=
    tagAll_nq (s := { s with pu := silenced s.pu }) hcan (by simp only [Config.noticeMax]; omega)
  have hcan' : (tagAll { s with pu := silenced s.pu }).canQueue = true := by rw [tagAll_rest]; exact hcan
  rw [silenceExpires_moving h, queueNotice_room _ _ _ _ _ hcan'
    (by rw [htagged, List.length_append]; simp only [Config.noticeMax]; omega), htagged, tagAll_rest]
  rfl

/-- The timer that runs expires while no RESET waits (R5, R184). -/
theorem exec_silenceTimerExpiry {n : Nat} {s : State} (hn : s.pu.silence = some n) (hr : s.ll.resetting = false) :
    exec .silenceTimerExpiry s = .next (endEvent (silenceExpires s)) :=
  congrArg done (if_pos ⟨by rw [hn]; rfl, hr⟩)

/-- Settles O28: a web at rest only loses its timer; of a moving one every entry is tagged, and the notices join in order. -/
theorem silenceTimerExpires : Obligations.SilenceTimerExpires := by
  intro n s hn hr
  rw [exec_silenceTimerExpiry hn hr]
  refine ⟨fun hv => congrArg done (if_pos hv), fun hv => ?_⟩
  have hmoving : s.pu.v ≠ 0 := Nat.ne_of_gt hv
  obtain ⟨nq, own, seq, hend, -⟩ := endEvent_leaves (silenceExpires s)
  have hwaits : NoticesWait s → (endEvent (silenceExpires s)).nq.waiting = s.nq.waiting ++ uncertainOn s ++ [silentNotice s] := by
    intro hw
    have hnq := silenceExpires_nq hmoving hw
    rw [endEvent_busy _ (by rw [hnq]; exact hw.2.1), hnq]
  refine ⟨_, rfl, ?_, ?_, ?_, ?_, ?_, ?_, ?_, hwaits⟩ <;> rw [hend, silenceExpires_rest hmoving]
  · rfl
  · exact ⟨rfl, rfl, rfl, rfl⟩
  · exact ⟨rfl, rfl, rfl, rfl, rfl, rfl⟩
  · exact ⟨rfl, rfl, rfl, rfl, rfl, rfl, rfl, rfl⟩

/-! ### The baseline (R1) -/

theorem takeCount_no_machine {s : State} (hm : s.machine = none) (c t : Word) : takeCount c t s = s := by
  unfold takeCount
  rw [hm]

theorem takeCount_noBase {m : MachineTable} {s : State} (hm : s.machine = some m) (henc : s.pu.enc = .noBase) (c t : Word) :
    takeCount c t s = { s with pu := s.pu.rebased c t m.sEnc } := by
  unfold takeCount
  rw [hm]
  exact if_pos henc

/-- Settles O24: the first frame is the baseline, and without a machine table there is none. -/
theorem countFrameSetsBaseline : Obligations.CountFrameSetsBaseline := by
  intro rx c t s hfrom
  rw [exec_countFrame hfrom, passedOn_eq]
  refine ⟨fun m hm henc => ?_, fun hm => ?_⟩
  · rw [takeCount_noBase (by exact hm) (by exact henc)]
    rfl
  · rw [takeCount_no_machine (by exact hm)]

/-! ### A discontinuity (R4, R16) -/

/-- The tracker after a discontinuity (R16). -/
def jumped (t : MarkTracker) : MarkTracker := if t.state = .seeking ∨ t.state = .lost then t else { t with state := .lost, miss := 0 }

/-- TRACKING_LOST with k_last, where the tracker was not LOST already and has sought its mark (R16). -/
def lostNotices (s : State) : List Notice :=
  if s.mt.state = .seeking ∨ s.mt.state = .lost then []
  else [{ kind := .trackingLost, u := s.pu.u, v0 := wOptNat (s.mt.last.map (·.k)), v1 := 0, v2 := 0 }]

theorem trackerJump_eq (s : State) : trackerJump s = if s.mt.state = .seeking ∨ s.mt.state = .lost then s
    else queueNotice .trackingLost (wOptNat (s.mt.last.map (·.k))) 0 0 { s with mt := { s.mt with state := .lost, miss := 0 } } := by
  unfold trackerJump
  cases s.mt.state <;> rfl

theorem trackerJump_rest (s : State) : trackerJump s = { s with mt := jumped s.mt, nq := (trackerJump s).nq } := by
  rw [trackerJump_eq]
  unfold jumped
  split
  · rfl
  · rw [queueNotice_rest]

theorem trackerJump_nq {s : State} (hcan : s.canQueue = true) (hroom : s.nq.waiting.length < Config.noticeMax) :
    (trackerJump s).nq = { s.nq with waiting := s.nq.waiting ++ lostNotices s } := by
  rw [trackerJump_eq]
  unfold lostNotices
  split
  · rw [List.append_nil]
  · rw [queueNotice_room _ _ _ _ _ (by exact hcan) (by exact hroom)]

theorem lostNotices_length (s : State) : (lostNotices s).length ≤ 1 := by
  unfold lostNotices
  split <;> simp

/-- ENCODER_JUMP with the pulses of the jump. -/
def jumpNotice (d : Int) (s : State) : Notice := { kind := .encoderJump, u := s.pu.u, v0 := wInt d, v1 := 0, v2 := 0 }

theorem discontinuity_eq (d : Int) (s : State) : discontinuity d s = queueNotice .encoderJump (wInt d) 0 0
    (markUnverified (tagAll (trackerJump { s with pu := { s.pu with hist := [] } }))) := rfl

theorem discontinuity_rest (d : Int) (s : State) : discontinuity d s =
    { s with pu := { s.pu with hist := [] }, mt := jumped s.mt, fq := suspected s.fq, rs := unverified s.rs
             nq := (discontinuity d s).nq } := by
  rw [discontinuity_eq, queueNotice_rest, markUnverified_eq, tagAll_rest, trackerJump_rest]

theorem discontinuity_nq {d : Int} {s : State} (hw : NoticesWait s) : (discontinuity d s).nq =
    { s.nq with waiting := s.nq.waiting ++ lostNotices s ++ uncertainOn s ++ [jumpNotice d s] } := by
  obtain ⟨hcan, -, hlen⟩ := hw
  have hlost := lostNotices_length s
  have htold := uncertainOn_length s
  let s1 := trackerJump { s with pu := { s.pu with hist := [] } }
  have h1 : s1.nq = { s.nq with waiting := s.nq.waiting ++ lostNotices s } :=
    trackerJump_nq (s := { s with pu := { s.pu with hist := [] } }) hcan (by simp only [Config.noticeMax]; omega)
  have hrest1 : s1 = { s with pu := { s.pu with hist := [] }, mt := jumped s.mt, nq := s1.nq } := trackerJump_rest _
  have hcan1 : s1.canQueue = true := by rw [hrest1]; exact hcan
  have htold1 : uncertainOn s1 = uncertainOn s := by rw [hrest1]; rfl
  have h2 : (tagAll s1).nq = { s.nq with waiting := s.nq.waiting ++ lostNotices s ++ uncertainOn s } := by
    rw [tagAll_nq hcan1 (by rw [h1, List.length_append]; simp only [Config.noticeMax]; omega), h1, htold1]
  have hcan2 : (markUnverified (tagAll s1)).canQueue = true := by
    rw [markUnverified_eq, tagAll_rest]
    exact hcan1
  have h3 : (markUnverified (tagAll s1)).nq = (tagAll s1).nq := rfl
  have hu : (markUnverified (tagAll s1)).pu.u = s.pu.u := by rw [markUnverified_eq, tagAll_rest, hrest1]
  rw [discontinuity_eq, queueNotice_room _ _ _ _ _ hcan2
    (by rw [h3, h2, List.length_append, List.length_append]; simp only [Config.noticeMax]; omega)]
  show ({ (markUnverified (tagAll s1)).nq with waiting := _ } : NoticeQueue) = _
  rw [h3, h2, hu]
  rfl

/-- A frame beyond the jump limit, or one that would take U out of its range, is a discontinuity (R2, R3). -/
theorem takeCount_jump {m : MachineTable} {c t : Word} {s : State} {d : Int} (hm : s.machine = some m) (henc : s.pu.enc ≠ .noBase)
    (hd : (jumpLimit m s.pu.enc < (pulses c s.pu.cPrev).natAbs ∧ d = pulses c s.pu.cPrev) ∨
      ((pulses c s.pu.cPrev).natAbs ≤ jumpLimit m s.pu.enc ∧ ¬ Applies m c s ∧ d = 0)) :
    takeCount c t s = discontinuity d { s with pu := s.pu.rebased c t m.sEnc } := by
  unfold takeCount
  rw [hm]
  dsimp only
  rw [if_neg henc]
  rcases hd with ⟨hlimit, rfl⟩ | ⟨hlimit, hnot, rfl⟩
  · exact if_pos hlimit
  · refine (if_neg (Nat.not_lt.2 hlimit)).trans (if_pos ?_)
    by_contra hrange
    have hin : ¬ (s.pu.u + (s.pu.acc + pulses c s.pu.cPrev * 10000) / (m.ppm : Int) < -2147483648 ∨
      2147483647 < s.pu.u + (s.pu.acc + pulses c s.pu.cPrev * 10000) / (m.ppm : Int)) := hrange
    exact hnot ⟨henc, hlimit, by omega, by omega⟩

/-- Settles O26: the frame's count and time are the new baseline, and the discontinuity changes the tracker, the tags and the open
records. -/
theorem countFrameJumpKeepsTheWeb : Obligations.CountFrameJumpKeepsTheWeb := by
  intro rx c t m s d hfrom hm henc hd
  rw [exec_countFrame hfrom]
  have hS := passedOn_eq rx (.count c t) s
  have hwaits : NoticesWait s → NoticesWait (passedOn rx (.count c t) s) := RollMap.noticesWait_passedOn
  have hown : (passedOn rx (.count c t) s).ll.own = s.ll.own := by
    obtain ⟨q, a, hport, -⟩ := passedOn_rest rx (.count c t) s
    rw [hport]
    cases q <;> rfl
  generalize passedOn rx (.count c t) s = S at hS hwaits hown
  have htake : takeCount c t S = discontinuity d { S with pu := s.pu.rebased c t m.sEnc } := by
    rw [hS]
    exact takeCount_jump (s := { s with ll := S.ll }) hm henc hd
  have hrest := discontinuity_rest d { S with pu := s.pu.rebased c t m.sEnc }
  rw [htake]
  obtain ⟨nq, own, seq, hend, hclasses⟩ := endEvent_leaves (discontinuity d { S with pu := s.pu.rebased c t m.sEnc })
  refine ⟨_, rfl, ?_, ?_, ?_, ?_, ?_, ?_, ?_, fun k hk => ?_, fun hw => ?_⟩
  · rw [hend, hrest]
    rfl
  · rw [hend, hrest, hS]
    rfl
  · rw [hend, hrest, hS]
  · rw [hend, hrest, hS]
  · rw [hend, hrest, hS]
    exact ⟨rfl, rfl, rfl, rfl⟩
  · rw [hend, hrest, hS]
    exact ⟨rfl, rfl, rfl, rfl, rfl, rfl⟩
  · rw [hend, hrest]
    exact ⟨rfl, rfl, rfl, rfl, rfl, rfl, rfl, rfl⟩
  · rw [hclasses k hk, hrest]
    unfold ownOf
    rw [← hown]
  · have hw' : NoticesWait { S with pu := s.pu.rebased c t m.sEnc } := hwaits hw
    have hnq := discontinuity_nq (d := d) hw'
    rw [endEvent_busy _ (by rw [hnq]; exact hw'.2.1), hnq, hS]
    rfl

end Sys2Proof.Doubt
end

section
/-! PROOFS. Synthesized marks (R14, R15): what becomes of the tracker at a mark counted or synthesized, the mark's own event aside, and
the tracker after the marks whose windows a position has passed. -/

namespace Sys2Proof.Synthesized

open Sys2Proof Sys2Proof.Machine Sys2Proof.Claims

/-! ### One mark -/

theorem synthesize_mt (frame : Bool) (l : LastMark) (s : State) : (synthesize frame l s).mt = s.mt.synth l := by
  unfold synthesize
  dsimp only
  rw [(upholds_markEvent ..).mtFixed]
  split
  · rw [queueNotice_rest]
  · rfl

theorem countReal_mt (rNom : Nat) (u : Int) (s : State) : (countReal rNom u s).mt = s.mt.real rNom u := by
  unfold countReal
  dsimp only
  rw [(upholds_markEvent ..).mtFixed]
  split
  · rw [queueNotice_rest]
  · rfl

/-- The state and the miss count after one missed mark more, from those after the first (R15). -/
theorem missed_succ (n : Nat) (t : MarkTracker) : missed (n + 1) (t.state, t.miss) = missed n t.afterMiss := by
  unfold MarkTracker.afterMiss
  cases ht : t.state <;> simp only [missed]
  case coasting =>
    by_cases hk : t.miss + 1 < 3
    · rw [if_pos hk, if_neg (by omega)]
    · rw [if_neg hk, if_pos (by omega)]

/-- No mark is synthesized in SEEKING, nor is SEEKING entered (R15). -/
theorem synth_state (l : LastMark) {t : MarkTracker} (h : t.state ≠ .seeking) : (t.synth l).state ≠ .seeking := by
  show t.afterMiss.1 ≠ .seeking
  unfold MarkTracker.afterMiss
  cases ht : t.state <;> simp only [ne_eq, reduceCtorEq, not_false_eq_true]
  case seeking => exact absurd ht h
  case coasting => split <;> exact TrackState.noConfusion

/-- The mark synthesized after mark l. -/
def nextMark (l : LastMark) (t : MarkTracker) : LastMark := { k := l.k + 1, u := l.u + t.rExp }

theorem synth_last (l : LastMark) (t : MarkTracker) : (t.synth l).last = some (nextMark l t) := rfl

/-! ### The marks that follow one another -/

theorem markAfter_next (n : Nat) (l : LastMark) (t : MarkTracker) : markAfter n (nextMark l t) (t.synth l) = markAfter (n + 1) l t := by
  have hu : l.u + t.rExp + n * t.rExp = l.u + ((n + 1 : Nat) : Int) * t.rExp := by push_cast; ring
  simp only [markAfter, nextMark, MarkTracker.synth, LastMark.mk.injEq]
  exact ⟨by omega, hu⟩

theorem synthesized_one (l : LastMark) (t : MarkTracker) : synthesized 1 l t = t.synth l := by
  simp only [synthesized, MarkTracker.synth, missed_succ, missed, markAfter, Nat.cast_one, one_mul]

theorem synthesized_next (n : Nat) (l : LastMark) (t : MarkTracker) :
    synthesized n (nextMark l t) (t.synth l) = synthesized (n + 1) l t := by
  simp only [synthesized, markAfter_next, missed_succ]
  rfl

/-- The windows that follow the next mark are those of mark l but the first (R11). -/
theorem passesWindows_next {m : MachineTable} {t : MarkTracker} {l : LastMark} {u : Int} {n : Nat}
    (h : PassesWindows m t l u (n + 1)) : PassesWindows m (t.synth l) (nextMark l t) u n := by
  obtain ⟨hin, hpast⟩ := h
  rw [PassesWindows, markAfter_next, markAfter_next]
  exact ⟨hin, fun _ => hpast (Nat.succ_pos n)⟩

theorem markAfter_u_le {t : MarkTracker} (hr : 0 < t.rExp) (l : LastMark) {i n : Nat} (h : i ≤ n) :
    (markAfter i l t).u ≤ (markAfter n l t).u := by
  have : (i : Int) * t.rExp ≤ n * t.rExp := Int.mul_le_mul_of_nonneg_right (by omega) (Int.le_of_lt hr)
  simp only [markAfter]
  omega

theorem windowHigh_eq (m : MachineTable) (t : MarkTracker) (l : LastMark) : t.windowHigh m.wMk l = (markAfter 1 l t).u + m.wMk := by
  simp only [MarkTracker.windowHigh, markAfter, Nat.cast_one, one_mul]

/-- A position that has passed a window lies above the first. -/
theorem above_of_passesWindows {m : MachineTable} {t : MarkTracker} {l : LastMark} {u : Int} {n : Nat} (hr : 0 < t.rExp)
    (h : PassesWindows m t l u (n + 1)) : t.windowHigh m.wMk l < u := by
  have hfirst := markAfter_u_le hr l (show 1 ≤ n + 1 by omega)
  have hpast := h.2 (Nat.succ_pos n)
  rw [windowHigh_eq]
  omega

/-- The marks that lie between mark l and a position are more than the windows that the position has passed. -/
theorem lt_marksTo_of_passesWindows {m : MachineTable} {t : MarkTracker} {l : LastMark} {u : Int} {n : Nat} (hl : t.last = some l)
    (hr : 0 < t.rExp) (h : PassesWindows m t l u n) : n < t.marksTo u := by
  unfold MarkTracker.marksTo
  rw [hl]
  dsimp only
  rcases Nat.eq_zero_or_pos n with rfl | hn
  · omega
  · have hpast : l.u + n * t.rExp + m.wMk < u := h.2 hn
    have hle : (n : Int) ≤ (u - l.u) / max 1 t.rExp := by
      rw [show max 1 t.rExp = t.rExp by omega]
      exact (Int.le_ediv_iff_mul_le hr).2 (by omega)
    omega

/-! ### The marks that a position event supplies (R14) -/

/-- The tracker once the marks have been synthesized whose windows the position has passed, `fuel` of them at most. -/
def caughtUp (wMk : Nat) (u : Int) : Nat → MarkTracker → MarkTracker
  | 0, t => t
  | fuel + 1, t =>
    match t.last with
    | none => t
    | some l => if t.state ≠ .seeking ∧ t.windowHigh wMk l < u then caughtUp wMk u fuel (t.synth l) else t

theorem synthesizeTo_mt (wMk : Nat) (u : Int) (fuel : Nat) : ∀ s, (synthesizeTo wMk u fuel s).mt = caughtUp wMk u fuel s.mt := by
  induction fuel with
  | zero => exact fun _ => rfl
  | succ fuel ih =>
    intro s
    unfold synthesizeTo caughtUp
    cases s.mt.last with
    | none => rfl
    | some l =>
      dsimp only
      split
      · rw [ih, synthesize_mt]
      · rfl

theorem caughtUp_idle {t : MarkTracker} (h : t.state = .seeking ∨ t.last = none) (wMk : Nat) (u : Int) (fuel : Nat) :
    caughtUp wMk u fuel t = t := by
  cases fuel with
  | zero => rfl
  | succ fuel =>
    unfold caughtUp
    rcases h with h | h
    · cases t.last with
      | none => rfl
      | some l => exact if_neg (fun hc => hc.1 h)
    · rw [h]

/-- A position that has passed no window supplies no mark. -/
theorem caughtUp_none {m : MachineTable} {t : MarkTracker} {l : LastMark} {u : Int} (hl : t.last = some l)
    (h : PassesWindows m t l u 0) (fuel : Nat) : caughtUp m.wMk u fuel t = t := by
  cases fuel with
  | zero => rfl
  | succ fuel =>
    have hin : ¬ t.windowHigh m.wMk l < u := by
      rw [windowHigh_eq]
      exact Int.not_lt.2 h.1
    unfold caughtUp
    rw [hl]
    exact if_neg (fun hc => hin hc.2)

/-- A position that has passed n windows supplies exactly n marks (R14). -/
theorem caughtUp_some {m : MachineTable} {u : Int} (n : Nat) : ∀ {t : MarkTracker} {l : LastMark} {fuel : Nat}, t.state ≠ .seeking →
    t.last = some l → 0 < t.rExp → PassesWindows m t l u (n + 1) → n + 1 ≤ fuel →
    caughtUp m.wMk u fuel t = synthesized (n + 1) l t := by
  induction n with
  | zero =>
    intro t l fuel hstate hl hr hpass hfuel
    obtain ⟨fuel, rfl⟩ : ∃ f, fuel = f + 1 := ⟨fuel - 1, by omega⟩
    rw [caughtUp, hl]
    dsimp only
    rw [if_pos ⟨hstate, above_of_passesWindows hr hpass⟩, caughtUp_none (synth_last l t) (passesWindows_next hpass), synthesized_one]
  | succ n ih =>
    intro t l fuel hstate hl hr hpass hfuel
    obtain ⟨fuel, rfl⟩ : ∃ f, fuel = f + 1 := ⟨fuel - 1, by omega⟩
    rw [caughtUp, hl]
    dsimp only
    rw [if_pos ⟨hstate, above_of_passesWindows hr hpass⟩,
      ih (synth_state l hstate) (synth_last l t) hr (passesWindows_next hpass) (by omega), synthesized_next]

end Sys2Proof.Synthesized
end

section
/-! PROOFS. A count frame that is applied (R3, R6, R7): the position, the history and the speed formed from it, the marks it supplies, and
what stands beside them. -/

namespace Sys2Proof.AppliedFrames

open Sys2Proof Sys2Proof.Machine Sys2Proof.Claims Sys2Proof.Laws Sys2Proof.Sightings Sys2Proof.StopDistance Sys2Proof.Synthesized

/-! ### The Position Unit (R3, R6) -/

/-- The length of a frame's pulses with the remainder carried, in units of 1/PPM dmm (R3). -/
def carried (c : Word) (p : PositionUnit) : Int := p.acc + pulses c p.cPrev * 10000

/-- The advance of U at a frame that is applied (R3). -/
def advance (m : MachineTable) (c : Word) (p : PositionUnit) : Int := carried c p / m.ppm

/-- The Position Unit after a frame that is applied (R1, R3, R6). -/
def moved (m : MachineTable) (c t : Word) (p : PositionUnit) : PositionUnit :=
  (p.rebased c t m.sEnc).applied (advance m c p) (carried c p - advance m c p * m.ppm) (max 0 (pulses t p.tPrev)).toNat

theorem takeCount_applies {m : MachineTable} {c t : Word} {s : State} (hm : s.machine = some m) (h : Applies m c s) :
    takeCount c t s = frameApplied m (advance m c s.pu) s { s with pu := moved m c t s.pu } := by
  obtain ⟨henc, hjump, hlow, hhigh⟩ := h
  have hrange : ¬ (s.pu.u + advance m c s.pu < int32Min ∨ int32Max < s.pu.u + advance m c s.pu) := by
    unfold int32Min int32Max advance carried
    omega
  unfold takeCount
  rw [hm]
  dsimp only
  rw [if_neg henc]
  exact (if_neg (Nat.not_lt.2 hjump)).trans (if_neg hrange)

/-- No length is lost: the remainder carried is that of the division (R3). -/
theorem moved_length {m : MachineTable} (hp : 0 < m.ppm) (c t : Word) (p : PositionUnit) :
    (moved m c t p).u * m.ppm + (moved m c t p).acc = p.u * m.ppm + carried c p ∧ 0 ≤ (moved m c t p).acc ∧
      (moved m c t p).acc < m.ppm := by
  have hp' : (0 : Int) < m.ppm := by omega
  have hlow := Int.emod_nonneg (carried c p) (Int.ne_of_gt hp')
  have hhigh := Int.emod_lt_of_pos (carried c p) hp'
  rw [Int.emod_def, Int.mul_comm] at hlow hhigh
  refine ⟨?_, hlow, hhigh⟩
  show (p.u + advance m c p) * m.ppm + (carried c p - advance m c p * m.ppm) = _
  ring

/-- The speed of the statements is that of the history (R6). -/
theorem speedOf_eq (l : List Interval) (v : Nat) : speedOf l v = if sumTime l = 0 then v
    else min 20000 ((2 * ((sumAdvance l).natAbs * 100000) + sumTime l) / (2 * sumTime l)) := by
  have hround : ∀ a n : Nat, roundHalfUp ((a : Int) * 100000) n = ((2 * (a * 100000) + n) / (2 * n) : Nat) := by
    intro a n
    unfold roundHalfUp
    push_cast
    rfl
  by_cases h0 : sumTime l = 0
  · rw [if_pos h0]
    exact if_pos h0
  · rw [if_neg h0]
    refine (if_neg h0).trans ?_
    show (min 20000 (roundHalfUp ((sumAdvance l).natAbs * 100000) (sumTime l))).toNat = _
    rw [hround]
    generalize (2 * ((sumAdvance l).natAbs * 100000) + sumTime l) / (2 * sumTime l) = y
    omega

theorem directionOf_forward (l : List Interval) : directionOf l = .forward ↔ 0 < sumAdvance l := by
  unfold directionOf sumAdvance
  dsimp only
  split_ifs <;> simp <;> omega

theorem directionOf_reverse (l : List Interval) : directionOf l = .reverse ↔ sumAdvance l < 0 := by
  unfold directionOf sumAdvance
  dsimp only
  split_ifs <;> simp <;> omega

/-! ### The tracker at an applied frame (R14, R19) -/

/-- The tracker once a position event of this advance has supplied its marks at u. -/
def supplied (m : MachineTable) (adv u : Int) (t : MarkTracker) : MarkTracker :=
  if 0 < adv then caughtUp m.wMk u (t.marksTo u) t else t

theorem missingMarks_mt (m : MachineTable) (adv : Int) (s : State) : (missingMarks m adv s).mt = supplied m adv s.pu.u s.mt := by
  unfold missingMarks supplied
  split
  · exact synthesizeTo_mt ..
  · rfl

/-- The marks are supplied from the tracker as it stands, whichever of look and walk goes first (R105). -/
theorem positionEvent_mt (m : MachineTable) (adv : Int) (s : State) : (positionEvent m adv s).mt = supplied m adv s.pu.u s.mt := by
  unfold positionEvent
  generalize hs1 : raiseHCam m { s with lookFirst := s.lookFirst.tail } = s1
  have hpu : s1.pu = s.pu := by rw [← hs1]; rfl
  have hmt : s1.mt = s.mt := by rw [← hs1]; rfl
  dsimp only
  split
  · have hlook := (kept_look s1).fixed
    rw [(kept_walk _).mtFixed, missingMarks_mt, show (look s1).pu = s1.pu from congrArg Fixed.pu hlook, (kept_look s1).mtFixed,
      hpu, hmt]
  · rw [(kept_look _).mtFixed, (kept_walk _).mtFixed, missingMarks_mt, hpu, hmt]

theorem frameApplied_mt (m : MachineTable) (adv : Int) (before s : State) :
    (frameApplied m adv before s).mt = supplied m adv s.pu.u s.mt := by
  unfold frameApplied
  dsimp only
  rw [(upholds_expand _).mtFixed, (kept_standstillAt ..).mtFixed, (kept_setAtFrame ..).mtFixed]
  split
  · rename_i h0
    rw [(kept_look s).mtFixed, supplied, if_neg (by omega)]
  · exact positionEvent_mt ..

/-! ### The frame taken -/

/-- What stands at the end of a frame that is applied. -/
theorem applied_stands {rx : Rx} {c t : Word} {m : MachineTable} {s : State} (hfrom : From (·.drive) s rx) (hm : s.machine = some m)
    (h : Applies m c s) : ∃ x, exec (.countFrame rx c t) s = .next x ∧ x.pu = moved m c t s.pu ∧
      x.mt = supplied m (advance m c s.pu) (moved m c t s.pu).u s.mt ∧ SameTables s x ∧ SameLink (passedOn rx (.count c t) s) x ∧
      x.knives = s.knives ∧ x.rs.held = s.rs.held ∧ ownOf .reply x = ownOf .reply s := by
  rw [exec_countFrame hfrom]
  obtain ⟨q, a, hport, -⟩ := passedOn_rest rx (.count c t) s
  have hS := passedOn_eq rx (.count c t) s
  have hreplies : (passedOn rx (.count c t) s).ll.replies = s.ll.replies := by rw [hport]; cases q <;> rfl
  generalize passedOn rx (.count c t) s = S at hS hreplies
  have hsame : ∀ x, SameTables S x → SameTables s x := fun x h => by rw [hS] at h; exact h
  have htake : takeCount c t S = frameApplied m (advance m c s.pu) S { S with pu := moved m c t s.pu } := by
    rw [hS]
    exact takeCount_applies (s := { s with ll := S.ll }) hm h
  obtain ⟨mt, lf, hc, -, hup⟩ := mt_frameApplied m (advance m c s.pu) S { S with pu := moved m c t s.pu }
  have hmt := frameApplied_mt m (advance m c s.pu) S { S with pu := moved m c t s.pu }
  rw [← htake] at hup hmt
  have hfixed := (hup.trans (kept_endEvent _).toUpholds).fixed
  obtain ⟨hpu, -, htables, hlink, hknives, hheld⟩ := RecordFlow.stands_of_fixed
    (s := { S with pu := moved m c t s.pu, mt := mt, lookFirst := lf, fq := { S.fq with hCam := hc } }) (flow := S.rs.held) hfixed
  rw [← (kept_endEvent _).mtFixed] at hmt
  refine ⟨_, rfl, hpu, hmt.trans ?_, hsame _ htables, hlink, hknives.trans ?_, hheld.trans ?_,
    (congrArg Fixed.replies hfixed).trans hreplies⟩ <;> rw [hS]

/-- Settles O25: the Position Unit is that of `moved`, and the tracker that of `supplied`, whose marks are those of the windows passed. -/
theorem countFrameMovesTheWeb : Obligations.CountFrameMovesTheWeb := by
  intro rx c t m s hfrom hm hp happlies
  obtain ⟨x, hexec, hpu, hmt, htables, hlink, hknives, hheld, hreplies⟩ := applied_stands (t := t) hfrom hm happlies
  obtain ⟨hlength, hacc, hacc'⟩ := moved_length hp c t s.pu
  have hadv : (moved m c t s.pu).u = s.pu.u + advance m c s.pu := rfl
  have hadd : s.pu.u + advance m c s.pu - s.pu.u = advance m c s.pu := by omega
  refine ⟨x, hexec, ?_, by rw [hpu]; exact hacc, by rw [hpu]; exact hacc', by rw [hpu]; rfl, by rw [hpu]; rfl, by rw [hpu]; rfl,
    by rw [hpu]; rfl, ?_, ?_, ?_, ?_, htables, hlink, hknives, hheld, hreplies, fun hstands => ?_, fun l hl hstate hr hrise => ?_⟩
  · rw [hpu, hlength, carried]
    omega
  · rw [hpu, hadv, hadd]
    rfl
  · rw [hpu]
    exact speedOf_eq ..
  · rw [hpu]
    exact directionOf_forward _
  · rw [hpu]
    exact directionOf_reverse _
  · rw [hmt, supplied]
    rcases hstands with hnot | hidle
    · rw [hpu, hadv] at hnot
      exact if_neg (by omega)
    · split
      · exact caughtUp_idle hidle ..
      · rfl
  · have hpos : 0 < advance m c s.pu := by rw [hpu, hadv] at hrise; omega
    rw [hmt, supplied, if_pos hpos, hpu]
    refine ⟨fun hnone => caughtUp_none hl hnone _, fun n hn hpass => ?_⟩
    obtain ⟨n, rfl⟩ : ∃ i, n = i + 1 := ⟨n - 1, by omega⟩
    exact caughtUp_some n hstate hl hr hpass (Nat.le_of_lt (lt_marksTo_of_passesWindows hl hr hpass))

/-! ### Latched counts (R7) -/

/-- The position of a latched count that is not refused (R7). -/
theorem latched_eq {m : MachineTable} {cx : Word} {s : State} {u : Int} (hm : s.machine = some m) (h : s.latched cx = some u) :
    (pulses cx s.pu.cPrev).natAbs ≤ m.dMax * 64 ∧ u = s.pu.u + carried cx s.pu / m.ppm := by
  unfold State.latched at h
  rw [hm] at h
  dsimp only at h
  split at h
  · cases h
  · rename_i hok
    rw [not_or, Nat.not_lt] at hok
    exact ⟨hok.2, (Option.some.inj h).symm⟩

/-- The pulses to a count are those to another and on from there, where neither part is long enough to wrap (R2). -/
theorem pulses_add {c c' p : Word} (h : (pulses c p).natAbs ≤ 2 ^ 29) (h' : (pulses c' c).natAbs ≤ 2 ^ 29) :
    pulses c p + pulses c' c = pulses c' p := by
  unfold pulses at *
  have hsum : c' - p = (c - p) + (c' - c) := by ring
  rw [hsum, BitVec.toInt_add, Int.bmod_eq_of_le (by omega) (by omega)]

theorem jumpLimit_le {m : MachineTable} (h : m.dMax ≤ 65535) (e : EncoderState) : jumpLimit m e ≤ 65535 * 64 := by
  unfold jumpLimit
  split <;> omega

/-- Settles O27: the remainder that the frame leaves, with the pulses from its count on, is the remainder before it with all the
pulses. -/
theorem latchedPositionIgnoresFrameOrder : Obligations.LatchedPositionIgnoresFrameOrder := by
  intro rx c t cx m s x u v hfrom hm hp hdmax happlies hx hu hv
  obtain ⟨y, hy, hpu, -, ⟨-, hmachine, -⟩, -⟩ := applied_stands (t := t) hfrom hm happlies
  obtain rfl : y = x := Host.Outcome.next.inj (hy.symm.trans hx)
  obtain ⟨-, rfl⟩ := latched_eq hm hu
  obtain ⟨hnear, rfl⟩ := latched_eq (hmachine.trans hm) hv
  rw [hpu] at hnear ⊢
  have hadd : pulses c s.pu.cPrev + pulses cx c = pulses cx s.pu.cPrev :=
    pulses_add (happlies.2.1.trans ((jumpLimit_le hdmax _).trans (by decide))) (Nat.le_trans hnear (by omega))
  have hcarried : carried cx (moved m c t s.pu) = carried cx s.pu + -advance m c s.pu * m.ppm := by
    show carried c s.pu - advance m c s.pu * m.ppm + pulses cx c * 10000 = _
    unfold carried
    rw [← hadd]
    ring
  have hp' : (m.ppm : Int) ≠ 0 := by omega
  rw [hcarried, Int.add_mul_ediv_right _ _ hp', show (moved m c t s.pu).u = s.pu.u + advance m c s.pu from rfl]
  omega

end Sys2Proof.AppliedFrames
end

section
/-! PROOFS. Mark and sighting frames that count nothing (R7, R10, R11, R54, R58): refused with RANGE, or discarded. -/

namespace Sys2Proof.Dropped

open Sys2Proof Sys2Proof.Machine Sys2Proof.Claims Sys2Proof.Laws Sys2Proof.Sightings

/-! ### Latched counts refused (R7) -/

theorem latched_none {m : MachineTable} {cx : Word} {s : State} (hm : s.machine = some m)
    (h : s.pu.enc = .noBase ∨ m.dMax * 64 < (pulses cx s.pu.cPrev).natAbs) : s.latched cx = none := by
  unfold State.latched
  rw [hm]
  exact if_pos h

/-- A mark frame from the sensor's station is taken (R177). -/
theorem exec_markFrame {rx : Rx} {cx : Word} {s : State} (hfrom : From (·.markSensor) s rx) :
    exec (.markFrame rx cx) s = .next (endEvent (takeMarkFrame rx.src cx (passedOn rx (.mark cx) s))) :=
  congrArg done (arrive_from hfrom rfl (fun _ => rfl))

theorem takeMarkFrame_refused {cx : Word} {s : State} (h : s.latched cx = none) (src : Byte) :
    takeMarkFrame src cx s = refused src 0x11 .range s := by
  unfold takeMarkFrame
  rw [h]
  exact refuse_eq_refused ..

theorem takeMarkFrame_no_roll {m : MachineTable} {cx : Word} {u : Int} {s : State} (hm : s.machine = some m)
    (hu : s.latched cx = some u) (hc : s.ms.current = none) (src : Byte) : takeMarkFrame src cx s = s := by
  unfold takeMarkFrame
  rw [hu, hm]
  dsimp only
  rw [hc]

theorem takeMarkFrame_taken {m : MachineTable} {h : Header} {cx : Word} {u : Int} {s : State} (hm : s.machine = some m)
    (hu : s.latched cx = some u) (hc : s.ms.current = some h) (src : Byte) : takeMarkFrame src cx s = expand (takeMark m h u s) := by
  unfold takeMarkFrame
  rw [hu, hm]
  dsimp only
  rw [hc]

/-! ### Marks discarded (R10, R11) -/

/-- A mark below the window is discarded (R11). -/
theorem judgeMark_below {m : MachineTable} {l : LastMark} {u : Int} {s : State} (hl : s.mt.last = some l)
    (hu : u < windowFrom m s.mt l) (rNom fuel : Nat) : judgeMark m.wMk rNom u fuel s = s := by
  cases fuel with
  | zero => rfl
  | succ fuel =>
    unfold judgeMark
    rw [hl]
    exact if_pos hu

/-- In REVERSE, in SEEKING unless the direction is FORWARD, and below the window a mark is discarded (R10, R11). -/
theorem takeMark_discarded {m : MachineTable} {h : Header} {u : Int} {s : State}
    (hd : s.pu.dir = .reverse ∨ (s.mt.state = .seeking ∧ s.pu.dir ≠ .forward) ∨
      ∃ l, s.mt.state ≠ .seeking ∧ s.mt.last = some l ∧ u < windowFrom m s.mt l) : takeMark m h u s = s := by
  unfold takeMark
  by_cases hrev : s.pu.dir = .reverse
  · exact if_pos hrev
  · rw [if_neg hrev]
    rcases hd with hrev' | ⟨hseek, hdir⟩ | ⟨l, hstate, hl, hu⟩
    · exact absurd hrev' hrev
    · rw [if_pos hseek, if_neg hdir]
    · rw [if_neg hstate]
      exact judgeMark_below hl hu ..

/-- Settles O30: R7 refuses the count, or the tracker discards the mark; an attempt to expand ends the event of a discard. -/
theorem markOutsideWindowIsDropped : Obligations.MarkOutsideWindowIsDropped := by
  intro rx cx s hfrom
  rw [exec_markFrame hfrom]
  have hS := passedOn_eq rx (.mark cx) s
  generalize passedOn rx (.mark cx) s = S at hS
  have hmachine : S.machine = s.machine := by rw [hS]
  have hcurrent : S.ms.current = s.ms.current := by rw [hS]
  have hlatched : S.latched cx = s.latched cx := by rw [hS]; rfl
  have hexpandable : S.expandable = s.expandable := by rw [hS]; rfl
  refine ⟨fun m hm h => ?_, fun m u hm hu hc => ?_, fun m h u hm hc hu hd => ?_⟩
  · rw [takeMarkFrame_refused (hlatched.trans (latched_none hm h))]
  · rw [takeMarkFrame_no_roll (hmachine.trans hm) (hlatched.trans hu) (hcurrent.trans hc)]
  · have hdropped : takeMark m h u S = S := takeMark_discarded (by rw [hS]; exact hd)
    rw [takeMarkFrame_taken (hmachine.trans hm) (hlatched.trans hu) (hcurrent.trans hc), hdropped]
    exact ⟨rfl, fun he => by rw [expand_none S (hexpandable.trans he)]⟩

/-! ### Sightings refused or read again (R54, R55, R58) -/

/-- The content tests of a sighting frame are those of the statement (R54). -/
theorem sightingInRange_iff (kind cls : Byte) (x0 x1 : Half) : sightingInRange kind cls x0 x1 = true ↔
    kind.toNat ≤ 1 ∧ (kind = 0 → cls.toNat ≤ 15) ∧ x0.toNat ≤ x1.toNat ∧ x1.toNat ≤ 30000 := by
  refine ⟨fun h => ?_, fun ⟨hkind, hcls, hx, hx1⟩ => sightingInRange_of hkind hcls hx hx1⟩
  simp only [sightingInRange, Bool.and_eq_true, Bool.or_eq_true, decide_eq_true_eq, beq_iff_eq] at h
  obtain ⟨⟨⟨hkind, hcls⟩, hx⟩, hx1⟩ := h
  refine ⟨hkind, fun h0 => hcls.resolve_left (fun h1 => ?_), hx, hx1⟩
  rw [h0] at h1
  exact absurd h1 (by decide)

/-- A sighting frame from the inspection's station is taken (R177). -/
theorem exec_sighting {rx : Rx} {cDet : Word} {kind cls : Byte} {len x0 x1 : Half} {s : State} (hfrom : From (·.inspection) s rx) :
    exec (.sightingFrame rx cDet kind cls len x0 x1) s =
      .next (endEvent (takeSighting rx.src cDet kind cls len x0 x1 (passedOn rx (.sighting cDet kind cls len x0 x1) s))) :=
  congrArg done (arrive_from hfrom rfl (fun _ => rfl))

theorem takeSighting_refused {src : Byte} {cDet : Word} {kind cls : Byte} {len x0 x1 : Half} {s : State}
    (h : sightingInRange kind cls x0 x1 = false ∨ s.latched cDet = none) :
    takeSighting src cDet kind cls len x0 x1 s = refused src 0x12 .range s := by
  unfold takeSighting
  rw [← refuse_eq_refused]
  rcases h with h | h
  · rw [h]
    exact if_neg Bool.false_ne_true
  · split
    · rw [h]
    · rfl

theorem takeSighting_no_roll {src : Byte} {cDet : Word} {kind cls : Byte} {len x0 x1 : Half} {m : MachineTable} {u : Int} {s : State}
    (hr : sightingInRange kind cls x0 x1 = true) (hm : s.machine = some m) (hu : s.latched cDet = some u) (hc : s.ms.current = none) :
    takeSighting src cDet kind cls len x0 x1 s = s := by
  unfold takeSighting
  rw [if_pos hr, hu, hm]
  dsimp only
  rw [hc]
  exact if_neg Bool.false_ne_true

/-- A sighting that confirms and grows none and lies M_md or more behind the farthest camera position is a re-read, discarded (R55,
R58). -/
theorem handleSighting_reread {m : MachineTable} {g : Sighting} {s : State} {hc : Int}
    (hnone : ∀ x ∈ s.fq.settled, s.confirmable m g x = false)
    (hstreak : ∀ c, g.kind = .defect c → ∀ x ∈ s.fq.settled, streakCandidate m g x = false)
    (hcam : s.fq.hCam = some hc) (hbehind : g.p ≤ hc - m.mMd) : handleSighting m g s = s := by
  have hgrows : s.streak m g = none := by
    unfold State.streak
    cases hkind : g.kind with
    | defect c =>
      dsimp only
      rw [nearest_filter_none (hstreak c hkind)]
      rfl
    | splice | unmapped | blind => rfl
  have hagain : s.reread m g.p = true := by
    unfold State.reread
    rw [hcam]
    exact decide_eq_true hbehind
  unfold handleSighting
  rw [nearest_filter_none hnone, hgrows]
  exact if_pos hagain

/-- Settles O38: the frame fails a test of R54 or R7, no roll is current, or the sighting is a re-read. -/
theorem sightingIsRefusedOrReread : Obligations.SightingIsRefusedOrReread := by
  intro rx cDet kind cls len x0 x1 m s hfrom hm s' inRange
  have hS : s' = { s with ll := s'.ll } := passedOn_eq ..
  have hmachine : s'.machine = s.machine := by rw [hS]
  have hlatched : s'.latched cDet = s.latched cDet := by rw [hS]; rfl
  have hcurrent : s'.ms.current = s.ms.current := by rw [hS]
  have hexpandable : s'.expandable = s.expandable := by rw [hS]; rfl
  have hexec := exec_sighting (cDet := cDet) (kind := kind) (cls := cls) (len := len) (x0 := x0) (x1 := x1) hfrom
  refine ⟨fun hrefuse => ?_, fun u hr hu => ⟨fun hc => ?_, ?_⟩⟩
  · rw [hexec, takeSighting_refused]
    rcases hrefuse with hout | hcount
    · exact .inl (Bool.eq_false_iff.2 (fun h => hout ((sightingInRange_iff ..).1 h)))
    · exact .inr (hlatched.trans (latched_none hm hcount))
  · rw [hexec, takeSighting_no_roll ((sightingInRange_iff ..).2 hr) (hmachine.trans hm) (hlatched.trans hu) (hcurrent.trans hc)]
  · intro g hc hroll hfree hcam hbehind
    have hdiscard : handleSighting m (sightingAt m u kind cls len x0 x1 s.taint) s' = s' := by
      rw [hS]
      exact handleSighting_reread (fun e he => (hfree e he).1) (fun c hk e he => (hfree e he).2 (kind_eq_zero hr.1 hk)) hcam hbehind
    rw [exec_sightingFrame hfrom hm hroll hu ((sightingInRange_iff ..).2 hr)]
    have hexpand : expand (handleSighting m (sightingAt m u kind cls len x0 x1 s.taint) s') = expand s' := by rw [hdiscard]
    refine ⟨congrArg (fun t => Host.Outcome.next (endEvent t)) hexpand, fun he => ?_⟩
    exact congrArg (fun t => Host.Outcome.next (endEvent t)) (hexpand.trans (expand_none s' (hexpandable.trans he)))

end Sys2Proof.Dropped
end

section
/-! PROOFS. Requests that the part's state does not allow (10.5), and LOAD_MACHINE (R8, R181): the table that its words spell, tied to the
words of the statements. -/

namespace Sys2Proof.MachineTables

open Sys2Proof Sys2Proof.Machine Sys2Proof.Claims Sys2Proof.Laws Sys2Proof.Sightings Sys2Proof.RollMap Sys2Proof.TableRequests

/-! ### Refused for the state (R180) -/

/-- A request that is denied whatever the Line Link Interface holds is answered so and changes nothing. -/
theorem turned_away {rx : Rx} {line : Bool} {code : Byte} {body : List Byte} {st : ReplyStatus} {i : Nat} {s : State}
    (ha : Asked s rx) (he : ∀ ll, execute line (some code) body { s with ll := ll } = deny st i { s with ll := ll }) :
    done (arrive rx (.request line (some code) body) s) =
      .next (endEvent (answered rx code st i .empty (passedOn rx (.request line (some code) body) s))) :=
  arrive_denied ha (by rw [passedOn_eq]; exact he _)

/-- ROLL_START in NO_SET names the first item that is missing (R185). -/
theorem rollStart_missing {i : Nat} {s : State} (hs : s.sc.state = .noSet) (h : s.missing = some i) (body : List Byte) :
    rollStart body s = deny .notReady i s := by
  unfold rollStart
  rw [if_pos hs, h]

theorem markResync_busy {s : State} (h : s.mt.state ≠ .locked) (body : List Byte) : markResync body s = deny .busy 0 s := by
  unfold markResync
  split
  · rename_i hlocked _ _
    exact absurd hlocked h
  · rfl

/-- Settles O58: each of the requests asks the part's state before its body. -/
theorem requestsRefusedForTheState : Obligations.RequestsRefusedForTheState := by
  intro rx body s ha turned
  refine ⟨fun hset => ⟨?_, ?_, ?_⟩, fun hset => ⟨?_, fun hm => ?_, fun hm hp => ?_, fun hm hp hb => ?_, fun hm hp hb hn => ?_⟩,
    fun hlock => ?_, fun hrun happ => ?_, fun hopen hl => ?_, fun hchange => ?_⟩ <;> refine turned_away ha (fun ll => ?_)
  · exact if_neg hset
  · exact if_neg hset
  · exact if_neg hset
  · exact if_pos hset
  · exact rollStart_missing (i := 1) (s := { s with ll := ll }) hset (by simp [State.missing, hm]) body
  · exact rollStart_missing (i := 2) (s := { s with ll := ll }) hset (by simp [State.missing, Option.isSome_iff_ne_none.1 hm, hp]) body
  · exact rollStart_missing (i := 3) (s := { s with ll := ll }) hset
      (by simp [State.missing, Option.isSome_iff_ne_none.1 hm, Option.isSome_iff_ne_none.1 hp, hb]) body
  · exact rollStart_missing (i := 4) (s := { s with ll := ll }) hset
      (by simp [State.missing, Option.isSome_iff_ne_none.1 hm, Option.isSome_iff_ne_none.1 hp,
      Option.isSome_iff_ne_none.1 hb, hn]) body
  · exact markResync_busy (s := { s with ll := ll }) hlock body
  · exact if_neg (fun h => h.elim hrun happ)
  · show doffNow body { s with ll := ll } = _
    unfold doffNow
    rw [if_pos (by exact hopen), show State.mt { s with ll := ll } = s.mt from rfl, hl]
  · exact if_neg hchange

/-! ### The table that 26 words spell (R181) -/

/-- The table of the values that the fields have. -/
def tableOf (ws : List Word) : MachineTable :=
  let v := machineField ws
  { ppm := v 1, dMax := v 2, sEnc := v 3, dCam := v 4, dKn := v 5, dSt := v 6, dFl := v 7, dNip := v 8, wMk := v 9, aD := v 10
    mSt := v 11, tPos := v 12, wTab := v 13, vApp := v 14, mMd := v 15, mCd := v 16, g := v 17, fMin := v 18, h := v 19, p := v 20
    pLo := v 21, pHi := v 22, tKnife := v 23, rc := v 24, kTol := v 25, flagStation := v 26 }

theorem orDefault_eq (d : Nat) (w : Word) : orDefault d w = if w.toNat = 2 ^ 32 - 1 then d else w.toNat := by
  have hw : w = wAbsent ↔ w.toNat = 2 ^ 32 - 1 := ⟨fun h => h ▸ rfl, fun h => BitVec.eq_of_toNat_eq h⟩
  simp only [orDefault, hw]

/-- The default of a field that may be absent. -/
def fieldDefault : Nat → Nat
  | 3 => 10 | 9 => 50 | 19 => 256 | 20 => 3 | 21 => 64 | _ => 192

theorem machineField_plain {ws : List Word} {n : Nat} (h : n ∉ [3, 9, 19, 20, 21, 22]) : machineField ws n = wordAt ws (n - 1) :=
  if_neg (fun hn => h hn.1)

theorem machineField_default {ws : List Word} {n : Nat} (h : n ∈ [3, 9, 19, 20, 21, 22]) :
    machineField ws n = orDefault (fieldDefault n) ((ws[n - 1]?).getD 0) := by
  rw [orDefault_eq]
  simp only [machineField, h, true_and]
  rfl

/-- The table of 26 words has the values that the statements give their fields. -/
theorem machineOf_words {ws : List Word} (hlen : ws.length = 26) : machineOf ws = some (tableOf ws) := by
  match ws, hlen with
  | [w1, w2, w3, w4, w5, w6, w7, w8, w9, w10, w11, w12, w13, w14, w15, w16, w17, w18, w19, w20, w21, w22, w23, w24, w25, w26], _ =>
    rw [tableOf, machineField_default (n := 3) (by decide), machineField_default (n := 9) (by decide),
      machineField_default (n := 19) (by decide), machineField_default (n := 20) (by decide),
      machineField_default (n := 21) (by decide), machineField_default (n := 22) (by decide)]
    rfl

theorem length_of_machineOf {ws : List Word} {m : MachineTable} (h : machineOf ws = some m) : ws.length = 26 := by
  unfold machineOf at h
  split at h
  · rfl
  · cases h

/-- A body that is no 26 words names field 0 (R180). -/
theorem machineIn_of_length_ne {s : State} {body : List Byte} (h : body.length ≠ 104) : s.machineIn body = .error 0 := by
  unfold State.machineIn
  cases hm : (wordsOf body).bind machineOf with
  | none => rfl
  | some m =>
    obtain ⟨ws, hws, hof⟩ := Option.bind_eq_some_iff.1 hm
    have hlen := length_of_wordsOf hws
    rw [length_of_machineOf hof] at hlen
    exact absurd hlen h

/-! ### The tests in ascending field number (R180, R181) -/

/-- The test of field n: its range, and its place among the fields beside it. -/
def fieldTest (own : Nat) (ws : List Word) (n : Nat) : Bool :=
  let v := machineField ws
  let inRange := within (machineRange n).1 (machineRange n).2 (v n)
  match n with
  | 5 | 6 | 7 | 22 => inRange && v (n - 1) < v n
  | 8 => inRange && v 7 ≤ v 8
  | 26 => inRange && v 26 != own
  | _ => inRange

theorem fieldTest_iff (own : Nat) (ws : List Word) (n : Nat) : fieldTest own ws n = true ↔ MachineFieldPasses own ws n := by
  unfold fieldTest MachineFieldPasses within
  split <;> simp_all [and_assoc]

theorem machineTests_words {s : State} {own : Nat} (hs : s.station = some own) (ws : List Word) :
    s.machineTests (tableOf ws) = (List.range' 1 26).map (fun n => (n, fieldTest own ws n)) := by
  have hown : s.notOwn (tableOf ws).flagStation = (machineField ws 26 != own) := by
    rw [State.notOwn, hs, Bool.eq_iff_iff]
    simp [tableOf, ne_comm]
  rw [State.machineTests, hown]
  rfl

/-- A field that the table has not passes as it stands. -/
theorem passes_outside {own : Nat} {ws : List Word} {n : Nat} (h : n < 1 ∨ 26 < n) : MachineFieldPasses own ws n := by
  have hrange : machineRange n = (0, 2 ^ 32) := by
    rcases h with h | h
    · obtain rfl : n = 0 := by omega
      rfl
    · obtain ⟨k, rfl⟩ := Nat.exists_eq_add_of_le' (Nat.succ_le_of_lt h)
      rfl
  have hvalue : machineField ws n = wordAt ws (n - 1) := if_neg (by simp only [List.mem_cons, List.not_mem_nil, or_false]; omega)
  have hword : wordAt ws (n - 1) < 2 ^ 32 := BitVec.isLt _
  refine ⟨?_, ?_, fun _ => by omega, fun _ => by omega, fun _ => by omega⟩
  · rw [hrange]
    exact Nat.zero_le _
  · rw [hrange, hvalue]
    exact Nat.le_of_lt hword

/-- The field that LOAD_MACHINE names is the first that fails (R180, R181). -/
theorem machineIn_of_firstFails {s : State} {own n : Nat} {ws : List Word} (hs : s.station = some own) (hlen : ws.length = 26)
    (hf : FirstFails (MachineFieldPasses own ws) n) : s.machineIn (ws.flatMap wordBytes) = .error n := by
  have hpass : ∀ k, MachineFieldPasses own ws k ↔
      ∀ x ∈ (List.range' 1 26).map (fun n => (n, fieldTest own ws n)), x.1 = k → x.2 = true := by
    intro k
    simp only [List.mem_map, List.mem_range'_1, forall_exists_index, and_imp]
    refine ⟨fun h x i _ _ hx hk => ?_, fun h => ?_⟩
    · subst hx hk
      exact (fieldTest_iff ..).2 h
    by_cases hin : 1 ≤ k ∧ k < 1 + 26
    · exact (fieldTest_iff ..).1 (h _ k hin.1 hin.2 rfl rfl)
    · exact passes_outside (by omega)
  have hascend : ((List.range' 1 26).map (fun n => (n, fieldTest own ws n))).Pairwise (fun x y => x.1 < y.1) :=
    List.pairwise_map.2 (List.pairwise_lt_range' 1)
  unfold State.machineIn
  rw [wordsOf_wordBytes, Option.bind_some, machineOf_words hlen]
  dsimp only
  rw [machineTests_words hs, firstFailing_of_firstFails hascend hpass hf]

/-! ### A table read back from its own fields -/

/-- A field as it is sent: all ones where it may be absent and has its default (R181). -/
def sentField (absent : Bool) (default value : Nat) : Word := if absent = true ∧ value = default then 0xFFFFFFFF else wNat value

theorem orDefault_sentField (absent : Bool) {default value : Nat} (h : value < 2 ^ 32 - 1) :
    orDefault default (sentField absent default value) = value := by
  have hword : (wNat value).toNat = value := wNat_toNat value (by omega)
  rw [orDefault_eq, sentField]
  split
  · rename_i hdefault
    rw [hdefault.2]
    exact if_pos rfl
  · rw [hword]
    exact if_neg (by omega)

theorem firstFailing_cons_pass {n : Nat} {ok : Bool} {l : List (Nat × Bool)} (h : ok = true) (hl : firstFailing l = none) :
    firstFailing ((n, ok) :: l) = none :=
  (if_pos h).trans hl

theorem machineIn_machineBytes {s : State} {own : Nat} {m : MachineTable} (hs : s.station = some own) (hm : GoodMachine own m)
    (absent : Bool) : s.machineIn (machineBytes absent m) = .ok m := by
  obtain ⟨hppm, hdMax, hsEnc, hstations, hwMk, haD, hmSt, htPos, hwTab, hvApp, hmMd, hmCd, hg, hfMin, hh, hp, hpLo, hpHi, htKnife,
    hrc, hkTol, hflag⟩ := hm
  have hwords : machineOf [wNat m.ppm, wNat m.dMax, sentField absent 10 m.sEnc, wNat m.dCam, wNat m.dKn, wNat m.dSt, wNat m.dFl,
      wNat m.dNip, sentField absent 50 m.wMk, wNat m.aD, wNat m.mSt, wNat m.tPos, wNat m.wTab, wNat m.vApp, wNat m.mMd, wNat m.mCd,
      wNat m.g, wNat m.fMin, sentField absent 256 m.h, sentField absent 3 m.p, sentField absent 64 m.pLo, sentField absent 192 m.pHi,
      wNat m.tKnife, wNat m.rc, wNat m.kTol, wNat m.flagStation] = some m := by
    rw [machineOf, wNat_toNat m.ppm (by omega), wNat_toNat m.dMax (by omega), wNat_toNat m.dCam (by omega),
      wNat_toNat m.dKn (by omega), wNat_toNat m.dSt (by omega), wNat_toNat m.dFl (by omega), wNat_toNat m.dNip (by omega),
      wNat_toNat m.aD (by omega), wNat_toNat m.mSt (by omega), wNat_toNat m.tPos (by omega), wNat_toNat m.wTab (by omega),
      wNat_toNat m.vApp (by omega), wNat_toNat m.mMd (by omega), wNat_toNat m.mCd (by omega), wNat_toNat m.g (by omega),
      wNat_toNat m.fMin (by omega), wNat_toNat m.tKnife (by omega), wNat_toNat m.rc (by omega), wNat_toNat m.kTol (by omega),
      wNat_toNat m.flagStation (by omega), orDefault_sentField absent (by omega), orDefault_sentField absent (by omega),
      orDefault_sentField absent (by omega), orDefault_sentField absent (by omega), orDefault_sentField absent (by omega),
      orDefault_sentField absent (by omega)]
  have hown : s.notOwn m.flagStation = true := by
    rw [State.notOwn, hs]
    simpa using fun h => hflag.2.2 h.symm
  have hpass : firstFailing (s.machineTests m) = none := by
    unfold State.machineTests
    iterate 26 refine firstFailing_cons_pass (by simp only [within, Bool.and_eq_true, decide_eq_true_eq, hown, and_true]; omega) ?_
    rfl
  have hin : (wordsOf (machineBytes absent m)).bind machineOf = some m := by
    show (wordsOf (List.flatMap wordBytes _)).bind machineOf = some m
    rw [wordsOf_wordBytes]
    exact hwords
  unfold State.machineIn
  rw [hin]
  dsimp only
  rw [hpass]

/-! ### LOAD_MACHINE (R8, R181) -/

theorem loadMachine_denied {rx : Rx} {s : State} {body : List Byte} {n : Nat} (ha : Asked s rx) (hset : s.sc.state = .noSet)
    (h : (passedOn rx (.request false (some codeLoadMachine) body) s).machineIn body = .error n) :
    exec (.loadMachine rx body) s =
      .next (endEvent (answered rx 3 .invalid n .empty (passedOn rx (.request false (some 3) body) s))) := by
  refine arrive_denied ha ?_
  show loadMachine body _ = _
  unfold loadMachine
  rw [if_pos (by rw [passedOn_eq]; exact hset), h]

theorem loadMachine_accepted {body : List Byte} {m : MachineTable} {s : State} (hset : s.sc.state = .noSet)
    (h : s.machineIn body = .ok m) : loadMachine body s = accept { s with
      machine := some m
      pu := if s.machine.map (·.ppm) = some m.ppm then s.pu else { s.pu with acc := 0 } } := by
  have hppm : (s.machine.any (fun o => o.ppm == m.ppm) = true) ↔ s.machine.map (·.ppm) = some m.ppm := by
    cases s.machine <;> simp
  unfold loadMachine
  rw [if_pos hset, h]
  simp only [hppm]

/-- Settles O56: the table read back from its words, or the first field that fails. -/
theorem machineTableIsLoaded : Obligations.MachineTableIsLoaded := by
  intro rx own m absent s ha hs hset
  refine ⟨fun ws n hlen hf => loadMachine_denied ha hset (machineIn_of_firstFails (station_passedOn.trans hs) hlen hf),
    fun body hlen => loadMachine_denied ha hset (machineIn_of_length_ne hlen), fun hm => ?_⟩
  have hexec := loadMachine_accepted (s := passedOn rx (.request false (some codeLoadMachine) (machineBytes absent m)) s)
    (by rw [passedOn_eq]; exact hset) (machineIn_machineBytes (station_passedOn.trans hs) hm absent)
  have hS := passedOn_eq rx (.request false (some codeLoadMachine) (machineBytes absent m)) s
  have hmachine : (passedOn rx (.request false (some codeLoadMachine) (machineBytes absent m)) s).machine = s.machine := by rw [hS]
  have hpu : (passedOn rx (.request false (some codeLoadMachine) (machineBytes absent m)) s).pu = s.pu := by rw [hS]
  rw [hmachine, hpu] at hexec
  exact congrArg done (arrive_answered ha hexec (ready_of ha))

end Sys2Proof.MachineTables
end

section
/-! PROOFS. ROLL_END (R186): the set's records close, a stop outstanding is cancelled, and every block takes its values. -/

namespace Sys2Proof.RollEnds

open Sys2Proof Sys2Proof.Machine Sys2Proof.Claims Sys2Proof.Laws Sys2Proof.Sightings Sys2Proof.SetChange Sys2Proof.Closing
  Sys2Proof.Waiting Sys2Proof.Looks Sys2Proof.LanePlan

/-! ### Records sent outside PREPARING (R168) -/

/-- From `s` to `t` the Record Store has moved and record frames have been queued: nothing else of the part, and no order. -/
def OnlySends (s t : State) : Prop :=
  ∃ rs own seq, t = { s with rs := rs, ll := { s.ll with own := own, seq := seq } } ∧
    own.filter (fun f => f.cls == .order) = ownOf .order s

theorem OnlySends.of_records (s : State) (rs : RecordStore) : OnlySends s { s with rs := rs } := ⟨rs, s.ll.own, s.ll.seq, rfl, rfl⟩

theorem OnlySends.trans {s t u : State} (h : OnlySends s t) (h' : OnlySends t u) : OnlySends s u := by
  obtain ⟨rs, own, seq, rfl, hown⟩ := h
  obtain ⟨rs', own', seq', rfl, hown'⟩ := h'
  exact ⟨rs', own', seq', rfl, hown'.trans hown⟩

theorem onlySends_passRecord (i : Nat) (r : ReelRecord) (s : State) : OnlySends s (passRecord i r s) := by
  have hqueue : OnlySends s (queueOwn .record (s.role (·.recordReceiver)) none
      (.record r r.fragments (r.lastFragment r.fragments) (r.carried r.fragments)) s) := by
    rcases queueOwn_cases .record (s.role (·.recordReceiver)) none
      (.record r r.fragments (r.lastFragment r.fragments) (r.carried r.fragments)) s with ⟨_, _, f, hf, h⟩ | ⟨_, _, h⟩ | ⟨_, h⟩
    · refine ⟨s.rs, _, s.ll.seq + 1, h, ?_⟩
      have hcls : (f.cls == OwnClass.order) = false := by rw [hf]; rfl
      split
      · rfl
      · rw [List.filter_append, List.filter_cons, hcls]
        exact List.append_nil _
    · rw [h]
      exact OnlySends.of_records s s.rs
    · rw [h]
      exact OnlySends.of_records s s.rs
  exact hqueue.trans (OnlySends.of_records _ _)

theorem onlySends_recordSent {s : State} (h : s.sc.state ≠ .preparing) : OnlySends s (recordSent s) := by
  unfold recordSent
  split
  · exact OnlySends.of_records s s.rs
  · rw [judgeGate_of_not_preparing (by exact h)]
    exact OnlySends.of_records s _

theorem OnlySends.sc {s t : State} (h : OnlySends s t) : t.sc = s.sc := by
  obtain ⟨_, _, _, rfl, -⟩ := h
  rfl

theorem onlySends_pumpRecords : ∀ (n : Nat) {s : State}, s.sc.state ≠ .preparing → OnlySends s (pumpRecords n s)
  | 0, s, _ => OnlySends.of_records s s.rs
  | n + 1, s, h => by
    unfold pumpRecords
    split
    · exact OnlySends.of_records s s.rs
    · rename_i i r _
      have hpass := onlySends_passRecord i r s
      have hstate : (passRecord i r s).sc.state ≠ .preparing := by rw [hpass.sc]; exact h
      have hsent := onlySends_recordSent hstate
      dsimp only
      split
      · exact (hpass.trans hsent).trans (onlySends_pumpRecords n (by rw [hsent.sc]; exact hstate))
      · exact hpass

theorem onlySends_closeSet {s : State} (h : s.sc.state ≠ .preparing) (gross repeats : Nat) (rollEnd : Bool) :
    OnlySends s (closeSet gross repeats rollEnd s) :=
  (OnlySends.of_records s _).trans (onlySends_pumpRecords _ h)

/-! ### The records at the roll's end (R154) -/

theorem closeAtEnd_preparing {s : State} (h : s.sc.state = .preparing) : closeAtEnd s = s := by
  unfold closeAtEnd
  rw [h]

/-- Outside NO_SET and PREPARING the records close, and the set number advances (R141, R154). -/
theorem closeAtEnd_closes {s : State} (h : s.sc.state ≠ .noSet) (hp : s.sc.state ≠ .preparing) :
    closeAtEnd s = { closeSet (s.sc.grossOf s.endGross) s.endRepeats true s with
      sc := { s.sc with num := nextSetNumber s.sc.num } } := by
  have hsc := (onlySends_closeSet hp (s.sc.grossOf s.endGross) s.endRepeats true).sc
  unfold closeAtEnd
  split
  · exact absurd ‹_› h
  · exact absurd ‹_› hp
  · dsimp only
    rw [hsc]

/-- The close leaves the Stop Scheduler, the orders and the ports; the set number advances outside PREPARING. -/
theorem closeAtEnd_leaves {s : State} (h : s.sc.state ≠ .noSet) : ∃ rs own seq,
    closeAtEnd s = { s with
      rs := rs, ll := { s.ll with own := own, seq := seq }
      sc := { s.sc with num := if s.sc.state = .preparing then s.sc.num else numberAfter s.sc.num } } ∧
    own.filter (fun f => f.cls == .order) = ownOf .order s := by
  by_cases hp : s.sc.state = .preparing
  · rw [closeAtEnd_preparing hp, if_pos hp]
    exact ⟨s.rs, s.ll.own, s.ll.seq, rfl, rfl⟩
  · obtain ⟨rs, own, seq, hclose, hown⟩ := onlySends_closeSet hp (s.sc.grossOf s.endGross) s.endRepeats true
    rw [closeAtEnd_closes h hp, if_neg hp, hclose, nextSetNumber_eq]
    exact ⟨rs, own, seq, rfl, hown⟩

theorem setClosed_of_records {b : Bank} {h : Header} {gross repeats : Nat} {rollEnd : Bool} {s x y : State}
    (hx : SetClosed b h gross repeats rollEnd s x) (hy : y.rs = x.rs) : SetClosed b h gross repeats rollEnd s y := by
  unfold SetClosed at hx ⊢
  rw [hy]
  exact hx

/-- The records of an open set at the roll's end: the gross length to the end, the repeats to the last mark (R154). -/
theorem closeAtEnd_open {s : State} {m : MachineTable} {b : Bank} {h : Header} {start : Int} {base gross : Nat}
    (hm : s.machine = some m) (hb : s.lpt.active = some b) (hc : s.ms.current = some h) (hstart : s.sc.pStart = some start)
    (hbase : s.sc.kBase = some base) (hl : linked s = true) (ho : s.sc.state.open = true)
    (hg : GrossIs (s.pu.u - m.dNip - start) s gross) :
    SetClosed b h gross (match s.mt.last with | some l => l.k - base | none => 0) true s (closeAtEnd s) := by
  have hno : s.sc.state ≠ .noSet := fun hs => by rw [hs] at ho; cases ho
  have hpr : s.sc.state ≠ .preparing := fun hs => by rw [hs] at ho; cases ho
  have hch : s.sc.state ≠ .changing := fun hs => by rw [hs] at ho; cases ho
  have hgross : s.endGross = s.pu.u - m.dNip - start := by
    simp only [State.endGross, hstart, hm, if_neg hch, Option.getD_some, Option.map_some]
  have hrepeats : s.endRepeats = match s.mt.last with | some l => l.k - base | none => 0 := by
    simp only [State.endRepeats, hbase, if_neg hch, Option.getD_some] <;> rfl
  rw [closeAtEnd_closes hno hpr, hgross, grossOf_eq hg, ← hrepeats]
  exact closeSet_closes hb hc hl gross s.endRepeats true

/-- The records of a set in CHANGING at the roll's end: the gross length to the frozen cut, the repeats to the cut (R154). -/
theorem closeAtEnd_changing {s : State} {b : Bank} {h : Header} {start c : Int} {base k gross : Nat} (hb : s.lpt.active = some b)
    (hc : s.ms.current = some h) (hstart : s.sc.pStart = some start) (hbase : s.sc.kBase = some base) (hl : linked s = true)
    (hs : s.sc.state = .changing) (hcut : s.sc.frozenCut = some c) (hk : s.sc.kCut = some k) (hg : GrossIs (c - start) s gross) :
    SetClosed b h gross (k - base) true s (closeAtEnd s) := by
  have hno : s.sc.state ≠ .noSet := by rw [hs]; exact SetState.noConfusion
  have hpr : s.sc.state ≠ .preparing := by rw [hs]; exact SetState.noConfusion
  have hgross : s.endGross = c - start := by
    simp only [State.endGross, hstart, hcut, if_pos hs, Option.getD_some]
  have hrepeats : s.endRepeats = k - base := by
    simp only [State.endRepeats, SetController.cutRepeats, hbase, hk, if_pos hs, Option.getD_some]
  rw [closeAtEnd_closes hno hpr, hgross, grossOf_eq hg, hrepeats]
  exact closeSet_closes hb hc hl gross (k - base) true

/-! ### The stop outstanding (R139) -/

theorem cancelAtEnd_leaves (s : State) : ∃ ll, cancelAtEnd s = { s with ll := ll } := by
  have hqueue : ∃ ll, driveOrder .cancel s = { s with ll := ll } := by
    rcases queueOwn_cases .order (s.role (·.drive)) none .cancel s with ⟨_, _, f, _, h⟩ | ⟨_, _, h⟩ | ⟨_, h⟩
    · exact ⟨_, h⟩
    · exact ⟨_, h⟩
    · exact ⟨_, h⟩
  unfold cancelAtEnd
  split
  · exact hqueue
  · exact hqueue
  · exact ⟨s.ll, rfl⟩

/-- A stop or jog outstanding is cancelled where the order goes (R139, R179). -/
theorem cancelAtEnd_cancels {s : State} (h : s.ss.state = .requested ∨ s.ss.state = .correcting) (hgo : OrdersGo s) :
    Ordered (s.role (·.drive)) .cancel (cancelAtEnd s) := by
  unfold cancelAtEnd
  split
  · exact ordered_queueOwn hgo _ _ _
  · exact ordered_queueOwn hgo _ _ _
  · rcases h with h | h
    · exact absurd h ‹_›
    · exact absurd h ‹_›

/-! ### ROLL_END (R186) -/

/-- The records closed, a stop outstanding cancelled, and the queue emptied. -/
def wound (s : State) : State := clearQueue (cancelAtEnd (closeAtEnd s))

theorem wound_leaves (s : State) : ∃ nq, wound s = { cancelAtEnd (closeAtEnd s) with
    fq := { (cancelAtEnd (closeAtEnd s)).fq with forecast := [], settled := [] }
    nq := nq } := by
  unfold wound clearQueue
  rw [noticeTags_rest]
  exact ⟨_, rfl⟩

/-- The set, the Stop Scheduler and the records once the roll has been wound off. -/
theorem wound_sets {s : State} (h : s.sc.state ≠ .noSet) :
    (wound s).sc = { s.sc with num := if s.sc.state = .preparing then s.sc.num else numberAfter s.sc.num } ∧
    (wound s).ss = s.ss ∧ (wound s).rs = (closeAtEnd s).rs ∧ (wound s).fq.forecast = [] ∧ (wound s).fq.settled = [] := by
  obtain ⟨rs, own, seq, hclose, -⟩ := closeAtEnd_leaves h
  obtain ⟨ll, hcancel⟩ := cancelAtEnd_leaves (closeAtEnd s)
  obtain ⟨nq, hwound⟩ := wound_leaves s
  rw [hwound, hcancel, hclose]
  exact ⟨rfl, rfl, rfl, rfl, rfl⟩

/-- What the roll's end leaves fixed of the part. -/
theorem wound_stands (s : State) : ∃ flow, (wound s).fixed = { s.fixed with flow := flow } := by
  have hclose : ∃ flow, (closeAtEnd s).fixed = { s.fixed with flow := flow } := by
    unfold closeAtEnd
    split
    · exact ⟨_, rfl⟩
    · exact ⟨_, rfl⟩
    · exact ⟨_, (kept_sendRecords _).fixed⟩
  obtain ⟨flow, hflow⟩ := hclose
  exact ⟨flow, ((kept_cancelAtEnd _).trans (kept_clearQueue _)).fixed.trans hflow⟩

/-- A stop or jog outstanding is cancelled, whatever the records that close send first (R139, R154). -/
theorem wound_cancels {s : State} (h : s.sc.state ≠ .noSet) (hstop : s.ss.state = .requested ∨ s.ss.state = .correcting)
    (hgo : OrdersGo s) : Ordered ((closeAtEnd s).role (·.drive)) .cancel (wound s) := by
  obtain ⟨rs, own, seq, hclose, hown⟩ := closeAtEnd_leaves h
  obtain ⟨hcan, hroom, hlink⟩ := hgo
  have hgo' : OrdersGo (closeAtEnd s) := by
    have hcount : (closeAtEnd s).ll.count .order = s.ll.count .order := by rw [hclose]; exact congrArg List.length hown
    refine ⟨?_, by rw [hcount]; exact hroom, ?_⟩
    · rw [hclose]; exact hcan
    · rw [hclose]; exact hlink
  obtain ⟨nq, hwound⟩ := wound_leaves s
  rw [hwound]
  exact cancelAtEnd_cancels (by rw [hclose]; exact hstop) hgo'

/-- The next-roll header stands, and the rest is as the reset leaves it (R42). -/
theorem endRoll_eq (s : State) : endRoll s = { wound s with
    mt := (wound s).mt.rollEnd
    ms := emptyMap (wound s).ms.next
    fq := { (wound s).fq with hCam := none, flags := List.replicate 24 none }
    ss := noStop (wound s).ss.dS
    sc := noneOpened .noSet (wound s).sc.num none } := rfl

theorem ordersGo_asked {rx : Rx} {p : Payload} {s : State} (ha : Asked s rx) (hroom : s.ll.count .order < 64) (hl : linked s = true) :
    OrdersGo (passedOn rx p s) := by
  obtain ⟨⟨own, hstation, -, -, hresetting⟩, -, -⟩ := ha
  exact Knives.ordersGo_passedOn ⟨OwnFrames.canQueue_of (by rw [hstation]; rfl) hresetting, hroom, hl⟩

/-- Settles O50: the blocks' values at ROLL_END, the cancel and the closed records, carried through the reply and the end of the
event. -/
theorem rollEndClearsTheBlocks : Obligations.RollEndClearsTheBlocks := by
  intro rx s ha hset s'
  have hs' : s' = { s with ll := s'.ll } := passedOn_eq ..
  have hset' : s'.sc.state ≠ .noSet := by rw [hs']; exact hset
  have hexec : exec (.rollEnd rx []) s = .next (endEvent (answered rx 2 .accepted 0 .empty (endRoll s'))) :=
    congrArg done (arrive_answered ha (if_neg hset') ((ready_of ha).kept (keeps_endRoll _)))
  refine ⟨_, hexec, ?_⟩
  obtain ⟨hsc, hss, hrs, hforecast, hsettled⟩ := wound_sets hset'
  obtain ⟨flow, hfixed⟩ := wound_stands s'
  obtain ⟨hpu, hmt, ⟨-, hmachine, hpeers, hlpt, -, hnext⟩, hlink, hknives, -⟩ := RecordFlow.stands_of_fixed hfixed
  have hcancels := wound_cancels (s := s') hset'
  have hreplied : RepliedOnce rx 2 .accepted 0 .empty s' (endEvent (answered rx 2 .accepted 0 .empty (endRoll s'))) :=
    Replies.repliedOnce_answered (keeps_endRoll s') ..
  have hordered : ∀ dst, Ordered dst .cancel (wound s') →
      Ordered dst .cancel (endEvent (answered rx 2 .accepted 0 .empty (endRoll s'))) :=
    fun dst h => ordered_endEvent (ordered_answered (s := endRoll s') h ..)
  obtain ⟨nq, own, seq, hrest⟩ := ended_rest rx 2 .accepted 0 .empty (endRoll s')
  generalize endEvent (answered rx 2 .accepted 0 .empty (endRoll s')) = x at hrest hreplied hordered
  have hxrs : x.rs = (closeAtEnd s').rs := by rw [hrest]; exact hrs
  refine ⟨?_, ?_, ?_, ?_, ?_, fun hstop hroom hl => ?_, ?_, ?_, ?_, ?_, ?_, ?_, hreplied, fun hp => ?_,
    fun m b h start base gross hm hb hc hstart hbase hl => ⟨fun ho hg => ?_, fun c k hs hcut hk hg => ?_⟩⟩
  · rw [hrest, endRoll_eq, hsc, hs']
  · rw [hrest, endRoll_eq, hmt, hs']
    rfl
  · rw [hrest, endRoll_eq, hnext, hs']
  · have hfq : x.fq = { forecast := (wound s').fq.forecast, settled := (wound s').fq.settled, hCam := none
                        flags := List.replicate 24 none } := congrArg State.fq hrest
    rw [hfq, hforecast, hsettled]
  · rw [hrest, endRoll_eq, hss, hs']
  · obtain ⟨f, hf, hcls, -, hbody⟩ := hordered _ (hcancels (by rw [hs']; exact hstop) (ordersGo_asked ha hroom hl))
    exact ⟨f, hf, hcls, hbody⟩
  · rw [hrest, endRoll_eq, hpu, hs']
  · rw [hrest, endRoll_eq, hlpt, hs']
  · rw [hrest, endRoll_eq, hknives, hs']
  · rw [hrest, endRoll_eq, hmachine, hs']
  · rw [hrest, endRoll_eq, hpeers, hs']
  · rw [hrest, endRoll_eq]
    exact hlink
  · rw [hxrs, closeAtEnd_preparing (by rw [hs']; exact hp), hs']
    exact ⟨rfl, rfl⟩
  · have hclosed : SetClosed b h gross (match s.mt.last with | some l => l.k - base | none => 0) true s
        (closeAtEnd { s with ll := s'.ll }) :=
      closeAtEnd_open (s := { s with ll := s'.ll }) hm hb hc hstart hbase ((linked_passedOn ..).trans hl) ho hg
    rw [← hs'] at hclosed
    exact setClosed_of_records hclosed hxrs
  · have hclosed : SetClosed b h gross (k - base) true s (closeAtEnd { s with ll := s'.ll }) :=
      closeAtEnd_changing (s := { s with ll := s'.ll }) hb hc hstart hbase ((linked_passedOn ..).trans hl) hs hcut hk hg
    rw [← hs'] at hclosed
    exact setClosed_of_records hclosed hxrs

end Sys2Proof.RollEnds
end

section
/-! PROOFS. What the station logic and the Stop Scheduler leave of the Map Store and of the Forecast list (R64, R99, R121): the blocks,
the frontier and the requests, and every Forecast entry but for its served mark. -/

namespace Sys2Proof.Forecasts

open Sys2Proof Sys2Proof.Machine Sys2Proof.Claims Sys2Proof.Standing Sys2Proof.DueStations Sys2Proof.Targets Sys2Proof.Looks

/-- The Forecast entries but for their served marks. -/
def unserved (q : FeatureQueue) : List Forecast := q.forecast.map (Forecast.setServed false)

/-- From `s` to `t` the Map Store stands but for the pause, and no Forecast entry has come or changed but in its served mark; of a lawful
queue none has left. -/
structure Shelters (s t : State) : Prop extends Kept s t where
  store : t.ms = { s.ms with paused := t.ms.paused }
  sublist : (unserved t.fq).Sublist (unserved s.fq)
  stands : s.fq.lawful → unserved t.fq = unserved s.fq

section Rules

variable {s t u : State}

theorem Shelters.of_unserved (h : Kept s t) (hms : t.ms = s.ms) (hf : unserved t.fq = unserved s.fq) : Shelters s t :=
  ⟨h, by rw [hms], by rw [hf], fun _ => hf⟩

theorem Shelters.of_same (h : Kept s t) (hms : t.ms = s.ms) (hf : t.fq.forecast = s.fq.forecast) : Shelters s t :=
  .of_unserved h hms (by unfold unserved; rw [hf])

theorem Shelters.refl (s : State) : Shelters s s := .of_same (Kept.refl s) rfl rfl

theorem Shelters.trans (h : Shelters s t) (k : Shelters t u) : Shelters s u :=
  ⟨h.toKept.trans k.toKept, by rw [k.store, h.store], k.sublist.trans h.sublist, fun hq => (k.stands (h.queue hq)).trans (h.stands hq)⟩

theorem Shelters.foldl {α : Type} (f : State → α → State) (h : ∀ s x, Shelters s (f s x)) (l : List α) :
    ∀ s, Shelters s (l.foldl f s) := by
  induction l with
  | nil => exact Shelters.refl
  | cons x l ih => exact fun s => (h s x).trans (ih _)

theorem Shelters.stop (s : State) (x : StopScheduler) : Shelters s { s with ss := x } := .of_same (Kept.stop s x) rfl rfl

end Rules

/-! ### Orders, notices and leaving -/

theorem queueOwn_ms (c : OwnClass) (dst : Nat) (tag : Option Half) (body : OwnBody) (s : State) :
    (queueOwn c dst tag body s).ms = s.ms := by
  unfold queueOwn
  split_ifs <;> rfl

theorem shelters_driveOrder (body : OwnBody) (s : State) : Shelters s (driveOrder body s) :=
  .of_same (kept_driveOrder body s) (queueOwn_ms ..) (by rw [driveOrder_fq])

theorem shelters_queueNotice (k : NoticeKind) (a b c : Word) (s : State) : Shelters s (queueNotice k a b c s) := by
  have hrest := queueNotice_rest k a b c s
  exact .of_same (kept_queueNotice ..) (by rw [hrest]) (by rw [hrest])

theorem shelters_changeSettled {num : Nat} {g : Settled → Settled} (hg : ∀ e, (g e).feat.num = e.feat.num ∧ (g e).p = e.p) (s : State) :
    Shelters s (changeSettled num g s) := .of_same (kept_changeSettled num g hg s) rfl rfl

theorem reportFree_ms (s : State) : (reportFree s).ms = { s.ms with paused := (reportFree s).ms.paused } := by
  cases hm : s.machine with
  | none => unfold reportFree; rw [hm]
  | some m => rw [RollMap.reportFree_eq_paced hm, RollMap.paced_ms]

theorem leave_ms (num : Nat) (s : State) : (leave num s).ms = { s.ms with paused := (leave num s).ms.paused } := by
  unfold leave
  rw [noticeTags_rest]
  exact reportFree_ms _

theorem leave_forecast (num : Nat) (s : State) : (leave num s).fq.forecast = s.fq.forecast.filter (fun e => e.feat.num != num) := by
  unfold leave
  rw [noticeTags_fq, reportFree_fq]

/-- A number of the Settled list is none of the Forecast list's (R43). -/
theorem forecast_num_ne {q : FeatureQueue} (hq : q.lawful) {e : Settled} (he : e ∈ q.settled) {y : Forecast} (hy : y ∈ q.forecast) :
    y.feat.num ≠ e.feat.num := by
  obtain ⟨hnodup, -⟩ := hq
  obtain ⟨-, -, hdisjoint⟩ := List.nodup_append.1 hnodup
  exact hdisjoint _ (List.mem_map_of_mem hy) _ (List.mem_map_of_mem he)

/-- A Settled entry that leaves leaves the Forecast list of a lawful queue. -/
theorem shelters_leave {e : Settled} {s : State} (he : e ∈ s.fq.settled) : Shelters s (leave e.feat.num s) := by
  refine ⟨kept_leave .., leave_ms .., ?_, fun hq => ?_⟩
  · unfold unserved
    rw [leave_forecast]
    exact List.filter_sublist.map _
  · unfold unserved
    rw [leave_forecast, List.filter_eq_self.2 (fun y hy => bne_iff_ne.2 (forecast_num_ne hq he hy))]

theorem mem_of_findSettled {q : FeatureQueue} {num : Nat} {e : Settled} (h : q.findSettled num = some e) : e ∈ q.settled :=
  List.mem_of_find?_eq_some h

/-! ### Stations -/

theorem shelters_missStops (e : Settled) (s : State) : Shelters s (missStops e s) := by
  have hitems := shelters_changeSettled (num := e.feat.num) (g := fun x => { x with items := x.items.map LaneItem.downgrade })
    (fun _ => ⟨rfl, rfl⟩) s
  unfold missStops
  extract_lets s1
  split
  · exact hitems.trans (shelters_queueNotice ..)
  · exact hitems

theorem shelters_takeKnife {e : Settled} {s : State} (he : e ∈ s.fq.settled) : Shelters s (takeKnife e s) := by
  unfold takeKnife
  dsimp only
  split
  · exact shelters_leave he
  · exact shelters_changeSettled (g := fun x => { x with items := (s.resolve e.feat).map itemOf, knife := true }) (fun _ => ⟨rfl, rfl⟩) s

theorem shelters_takeTable (e : Settled) (s : State) : Shelters s (takeTable e s) := by
  have htable := shelters_changeSettled (num := e.feat.num) (g := fun x => { x with table := true }) (fun _ => ⟨rfl, rfl⟩) s
  unfold takeTable
  extract_lets s1
  split
  · exact htable
  · exact htable.trans (shelters_missStops e s1)

theorem shelters_takeFlag (m : MachineTable) (place : Bool) (e : Settled) (s : State) : Shelters s (takeFlag m place e s) := by
  refine .of_same (kept_takeFlag m place e s) ?_ ?_
  · unfold takeFlag
    dsimp only
    split
    · exact queueOwn_ms ..
    · rfl
  · unfold takeFlag
    dsimp only
    split
    · rw [queueOwn_fq]
      rfl
    · rfl

theorem shelters_takeNip {e : Settled} {s : State} (he : e ∈ s.fq.settled) : Shelters s (takeNip e s) := by
  have hwrite : ∀ p, Shelters s (writeEvents p e s) := fun p => by
    have hrest := writeEvents_rest p e s
    exact .of_same (kept_writeEvents p e s) (by rw [hrest]) (by rw [hrest])
  unfold takeNip
  split
  · exact (hwrite _).trans (shelters_leave (by rw [writeEvents_fq]; exact he))
  · exact Shelters.refl s
  · exact shelters_leave he

theorem shelters_takeStation (cleared : Bool) (st : Station) (num : Nat) (s : State) : Shelters s (takeStation cleared st num s) := by
  unfold takeStation
  split
  · rename_i m e _ he
    have hmem := mem_of_findSettled he
    cases st with
    | knife => exact shelters_takeKnife hmem
    | table => exact shelters_takeTable e s
    | flag =>
      dsimp only
      split
      · exact Shelters.refl s
      · exact shelters_takeFlag ..
    | nip =>
      dsimp only
      split
      · exact Shelters.refl s
      · exact shelters_takeNip hmem
  · exact Shelters.refl s

theorem shelters_takeAll (m : MachineTable) (cleared : Option Nat) (l : List DueStation) (s : State) :
    Shelters s (takeAll m cleared l s) := by
  refine Shelters.foldl _ (fun s d => ?_) l s
  split
  · exact shelters_takeStation ..
  · exact Shelters.refl s

theorem shelters_walkJoined (frame : Bool) (num : Nat) (s : State) : Shelters s (walkJoined frame num s) := by
  unfold walkJoined
  split
  · split
    · exact Shelters.refl s
    · exact shelters_takeAll ..
  · exact Shelters.refl s

theorem shelters_walkCleared (num : Nat) (s : State) : Shelters s (walkCleared num s) := by
  unfold walkCleared
  split
  · exact shelters_takeAll ..
  · exact Shelters.refl s

theorem shelters_clearServed (num : Nat) (s : State) : Shelters s (clearServed num s) := by
  unfold clearServed
  split
  · exact Shelters.refl s
  · extract_lets s1
    have h1 : Shelters s s1 := shelters_changeSettled (g := Settled.setServed false) (fun _ => ⟨rfl, rfl⟩) s
    refine (h1.trans ?_).trans (shelters_walkCleared num _)
    split
    · exact shelters_missStops ..
    · exact Shelters.refl s1

/-! ### The Stop Scheduler -/

theorem shelters_dropServed (s : State) : Shelters s (dropServed s) :=
  Shelters.foldl (fun s (e : Settled) => clearServed e.feat.num s) (fun s _ => shelters_clearServed _ s) _ s

/-- A served mark is no more than a served mark. -/
theorem unserved_map {q : FeatureQueue} {g : Forecast → Forecast} (hg : ∀ y, (g y).setServed false = y.setServed false) :
    (q.forecast.map g).map (Forecast.setServed false) = unserved q := by
  rw [List.map_map]
  exact List.map_congr_left (fun y _ => hg y)

theorem shelters_releaseAll (s : State) : Shelters s (releaseAll s) := by
  have hreleased : Shelters s (forecastReleased s) :=
    .of_unserved (clears_forecastReleased s).toKept rfl (unserved_map (q := s.fq) (fun _ => rfl))
  rw [releaseAll_eq]
  exact hreleased.trans (Shelters.foldl (fun s (e : Settled) => clearServed e.feat.num s) (fun s _ => shelters_clearServed _ s) _ _)

theorem shelters_serveWindow (m : MachineTable) (s : State) : Shelters s (serveWindow m s) := by
  refine .of_unserved (kept_serveWindow m s) (by rw [serveWindow_eq]) ?_
  rw [serveWindow_eq]
  exact unserved_map (q := s.fq) (fun _ => rfl)

theorem shelters_halt (m : MachineTable) (e : Int) (s : State) : Shelters s (halt m e s) := by
  refine .of_same (kept_halt m e s) ?_ (by rw [halt_fq])
  unfold halt cutHalt formDs
  dsimp only
  split_ifs
  · exact queueOwn_ms ..
  · rfl

theorem shelters_standstillCheck (m : MachineTable) (s : State) : Shelters s (standstillCheck m s) := by
  unfold standstillCheck
  split
  · exact Shelters.refl s
  · extract_lets e jogs
    split_ifs
    · exact shelters_halt ..
    · exact (Shelters.stop s _).trans (shelters_driveOrder ..)
    · exact shelters_halt ..
    · exact Shelters.refl s

theorem shelters_sendStop (m : MachineTable) (aim : Aim) (target : Int) (late : Bool) (s : State) :
    Shelters s (sendStop m aim target late s) := by
  unfold sendStop
  extract_lets ds extra kind _ s1 s2 s3
  have h1 : Shelters s s1 := (Shelters.stop s _).trans (shelters_driveOrder ..)
  have h2 : Shelters s1 s2 := by
    unfold s2
    split
    · exact shelters_serveWindow m s1
    · exact Shelters.refl s1
  have h3 : Shelters s2 s3 := by
    unfold s3
    split
    · exact shelters_queueNotice ..
    · exact Shelters.refl s2
  refine (h1.trans (h2.trans h3)).trans ?_
  split
  · exact shelters_standstillCheck m s3
  · exact Shelters.refl s3

theorem shelters_idleLook (m : MachineTable) (s : State) : Shelters s (idleLook m s) := by
  unfold idleLook
  split
  · exact .stop s _
  · dsimp only
    split
    · exact .stop s _
    · exact (Shelters.stop s _).trans (shelters_sendStop ..)

theorem shelters_reviseOrder (m : MachineTable) (s : State) : Shelters s (reviseOrder m s) := by
  unfold reviseOrder
  extract_lets s1
  have h1 : Shelters s s1 := .stop s _
  split
  · split
    · exact (h1.trans (.stop s1 _)).trans (shelters_driveOrder ..)
    · exact h1
  · exact h1

theorem shelters_requestedLook (m : MachineTable) (s : State) : Shelters s (requestedLook m s) := by
  unfold requestedLook
  extract_lets s1 s2
  have h1 : Shelters s s1 := shelters_dropServed s
  have h2 : Shelters s s2 := h1.trans (shelters_reviseOrder m s1)
  split
  · exact (h1.trans ((Shelters.stop s1 _).trans (shelters_driveOrder ..))).trans (shelters_idleLook m _)
  · split
    · exact ((h2.trans (shelters_releaseAll s2)).trans (Shelters.stop _ _)).trans (shelters_sendStop ..)
    · split
      · exact h2.trans (shelters_serveWindow m s2)
      · exact h2

/-- A look of the Stop Scheduler, whatever it drops, revises, supersedes or serves, leaves the map and the Forecast entries (R121). -/
theorem shelters_look (s : State) : Shelters s (look s) := by
  unfold look
  split
  · exact Shelters.refl s
  · rename_i m _
    extract_lets s0 s1
    have h0 : Shelters s s0 := .of_same (kept_formDs m s) rfl rfl
    split
    · exact h0.trans (shelters_idleLook m s0)
    · exact h0.trans (shelters_requestedLook m s0)
    · have h1 : Shelters s s1 := h0.trans (shelters_dropServed s0)
      split
      · exact h1.trans (shelters_serveWindow m s1)
      · exact h1
    · exact h0

end Sys2Proof.Forecasts
end

section
/-! PROOFS. The expansion frontier as it advances (R33, R37, R38), and MARK_RESYNC (R21, R41, R66): the Forecast list is emptied, and what
the frontier expands and requests from there on lies at or beyond it. -/

namespace Sys2Proof.Resync

open Sys2Proof Sys2Proof.Machine Sys2Proof.Claims Sys2Proof.Laws Sys2Proof.Standing Sys2Proof.Forecasts Sys2Proof.RollMap
  Sys2Proof.Sightings

/-! ### Blocks wanted (R33, R37) -/

/-- A block passed by a frontier is passed by every later one. -/
theorem whollyPassed_mono {h : Header} {k f b : Nat} (hkf : k ≤ f) (hp : WhollyPassed h k b) : WhollyPassed h f b :=
  fun r hlo hhi hr hidx => by
    have := hp r hlo hhi hr hidx
    omega

/-- A block wanted has a repeat at or beyond the frontier: it is not wholly passed. -/
theorem wanted_not_passed {t : MapStore} {h : Header} {f p b : Nat} (hc : t.current = some h) (hf : t.frontier = some f)
    (hb : b ∈ t.wanted p) : ¬ WhollyPassed h f b := by
  intro hpassed
  cases hr : h.pressRepeat f with
  | none =>
    unfold MapStore.wanted at hb
    rw [hc, frontierRepeat_eq hc, hf, Option.bind_some, hr] at hb
    exact List.not_mem_nil hb
  | some r =>
    obtain ⟨hroll, hmark⟩ := (pressRepeat_eq_some_iff h f r).1 hr
    rw [wanted_eq hc hf hr] at hb
    simp only [wantedFrom, List.mem_map, List.mem_filter, decide_eq_true_eq] at hb
    obtain ⟨x, ⟨⟨i, -, hx⟩, hlo, hhi⟩, rfl⟩ := hb
    cases hrev : h.reversed
    · have hbeyond := hpassed (max r (32 * x.toNat))
      simp only [Header.slitterIndex, Header.anchorMark, hrev, Bool.false_eq_true, if_false] at hx hmark hbeyond
      omega
    · have hbeyond := hpassed (32 * x.toNat)
      simp only [Header.slitterIndex, Header.anchorMark, hrev, if_true] at hx hmark hbeyond
      omega

/-! ### The frontier advances (R38) -/

/-- The conditions of R38 and what they expand. -/
theorem expandable_inv {s : State} {h : Header} {f b : Nat} {l : List PressEntry} (he : s.expandable = some (h, f, b, l)) :
    s.ms.current = some h ∧ s.ms.frontier = some f ∧ ∃ r blk, h.pressRepeat f = some r ∧ s.ms.block b = some blk ∧
      l = repeatEntries h blk r := by
  unfold State.expandable at he
  split at he
  · rename_i m h' f' _ hc hf
    split at he
    · split at he
      · cases he
      · rename_i r hr
        split at he
        · cases he
        · rename_i blk hblk
          split at he
          · simp only [Option.some.injEq, Prod.mk.injEq] at he
            obtain ⟨rfl, rfl, rfl, rfl⟩ := he
            exact ⟨hc, hf, r, blk, hr, hblk, rfl⟩
          · cases he
    · cases he
  · cases he

/-- From `s` to `t` the frontier may have advanced: a Forecast entry that has come is anchored at or beyond the frontier of `s`, on the
mark of its press repeat, and a request that has come is not for a block that this frontier has passed. -/
structure Advances (s t : State) : Prop where
  current : t.ms.current = s.ms.current
  frontier : ∀ g, t.ms.frontier = some g → ∃ f, s.ms.frontier = some f ∧ f ≤ g
  stands : ∀ f, s.ms.frontier = some f → t.ms.frontier ≠ none
  forecast : ∀ y ∈ t.fq.forecast, y ∈ s.fq.forecast ∨ ∃ h f r, s.ms.current = some h ∧ s.ms.frontier = some f ∧ f ≤ y.k ∧
    y.feat.rep = some r ∧ h.pressRepeat y.k = some r
  outstanding : ∀ b ∈ t.ms.outstanding, b ∈ s.ms.outstanding ∨ ∃ h f, s.ms.current = some h ∧ s.ms.frontier = some f ∧
    ¬ WhollyPassed h f b

/-- An update that leaves the frontier, the Forecast list and the requests. -/
theorem Advances.of_same {s t : State} (hc : t.ms.current = s.ms.current) (hf : t.ms.frontier = s.ms.frontier)
    (hq : t.fq.forecast = s.fq.forecast) (ho : t.ms.outstanding = s.ms.outstanding) : Advances s t :=
  ⟨hc, fun g hg => ⟨g, hf ▸ hg, Nat.le_refl g⟩, fun f h => by rw [hf, h]; exact Option.some_ne_none f,
    fun y hy => .inl (hq ▸ hy), fun b hb => .inl (ho ▸ hb)⟩

theorem Advances.refl (s : State) : Advances s s := .of_same rfl rfl rfl rfl

theorem Advances.trans {s t u : State} (h : Advances s t) (k : Advances t u) : Advances s u := by
  refine ⟨k.current.trans h.current, fun g hg => ?_, fun f hf => ?_, fun y hy => ?_, fun b hb => ?_⟩
  · obtain ⟨f', hf', hle'⟩ := k.frontier g hg
    obtain ⟨f, hf, hle⟩ := h.frontier f' hf'
    exact ⟨f, hf, hle.trans hle'⟩
  · obtain ⟨f', hf'⟩ := Option.ne_none_iff_exists'.1 (h.stands f hf)
    exact k.stands f' hf'
  · rcases k.forecast y hy with hy | ⟨hd, f', r, hc, hf', hle', hrep, hr⟩
    · exact h.forecast y hy
    · obtain ⟨f, hf, hle⟩ := h.frontier f' hf'
      exact .inr ⟨hd, f, r, h.current ▸ hc, hf, hle.trans hle', hrep, hr⟩
  · rcases k.outstanding b hb with hb | ⟨hd, f', hc, hf', hnot⟩
    · exact h.outstanding b hb
    · obtain ⟨f, hf, hle⟩ := h.frontier f' hf'
      exact .inr ⟨hd, f, h.current ▸ hc, hf, fun hp => hnot (whollyPassed_mono hle hp)⟩

theorem advances_checkRequests (s : State) : Advances s (checkRequests s) := by
  unfold checkRequests
  split
  · rename_i m h _ hc
    rw [foldl_requestBlock _ _ (wanted_nodup ..)]
    refine ⟨rfl, fun g hg => ⟨g, hg, Nat.le_refl g⟩, fun f hf => ?_, fun y hy => .inl hy, fun b hb => ?_⟩
    · exact ne_of_eq_of_ne hf (Option.some_ne_none f)
    · rcases List.mem_append.1 hb with hb | hb
      · exact .inl hb
      · have hwanted : b ∈ s.ms.wanted m.p := (List.mem_filter.1 (List.mem_of_mem_take hb)).1
        cases hf : s.ms.frontier with
        | none =>
          unfold MapStore.wanted at hwanted
          rw [hc, frontierRepeat_eq hc, hf] at hwanted
          exact absurd hwanted List.not_mem_nil
        | some f => exact .inr ⟨h, f, hc, rfl, wanted_not_passed hc hf hwanted⟩
  · exact Advances.refl s

theorem advances_reportFree (s : State) : Advances s (reportFree s) := by
  have hms := reportFree_ms s
  exact .of_same (by rw [hms]) (by rw [hms]) (by rw [reportFree_fq]) (by rw [hms])

/-- The entries that join are those of the repeat, each under its number. -/
theorem mem_joinForecasts (h : Header) (l : List PressEntry) : ∀ {s : State} {y : Forecast},
    y ∈ (l.foldl (fun s e => joinForecast h e s) s).fq.forecast → y ∈ s.fq.forecast ∨ ∃ x ∈ l, ∃ num, y = h.forecastOf num x := by
  induction l with
  | nil => exact fun hy => .inl hy
  | cons x l ih =>
    intro s y hy
    rcases ih hy with hy | ⟨z, hz, hnum⟩
    · rcases List.mem_cons.1 ((insertForecast_perm _ _).mem_iff.1 hy) with rfl | hy
      · exact .inr ⟨x, List.mem_cons_self, _, rfl⟩
      · exact .inl hy
    · exact .inr ⟨z, List.mem_cons_of_mem _ hz, hnum⟩

/-- The map once a mark has expanded: its frontier is the next mark. -/
theorem use_rest (b : Nat) (t : MapStore) : (t.use b).outstanding = t.outstanding := by
  unfold MapStore.use
  split <;> rfl

theorem advances_expandOne {s : State} {h : Header} {f b : Nat} {l : List PressEntry} (he : s.expandable = some (h, f, b, l)) :
    Advances s (expandOne h f b l s) := by
  obtain ⟨hc, hf, r, blk, hr, -, hl⟩ := expandable_inv he
  have hjoin : ∀ y ∈ (l.foldl (fun s e => joinForecast h e s) s).fq.forecast, y ∈ s.fq.forecast ∨
      (f ≤ y.k ∧ y.feat.rep = some r ∧ h.pressRepeat y.k = some r) := by
    intro y hy
    rcases mem_joinForecasts h l hy with hy | ⟨x, hx, num, rfl⟩
    · exact .inl hy
    · have hrep : x.rep = r := rep_of_mem_entries (hl ▸ hx)
      have hk : (h.forecastOf num x).k = f := by rw [forecastOf_eq hr hrep]; rfl
      have hfeat : (h.forecastOf num x).feat.rep = some r := by rw [← hrep]; rfl
      exact .inr ⟨hk.ge, hfeat, by rw [hk]; exact hr⟩
  obtain ⟨q, hq⟩ := foldl_joinForecast_rest h l s
  rw [hq] at hjoin
  unfold expandOne
  rw [hq]
  refine Advances.trans ?_ ((advances_reportFree _).trans (advances_checkRequests _))
  refine ⟨(MapStore.use_headers b s.ms).1, fun g hg => ⟨f, hf, ?_⟩, fun _ _ => Option.some_ne_none _, fun y hy => ?_, fun x hx => ?_⟩
  · have : f + 1 = g := Option.some.inj hg
    omega
  · rcases hjoin y hy with hy | ⟨hle, hrep, hmark⟩
    · exact .inl hy
    · exact .inr ⟨h, f, r, hc, hf, hle, hrep, hmark⟩
  · exact .inl ((use_rest b s.ms) ▸ hx)

/-- An attempt to expand advances the frontier (R38). -/
theorem advances_expand (s : State) : Advances s (expand s) := by
  have hfor : ∀ n (y : State), Advances y (expandFor n y) := by
    intro n
    induction n with
    | zero => exact Advances.refl
    | succ n ih =>
      intro y
      unfold expandFor
      split
      · exact Advances.refl y
      · rename_i he
        exact (advances_expandOne he).trans (ih _)
  unfold expand
  split
  · exact Advances.refl s
  · exact hfor _ s

/-! ### The Forecast list emptied (R66) -/

/-- From `s` to `t` entries have left the Forecast list and none has come, and the Map Store stands but for the pause. -/
structure Sheds (s t : State) : Prop where
  store : t.ms = { s.ms with paused := t.ms.paused }
  sublist : (unserved t.fq).Sublist (unserved s.fq)

theorem Sheds.trans {s t u : State} (h : Sheds s t) (k : Sheds t u) : Sheds s u :=
  ⟨by rw [k.store, h.store], k.sublist.trans h.sublist⟩

/-- The numbers of the Forecast list do not need the served marks. -/
theorem num_mem_of_sublist {s t : State} (h : (unserved t.fq).Sublist (unserved s.fq)) {y : Forecast} (hy : y ∈ t.fq.forecast) :
    ∃ x ∈ s.fq.forecast, x.feat.num = y.feat.num := by
  obtain ⟨x, hx, hxy⟩ := List.mem_map.1 (h.subset (List.mem_map_of_mem hy))
  have hnum : (x.setServed false).feat.num = (y.setServed false).feat.num := by rw [hxy]
  exact ⟨x, hx, hnum⟩

/-- One entry that leaves, with the look that may follow. -/
theorem discardOne_sheds (s : State) (n : Nat) : Sheds s (discardOne s n) ∧ ∀ y ∈ (discardOne s n).fq.forecast, y.feat.num ≠ n := by
  have hleave : Sheds s (leave n s) := by
    refine ⟨leave_ms .., ?_⟩
    unfold unserved
    rw [leave_forecast]
    exact List.filter_sublist.map _
  have hgone : ∀ y ∈ (leave n s).fq.forecast, y.feat.num ≠ n := fun y hy => by
    rw [leave_forecast] at hy
    exact bne_iff_ne.1 (List.mem_filter.1 hy).2
  unfold discardOne
  split
  · obtain ⟨-, hstore, hsublist, -⟩ := shelters_look (leave n s)
    refine ⟨hleave.trans ⟨hstore, hsublist⟩, fun y hy => ?_⟩
    obtain ⟨x, hx, hnum⟩ := num_mem_of_sublist hsublist hy
    exact hnum ▸ hgone x hx
  · exact ⟨hleave, hgone⟩

/-- The entries of the numbers of a list leave. -/
theorem foldl_discardOne (l : List Nat) : ∀ s : State, Sheds s (l.foldl discardOne s) ∧
    ∀ y ∈ (l.foldl discardOne s).fq.forecast, y.feat.num ∉ l := by
  induction l with
  | nil => exact fun s => ⟨⟨rfl, List.Sublist.refl _⟩, fun _ _ => List.not_mem_nil⟩
  | cons n l ih =>
    intro s
    obtain ⟨hone, hgone⟩ := discardOne_sheds s n
    obtain ⟨hrest, hothers⟩ := ih (discardOne s n)
    refine ⟨hone.trans hrest, fun y hy hmem => ?_⟩
    obtain ⟨x, hx, hnum⟩ := num_mem_of_sublist hrest.sublist hy
    rcases List.mem_cons.1 hmem with hn | hl
    · exact hgone x hx (hnum.trans hn)
    · exact hothers y hy hl

/-- The Forecast list is empty once every entry has left, and the map stands but for the pause (R66). -/
theorem discardForecast_empties (s : State) : (discardForecast s).fq.forecast = [] ∧
    (discardForecast s).ms = { s.ms with paused := (discardForecast s).ms.paused } := by
  obtain ⟨⟨hstore, hsublist⟩, hgone⟩ := foldl_discardOne (s.fq.forecast.map (·.feat.num)) s
  refine ⟨List.eq_nil_iff_forall_not_mem.2 (fun y hy => ?_), hstore⟩
  obtain ⟨x, hx, hnum⟩ := num_mem_of_sublist hsublist hy
  exact hgone y hy (hnum ▸ List.mem_map_of_mem hx)

/-! ### MARK_RESYNC (R21, R41) -/

theorem resynced_none {h : Header} {k m : Nat} {newF : Int} (hnew : newF = if h.reversed then (m : Int) + k else (m : Int) - k)
    (hout : h.nT ≤ m ∨ newF < 0 ∨ h.nT ≤ newF) : h.resynced k m = none :=
  if_neg (fun ⟨hm, hlo, hhi⟩ => by rw [← hnew] at hlo hhi; omega)

theorem resynced_some {h : Header} {k m f : Nat} (hf : (f : Int) = if h.reversed then (m : Int) + k else (m : Int) - k) (hm : m < h.nT)
    (hroll : f < h.nT) : h.resynced k m = some { h with f := f } := by
  unfold Header.resynced
  rw [← hf]
  dsimp only
  rw [if_pos ⟨hm, by omega, by omega⟩, Int.toNat_natCast]

theorem pressMarkIn_wordBytes (w : Word) : pressMarkIn (wordBytes w) = some w.toNat :=
  congrArg (fun x : Word => some x.toNat) (wordOf_wordBytes w)

theorem pressMarkIn_of_length_ne {body : List Byte} (h : body.length ≠ 4) : pressMarkIn body = none := by
  unfold pressMarkIn
  split
  · exact absurd rfl h
  · rfl

/-- The state as the frontier starts again: the new F, no Forecast entry, the requests that are not passed by (R41, R66). -/
def restarted (h : Header) (k : Nat) (s : State) : State :=
  let t := discardForecast { s with ms := { s.ms with current := some h } }
  { t with ms := { t.ms with
      frontier := some (k + 1), run := false, outstanding := t.ms.outstanding.filter (fun b => !h.passed (k + 1) b) } }

/-- MARK_RESYNC in LOCKED judges its press mark (R21). -/
theorem markResync_locked {s : State} {l : LastMark} {h : Header} (hs : s.mt.state = .locked) (hl : s.mt.last = some l)
    (hc : s.ms.current = some h) (body : List Byte) : markResync body s =
      match pressMarkIn body with
      | none => deny .invalid 0 s
      | some m =>
        match h.resynced l.k m with
        | none => deny .invalid 1 s
        | some h' => accept (expand (checkRequests (restarted h' l.k s))) := by
  unfold markResync
  rw [hs, hl, hc]
  rfl

theorem restarted_map (h : Header) (k : Nat) (s : State) : (restarted h k s).ms = { s.ms with
    current := some h, frontier := some (k + 1), run := false, paused := (restarted h k s).ms.paused
    outstanding := s.ms.outstanding.filter (fun b => !h.passed (k + 1) b) } := by
  obtain ⟨-, hms⟩ := discardForecast_empties { s with ms := { s.ms with current := some h } }
  unfold restarted
  dsimp only
  rw [hms]

theorem restarted_fixed (h : Header) (k : Nat) (s : State) : (restarted h k s).fixed = { s.fixed with current := some h } :=
  (kept_discardForecast { s with ms := { s.ms with current := some h } }).fixed

/-- The mark of a press repeat under the header's F, in the words of the statement (R28, R29). -/
theorem mark_of_pressRepeat {h : Header} {j r : Nat} (hr : h.pressRepeat j = some r) :
    r < h.nT ∧ (j : Int) = if h.reversed then (h.f : Int) - (r + 1) else r - h.f := by
  obtain ⟨hroll, hmark⟩ := (pressRepeat_eq_some_iff h j r).1 hr
  refine ⟨hroll, hmark.trans ?_⟩
  unfold Header.slitterIndex Header.anchorMark
  cases h.reversed <;> rfl

/-- With every slot free no block is VALID. -/
theorem block_none_of_free {t : MapStore} (h : ∀ b ∈ t.slots, b = none) (b : Nat) : t.block b = none := by
  have hslot : ∀ way, t.slot b way = none := fun way => by
    unfold MapStore.slot
    cases hx : t.slots[slotOf b way]? with
    | none => rfl
    | some x => rw [h x (List.mem_of_getElem? hx)]; rfl
  unfold MapStore.block MapStore.wayOf
  rw [hslot, hslot]
  rfl

theorem expandable_none_of_free {s : State} (h : ∀ b ∈ s.ms.slots, b = none) : s.expandable = none := by
  cases he : s.expandable with
  | none => rfl
  | some x =>
    obtain ⟨hd, f, b, l⟩ := x
    obtain ⟨-, -, r, blk, -, hb, -⟩ := expandable_inv he
    rw [block_none_of_free h] at hb
    cases hb

theorem restarted_forecast (h : Header) (k : Nat) (s : State) : (restarted h k s).fq.forecast = [] :=
  (discardForecast_empties _).1

/-- The state once requests and expansion have gone on from the new frontier (R41). -/
def resumed (h : Header) (k : Nat) (s : State) : State := expand (checkRequests (restarted h k s))

section Resumed

variable (h : Header) (k : Nat) (s : State)

/-- What is anchored and requested once the frontier has started again lies beyond the last mark (R37, R41). -/
theorem resumed_advances : Advances (restarted h k s) (resumed h k s) := (advances_checkRequests _).trans (advances_expand _)

theorem resumed_slots : (resumed h k s).ms.slots = s.ms.slots := by
  have hslots := ((expandsOnly_checkRequests (restarted h k s)).trans (expandsOnly_expand _)).slots
  rw [restarted_map] at hslots
  exact hslots

theorem resumed_fixed : (resumed h k s).fixed = { s.fixed with current := some h } :=
  (((kept_checkRequests (restarted h k s)).toUpholds.trans (upholds_expand _)).fixed).trans (restarted_fixed h k s)

theorem restarted_sets : (restarted h k s).ms.current = some h ∧ (restarted h k s).ms.frontier = some (k + 1) := by
  rw [restarted_map]
  exact ⟨rfl, rfl⟩

theorem resumed_frontier : ∃ g, (resumed h k s).ms.frontier = some g ∧ k + 1 ≤ g := by
  obtain ⟨-, hfrontier⟩ := restarted_sets h k s
  obtain ⟨g, hg⟩ := Option.ne_none_iff_exists'.1 ((resumed_advances h k s).stands _ hfrontier)
  obtain ⟨g', hg', hle⟩ := (resumed_advances h k s).frontier g hg
  exact ⟨g, hg, (Option.some.inj (hfrontier.symm.trans hg')).trans_le hle⟩

/-- Each entry left is anchored above the last mark, on the mark of its press repeat under the new F. -/
theorem resumed_forecast : ∀ e ∈ (resumed h k s).fq.forecast,
    k + 1 ≤ e.k ∧ ∃ r, e.feat.rep = some r ∧ h.pressRepeat e.k = some r := by
  obtain ⟨hcurrent, hfrontier⟩ := restarted_sets h k s
  intro e he
  rcases (resumed_advances h k s).forecast e he with hold | ⟨hd, g, r, hcur, hg, hle, hrep, hr⟩
  · exact absurd (restarted_forecast h k s ▸ hold) List.not_mem_nil
  · obtain rfl : h = hd := Option.some.inj (hcurrent.symm.trans hcur)
    obtain rfl : k + 1 = g := Option.some.inj (hfrontier.symm.trans hg)
    exact ⟨hle, r, hrep, hr⟩

/-- No request is outstanding for a block that the new frontier has passed. -/
theorem resumed_outstanding : ∀ b ∈ (resumed h k s).ms.outstanding, ¬ WhollyPassed h (k + 1) b := by
  obtain ⟨hcurrent, hfrontier⟩ := restarted_sets h k s
  intro b hb
  rcases (resumed_advances h k s).outstanding b hb with hold | ⟨hd, g, hcur, hg, hnot⟩
  · rw [restarted_map] at hold
    have hkept := (List.mem_filter.1 hold).2
    exact fun hp => by rw [(passed_iff ..).2 hp] at hkept; cases hkept
  · obtain rfl : h = hd := Option.some.inj (hcurrent.symm.trans hcur)
    obtain rfl : k + 1 = g := Option.some.inj (hfrontier.symm.trans hg)
    exact hnot

end Resumed

/-- Where nothing can be expanded the frontier stays and the Forecast list is empty (R41). -/
theorem resumed_of_free {h : Header} {k : Nat} {s : State} (hfree : ∀ b ∈ s.ms.slots, b = none) :
    (resumed h k s).fq.forecast = [] ∧ (resumed h k s).ms.frontier = some (k + 1) ∧ (resumed h k s).ms.run = false := by
  have hslots : (checkRequests (restarted h k s)).ms.slots = s.ms.slots := by
    rw [(expandsOnly_checkRequests _).slots, restarted_map]
  unfold resumed
  rw [expand_none _ (expandable_none_of_free (by rw [hslots]; exact hfree))]
  obtain ⟨roll, asked, hasked⟩ := checkRequests_requested (restarted h k s)
  rw [hasked]
  refine ⟨restarted_forecast h k s, (restarted_sets h k s).2, ?_⟩
  show (restarted h k s).ms.run = _
  rw [restarted_map]

/-- A MARK_RESYNC that is denied changes nothing (R21, R180). -/
theorem exec_markResync_denied {rx : Rx} {body : List Byte} {i : Nat} {s : State} (ha : Asked s rx)
    (he : ∀ ll, markResync body { s with ll := ll } = deny .invalid i { s with ll := ll }) : exec (.markResync rx body) s =
      .next (endEvent (answered rx 3 .invalid i .empty (passedOn rx (.request true (some 3) body) s))) :=
  MachineTables.turned_away ha he

/-- Settles O36: the frontier starts again beyond the last mark, and what follows of the event only advances it. -/
theorem markResyncSetsF : Obligations.MarkResyncSetsF := by
  intro rx w h l s ha hlocked hl hc newF
  have hjudged : ∀ ll body, markResync body { s with ll := ll } = _ := fun ll body =>
    markResync_locked (s := { s with ll := ll }) hlocked hl hc body
  refine ⟨fun hout => exec_markResync_denied ha (fun ll => ?_), fun body hlen => exec_markResync_denied ha (fun ll => ?_),
    fun f hm hf hroll => ?_⟩
  · rw [hjudged, pressMarkIn_wordBytes]
    dsimp only
    rw [resynced_none rfl hout]
  · rw [hjudged, pressMarkIn_of_length_ne hlen]
  · have hS := passedOn_eq rx (.request true (some 3) (wordBytes w)) s
    generalize hs' : passedOn rx (.request true (some 3) (wordBytes w)) s = s' at hS
    have hmap : s'.ms = s.ms := by rw [hS]
    have hresync : markResync (wordBytes w) s' = accept (resumed { h with f := f } l.k s') := by
      rw [hS, hjudged, pressMarkIn_wordBytes]
      dsimp only
      rw [resynced_some hf hm hroll]
      rfl
    have hkeeps : Keeps s' (resumed { h with f := f } l.k s') := by
      have := keeps_markResync (wordBytes w) s'
      rwa [hresync] at this
    have hexec : exec (.markResync rx (wordBytes w)) s =
        .next (endEvent (answered rx 3 .accepted 0 .empty (resumed { h with f := f } l.k s'))) := by
      subst hs'
      exact congrArg done (arrive_answered ha hresync ((ready_of ha).kept hkeeps))
    refine ⟨_, hexec, ?_⟩
    have hreplied := Replies.repliedOnce_answered hkeeps rx 3 .accepted 0 .empty
    have hend := SetChange.ended_fixed rx 3 .accepted 0 .empty (resumed { h with f := f } l.k s')
    rw [resumed_fixed] at hend
    obtain ⟨nq, own, seq, hrest⟩ := LanePlan.ended_rest rx 3 .accepted 0 .empty (resumed { h with f := f } l.k s')
    generalize endEvent (answered rx 3 .accepted 0 .empty (resumed { h with f := f } l.k s')) = x at hreplied hend hrest
    have hms : x.ms = (resumed { h with f := f } l.k s').ms := by rw [hrest]
    have hfq : x.fq = (resumed { h with f := f } l.k s').fq := by rw [hrest]
    rw [hms, hfq]
    refine ⟨(congrArg Fixed.current (resumed_fixed ..)), (congrArg Fixed.next (resumed_fixed ..)).trans (by rw [hS]; rfl),
      resumed_frontier .., fun e he => (resumed_forecast _ _ _ e he).1, fun e he => ?_, fun hs => resumed_of_free (by rw [hmap]; exact hs),
      resumed_outstanding _ _ _, (resumed_slots ..).trans (by rw [hmap]), (congrArg Fixed.mt hend).trans (by rw [hS]; rfl),
      (congrArg Fixed.pu hend).trans (by rw [hS]; rfl), (congrArg Fixed.machine hend).trans (by rw [hS]; rfl),
      (congrArg Fixed.peers hend).trans (by rw [hS]; rfl), (congrArg Fixed.lpt hend).trans (by rw [hS]; rfl),
      (congrArg Fixed.knives hend).trans (by rw [hS]; rfl), ?_, hreplied⟩
    · obtain ⟨-, r, hrep, hr⟩ := resumed_forecast _ _ _ e he
      obtain ⟨hlt, hmark⟩ := mark_of_pressRepeat hr
      exact ⟨r, hrep, hlt, hmark⟩
    · exact ⟨congrArg Fixed.straps hend, congrArg Fixed.portA hend, congrArg Fixed.portB hend, congrArg Fixed.capture hend,
        congrArg Fixed.refusals hend, congrArg Fixed.resetting hend, congrArg Fixed.voidRecord hend, congrArg Fixed.voidNotice hend⟩

end Sys2Proof.Resync
end

section
/-! PROOFS. The opening of a set (8.2), refuted under a machine table that R181 rules out: with the rewind nip before the splice table the
cut, handed over as the set opens, supersedes the stop just ordered, and the served mark of an entry past the table clears with its
STOP items downgraded (R103, R127, R148, R149). -/

namespace Sys2Proof.NearCut

open Sys2Proof Sys2Proof.Machine Sys2Proof.Claims

/-! ### The state -/

/-- D_nip lies below D_st; everything within 50,000 dmm is within the stop distance. -/
def table : MachineTable :=
  { ppm := 10000, dMax := 1, sEnc := 1, dCam := 1000, dKn := 4000, dSt := 32000, dFl := 36000, dNip := 5000, wMk := 0, aD := 1
    mSt := 50000, tPos := 0, wTab := 0, vApp := 0, mMd := 0, mCd := 0, g := 0, fMin := 0, h := 1, p := 1, pLo := 0, pHi := 0, tKnife := 0
    rc := 0, kTol := 0, flagStation := 9 }

/-- One lane, in which a splice is stopped for; a set of one repeat. -/
def bank : Bank :=
  { job := 0, n := 1, nSet := 1, nApp := 0, cOff := 0, makeUp := false, xMax := 0, knives := [0, 5000]
    lanes := [{ actions := [], splice := .stop, quota := 0 }] }

def header : Header :=
  { rollId := 0, nT := 100, rNom := 3600, reversed := false, mirror := false, w := 5000, f := 0, l := 0 }

/-- A splice across the lane. -/
def splice (num : Nat) (served : Bool) : Feature :=
  { num := num, origin := .inline, kind := .splice, len := 1, press := none, slit := some { x0 := 1000, x1 := 2000 }, rep := none
    suspect := false, served := served }

/-- The served entry, past every station, with a STOP item. -/
def past : Settled :=
  { feat := splice 1 true, p := 50, items := [{ lane := 0, action := .stop, notRemoved := false, outcome := .none }]
    knife := true, table := true, flag := true, nip := true }

/-- The entry to stop for, ahead of the knife line. -/
def ahead : Settled := { feat := splice 2 false, p := 100, items := [], knife := false, table := false, flag := false, nip := false }

/-- A set in preparation whose gate holds, behind a set that has been cut; the mark of its K_cut has been counted. -/
def preparing : State :=
  { State.reset with
    machine := some table
    lpt := { active := some bank, pending := none }
    pu := { PositionUnit.init with dir := .forward }
    mt := { MarkTracker.init with state := .locked, last := some { k := 5, u := 15000 } }
    ms := { MapStore.init with current := some header }
    knives := []
    fq := { FeatureQueue.init with settled := [past, ahead] }
    sc := { SetController.init with state := .preparing, mode := some .continue, counted := [{ k := 1, u := 200 }] } }

theorem lawful_preparing : preparing.fq.lawful := by
  unfold FeatureQueue.lawful
  decide

/-- No knife channel is out of place, no event slot is asked for, and the headers are free. -/
theorem gate_holds : KnivesReady bank preparing ∧ SlotsReady bank preparing ∧ HeadersReady bank preparing :=
  ⟨fun _ _ hc => absurd hc (by simp [preparing]), by unfold SlotsReady; decide, by unfold HeadersReady; decide⟩

/-! ### The opening -/

/-- The look as the set opens orders a stop for the entry ahead. The set hands its cut over at once (R149), the cut target lies nearer and
supersedes that stop, and the served mark of the entry past the table clears: no entry keeps a STOP item. -/
theorem no_stop_left : ∀ x ∈ (judgeGate preparing).fq.settled, x.items ≠ past.items := by decide

theorem not_gateOpensTheSet : ¬ GateOpensTheSet := by
  intro h
  obtain ⟨hknives, hslots, hheaders⟩ := gate_holds
  obtain ⟨-, -, -, -, -, -, -, -, -, -, hstands, -⟩ :=
    h table bank header preparing rfl rfl rfl rfl rfl rfl lawful_preparing rfl hknives hslots hheaders
  obtain ⟨x, hx, hpast⟩ := hstands past List.mem_cons_self (.inl rfl) (by unfold NoneDue; decide)
  exact no_stop_left x hx (by rw [hpast])

/-- Refutes O49: of its three parts, that on a gate that holds asks nothing of the machine table, and under `table` an entry of which no
station is due does not stand as it was. -/
theorem not_rollStartSetsTheBlocks : ¬ Obligations.RollStartSetsTheBlocks := by
  rintro ⟨-, hopens, -⟩
  exact not_gateOpensTheSet hopens

end Sys2Proof.NearCut
end

section
/-! PROOFS. MARK_FRAME counted (R11 to R15): the tracker once a mark has been judged against its window, the missing marks synthesized
first where it lies above. -/

namespace Sys2Proof.CountedMarks

open Sys2Proof Sys2Proof.Machine Sys2Proof.Claims Sys2Proof.Laws Sys2Proof.Sightings Sys2Proof.Synthesized Sys2Proof.Dropped

/-! ### The tracker at a real mark (R12, R13) -/

/-- The estimate of the statements is the model's (R12, R13). -/
theorem stretchAfter_eq {t : MarkTracker} {l : LastMark} (hl : t.last = some l) (rNom : Nat) (u : Int) :
    t.stretchAfter rNom u = stretchAfter rNom t l u := by
  have hsamples : t.samples = true ↔ t.lastReal = true ∧ (t.state = .locked ∨ t.state = .relocking) := by
    simp [MarkTracker.samples]
  unfold MarkTracker.stretchAfter stretchAfter
  rw [hl]
  dsimp only
  split
  · rw [if_pos (hsamples.1 ‹_›)]
    rfl
  · rw [if_neg (fun h => ‹¬ _› (hsamples.2 h))]

/-- A real mark behind another (R12, R13, R15). -/
theorem real_next {t : MarkTracker} {l : LastMark} (hl : t.last = some l) (rNom : Nat) (u : Int) : t.real rNom u =
    { state := t.state.afterReal, last := some { k := l.k + 1, u := u }, lastReal := true, miss := 0
      e := stretchAfter rNom t l u
      rExp := if stretchAfter rNom t l u = t.e then t.rExp else repeatAt rNom (stretchAfter rNom t l u) } := by
  unfold MarkTracker.real
  rw [stretchAfter_eq hl, hl]
  rfl

/-- The roll's first mark leaves the estimate (R10, R13). -/
theorem real_first {t : MarkTracker} (hl : t.last = none) (rNom : Nat) (u : Int) : t.real rNom u =
    { state := t.state.afterReal, last := some { k := 0, u := u }, lastReal := true, miss := 0, e := t.e, rExp := t.rExp } := by
  have he : t.stretchAfter rNom u = t.e := by unfold MarkTracker.stretchAfter; rw [hl]
  unfold MarkTracker.real
  rw [he, hl]
  dsimp only
  rw [if_pos rfl]

theorem afterReal_eq (t : TrackState) : t.afterReal = if t = .lost then .relocking else .locked := by cases t <;> rfl

/-- A real mark behind a synthesized one takes no sample (R12). -/
theorem real_synthesized (n : Nat) (l : LastMark) (t : MarkTracker) (rNom : Nat) (u : Int) :
    (synthesized n l t).real rNom u = { synthesized n l t with
      state := if (missed n (t.state, t.miss)).1 = .lost then .relocking else .locked
      last := some { k := l.k + n + 1, u := u }, lastReal := true, miss := 0 } := by
  have he : stretchAfter rNom (synthesized n l t) (markAfter n l t) u = t.e :=
    if_neg (fun h : false = true ∧ _ => Bool.false_ne_true h.1)
  rw [real_next (l := markAfter n l t) rfl, he, afterReal_eq]
  exact congrArg (fun r => ({ synthesized n l t with
      state := if (missed n (t.state, t.miss)).1 = .lost then .relocking else .locked
      last := some { k := l.k + n + 1, u := u }, lastReal := true, miss := 0, rExp := r } : MarkTracker)) (if_pos rfl)

/-! ### The window (R11, R14) -/

/-- The tracker once a mark has been judged (R11). -/
def judged (wMk rNom : Nat) (u : Int) : Nat → MarkTracker → MarkTracker
  | 0, t => t
  | fuel + 1, t =>
    match t.last with
    | none => t
    | some l =>
      if u < t.windowLow wMk l then t
      else if u ≤ t.windowHigh wMk l then t.real rNom u
      else judged wMk rNom u fuel (t.synth l)

theorem judgeMark_mt (wMk rNom : Nat) (u : Int) (fuel : Nat) : ∀ s, (judgeMark wMk rNom u fuel s).mt = judged wMk rNom u fuel s.mt := by
  induction fuel with
  | zero => exact fun _ => rfl
  | succ fuel ih =>
    intro s
    unfold judgeMark judged
    cases s.mt.last with
    | none => rfl
    | some l =>
      dsimp only
      split_ifs
      · rfl
      · exact countReal_mt ..
      · rw [ih, synthesize_mt]

section Window

variable {m : MachineTable} {t : MarkTracker} {l : LastMark} {u : Int}

theorem judged_below (hl : t.last = some l) (hu : u < windowFrom m t l) (rNom fuel : Nat) : judged m.wMk rNom u fuel t = t := by
  cases fuel with
  | zero => rfl
  | succ fuel =>
    unfold judged
    rw [hl]
    exact if_pos hu

theorem judged_within (hl : t.last = some l) (hlow : windowFrom m t l ≤ u) (hhigh : u ≤ t.windowHigh m.wMk l) (rNom fuel : Nat) :
    judged m.wMk rNom u (fuel + 1) t = t.real rNom u := by
  have hin : ¬ u < t.windowLow m.wMk l := Int.not_lt.2 hlow
  unfold judged
  rw [hl]
  dsimp only
  rw [if_neg hin, if_pos hhigh]

/-- Above the window the missing mark is synthesized first (R14). -/
theorem judged_above (hl : t.last = some l) (hr : 0 < t.rExp) (hhigh : t.windowHigh m.wMk l < u) (rNom fuel : Nat) :
    judged m.wMk rNom u (fuel + 1) t = judged m.wMk rNom u fuel (t.synth l) := by
  have hlow : ¬ u < t.windowLow m.wMk l := by
    unfold MarkTracker.windowHigh at hhigh
    unfold MarkTracker.windowLow
    split <;> omega
  rw [judged, hl]
  dsimp only
  rw [if_neg hlow, if_neg (Int.not_le.2 hhigh)]

end Window

/-- A mark above n windows is judged behind the n marks that are missing (R14). -/
theorem judged_behind {m : MachineTable} {u : Int} (rNom n : Nat) : ∀ {t : MarkTracker} {l : LastMark} (fuel : Nat), t.last = some l →
    0 < t.rExp → PassesWindows m t l u (n + 1) →
    judged m.wMk rNom u (fuel + (n + 1)) t = judged m.wMk rNom u fuel (synthesized (n + 1) l t) := by
  induction n with
  | zero =>
    intro t l fuel hl hr hpass
    rw [judged_above hl hr (above_of_passesWindows hr hpass), synthesized_one]
  | succ n ih =>
    intro t l fuel hl hr hpass
    rw [← Nat.add_assoc, judged_above hl hr (above_of_passesWindows hr hpass), ih fuel (synth_last l t) hr (passesWindows_next hpass),
      synthesized_next]

/-! ### The frame -/

/-- The tracker once a mark at u has been taken (R10, R11). -/
def marked (m : MachineTable) (rNom : Nat) (u : Int) (dir : Direction) (t : MarkTracker) : MarkTracker :=
  if dir = .reverse then t
  else if t.state = .seeking then (if dir = .forward then t.real rNom u else t)
  else judged m.wMk rNom u (t.marksTo u) t

theorem takeMark_mt (m : MachineTable) (h : Header) (u : Int) (s : State) :
    (takeMark m h u s).mt = marked m h.rNom u s.pu.dir s.mt := by
  unfold takeMark marked
  split_ifs
  · rfl
  · exact countReal_mt ..
  · rfl
  · exact judgeMark_mt ..

/-- A mark frame that R7 converts moves the tracker, and the position, the tables, the ports and the knives stand. -/
theorem exec_markFrame_stands {rx : Rx} {cx : Word} {m : MachineTable} {h : Header} {u : Int} {s : State}
    (hfrom : From (·.markSensor) s rx) (hm : s.machine = some m) (hc : s.ms.current = some h) (hu : s.latched cx = some u) :
    ∃ x, exec (.markFrame rx cx) s = .next x ∧ x.mt = marked m h.rNom u s.pu.dir s.mt ∧ x.pu = s.pu ∧ SameTables s x ∧
      SameLink (passedOn rx (.mark cx) s) x ∧ x.knives = s.knives := by
  rw [exec_markFrame hfrom]
  have hS := passedOn_eq rx (.mark cx) s
  generalize passedOn rx (.mark cx) s = S at hS
  have hsame : ∀ x, SameTables S x → SameTables s x := fun x h => by rw [hS] at h; exact h
  have htaken : takeMarkFrame rx.src cx S = expand (takeMark m h u S) := by
    rw [hS]
    exact takeMarkFrame_taken (s := { s with ll := S.ll }) hm hu hc rx.src
  have hmt : (takeMark m h u S).mt = marked m h.rNom u s.pu.dir s.mt := by
    rw [takeMark_mt, hS]
  rw [htaken]
  obtain ⟨mt, lf, hCam, -, hup⟩ := mt_takeMark m h u S
  have hfixed := ((hup.trans (upholds_expand _)).trans (kept_endEvent _).toUpholds).fixed
  have hlast := ((upholds_expand (takeMark m h u S)).trans (kept_endEvent _).toUpholds).mtFixed
  obtain ⟨hpu, -, htables, hlink, hknives, -⟩ := RecordFlow.stands_of_fixed
    (s := { S with mt := mt, lookFirst := lf, fq := { S.fq with hCam := hCam } }) (flow := S.rs.held) hfixed
  refine ⟨_, rfl, hlast.trans hmt, hpu.trans ?_, hsame _ htables, hlink, hknives.trans ?_⟩ <;> rw [hS]

section Marked

variable {m : MachineTable} {rNom : Nat} {dir : Direction} {t : MarkTracker} {l : LastMark} {u : Int}

theorem marked_judged (hdir : dir ≠ .reverse) (hstate : t.state ≠ .seeking) :
    marked m rNom u dir t = judged m.wMk rNom u (t.marksTo u) t := by
  unfold marked
  rw [if_neg hdir, if_neg hstate]

/-- The first mark of the roll (R10). -/
theorem marked_first (hdir : dir = .forward) (hstate : t.state = .seeking) : marked m rNom u dir t = t.real rNom u := by
  unfold marked
  rw [if_neg (by rw [hdir]; exact Direction.noConfusion), if_pos hstate, if_pos hdir]

theorem marksTo_pos (hl : t.last = some l) (u : Int) : ∃ fuel, t.marksTo u = fuel + 1 := by
  unfold MarkTracker.marksTo
  rw [hl]
  exact ⟨_, rfl⟩

/-- A mark in its window is counted (R11). -/
theorem marked_within (hdir : dir ≠ .reverse) (hstate : t.state ≠ .seeking) (hl : t.last = some l) (hlow : windowFrom m t l ≤ u)
    (hhigh : u ≤ l.u + t.rExp + m.wMk) : marked m rNom u dir t = t.real rNom u := by
  obtain ⟨fuel, hfuel⟩ := marksTo_pos hl u
  rw [marked_judged hdir hstate, hfuel, judged_within hl hlow hhigh]

/-- A mark above n windows is judged once against the window that follows them (R11, R14). -/
theorem marked_behind {n : Nat} (hdir : dir ≠ .reverse) (hstate : t.state ≠ .seeking) (hl : t.last = some l) (hr : 0 < t.rExp)
    (hpass : PassesWindows m t l u (n + 1)) :
    ∃ fuel, marked m rNom u dir t = judged m.wMk rNom u (fuel + 1) (synthesized (n + 1) l t) := by
  have hmarks := lt_marksTo_of_passesWindows hl hr hpass
  obtain ⟨fuel, hfuel⟩ : ∃ fuel, t.marksTo u = fuel + 1 + (n + 1) := ⟨t.marksTo u - (n + 2), by omega⟩
  exact ⟨fuel, by rw [marked_judged hdir hstate, hfuel, judged_behind rNom n (fuel + 1) hl hr hpass]⟩

/-- Behind the marks synthesized, a position that has passed no more windows does not lie above the next. -/
theorem windowHigh_synthesized {n : Nat} (hpass : PassesWindows m t l u n) :
    u ≤ (synthesized n l t).windowHigh m.wMk (markAfter n l t) := by
  have hnext : (markAfter (n + 1) l t).u = (markAfter n l t).u + t.rExp := by
    simp only [markAfter]
    push_cast
    ring
  have hin := hpass.1
  rw [hnext] at hin
  exact hin

end Marked

end Sys2Proof.CountedMarks
end

section
/-! PROOFS. The look at an entry that joins (R98 to R100, R116): the entries with their nips due are taken in web order. -/

namespace Sys2Proof.JoinedLooks

open Sys2Proof Sys2Proof.Machine Sys2Proof.Claims Sys2Proof.Standing Sys2Proof.DueStations

/-! ### The order of the look (R99) -/

theorem insertDue_last {d : DueStation} {l : List DueStation} (h : ∀ x ∈ l, x.le d = true) : insertDue d l = l ++ [d] := by
  induction l with
  | nil => rfl
  | cons x l ih =>
    unfold insertDue
    rw [if_pos (h x List.mem_cons_self), ih (fun y hy => h y (List.mem_cons_of_mem _ hy)), List.cons_append]

/-- Stations already in order stay so. -/
theorem sortDue_of_sorted {l : List DueStation} (h : l.Pairwise (fun a b => a.le b = true)) : sortDue l = l := by
  have hfold : ∀ acc : List DueStation, (acc ++ l).Pairwise (fun a b => a.le b = true) →
      l.foldl (fun acc d => insertDue d acc) acc = acc ++ l := by
    clear h
    induction l with
    | nil => exact fun acc _ => (List.append_nil acc).symm
    | cons d l ih =>
      intro acc hacc
      have hlast := insertDue_last (fun x hx => (List.pairwise_append.1 hacc).2.2 x hx d List.mem_cons_self)
      rw [List.append_cons] at hacc
      rw [List.foldl_cons, hlast, ih _ hacc, ← List.append_cons]
  exact hfold [] h

/-- Of two nips that of the lower entry comes first, and of entries as high that of the earlier (R99). -/
theorem nip_le {m : MachineTable} {x y : Settled} {i j : Nat} (hp : x.p ≤ y.p) (hij : i < j) :
    (dueOf m .nip x i).le (dueOf m .nip y j) = true := by
  unfold DueStation.le dueOf
  simp only [Bool.or_eq_true, Bool.and_eq_true, decide_eq_true_eq, beq_iff_eq]
  omega

/-- What an entry and its place in the list give the look at the entry of a number (R98). -/
def lookedAt (u : Int) (m : MachineTable) (num : Nat) (also : Settled → Bool) (x : Settled × Nat) : List DueStation :=
  if x.1.feat.num = num ∨ also x.1 = true then x.1.dueStations u m x.2 else []

theorem dueAt_eq (s : State) (m : MachineTable) (num : Nat) (also : Settled → Bool) :
    s.dueAt m num also = sortDue (s.fq.settled.zipIdx.flatMap (lookedAt s.pu.u m num also)) := rfl

section LookedAt

variable {u : Int} {m : MachineTable} {num : Nat} {also : Settled → Bool} {z : Settled}

theorem lookedAt_none (h : NoneDue m u z) (i : Nat) : lookedAt u m num also (z, i) = [] := by
  unfold lookedAt
  rw [dueStations_none h, ite_self]

theorem lookedAt_nip (h : NipDue m u z) (hin : z.feat.num = num ∨ also z = true) (i : Nat) :
    lookedAt u m num also (z, i) = [dueOf m .nip z i] := by
  unfold lookedAt
  rw [if_pos hin, dueStations_one (onlyDue_nip h)]

theorem lookedAt_left (hnum : z.feat.num ≠ num) (hout : also z = false) (i : Nat) : lookedAt u m num also (z, i) = [] := by
  unfold lookedAt
  rw [if_neg (by rw [hout]; exact not_or.2 ⟨hnum, Bool.false_ne_true⟩)]

end LookedAt

/-- Where three entries of the list give stations, they come in the order of the list. -/
theorem flatMap_zipIdx_three {f : Settled × Nat → List DueStation} {pre mid mid' post : List Settled} {x e y : Settled}
    (h : ∀ z ∈ pre ++ mid ++ mid' ++ post, ∀ i, f (z, i) = []) :
    ∃ i j k, i < j ∧ j < k ∧ (pre ++ x :: mid ++ e :: mid' ++ y :: post).zipIdx.flatMap f = f (x, i) ++ f (e, j) ++ f (y, k) := by
  have hsome : ∀ {l : List Settled}, l ⊆ pre ++ mid ++ mid' ++ post → ∀ z ∈ l, ∀ i, f (z, i) = [] := fun hl z hz => h z (hl hz)
  refine ⟨pre.length, (pre ++ x :: mid).length, (pre ++ x :: mid ++ e :: mid').length, by simp, by simp, ?_⟩
  rw [List.zipIdx_append, List.flatMap_append, List.zipIdx_append, List.flatMap_append,
    flatMap_zipIdx_one (hsome (by simp)) (hsome (fun z hz => by simp [hz])), List.zipIdx_cons, List.flatMap_cons,
    flatMap_zipIdx_nil (hsome (fun z hz => by simp [hz])), List.zipIdx_cons, List.flatMap_cons,
    flatMap_zipIdx_nil (hsome (fun z hz => by simp [hz]))]
  simp only [List.append_nil, Nat.zero_add]

/-! ### Nips taken one after another (R113) -/

section Nips

variable {m : MachineTable} {s : State}

/-- The nip of an entry that is not served is taken, and the stations behind it are. -/
theorem takeAll_nip_cons {e : Settled} (hm : s.machine = some m) (hq : s.fq.lawful) (he : e ∈ s.fq.settled)
    (hserved : e.feat.served = false) (hdue : NipDue m s.pu.u e) (i : Nat) (l : List DueStation) :
    takeAll m none (dueOf m .nip e i :: l) s = takeAll m none l (takeNip e s) := by
  rw [takeAll_cons hq he ((onlyDue_nip hdue _).2 rfl), takeStation_nip hm (findSettled_of_mem hq he), hserved,
    if_neg Bool.false_ne_true]

/-- Nips of several entries, taken in the order given. -/
theorem takeAll_nips (hm : s.machine = some m) (hq : s.fq.lawful) {l : List (Settled × Nat)} (hl : (l.map (·.1.feat.num)).Nodup)
    (h : ∀ z ∈ l, z.1 ∈ s.fq.settled ∧ z.1.feat.served = false ∧ NipDue m s.pu.u z.1) :
    takeAll m none (l.map (fun z => dueOf m .nip z.1 z.2)) s = l.foldl (fun t z => takeNip z.1 t) s := by
  induction l generalizing s with
  | nil => rfl
  | cons z l ih =>
    obtain ⟨hz, hserved, hdue⟩ := h z List.mem_cons_self
    have hkept := kept_takeNip z.1 s
    have hpu : (takeNip z.1 s).pu = s.pu := congrArg Fixed.pu hkept.fixed
    rw [List.map_cons, List.nodup_cons] at hl
    rw [List.map_cons, takeAll_nip_cons hm hq hz hserved hdue, List.foldl_cons]
    refine ih ((congrArg Fixed.machine hkept.fixed).trans hm) (hkept.queue hq) hl.2 (fun w hw => ?_)
    obtain ⟨hmem, hrest⟩ := h w (List.mem_cons_of_mem _ hw)
    rw [hpu]
    exact ⟨mem_takeNip hmem (fun hnum => hl.1 (hnum ▸ List.mem_map_of_mem hw)), hrest⟩

theorem nipAlone_of_nipDue {u : Int} {y : Settled} (h : NipDue m u y) : y.nipAlone u m = true := by
  have hfalse : ∀ st, st ≠ .nip → y.due u m st = false := fun st hst => Bool.eq_false_iff.2 ((onlyDue_nip h st).not.2 hst)
  unfold Settled.nipAlone
  rw [(onlyDue_nip h .nip).2 rfl, hfalse .knife (by decide), hfalse .table (by decide), hfalse .flag (by decide)]
  rfl

/-- The look at an entry that has joined with its nip due (R98). -/
theorem walkJoined_nip {frame : Bool} {e : Settled} (hm : s.machine = some m) (hq : s.fq.lawful) (he : e ∈ s.fq.settled)
    (hdue : NipDue m s.pu.u e) : walkJoined frame e.feat.num s =
      takeAll m none (s.dueAt m e.feat.num (fun x => decide (x.p ≤ e.p) || (!frame && x.nipAlone s.pu.u m))) s := by
  unfold walkJoined
  rw [hm, findSettled_of_mem hq he]
  dsimp only
  rw [dueStations_one (onlyDue_nip hdue), if_neg (List.cons_ne_nil _ _)]

end Nips

theorem joinsKeepTheWebOrder : JoinsKeepTheWebOrder := by
  intro m s hm hq pre x mid e mid' y post hl hey hnips hnone
  have hx : x ∈ s.fq.settled := by rw [hl]; simp
  have he : e ∈ s.fq.settled := by rw [hl]; simp
  have hy : y ∈ s.fq.settled := by rw [hl]; simp
  have hxe : x.p ≤ e.p := by
    obtain ⟨-, -, hsorted, -⟩ := hq
    rw [hl, List.append_assoc, List.pairwise_append] at hsorted
    exact hsorted.2.2 x (by simp) e (by simp)
  have hne_xe : x.feat.num ≠ e.feat.num := nums_ne (pre := pre) (mid := mid) (post := mid' ++ y :: post) hq (by rw [hl]; simp)
  have hne_xy : x.feat.num ≠ y.feat.num := nums_ne (pre := pre) (mid := mid ++ e :: mid') (post := post) hq (by rw [hl]; simp)
  have hne_ey : e.feat.num ≠ y.feat.num := nums_ne hq hl
  obtain ⟨hsx, hnx⟩ := hnips x (.inl rfl)
  obtain ⟨hse, hne⟩ := hnips e (.inr (.inl rfl))
  obtain ⟨hsy, hny⟩ := hnips y (.inr (.inr rfl))
  have hlist : ∀ also : Settled → Bool, also x = true → ∃ i j k, i < j ∧ j < k ∧ s.dueAt m e.feat.num also =
      sortDue ([dueOf m .nip x i, dueOf m .nip e j] ++ lookedAt s.pu.u m e.feat.num also (y, k)) := by
    intro also hax
    obtain ⟨i, j, k, hij, hjk, hthree⟩ := flatMap_zipIdx_three (f := lookedAt s.pu.u m e.feat.num also) (x := x) (e := e) (y := y)
      (fun z hz => lookedAt_none (hnone z hz))
    refine ⟨i, j, k, hij, hjk, ?_⟩
    rw [dueAt_eq, hl, hthree, lookedAt_nip hnx (.inr hax), lookedAt_nip hne (.inl rfl)]
    rfl
  rw [walkJoined_nip hm hq he hne, walkJoined_nip hm hq he hne]
  constructor
  · obtain ⟨i, j, k, hij, -, hdue⟩ := hlist (fun z => decide (z.p ≤ e.p) || (!true && z.nipAlone s.pu.u m)) (by simp [hxe])
    rw [hdue, lookedAt_left (Ne.symm hne_ey) (by simp [hey]), List.append_nil, sortDue_of_sorted (by simp [nip_le hxe hij])]
    exact takeAll_nips (l := [(x, i), (e, j)]) hm hq (by simp [hne_xe]) (by simp [hx, hsx, hnx, he, hse, hne])
  · obtain ⟨i, j, k, hij, hjk, hdue⟩ := hlist (fun z => decide (z.p ≤ e.p) || (!false && z.nipAlone s.pu.u m)) (by simp [hxe])
    rw [hdue, lookedAt_nip hny (.inr (by simp [nipAlone_of_nipDue hny])), sortDue_of_sorted (by
      simp [nip_le hxe hij, nip_le hey.le hjk, nip_le (hxe.trans hey.le) (hij.trans hjk)])]
    exact takeAll_nips (l := [(x, i), (e, j), (y, k)]) hm hq (by simp [hne_xe, hne_xy, hne_ey])
      (by simp [hx, hsx, hnx, he, hse, hne, hy, hsy, hny])

end Sys2Proof.JoinedLooks
end

section
/-! PROOFS. How an entry joins the Settled list (R45, R49, R98 to R100). -/

namespace Sys2Proof.Joins

open Sys2Proof Sys2Proof.Machine Sys2Proof.Claims Sys2Proof.Standing Sys2Proof.DueStations

/-- An entry joins behind those at or below its place (R45). -/
theorem insertSettled_split (e : Settled) {l : List Settled} (h : l.Pairwise (fun x y => x.p ≤ y.p)) : ∃ pre post, l = pre ++ post ∧
    (∀ x ∈ pre, x.p ≤ e.p) ∧ (∀ x ∈ post, e.p < x.p) ∧ insertSettled e l = pre ++ e :: post := by
  induction l with
  | nil => exact ⟨[], [], rfl, by simp, by simp, rfl⟩
  | cons x l ih =>
    obtain ⟨hx, hl⟩ := List.pairwise_cons.1 h
    unfold insertSettled
    split
    · rename_i hle
      obtain ⟨pre, post, rfl, hpre, hpost, hins⟩ := ih hl
      exact ⟨x :: pre, post, rfl, List.forall_mem_cons.2 ⟨hle, hpre⟩, hpost, by rw [hins]; rfl⟩
    · rename_i hlt
      have hlt : e.p < x.p := by omega
      exact ⟨[], x :: l, rfl, by simp, List.forall_mem_cons.2 ⟨hlt, fun y hy => hlt.trans_le (hx y hy)⟩, rfl⟩

/-- An untagged entry that leaves the free count at P_lo or above changes the Settled list alone (R39, R63). -/
theorem joinSettled_quiet {e : Settled} {s : State} (he : e.feat.suspect = false) (hpaused : s.ms.paused = false)
    (hlow : ∀ m, s.machine = some m → m.pLo ≤ s.fq.free - 1) : joinSettled e s = { s with fq := RollMap.joined e s.fq } := by
  have htags : noticeTags s.fq.tagged { s with fq := RollMap.joined e s.fq } = { s with fq := RollMap.joined e s.fq } :=
    RollMap.noticeTags_stands (RollMap.joined_tagged he s.fq)
  refine (congrArg reportFree htags).trans ?_
  unfold reportFree
  dsimp only
  cases hm : s.machine with
  | none => rfl
  | some m =>
    dsimp only
    have hfree := hlow m hm
    rw [RollMap.joined_free, hpaused, if_neg (by omega), if_neg (by simp)]

/-! ### Settling (R49) -/

/-- The Forecast list without one of its entries (R43). -/
theorem forecast_without {q : FeatureQueue} (hq : q.lawful) {y : Forecast} {a b : List Forecast} (hl : q.forecast = a ++ y :: b) :
    q.forecast.filter (fun x => x.feat.num != y.feat.num) = a ++ b := by
  obtain ⟨hnodup, -⟩ := hq
  obtain ⟨hforecast, -⟩ := List.nodup_append.1 hnodup
  rw [hl, List.map_append, List.map_cons, List.nodup_middle, ← List.map_append, List.nodup_cons] at hforecast
  have hother : ∀ x ∈ a ++ b, (x.feat.num != y.feat.num) = true := fun x hx =>
    bne_iff_ne.2 (fun hnum => hforecast.1 (hnum ▸ List.mem_map_of_mem hx))
  obtain ⟨ha, hb⟩ := List.forall_mem_append.1 hother
  rw [hl, List.filter_append, List.filter_cons_of_neg (by simp), List.filter_eq_self.2 ha, List.filter_eq_self.2 hb]

/-- An entry that settles with its tag leaves the tagged count (R63). -/
theorem settled_tagged {q : FeatureQueue} (hq : q.lawful) {y : Forecast} (hy : y ∈ q.forecast) {e : Settled}
    (he : e.feat.suspect = y.feat.suspect) :
    ({ q with forecast := q.forecast.filter (fun x => x.feat.num != y.feat.num), settled := insertSettled e q.settled } :
      FeatureQueue).tagged = q.tagged := by
  obtain ⟨a, b, hl⟩ := List.append_of_mem hy
  have hlen := ((insertSettled_perm e q.settled).filter (·.feat.suspect)).length_eq
  simp only [FeatureQueue.tagged, forecast_without hq hl, hlen]
  rw [hl]
  simp only [List.filter_append, List.filter_cons, List.length_append, he]
  split
  · simp only [List.length_cons]
    omega
  · omega

theorem doubtful_iff (t : TrackState) : t.doubtful = true ↔ Doubtful t := by
  unfold Doubtful
  cases t <;> simp [TrackState.doubtful]

/-- An entry settled under a sure tracking state keeps its tag (R49, R62). -/
theorem settle_sure (u e : Int) (y : Forecast) : y.settle u e false =
    freshSettled { y.feat with len := (stretchBy y.feat.len e).toNat } (settlesAt u e y) := by
  unfold Forecast.settle
  rw [Bool.or_false]
  rfl

theorem joinsAreJudgedAtOnce : JoinsAreJudgedAtOnce := by
  intro frame s hq
  have ⟨_, _, hsorted, _⟩ := hq
  refine ⟨fun e => ?_, ?_, fun m hm e he hnone => ?_⟩
  · obtain ⟨pre, post, hl, hpre, hpost, hins⟩ := insertSettled_split e hsorted
    refine ⟨pre, post, hl, hpre, hpost, fun hsuspect hpaused hlow => ?_⟩
    unfold joinJudged
    rw [joinSettled_quiet hsuspect hpaused hlow, ← hins]
    rfl
  · intro u y hy hdoubt e
    obtain ⟨pre, post, hl, hpre, hpost, hins⟩ := insertSettled_split e hsorted
    refine ⟨pre, post, hl, hpre, hpost, ?_⟩
    have hdoubtful : s.mt.state.doubtful = false := Bool.eq_false_iff.2 (fun h => hdoubt ((doubtful_iff _).1 h))
    have hsettle : y.settle u s.mt.e false = e := settle_sure u s.mt.e y
    unfold settleOne
    rw [hy, hdoubtful]
    dsimp only
    rw [hsettle, RollMap.noticeTags_stands (settled_tagged hq (List.mem_of_find?_eq_some hy) rfl), hins]
  · unfold walkJoined
    rw [hm, findSettled_of_mem hq he]
    exact if_pos (dueStations_none hnone 0)

end Sys2Proof.Joins
end

section
/-! PROOFS. The late handling of a counted mark (R40, R51 to R53). -/

namespace Sys2Proof.LateMarks

open Sys2Proof Sys2Proof.Machine Sys2Proof.Claims Sys2Proof.Standing Sys2Proof.DueStations Sys2Proof.Joins

theorem doubt_eq {t : TrackState} {doubt : Bool} (h : doubt = true ↔ Doubtful t) : t.doubtful = doubt :=
  Bool.eq_iff_iff.2 ((doubtful_iff t).trans h.symm)

/-! ### Spans (R51 to R53) -/

section Spans

variable {m : MachineTable} {kind : FeatKind} {p : Int} {len : Nat}

/-- The length of a span extended is the greater end, counted from its position (R52). -/
theorem spanLength_eq (e : Settled) (p : Int) (len : Nat) : spanLength e p len = (max (p + len - e.p) (e.feat.len : Int)).toNat := by
  unfold spanLength
  omega

theorem extends_iff (e : Settled) : extends_ m.wMk kind p len e = true ↔ TouchesSpan m kind p len e := by
  have hlen : spanLength e p len ≤ 65535 ↔ max (p + len - e.p) (e.feat.len : Int) ≤ 65535 := by
    unfold spanLength
    omega
  simp only [extends_, TouchesSpan, Bool.and_eq_true, decide_eq_true_eq, Bool.not_eq_true', hlen, and_assoc]

theorem extends_eq_false {e : Settled} (h : ¬ TouchesSpan m kind p len e) : extends_ m.wMk kind p len e = false :=
  Bool.eq_false_iff.2 ((extends_iff e).not.2 h)

/-- The span touched last in the list is the one of greatest position (R52). -/
theorem find_last_touched {pre post : List Settled} {e : Settled} (he : TouchesSpan m kind p len e)
    (hpost : ∀ x ∈ post, ¬ TouchesSpan m kind p len x) :
    (pre ++ e :: post).reverse.find? (extends_ m.wMk kind p len) = some e := by
  have hnone : post.reverse.find? (extends_ m.wMk kind p len) = none := List.find?_eq_none.2 (fun x hx => by
    rw [extends_eq_false (hpost x (List.mem_reverse.1 hx))]
    exact Bool.false_ne_true)
  rw [List.reverse_append, List.reverse_cons, List.append_assoc, List.find?_append, hnone, Option.none_or, List.singleton_append,
    List.find?_cons_of_pos ((extends_iff e).2 he)]

theorem find_none_touched {l : List Settled} (h : ∀ x ∈ l, ¬ TouchesSpan m kind p len x) :
    l.reverse.find? (extends_ m.wMk kind p len) = none := by
  refine List.find?_eq_none.2 (fun x hx => ?_)
  rw [extends_eq_false (h x (List.mem_reverse.1 hx))]
  exact Bool.false_ne_true

end Spans

/-- A span with another length. -/
def spanned (len : Nat) (x : Settled) : Settled := { x with feat := { x.feat with len := len } }

/-- A span extends the one it touches, which takes the tag of a doubtful tracking state (R52, R62). -/
theorem handSpan_touching {m : MachineTable} {kind : FeatKind} {p : Int} {len : Nat} {s : State} {pre post : List Settled} {e : Settled}
    (hl : s.fq.settled = pre ++ e :: post) (he : TouchesSpan m kind p len e) (hpost : ∀ x ∈ post, ¬ TouchesSpan m kind p len x)
    (frame : Bool) : handSpan frame m kind p len s = if s.mt.state.doubtful = true
      then tagSettled e.feat.num (changeSettled e.feat.num (spanned (spanLength e p len)) s)
      else changeSettled e.feat.num (spanned (spanLength e p len)) s := by
  unfold handSpan
  rw [hl, find_last_touched he hpost]
  rfl

theorem spansExtendJoinOrAreLost : SpansExtendJoinOrAreLost := by
  intro frame kind p len doubt m s hdoubt
  have hd := doubt_eq hdoubt
  refine ⟨fun pre e post hl he hpost => ?_, fun hnone => ?_⟩
  · rw [handSpan_touching hl he hpost, hd]
    cases doubt
    · simp only [Bool.or_false, ← spanLength_eq]
      rfl
    · rw [if_pos rfl]
      unfold tagSettled
      rw [noticeTags_fq, Passage.changeSettled_twice (f := spanned (spanLength e p len)) (fun _ => rfl)]
      simp only [Bool.or_true, ← spanLength_eq]
      rfl
  · unfold handSpan
    rw [find_none_touched hnone, hd]
    dsimp only
    refine ⟨fun hfree => if_pos hfree.ne', fun hfull => ?_⟩
    rw [if_neg (not_not_intro hfull), Sightings.markUnverified_eq]

/-! ### Repeats at or beyond the frontier (R40) -/

theorem joinJudged_mt (frame : Bool) (e : Settled) (s : State) : (joinJudged frame e s).mt = s.mt := by
  have hwalk := ((kept_walkJoined frame e.feat.num (joinSettled e s)).trans (kept_look _)).mtFixed
  refine hwalk.trans ?_
  unfold joinSettled
  rw [Looks.reportFree_rest, Looks.noticeTags_rest]

/-- The tracking state stands while the entries of a repeat join, and each takes its tag (R62). -/
theorem foldl_placeOne (frame : Bool) (h : Header) (u : Int) {doubt : Bool} (l : List PressEntry) : ∀ {s : State},
    s.mt.state.doubtful = doubt → l.foldl (placeOne frame h u) s =
      l.foldl (fun t x => joinJudged frame (placedAs h t.fq.freeSlot u t.mt.e doubt x) t) s := by
  induction l with
  | nil => exact fun _ => rfl
  | cons x l ih =>
    intro s hs
    have hone : placeOne frame h u s x = joinJudged frame (placedAs h s.fq.freeSlot u s.mt.e doubt x) s := by
      unfold placeOne
      rw [hs]
      rfl
    rw [List.foldl_cons, List.foldl_cons, hone]
    exact ih (by rw [joinJudged_mt]; exact hs)

section Late

variable {m : MachineTable} {h : Header} {k f : Nat} {s : State}

theorem lateHandling_below (hf : s.ms.frontier = some f) (hk : k < f ∨ h.pressRepeat k = none) (frame : Bool) (u : Int) :
    lateHandling frame m h k u s = s := by
  unfold lateHandling
  rw [hf, Option.any_some]
  rcases hk with hk | hk
  · exact if_neg (by simp [hk])
  · rw [hk]
    exact ite_self s

/-- A mark at or beyond the frontier is handled by what its repeat's block allows (R40). -/
theorem lateHandling_beyond {r : Nat} (hf : s.ms.frontier = some f) (hk : f ≤ k) (hr : h.pressRepeat k = some r) (frame : Bool)
    (u : Int) : lateHandling frame m h k u s = match s.ms.block (r / 32) with
      | some blk => if (blk.entriesOf h r).length ≤ s.fq.free then placeRepeat frame h k u (r / 32) (blk.entriesOf h r) s
        else checkRequests (handSpan frame m .blind u s.mt.rExp.toNat (advanceFrontier k false s))
      | none => spanUnmapped frame m h k r u s := by
  unfold lateHandling
  rw [hf, Option.any_some, if_pos (decide_eq_true hk), hr]
  rfl

end Late

/-- A request abandoned on a condition changes the outstanding requests alone (R37). -/
theorem abandoned_if (c : Prop) [Decidable c] (b : Nat) (s : State) :
    (if c then ({ s with ms := { s.ms with outstanding := s.ms.outstanding.erase b } } : State) else s) =
      { s with ms := { s.ms with outstanding := if c then s.ms.outstanding.erase b else s.ms.outstanding } } := by
  split <;> rfl

theorem lateMarksAreServed : LateMarksAreServed := by
  intro frame k f u doubt m h s hc hf hdoubt
  refine ⟨fun hk => lateHandling_below hf hk frame u, fun r hk hr => ?_⟩
  have hlate := lateHandling_beyond (m := m) hf hk hr frame u
  refine ⟨fun blk hblk hroom => ?_, fun blk hblk hroom => ?_, fun hblk => ?_⟩ <;> rw [hlate, hblk] <;> dsimp only
  · rw [if_pos hroom]
    exact congrArg checkRequests (foldl_placeOne frame h u _ (doubt_eq hdoubt))
  · rw [if_neg (Nat.not_le.2 hroom)]
    rfl
  · exact congrArg checkRequests (abandoned_if (r = h.lastRepeatOf (r / 32)) (r / 32) _)

end Sys2Proof.LateMarks
end

section
/-! PROOFS. An entry joins the Settled list under a number free in it, be it a slot of the pool or not: what stands there ahead of every
station stands on (R45, R98, R100). -/

namespace Sys2Proof.Standers

open Sys2Proof Sys2Proof.Machine Sys2Proof.Claims Sys2Proof.Standing Sys2Proof.DueStations

/-! ### What a look keeps (R121) -/

/-- A property of the fixed part and the Settled list that the served marks do not end. -/
structure LookKeeps (I : State → Prop) : Prop where
  of_settled : ∀ {s t : State}, Kept s t → t.fq.settled = s.fq.settled → I s → I t
  clear : ∀ (num : Nat) {s : State}, I s → I (clearServed num s)
  serve : ∀ (num : Nat) {s : State}, I s → I (serve num s)

section Look

variable {I : State → Prop} (hI : LookKeeps I)

include hI

theorem LookKeeps.of_fq {s t : State} (h : Kept s t) (ht : t.fq = s.fq) (hs : I s) : I t := hI.of_settled h (by rw [ht]) hs

theorem LookKeeps.stop {s : State} (x : StopScheduler) (hs : I s) : I { s with ss := x } := hI.of_fq (Kept.stop s x) rfl hs

theorem LookKeeps.driveOrder (body : OwnBody) {s : State} (hs : I s) : I (driveOrder body s) :=
  hI.of_fq (kept_driveOrder body s) (driveOrder_fq body s) hs

theorem LookKeeps.clears (l : List Settled) : ∀ {s : State}, I s → I (l.foldl (fun s e => clearServed e.feat.num s) s) := by
  induction l with
  | nil => exact id
  | cons e l ih => exact fun hs => ih (hI.clear e.feat.num hs)

theorem LookKeeps.serveWindow (m : MachineTable) {s : State} (hs : I s) : I (serveWindow m s) := by
  unfold Machine.serveWindow
  generalize s.candidates.filter (fun x => s.inWindow m x.2) = l
  induction l generalizing s with
  | nil => exact hs
  | cons x l ih => exact ih (hI.serve x.1 hs)

theorem LookKeeps.releaseAll {s : State} (hs : I s) : I (releaseAll s) := by
  rw [Looks.releaseAll_eq]
  exact hI.clears _ (hI.of_settled (Looks.clears_forecastReleased s).toKept rfl hs)

theorem LookKeeps.sendStop (m : MachineTable) (aim : Aim) (target : Int) (late : Bool) {s : State} (hs : I s) :
    I (sendStop m aim target late s) := by
  unfold Machine.sendStop
  extract_lets ds extra kind _ s1 s2 s3
  have h1 : I s1 := hI.driveOrder _ (hI.stop _ hs)
  have h2 : I s2 := by
    unfold s2
    split
    · exact hI.serveWindow m h1
    · exact h1
  have h3 : I s3 := by
    unfold s3
    split
    · exact hI.of_fq (kept_queueNotice ..) (queueNotice_fq ..) h2
    · exact h2
  split
  · exact hI.of_fq (kept_standstillCheck m s3) (standstillCheck_fq m s3) h3
  · exact h3

theorem LookKeeps.idleLook (m : MachineTable) {s : State} (hs : I s) : I (idleLook m s) := by
  unfold Machine.idleLook
  split
  · exact hI.stop _ hs
  · dsimp only
    split
    · exact hI.stop _ hs
    · exact hI.sendStop _ _ _ _ (hI.stop _ hs)

theorem LookKeeps.requestedLook (m : MachineTable) {s : State} (hs : I s) : I (requestedLook m s) := by
  unfold Machine.requestedLook
  extract_lets s1 s2
  have h1 : I s1 := hI.clears _ hs
  have h2 : I s2 := hI.of_fq (kept_reviseOrder m s1) (reviseOrder_fq m s1) h1
  split
  · exact hI.idleLook m (hI.of_fq (kept_cancelStop s1) (cancelStop_fq s1) h1)
  · split
    · exact hI.sendStop _ _ _ _ (hI.stop _ (hI.releaseAll h2))
    · split
      · exact hI.serveWindow m h2
      · exact h2

theorem LookKeeps.look {s : State} (hs : I s) : I (look s) := by
  unfold Machine.look
  split
  · exact hs
  · rename_i m _
    extract_lets s0 s1
    have h0 : I s0 := hI.of_fq (kept_formDs m s) rfl hs
    split
    · exact hI.idleLook m h0
    · exact hI.requestedLook m h0
    · have h1 : I s1 := hI.clears _ h0
      split
      · exact hI.serveWindow m h1
      · exact h1
    · exact h0

end Look

/-! ### The numbers of the Settled list -/

/-- The numbers of the Settled entries, in list order. -/
def numbers (s : State) : List Nat := s.fq.settled.map (·.feat.num)

theorem findSettled_of_numbers {s : State} (h : (numbers s).Nodup) {e : Settled} (he : e ∈ s.fq.settled) :
    s.fq.findSettled e.feat.num = some e := by
  unfold FeatureQueue.findSettled
  cases hfound : s.fq.settled.find? (fun x => x.feat.num == e.feat.num) with
  | none => exact absurd (List.find?_eq_none.1 hfound e he) (by simp)
  | some x =>
    have hnum : x.feat.num = e.feat.num := by simpa using List.find?_some hfound
    exact congrArg some (List.inj_on_of_nodup_map h (List.mem_of_find?_eq_some hfound) he hnum)

theorem numbers_changeSettled {num : Nat} {g : Settled → Settled} (hg : ∀ e, (g e).feat.num = e.feat.num) (s : State) :
    numbers (changeSettled num g s) = numbers s := by
  unfold numbers changeSettled FeatureQueue.modifySettled
  rw [List.map_map]
  refine List.map_congr_left (fun e _ => ?_)
  dsimp only [Function.comp]
  split
  · exact hg e
  · rfl

theorem numbers_leave (num : Nat) (s : State) : (numbers (leave num s)).Sublist (numbers s) := by
  unfold numbers
  rw [leave_settled]
  exact List.filter_sublist.map _

theorem numbers_missStops (e : Settled) (s : State) : numbers (missStops e s) = numbers s := by
  have hitems := numbers_changeSettled (num := e.feat.num) (g := fun x => { x with items := x.items.map LaneItem.downgrade })
    (fun _ => rfl) s
  unfold missStops
  dsimp only
  split
  · unfold numbers
    rw [queueNotice_fq]
    exact hitems
  · exact hitems

theorem numbers_of_settled {s t : State} (h : t.fq.settled = s.fq.settled) : numbers t = numbers s := by
  unfold numbers
  rw [h]

theorem numbers_takeTable (e : Settled) (s : State) : numbers (takeTable e s) = numbers s := by
  have htable := numbers_changeSettled (num := e.feat.num) (g := fun x => { x with table := true }) (fun _ => rfl) s
  unfold takeTable
  dsimp only
  split
  · exact htable
  · rw [numbers_missStops, htable]

theorem numbers_takeFlag (m : MachineTable) (place : Bool) (e : Settled) (s : State) : numbers (takeFlag m place e s) = numbers s := by
  have hflag := numbers_changeSettled (num := e.feat.num)
    (g := fun x => { x with items := e.items.map (s.flagItem m place e.p), flag := true }) (fun _ => rfl) s
  unfold takeFlag
  dsimp only
  split
  · exact (numbers_of_settled (by rw [queueOwn_fq])).trans hflag
  · exact hflag

/-- No number joins the Settled list at a station. -/
theorem numbers_takeStation (cleared : Bool) (st : Station) (num : Nat) (s : State) :
    (numbers (takeStation cleared st num s)).Sublist (numbers s) := by
  unfold takeStation
  split
  · rename_i m e _ _
    cases st with
    | knife =>
      have hknife := numbers_changeSettled (num := e.feat.num)
        (g := fun x => { x with items := (s.resolve e.feat).map itemOf, knife := true }) (fun _ => rfl) s
      dsimp only [takeKnife]
      split
      · exact numbers_leave ..
      · rw [hknife]
    | table => rw [numbers_takeTable]
    | flag =>
      dsimp only
      split
      · exact List.Sublist.refl _
      · rw [numbers_takeFlag]
    | nip =>
      dsimp only [takeNip]
      split
      · exact List.Sublist.refl _
      · split
        · refine (numbers_leave ..).trans ?_
          rw [numbers_of_settled (s := s) (by rw [writeEvents_fq])]
        · exact List.Sublist.refl _
        · exact numbers_leave ..
  · exact List.Sublist.refl _

/-! ### What lies ahead of every station stands -/

/-- Under the machine table and the web position given no two entries of the Settled list share a number, and the entry stands in it. -/
structure Safe (m : MachineTable) (u : Int) (f : Feature) (p : Int) (s : State) : Prop where
  machine : s.machine = some m
  web : s.pu.u = u
  distinct : (numbers s).Nodup
  stands : Stands f p s

section Safe

variable {m : MachineTable} {u : Int} {f : Feature} {p : Int} {s t : State}

theorem Safe.of_kept (hs : Safe m u f p s) (h : Kept s t) (hnums : (numbers t).Sublist (numbers s)) (ht : Stands f p t) :
    Safe m u f p t := by
  have hpu : t.pu = s.pu := congrArg Fixed.pu h.fixed
  exact ⟨(congrArg Fixed.machine h.fixed).trans hs.machine, by rw [hpu]; exact hs.web, hs.distinct.sublist hnums, ht⟩

theorem Safe.changeSettled {g : Settled → Settled} (hs : Safe m u f p s) (hg : Unmoved g) (num : Nat) :
    Safe m u f p (changeSettled num g s) := by
  have hplace : ∀ e, (g e).feat.num = e.feat.num ∧ (g e).p = e.p := fun e => ⟨by rw [(hg e).1], (hg e).2.1⟩
  refine hs.of_kept (kept_changeSettled num g hplace s) ?_ (stands_changeSettled (.inr hg) hs.stands)
  rw [numbers_changeSettled (fun e => (hplace e).1)]

theorem Safe.missStops (hs : Safe m u f p s) (e : Settled) : Safe m u f p (missStops e s) :=
  hs.of_kept (kept_missStops e s) (by rw [numbers_missStops]) (stands_missStops e hs.stands)

/-- The stations of one look are not due of an entry ahead, and those of the others leave it (R98, R99). -/
theorem Safe.takeAll (ha : Ahead m u p) (cleared : Option Nat) (l : List DueStation) : ∀ {s : State}, Safe m u f p s →
    Safe m u f p (takeAll m cleared l s) := by
  induction l with
  | nil => exact id
  | cons d l ih =>
    intro s hs
    refine ih (s := if (s.fq.findSettled d.num).any (fun e => e.due s.pu.u m d.st) then
      takeStation (cleared == some d.num) d.st d.num s else s) ?_
    split
    · rename_i hdue
      refine hs.of_kept (kept_takeStation ..) (numbers_takeStation ..) (stands_takeStation _ _ (fun hnum => ?_) hs.stands)
      obtain ⟨e, he, hf, hp, -⟩ := hs.stands
      have hfound : s.fq.findSettled d.num = some e := by
        rw [← hnum, show f.num = e.feat.num by rw [hf]]
        exact findSettled_of_numbers hs.distinct he
      rw [hfound, Option.any_some, not_due_of_ahead (by rw [hp, hs.web]; exact ha)] at hdue
      exact Bool.false_ne_true hdue
    · exact hs

theorem Safe.clearServed (ha : Ahead m u p) (hs : Safe m u f p s) (num : Nat) : Safe m u f p (clearServed num s) := by
  unfold Machine.clearServed
  split
  · exact hs
  · have h1 := hs.changeSettled (unmoved_setServed false) num
    have h2 : ∀ {t : State}, Safe m u f p t → Safe m u f p (walkCleared num t) := by
      intro t ht
      unfold walkCleared
      rw [ht.machine]
      exact ht.takeAll ha _ _
    dsimp only
    split
    · exact h2 (h1.missStops _)
    · exact h2 h1

theorem lookKeeps_safe (ha : Ahead m u p) : LookKeeps (Safe m u f p) where
  of_settled h ht hs := hs.of_kept h (by rw [numbers_of_settled ht]) (stands_of_settled ht hs.stands)
  clear num _ hs := hs.clearServed ha num
  serve num s hs := by
    have hserved := hs.changeSettled (unmoved_setServed true) num
    have hnums : numbers (serve num s) = numbers s := numbers_changeSettled (g := Settled.setServed true) (fun _ => rfl) s
    exact hs.of_kept (kept_serve num s) (by rw [hnums]) (stands_of_settled rfl hserved.stands)

end Safe

/-! ### Joining (R45) -/

theorem joinSettled_settled (e : Settled) (s : State) : (joinSettled e s).fq.settled = insertSettled e s.fq.settled := by
  unfold joinSettled
  rw [reportFree_fq, noticeTags_fq]

theorem joinSettled_fixed (e : Settled) (s : State) : (joinSettled e s).machine = s.machine ∧ (joinSettled e s).pu = s.pu := by
  unfold joinSettled
  rw [Looks.reportFree_rest, Looks.noticeTags_rest]
  exact ⟨rfl, rfl⟩

/-- An entry that joins under a number free in the list leaves what stands there. -/
theorem safe_joinSettled {m : MachineTable} {f : Feature} {p : Int} {e : Settled} {s : State} (hm : s.machine = some m)
    (hd : (numbers s).Nodup) (hnum : e.feat.num ∉ numbers s) (hs : Stands f p (joinSettled e s)) :
    Safe m s.pu.u f p (joinSettled e s) := by
  obtain ⟨hmachine, hpu⟩ := joinSettled_fixed e s
  refine ⟨hmachine.trans hm, by rw [hpu], ?_, hs⟩
  unfold numbers
  rw [joinSettled_settled, ((insertSettled_perm e s.fq.settled).map _).nodup_iff, List.map_cons, List.nodup_cons]
  exact ⟨hnum, hd⟩

theorem entriesJoinTheSettledList : EntriesJoinTheSettledList := by
  intro frame e m s hm hq hnum hk ht hfl hn ha
  obtain ⟨hnodup, -⟩ := hq
  obtain ⟨-, hd, -⟩ := List.nodup_append.1 hnodup
  have hfree : e.feat.num ∉ numbers s := fun h => hnum (List.mem_append_right _ h)
  have hmem : ∀ {x}, x = e ∨ x ∈ s.fq.settled → x ∈ (joinSettled e s).fq.settled := by
    intro x hx
    rw [joinSettled_settled, (insertSettled_perm ..).mem_iff, List.mem_cons]
    exact hx
  have hself : Safe m s.pu.u e.feat e.p (joinSettled e s) :=
    safe_joinSettled hm hd hfree ⟨e, hmem (.inl rfl), rfl, rfl, hk, ht, hfl, hn⟩
  have hjudged : joinJudged frame e s = look (joinSettled e s) := by
    have hnone : e.dueStations (joinSettled e s).pu.u m 0 = [] :=
      dueStations_none ((noneDue_iff ..).2 (not_due_of_ahead (by rw [hself.web]; exact ha))) 0
    unfold joinJudged walkJoined
    rw [hself.machine, findSettled_of_numbers hself.distinct (hmem (.inl rfl))]
    exact congrArg look (if_pos hnone)
  rw [hjudged]
  refine ⟨((lookKeeps_safe ha).look hself).stands, fun f p hap hs => ⟨?_, ?_⟩⟩
  · obtain ⟨x, hx, hrest⟩ := hs
    exact ((lookKeeps_safe hap).look (safe_joinSettled hm hd hfree ⟨x, hmem (.inr hx), hrest⟩)).stands
  · exact ((lookKeeps_safe hap).look ⟨hm, rfl, hd, hs⟩).stands

end Sys2Proof.Standers
end

section
/-! PROOFS. A mark event hands the mark to its Forecast entries (R17, R49): each settles on it, and none anchored on it is left. -/

namespace Sys2Proof.Settling

open Sys2Proof Sys2Proof.Machine Sys2Proof.Claims Sys2Proof.Standing Sys2Proof.DueStations Sys2Proof.Forecasts Sys2Proof.Resync
open Sys2Proof.Joins

/-! ### The Set Controller at a mark (R146, R148, R149) -/

/-- From `s` to `t` what lies ahead in the Settled list stands, and so do the map and the Forecast list but for the served marks. -/
def Undisturbed (s t : State) : Prop := Spares s t ∧ Shelters s t

theorem Undisturbed.refl (s : State) : Undisturbed s s := ⟨Spares.refl s, Shelters.refl s⟩

theorem Undisturbed.trans {s t u : State} (h : Undisturbed s t) (k : Undisturbed t u) : Undisturbed s u :=
  ⟨h.1.trans k.1, h.2.trans k.2⟩

theorem Undisturbed.of_same {s t : State} (h : Kept s t) (hms : t.ms = s.ms) (hfq : t.fq = s.fq) : Undisturbed s t :=
  ⟨.of_fq h hfq, .of_same h hms (by rw [hfq])⟩

theorem undisturbed_look (s : State) : Undisturbed s (look s) := ⟨spares_look s, shelters_look s⟩

theorem undisturbed_walkJoined (frame : Bool) (num : Nat) (s : State) : Undisturbed s (walkJoined frame num s) := by
  refine ⟨?_, shelters_walkJoined frame num s⟩
  unfold walkJoined
  split
  · split
    · exact Spares.refl s
    · exact spares_takeAll _ _ ‹_›
  · exact Spares.refl s

/-- The look as an entry settles (R49, R98, R121). -/
theorem undisturbed_judged (frame : Bool) (num before : Nat) (s : State) :
    Undisturbed s (look (walkJoined frame num (noticeTags before s))) := by
  have htags : Undisturbed s (noticeTags before s) :=
    .of_same (kept_noticeTags before s) (by rw [Looks.noticeTags_rest]) (noticeTags_fq before s)
  exact (htags.trans (undisturbed_walkJoined frame num _)).trans (undisturbed_look _)

theorem undisturbed_cutTest (m : MachineTable) (s : State) : Undisturbed s (cutTest m s) := by
  unfold cutTest
  split
  · exact (Undisturbed.of_same (Kept.setStop s { s.sc with state := .cutStop } { s.ss with cutHeld := true } (fun h => h)) rfl rfl).trans
      (undisturbed_look _)
  · exact Undisturbed.refl s

theorem undisturbed_enterApproach (m : MachineTable) (s : State) : Undisturbed s (enterApproach m s) := by
  unfold enterApproach
  extract_lets x s1 s2
  have h0 : Undisturbed s { s with sc := { s.sc with state := .approach, xFrozen := true } } :=
    .of_same (Kept.set s { s.sc with state := .approach, xFrozen := true } (fun h => h)) rfl rfl
  have h1 : Undisturbed s s1 := h0.trans (.of_same (kept_driveOrder ..) (queueOwn_ms ..) (driveOrder_fq ..))
  have h2 : Undisturbed s s2 := h1.trans (undisturbed_cutTest m s1)
  split
  · exact h2.trans (undisturbed_look s2)
  · exact h2

theorem undisturbed_setAtMark (k : Nat) (u : Int) (m : MachineTable) (s : State) : Undisturbed s (setAtMark k u m s) := by
  unfold setAtMark
  extract_lets s1
  have h1 : Undisturbed s s1 := .of_same (Kept.set s (s.sc.mark k u) (fun h => h)) rfl rfl
  split
  · refine h1.trans ?_
    unfold approachTest
    dsimp only
    split
    · exact undisturbed_enterApproach m s1
    · exact Undisturbed.refl s1
  · exact h1.trans (undisturbed_cutTest m s1)

/-! ### One entry settles (R49) -/

/-- The lists once a Forecast entry has moved to the Settled list. -/
def moved (num : Nat) (e : Settled) (s : State) : State := { s with fq := { s.fq with
  forecast := s.fq.forecast.filter (fun y => y.feat.num != num), settled := insertSettled e s.fq.settled } }

/-- A Forecast entry settled on its mark, with the tag of a doubtful tracking state (R30, R62). -/
def settledOn (u : Int) (t : MarkTracker) (y : Forecast) : Settled := y.settle u t.e t.state.doubtful

theorem settleOne_absent {s : State} {num : Nat} (h : s.fq.findForecast num = none) (frame : Bool) (u : Int) :
    settleOne frame u s num = s := by
  unfold settleOne
  rw [h]

theorem settleOne_found {s : State} {num : Nat} {x : Forecast} (h : s.fq.findForecast num = some x) (frame : Bool) (u : Int) :
    settleOne frame u s num = look (walkJoined frame num (noticeTags s.fq.tagged (moved num (settledOn u s.mt x) s))) := by
  unfold settleOne
  rw [h]
  rfl

theorem num_of_findForecast {q : FeatureQueue} {num : Nat} {x : Forecast} (h : q.findForecast num = some x) : x.feat.num = num := by
  simpa using List.find?_some h

theorem moved_lawful {s : State} (hq : s.fq.lawful) {num : Nat} {x : Forecast} (h : s.fq.findForecast num = some x) (u : Int) :
    (moved num (settledOn u s.mt x) s).fq.lawful := by
  obtain rfl := num_of_findForecast h
  exact s.fq.lawful_settle x _ (List.mem_of_find?_eq_some h) rfl hq

section One

variable {m : MachineTable} {s : State} {f : Feature} {p : Int}

/-- What lies ahead stands as another entry settles. -/
theorem stands_settleOne (hm : s.machine = some m) (hq : s.fq.lawful) (ha : Ahead m s.pu.u p) (hs : Stands f p s) (frame : Bool) (u : Int)
    (num : Nat) : Stands f p (settleOne frame u s num) := by
  cases hfound : s.fq.findForecast num with
  | none => rwa [settleOne_absent hfound]
  | some x =>
    rw [settleOne_found hfound]
    obtain ⟨e, he, hrest⟩ := hs
    exact (undisturbed_judged frame num _ _).1.ahead m f p hm (moved_lawful hq hfound u) ha
      ⟨e, (insertSettled_perm ..).mem_iff.2 (List.mem_cons_of_mem _ he), hrest⟩

/-- A Forecast entry waits as another settles. -/
theorem waits_settleOne (hq : s.fq.lawful) {y : Forecast} (hy : y ∈ unserved s.fq) {num : Nat} (hnum : y.feat.num ≠ num) (frame : Bool)
    (u : Int) : y ∈ unserved (settleOne frame u s num).fq := by
  cases hfound : s.fq.findForecast num with
  | none => rwa [settleOne_absent hfound]
  | some x =>
    rw [settleOne_found hfound, (undisturbed_judged frame num _ _).2.stands (moved_lawful hq hfound u)]
    obtain ⟨z, hz, rfl⟩ := List.mem_map.1 hy
    exact List.mem_map_of_mem (List.mem_filter.2 ⟨hz, bne_iff_ne.2 hnum⟩)

/-- The entry that settles ahead of every station stands. -/
theorem settles_settleOne (hm : s.machine = some m) (hq : s.fq.lawful) {y : Forecast} (hy : y ∈ unserved s.fq) {u : Int}
    (ha : Ahead m s.pu.u (settledOn u s.mt y).p) (frame : Bool) :
    Stands (settledOn u s.mt y).feat (settledOn u s.mt y).p (settleOne frame u s y.feat.num) := by
  obtain ⟨x, hx, rfl⟩ := List.mem_map.1 hy
  have hfound : s.fq.findForecast (x.setServed false).feat.num = some x := RequestedStops.findForecast_of_mem hq hx
  rw [settleOne_found hfound]
  exact (undisturbed_judged frame _ _ _).1.ahead m _ _ hm (moved_lawful hq hfound u) ha
    ⟨settledOn u s.mt x, (insertSettled_perm ..).mem_iff.2 List.mem_cons_self, rfl, rfl, rfl, rfl, rfl, rfl⟩

/-- One entry that settles leaves the Forecast list, and the map stands but for the pause. -/
theorem settleOne_sheds (s : State) (frame : Bool) (u : Int) (num : Nat) :
    Sheds s (settleOne frame u s num) ∧ ∀ y ∈ (settleOne frame u s num).fq.forecast, y.feat.num ≠ num := by
  cases hfound : s.fq.findForecast num with
  | none =>
    rw [settleOne_absent hfound]
    exact ⟨⟨rfl, List.Sublist.refl _⟩, fun y hy hnum => List.find?_eq_none.1 hfound y hy (beq_iff_eq.2 hnum)⟩
  | some x =>
    rw [settleOne_found hfound]
    have hjudged := (undisturbed_judged frame num s.fq.tagged (moved num (settledOn u s.mt x) s)).2
    refine ⟨⟨hjudged.store, hjudged.sublist.trans (List.filter_sublist.map _)⟩, fun y hy hnum => ?_⟩
    obtain ⟨z, hz, hzy⟩ := num_mem_of_sublist hjudged.sublist hy
    exact bne_iff_ne.1 (List.mem_filter.1 hz).2 (hzy.trans hnum)

end One

/-! ### Every entry of the mark settles (R49) -/

section Mark

variable {m : MachineTable} {t : MarkTracker} {w : Int}

theorem stands_settles {f : Feature} {p : Int} (ha : Ahead m w p) (frame : Bool) (u : Int) (l : List Nat) : ∀ {s : State},
    s.machine = some m → s.pu.u = w → s.fq.lawful → Stands f p s → Stands f p (l.foldl (settleOne frame u) s) := by
  induction l with
  | nil => exact fun _ _ _ => id
  | cons n l ih =>
    intro s hm hw hq hs
    have hone := upholds_settleOne frame u s n
    have hpu : (settleOne frame u s n).pu = s.pu := congrArg Fixed.pu hone.fixed
    exact ih ((congrArg Fixed.machine hone.fixed).trans hm) (by rw [hpu]; exact hw) (hone.queue hq)
      (stands_settleOne hm hq (by rw [hw]; exact ha) hs frame u n)

/-- An entry whose number is among those that settle stands where it settles. -/
theorem settles_mark {u : Int} {y : Forecast} (ha : Ahead m w (settledOn u t y).p) (frame : Bool) (l : List Nat) :
    ∀ {s : State}, s.machine = some m → s.pu.u = w → s.mt = t → s.fq.lawful → y ∈ unserved s.fq → y.feat.num ∈ l →
      Stands (settledOn u t y).feat (settledOn u t y).p (l.foldl (settleOne frame u) s) := by
  induction l with
  | nil => exact fun _ _ _ _ _ h => absurd h List.not_mem_nil
  | cons n l ih =>
    intro s hm hw ht hq hy hmem
    have hone := upholds_settleOne frame u s n
    have hm' : (settleOne frame u s n).machine = some m := (congrArg Fixed.machine hone.fixed).trans hm
    have hpu : (settleOne frame u s n).pu = s.pu := congrArg Fixed.pu hone.fixed
    have hw' : (settleOne frame u s n).pu.u = w := by rw [hpu]; exact hw
    rw [List.foldl_cons]
    by_cases hn : y.feat.num = n
    · subst hn ht
      exact stands_settles ha frame u l hm' hw' (hone.queue hq) (settles_settleOne hm hq hy (by rw [hw]; exact ha) frame)
    · exact ih hm' hw' (hone.mtFixed.trans ht) (hone.queue hq) (waits_settleOne hq hy hn frame u)
        ((List.mem_cons.1 hmem).resolve_left hn)

/-- The entries of the numbers of a list settle. -/
theorem settles_sheds (frame : Bool) (u : Int) (l : List Nat) : ∀ s : State,
    Sheds s (l.foldl (settleOne frame u) s) ∧ ∀ y ∈ (l.foldl (settleOne frame u) s).fq.forecast, y.feat.num ∉ l := by
  induction l with
  | nil => exact fun _ => ⟨⟨rfl, List.Sublist.refl _⟩, fun _ _ => List.not_mem_nil⟩
  | cons n l ih =>
    intro s
    obtain ⟨hone, hgone⟩ := settleOne_sheds s frame u n
    obtain ⟨hrest, hothers⟩ := ih (settleOne frame u s n)
    refine ⟨hone.trans hrest, fun y hy hmem => ?_⟩
    obtain ⟨x, hx, hnum⟩ := num_mem_of_sublist hrest.sublist hy
    rcases List.mem_cons.1 hmem with hn | hl
    · exact hgone x hx (hnum.trans hn)
    · exact hothers y hy hl

end Mark

/-- An entry left came from the list with its mark. -/
theorem anchor_mem_of_sublist {s t : State} (h : (unserved t.fq).Sublist (unserved s.fq)) {y : Forecast} (hy : y ∈ t.fq.forecast) :
    ∃ x ∈ s.fq.forecast, x.feat.num = y.feat.num ∧ x.k = y.k := by
  obtain ⟨x, hx, hxy⟩ := List.mem_map.1 (h.subset (List.mem_map_of_mem hy))
  have hnum : (x.setServed false).feat.num = (y.setServed false).feat.num := by rw [hxy]
  have hk : (x.setServed false).k = (y.setServed false).k := by rw [hxy]
  exact ⟨x, hx, hnum, hk⟩

/-- No entry anchored on the mark is left once it has been settled. -/
theorem settleMark_clears (frame : Bool) (k : Nat) (u : Int) (s : State) :
    Sheds s (settleMark frame k u s) ∧ ∀ y ∈ (settleMark frame k u s).fq.forecast, y.k ≠ k := by
  obtain ⟨hsheds, hgone⟩ := settles_sheds frame u ((s.fq.forecast.filter (fun e => e.k == k)).map (·.feat.num)) s
  refine ⟨hsheds, fun y hy hk => hgone y hy ?_⟩
  obtain ⟨x, hx, hnum, hxk⟩ := anchor_mem_of_sublist hsheds.sublist hy
  exact List.mem_map.2 ⟨x, List.mem_filter.2 ⟨hx, beq_iff_eq.2 (hxk.trans hk)⟩, hnum⟩

/-- Below the frontier a mark event settles, expands, and is judged by the Set Controller and the Stop Scheduler (R17). -/
theorem markEvent_below {m : MachineTable} {h : Header} {k : Nat} {s : State} (hm : s.machine = some m) (hc : s.ms.current = some h)
    (hf : ∀ f, s.ms.frontier = some f → k < f) (frame : Bool) (u : Int) :
    markEvent frame k u s = look (setAtMark k u m (expand (settleMark frame k u s))) := by
  have hlate : lateHandling frame m h k u s = s := by
    cases hfrontier : s.ms.frontier with
    | none =>
      unfold lateHandling
      rw [hfrontier]
      rfl
    | some f => exact LateMarks.lateHandling_below hfrontier (.inl (hf f hfrontier)) frame u
  unfold markEvent
  rw [hm, hc]
  dsimp only
  rw [hlate]

theorem entriesSettleOnTheirMark : EntriesSettleOnTheirMark := by
  intro frame k u m h s hm hc hq hf
  rw [markEvent_below hm hc hf]
  have hsettled := upholds_settleMark frame k u s
  have hexpanded := hsettled.trans (upholds_expand _)
  have htail := (undisturbed_setAtMark k u m (expand (settleMark frame k u s))).trans (undisturbed_look _)
  refine ⟨fun y hy hk ha doubt hdoubt => ?_, fun y hy hk => ?_⟩
  · have hpu : (expand (settleMark frame k u s)).pu = s.pu := congrArg Fixed.pu hexpanded.fixed
    refine htail.1.ahead m _ _ ((congrArg Fixed.machine hexpanded.fixed).trans hm) (hexpanded.queue hq) (by rw [hpu]; exact ha) ?_
    refine stands_of_settled (by rw [(expandsOnly_expand _).rest]) (s := settleMark frame k u s) ?_
    have hmem : (y.setServed false).feat.num ∈ (s.fq.forecast.filter (fun e => e.k == k)).map (·.feat.num) :=
      List.mem_map.2 ⟨y, List.mem_filter.2 ⟨hy, beq_iff_eq.2 hk⟩, rfl⟩
    have hstands := settles_mark (y := y.setServed false) ha frame _ hm rfl rfl hq (List.mem_map_of_mem hy) hmem
    unfold settledOn at hstands
    rw [LateMarks.doubt_eq hdoubt] at hstands
    exact hstands
  · obtain ⟨hsheds, hgone⟩ := settleMark_clears frame k u s
    obtain ⟨x, hx, -, hxk⟩ := anchor_mem_of_sublist htail.2.sublist hy
    rcases (advances_expand _).forecast x hx with hold | ⟨-, f, -, -, hfrontier, hle, -⟩
    · exact hgone x hold (hxk.trans hk)
    · rw [hsheds.store] at hfrontier
      have hlt := hf f hfrontier
      omega

end Sys2Proof.Settling
end

section
/-! PROOFS. MARK_FRAME in or above the acceptance window (R11, R14), and what a counted mark hands on (R17). -/

namespace Sys2Proof.CountedMarks

open Sys2Proof Sys2Proof.Machine Sys2Proof.Claims Sys2Proof.Synthesized

section Behind

variable {m : MachineTable} {rNom n : Nat} {dir : Direction} {t : MarkTracker} {l : LastMark} {u : Int} (hn : 0 < n)
  (hdir : dir ≠ .reverse) (hstate : t.state ≠ .seeking) (hl : t.last = some l) (hr : 0 < t.rExp) (hpass : PassesWindows m t l u n)

include hn hdir hstate hl hr hpass

/-- A mark above n windows and in the next is counted behind the n marks synthesized (R11, R14). -/
theorem marked_behind_within (hin : windowFrom m (synthesized n l t) (markAfter n l t) ≤ u) :
    marked m rNom u dir t = { synthesized n l t with
      state := if (missed n (t.state, t.miss)).1 = .lost then .relocking else .locked
      last := some { k := l.k + n + 1, u := u }, lastReal := true, miss := 0 } := by
  obtain ⟨k, rfl⟩ := Nat.exists_eq_succ_of_ne_zero hn.ne'
  obtain ⟨fuel, hfuel⟩ := marked_behind (rNom := rNom) hdir hstate hl hr hpass
  rw [hfuel, judged_within rfl hin (windowHigh_synthesized hpass), real_synthesized]

/-- A mark above n windows and below the next is discarded behind the n marks synthesized (R11, R14). -/
theorem marked_behind_below (hbelow : u < windowFrom m (synthesized n l t) (markAfter n l t)) :
    marked m rNom u dir t = synthesized n l t := by
  obtain ⟨k, rfl⟩ := Nat.exists_eq_succ_of_ne_zero hn.ne'
  obtain ⟨fuel, hfuel⟩ := marked_behind (rNom := rNom) hdir hstate hl hr hpass
  rw [hfuel, judged_below rfl hbelow]

end Behind

/-- Settles O29: the frame is judged against its window, the missing marks synthesized first; what a counted mark hands on is settled
part by part in the layers above. -/
theorem markInWindowIsCounted : Obligations.MarkInWindowIsCounted := by
  refine ⟨?_, Settling.entriesSettleOnTheirMark, Standers.entriesJoinTheSettledList, LateMarks.lateMarksAreServed,
    LateMarks.spansExtendJoinOrAreLost, Joins.joinsAreJudgedAtOnce, JoinedLooks.joinsKeepTheWebOrder⟩
  intro rx cx m h u s hfrom hm hc hu
  obtain ⟨x, hx, hmt, hrest⟩ := exec_markFrame_stands hfrom hm hc hu
  refine ⟨fun l hdir hstate hl hlow hhigh => ⟨x, hx, ?_, hrest⟩, fun hdir hstate hl => ⟨x, hx, ?_, hrest⟩,
    fun l n hn hdir hstate hl hr hpass => ⟨x, hx, fun hin => ?_, fun hbelow => ?_, hrest⟩⟩
  · rw [hmt, marked_within hdir hstate hl hlow hhigh, real_next hl, afterReal_eq]
  · rw [hmt, marked_first hdir hstate, real_first hl, afterReal_eq, hstate]
    rfl
  · rw [hmt, marked_behind_within hn hdir hstate hl hr hpass hin]
  · rw [hmt, marked_behind_below hn hdir hstate hl hr hpass hbelow]

end Sys2Proof.CountedMarks
end
